-- ==== Sys2Proof/Word.lean ====
section
/-! DEFINITION. The byte and the number types of the wire (13_layouts.md, R189). -/

namespace Sys2Proof

/-- One byte of a payload or of the configuration image. -/
abbrev Byte := BitVec 8

/-- A station number as the header carries it: 0..31 (R157). -/
abbrev Station := BitVec 5

/-- A two-byte field (R189). -/
abbrev Half := BitVec 16

/-- A three-byte field: a position along the line (R189). -/
abbrev Pos := BitVec 24

end Sys2Proof
end

