-- ==== Sys2Proof/Syntax.lean ====
section
/-! DEFINITION. The commands: one constructor of `Instr` for each row of spec/opcode_table.json, with what the event
brings. Fields of frames have the widths of 13_layouts.md. Log entry 25. -/

namespace Sys2Proof

/-- The two pumps (R87). -/
inductive PumpId
  | main | chip
deriving DecidableEq, Repr

/-- The two contact timers (R171). -/
inductive ContactId
  | own | peer
deriving DecidableEq, Repr

/-- One sensor at a sample event: its reading and whether it is found open (R104). -/
structure Sensor where
  reading : Half
  isOpen  : Bool
deriving DecidableEq, Repr

/-- The field inputs of one sample event (R102): thermocouples 0..7, duct pressures 0 and 1, the level probe (signed). -/
structure Samples where
  thermocouples : List Sensor
  ducts         : List Sensor
  level         : Half
deriving DecidableEq, Repr

/-- A line record as HAND and DONE carry it (13.3): the mark count is the number of pairs. -/
structure HandFields where
  board   : Half
  recipe  : Byte
  version : Byte
  length  : Half
  pos     : Pos
  flags   : Byte
  marks   : List (Byte × Byte)
deriving DecidableEq, Repr

/-- The payload of RECIPE (13.3): number, version, recipe flags (bit 0 DEFAULT, 1 MAIN, 2 CHIP), body. -/
structure RecipeFields where
  number    : Byte
  version   : Byte
  flags     : Byte
  zones     : List Half
  pot       : Half
  mainSpeed : Byte
  chipSpeed : Byte
  pulse     : Byte
  pitch     : Byte
  margin    : Byte
  mask      : Byte
  flow      : Byte
deriving DecidableEq, Repr

/-- The eleven bytes of a watch entry (13.3). -/
structure WatchFields where
  quantity    : Byte
  compare     : Byte
  threshold   : Half
  margin      : Half
  chainMode   : Byte
  persistence : Byte
  action      : Byte
  group       : Byte
  mark        : Byte
deriving DecidableEq, Repr

/-- The payload of ALARM (13.3). -/
structure AlarmFields where
  index  : Byte
  action : Byte
  group  : Byte
  scope  : BitVec 32
  value  : Half
  mark   : Byte
deriving DecidableEq, Repr

/-- The payload of CLAIM (13.3). -/
structure ClaimFields where
  uid      : BitVec 48
  number   : Byte
  roles    : Byte
  winStart : Pos
  winEnd   : Pos
deriving DecidableEq, Repr

/-- The payload of JOIN (13.3). -/
structure JoinFields where
  uid         : BitVec 48
  incarnation : Byte
  roles       : Byte
  winStart    : Pos
  winEnd      : Pos
deriving DecidableEq, Repr

/-- The payload of STATUS (13.3). -/
structure StatusFields where
  roles       : Byte
  mode        : Byte
  condition   : Byte
  level       : Byte
  winStart    : Pos
  winEnd      : Pos
  held        : Half
  base        : Half
  boards      : Byte
  incarnation : Byte
deriving DecidableEq, Repr

/-- A frame as a station reads it from the wire up to its check (R157): `check` is none where the bus returned to idle
before the declared payload and check had been received, `readable` is false where a slot bit cannot be read (R159). -/
structure RawFrame where
  cls      : BitVec 2
  src      : Station
  kind     : BitVec 5
  dst      : Station
  length   : BitVec 6
  payload  : List Byte
  check    : Option Half
  readable : Bool
deriving DecidableEq, Repr

/-- The three answer slots as they end (R162). -/
structure Slots where
  ack  : Bool
  busy : Bool
  veto : Bool
deriving DecidableEq, Repr

/-- The commands of the block, in the table's order. -/
inductive Instr
  /-- START_RESET (R184): `pinHeld` says whether the reset pin is held (a power-on start reset: false). -/
  | startReset (pinHeld : Bool)
  /-- IMAGE_READ_END (R186): the bytes read from the serial memory. -/
  | imageReadEnd (image : List Byte)
  /-- COUNT_EVENT (R4): one quadrature step, forward or reverse. -/
  | countEvent (forward : Bool)
  /-- ENTRY_LEADING_EDGE (R14). -/
  | entryLeadingEdge
  /-- ENTRY_TRAILING_EDGE (R15). -/
  | entryTrailingEdge
  /-- EYE_LEADING_EDGE (R16). -/
  | eyeLeadingEdge
  /-- FLOW_PULSE (R47). -/
  | flowPulse
  /-- PERMIT_LINE_CHANGE (R18): whether some other station now pulls the permit line (log entry 3). -/
  | permitLineChange (othersPull : Bool)
  /-- TRIP_LINE_CHANGE (R145): whether some other station now pulls the trip line (log entry 3). -/
  | tripLineChange (othersPull : Bool)
  /-- SAMPLE_EVENT (R102). -/
  | sampleEvent (inputs : Samples)
  /-- PERIOD_START (R52). -/
  | periodStart
  /-- HEATER_ON_EDGE (R60). -/
  | heaterOnEdge (channel : Fin 8)
  /-- HEATER_OFF_EDGE (R60). -/
  | heaterOffEdge (channel : Fin 8)
  /-- PULSE_END (R39): of the nozzle, and of every nozzle opened by the same dot. -/
  | pulseEnd (nozzle : Fin 8)
  /-- FLOW_LAG_EXPIRY (R48): of the record with this board id. -/
  | flowLagExpiry (board : Half)
  /-- PRESENCE_EVENT (R182). -/
  | presenceEvent
  /-- AGING_SWEEP (R175). -/
  | agingSweep
  /-- CLAIM_LISTEN_EXPIRY (R176). -/
  | claimListenExpiry
  /-- CONTACT_TIMER_EXPIRY (R171). -/
  | contactTimerExpiry (timer : ContactId)
  /-- NEED_EXPIRY (R70). -/
  | needExpiry
  /-- HOLD_OVER_EXPIRY (R35). -/
  | holdOverExpiry
  /-- STALL_TIMER_EXPIRY (R18). -/
  | stallTimerExpiry
  /-- SETTLE_EXPIRY (R91). -/
  | settleExpiry (pump : PumpId)
  /-- FEED_RUN_EXPIRY (R100). -/
  | feedRunExpiry
  /-- PROVE_TIMEOUT (R128). -/
  | proveTimeout (duct : Fin 2)
  /-- RUN_ON_EXPIRY (R125). -/
  | runOnExpiry
  /-- BUSY_BACKOFF_END (R166): of the frame at this place of the transmit queue (log entry 21). -/
  | busyBackoffEnd (place : Fin 16)
  /-- BUS_STUCK (R170). -/
  | busStuck
  /-- FRAME_START (R158): of another participant's frame. -/
  | frameStart
  /-- START_OF_TRANSMISSION (R167). -/
  | startOfTransmission
  /-- LOST_ARBITRATION (R160). -/
  | lostArbitration
  /-- ACK_SLOT (R161): the frame as this station read it. -/
  | ackSlot (frame : RawFrame)
  /-- FRAME_OUTCOME (R162): the slots as they ended. -/
  | frameOutcome (slots : Slots)
  /-- HAND commits (R13). -/
  | hand (src dst : Station) (fields : HandFields)
  /-- AMEND MARK commits (R21). -/
  | amendMark (src : Station) (board : Half) (station code : Byte)
  /-- AMEND LENGTH commits (R21). -/
  | amendLength (src : Station) (board : Half) (length : Half)
  /-- AMEND POSITION commits (R21). -/
  | amendPosition (src : Station) (board : Half) (pos : Pos)
  /-- RECIPE commits (R31). -/
  | recipe (src : Station) (fields : RecipeFields)
  /-- DROP commits (R33). -/
  | drop (src : Station) (number : Byte)
  /-- ADMIT commits (R34). -/
  | admitBoards (src dst : Station) (number : Byte) (length : Half) (count : Byte)
  /-- NEED commits (R73). -/
  | need (src : Station) (amount : Half)
  /-- LEND commits (R76). -/
  | lend (src dst : Station) (amount : Half)
  /-- RETURN commits (R78). -/
  | returnShares (src dst : Station) (amount : Half)
  /-- RECALL commits (R80). -/
  | recallShares (src dst : Station) (amount : Half)
  /-- ALARM commits (R133). -/
  | alarm (src : Station) (fields : AlarmFields)
  /-- CLEAR commits (R134). -/
  | clear (src : Station) (index group : Byte)
  /-- ACKNOWLEDGE commits (R118); destination 0 is a broadcast. -/
  | acknowledge (src dst : Station) (index : Byte)
  /-- WATCH with an action other than 0 commits (R120). -/
  | watchInstall (src dst : Station) (index : Byte) (fields : WatchFields)
  /-- WATCH with action 0 commits (R120). -/
  | watchEmpty (src dst : Station) (index : Byte)
  /-- RELEASE commits (R135). -/
  | release (src : Station) (group raiser : Byte)
  /-- MODE commits (R142). -/
  | mode (src : Station) (value : Byte)
  /-- SIGNAL WRITE commits (R150). -/
  | signalWrite (src dst : Station) (value : BitVec 32)
  /-- SIGNAL SET commits (R150). -/
  | signalSet (src dst : Station) (value : BitVec 32)
  /-- SIGNAL CLEAR commits (R150). -/
  | signalClear (src dst : Station) (value : BitVec 32)
  /-- SIGNAL INVERT commits (R150). -/
  | signalInvert (src dst : Station) (value : BitVec 32)
  /-- RESTART commits (R152). -/
  | restart (src dst : Station)
  /-- QUERY STATION commits (R154). -/
  | queryStation (src dst : Station) (item : Byte)
  /-- QUERY DIRECTORY commits (R154). -/
  | queryDirectory (src dst : Station) (item : Byte)
  /-- QUERY BOARDS commits (R154). -/
  | queryBoards (src dst : Station) (item : Byte)
  /-- QUERY BOARD commits (R154). -/
  | queryBoard (src dst : Station) (item : Byte)
  /-- QUERY RECIPE commits (R154). -/
  | queryRecipe (src dst : Station) (item : Byte)
  /-- QUERY WATCH commits (R154). -/
  | queryWatch (src dst : Station) (item : Byte)
  /-- QUERY ALARMS commits (R154). -/
  | queryAlarms (src dst : Station) (item : Byte)
  /-- QUERY FIRSTOUT commits (R154). -/
  | queryFirstout (src dst : Station) (item : Byte)
  /-- QUERY LOANS commits (R154). -/
  | queryLoans (src dst : Station) (item : Byte)
  /-- QUERY GROUP commits (R154). -/
  | queryGroup (src dst : Station) (item : Byte)
  /-- CLAIM commits (R179); its source is 0. -/
  | claim (fields : ClaimFields)
  /-- JOIN commits (R181). -/
  | join (src : Station) (fields : JoinFields)
  /-- STATUS commits (R174). -/
  | status (src : Station) (fields : StatusFields)
  /-- DONE commits (R23). -/
  | done (src dst : Station) (fields : HandFields)
  /-- REPORT commits (R154). -/
  | report (src dst : Station) (code item : Byte) (content : List Byte)
  /-- A sound frame of no kind, or of a wrong length for its kind, commits (R159). -/
  | noKindFrame (src dst : Station) (kind : BitVec 5) (payload : List Byte)
  /-- BUS_IDLE (R170, R158). -/
  | busIdle
  /-- RESET_PIN_RELEASE (R185). -/
  | resetPinRelease
deriving DecidableEq, Repr

end Sys2Proof
end

