-- ==== Sys2Proof/Config.lean ====
section
/-! DEFINITION. What one part or one module fixes: the fields of the configuration image (13.5, R186, R188), and the two
values the manual leaves open, which no proof can see. -/

namespace Sys2Proof

/-- The uid set in the part at manufacture (12_configuration_and_start.md). Log entry 7: a claim holds for every uid. -/
opaque Config.uid : BitVec 48

/-- Free value: which of several boards has its due dots handled next (R41 "in either order"). Log entry 6. -/
opaque Config.dotOrder : Nat → Nat

/-- The action of an alarm (R105, R112), in rising order. -/
inductive Action
  | note | warn | hold | trip
deriving DecidableEq, Repr

/-- What a heater channel heats (R51). -/
inductive Zone
  | unused | preheat (n : Nat) | pot | standbyOnly
deriving DecidableEq, Repr

/-- The configuration fields of one heater channel (R51). -/
structure ChannelConfig where
  zone     : Zone
  rated    : Nat
  priority : Nat
  kp       : Nat
  ki       : Nat
  phase    : Nat
  standby  : Int
deriving DecidableEq, Repr

/-- One group of the group table (R131): bit `n` of `members` stands for station `n`, the bits of `actions` are those of
R189 (0 INHIBIT_SPRAY, 1 LOWER_WAVE, 2 STANDBY_HEAT, 3 HOLD_CONVEYOR, 4 MARK_BOARDS). -/
structure GroupConfig where
  members : BitVec 32
  actions : Byte
  mark    : Nat
deriving DecidableEq, Repr

/-- The fields of a watch entry (R105). -/
structure WatchDef where
  quantity    : Nat
  above       : Bool
  threshold   : Int
  margin      : Nat
  chain       : Bool
  inIdle      : Bool
  inRun       : Bool
  inService   : Bool
  persistence : Nat
  action      : Action
  group       : Nat
  mark        : Nat
deriving DecidableEq, Repr

/-- The roles of a station (R189): ENTRY, FLUX, HEAT, POT. -/
structure Roles where
  entry : Bool
  flux  : Bool
  heat  : Bool
  pot   : Bool
deriving DecidableEq, Repr

/-- The fields an accepted configuration image gives the blocks (13.5, R188). -/
structure StationConfig where
  preferred     : Nat
  roles         : Roles
  winStart      : Nat
  winEnd        : Nat
  handoverLead  : Nat
  /-- the eye position, or none when the field holds all ones (1.7) -/
  eyePos        : Option Nat
  eyeTolerance  : Nat
  lengthTolerance : Nat
  countsPerMetre : Nat
  stallTime     : Nat
  holdOverTime  : Nat
  bitRate       : Nat
  presencePeriod : Nat
  agingInterval : Nat
  busyBackoff   : Nat
  cap           : Nat
  base          : Nat
  lendMargin    : Nat
  returnHysteresis : Nat
  /-- the heater period in 0.1 s (R52) -/
  heaterPeriod  : Nat
  channels      : List ChannelConfig
  refChannel    : Nat
  meltSafe      : Int
  feedOn        : Int
  feedOff       : Int
  lowLow        : Int
  feedLimit     : Nat
  mainDrawdown  : Nat
  chipDrawdown  : Nat
  wavePos       : Nat
  raiseLead     : Nat
  lowerLag      : Nat
  rampRate      : Nat
  settleTime    : Nat
  sprayPos      : Nat
  nozzleCount   : Nat
  flowLag       : Nat
  ductEnabled   : List Bool
  proveThreshold : Nat
  lossThreshold : Nat
  proveHold     : Nat
  lossSamples   : Nat
  proveTimeout  : Nat
  runOnTime     : Nat
  heatThreshold : Int
  failedLevel   : Action
  lostLevel     : Action
  lostLatching  : Bool
  /-- groups of the built-in indices 16..28 (R111) -/
  builtinGroups : List Nat
  /-- groups 1..8 (R131) -/
  groups        : List GroupConfig
  /-- the FIXED watch entries, as many as the fixed count (R105) -/
  fixedWatches  : List WatchDef
deriving DecidableEq, Repr

/-- What the blocks read while no configuration field has a value (R184): no role, no channel, no duct, no eye. -/
def StationConfig.blank : StationConfig where
  preferred := 0
  roles := ⟨false, false, false, false⟩
  winStart := 0
  winEnd := 0
  handoverLead := 0
  eyePos := none
  eyeTolerance := 0
  lengthTolerance := 0
  countsPerMetre := 0
  stallTime := 0
  holdOverTime := 0
  bitRate := 0
  presencePeriod := 0
  agingInterval := 0
  busyBackoff := 0
  cap := 0
  base := 0
  lendMargin := 0
  returnHysteresis := 0
  heaterPeriod := 0
  channels := []
  refChannel := 0
  meltSafe := 0
  feedOn := 0
  feedOff := 0
  lowLow := 0
  feedLimit := 0
  mainDrawdown := 0
  chipDrawdown := 0
  wavePos := 0
  raiseLead := 0
  lowerLag := 0
  rampRate := 0
  settleTime := 0
  sprayPos := 0
  nozzleCount := 0
  flowLag := 0
  ductEnabled := []
  proveThreshold := 0
  lossThreshold := 0
  proveHold := 0
  lossSamples := 0
  proveTimeout := 0
  runOnTime := 0
  heatThreshold := 0
  failedLevel := .hold
  lostLevel := .hold
  lostLatching := false
  builtinGroups := []
  groups := []
  fixedWatches := []

end Sys2Proof
end

