-- ==== Sys2Proof/Machine/State.lean ====
section
/-! DEFINITION. The state of one station, block by block (00_scope.md, Blocks of the station), as plain data, and its
values at a power-on start reset. -/

namespace Sys2Proof.Machine

open Sys2Proof

/-- No event of the manual stops the station (INVENTORY.md, Faults), so there is no fault. -/
inductive Fault
deriving DecidableEq, Repr

/-- Why a command has no meaning. -/
inductive Refusal
  /-- Raised by `exec` for a row of the table that has no meaning yet; safe: the model stops where the part goes on. -/
  | notModelled (mnemonic : String)
deriving DecidableEq, Repr

/-- A timer: stopped, running with the milliseconds it was started with, or run out and not restarted. Log entry 1. -/
inductive Timer
  | stopped
  | running (ms : Nat)
  | expired
deriving DecidableEq, Repr

/-! ## Board tracker (01) -/

/-- A mark: (station number, mark code) (R1). -/
structure Mark where
  station : Nat
  code    : Nat
deriving DecidableEq, Repr

/-- The line record (R1) without L, which follows from the anchor (R5). -/
structure LineRecord where
  id           : Nat
  recipe       : Nat
  version      : Nat
  length       : Nat
  unannounced  : Bool
  lengthFinal  : Bool
  markOverflow : Bool
  marks        : List Mark
deriving DecidableEq, Repr

/-- The spray phase of a record (3.2). -/
inductive SprayPhase
  | waiting | spraying | ended | checked
deriving DecidableEq, Repr

/-- A board record: the line record and the local fields (R2). -/
structure Board where
  line           : LineRecord
  anchorPos      : Nat
  anchorCount    : BitVec 32
  handed         : Option Nat
  confirmed      : Bool
  seenMissing    : Bool
  /-- the admitted length, when the record had one (R15) -/
  admitted       : Option Nat
  slot           : Option Nat
  noRecipeNoted  : Bool
  /-- held back from handover (R9) -/
  heldBack       : Bool
  phase          : SprayPhase
  nextDot        : Nat
  dotsFired      : Nat
  dotsSkipped    : Nat
  flowPulses     : Nat
  notFluxed      : Bool
  flowLag        : Timer
  waveContact    : Bool
deriving DecidableEq, Repr

/-- An admission record (R34). -/
structure Admission where
  recipe  : Nat
  version : Nat
  length  : Nat
  count   : Nat
deriving DecidableEq, Repr

/-- The board tracker's state (R25). -/
structure Tracker where
  queue      : List Board
  admissions : List Admission
  count      : BitVec 32
  nextId     : Nat
  underEye   : Option Nat
  stall      : Timer
  unreported : Nat
  neighbour  : Option Nat
deriving DecidableEq, Repr

/-! ## Recipe store (02) -/

/-- The body of a recipe (R26). -/
structure RecipeBody where
  zones     : List Int
  pot       : Int
  mainSpeed : Nat
  chipSpeed : Nat
  mainWave  : Bool
  chipWave  : Bool
  pulse     : Nat
  pitch     : Nat
  margin    : Nat
  mask      : Byte
  flow      : Nat
deriving DecidableEq, Repr

/-- The state of a slot (R26). -/
inductive SlotState
  | free | current | retiring
deriving DecidableEq, Repr

/-- A recipe slot (R26). -/
structure Slot where
  state     : SlotState
  number    : Nat
  version   : Nat
  refs      : Nat
  isDefault : Bool
  body      : RecipeBody
deriving DecidableEq, Repr

/-- The setpoints that outlast the last board (R35). -/
structure HoldOver where
  zones : List Int
  pot   : Int
deriving DecidableEq, Repr

/-- The recipe store's state (R27). -/
structure RecipeStore where
  slots     : List Slot
  holdOver  : Option HoldOver
  holdTimer : Timer
deriving DecidableEq, Repr

/-! ## Spray unit (03) -/

/-- The owner of an OPEN one-shot (R39): a record held, a record that has been released since its dot fired (a record that takes
the same id later is another), or SERVICE. -/
inductive Owner
  | board (id : Nat)
  | released (id : Nat)
  | service
deriving DecidableEq, Repr

/-- The spray unit's state (R50); a one-shot that is none is CLOSED. -/
structure Spray where
  oneShots  : List (Option Owner)
  counting  : Option Nat
  flowCount : Half
deriving DecidableEq, Repr

/-! ## Heater unit (04) -/

/-- One heater channel (R66). `pulse` is the length in slots of this period's pulse, counted from its phase offset, and
`runOn` that of the previous period's pulse while it runs on (R60, R61); 0 is no pulse. -/
structure Channel where
  setpoint  : Option Int
  demand    : Nat
  grant     : Nat
  integral  : Nat
  /-- the channel was regulated at this period's start and has not been forced or open since (R55) -/
  regulated : Bool
  pulse     : Nat
  runOn     : Nat
deriving DecidableEq, Repr

/-- The heater unit's state. `slot` is the period slot reached, 256 when the period has run out (log entry 2). -/
structure Heater where
  channels    : List Channel
  periodTimer : Timer
  slot        : Nat
  cost        : Nat
  shortfall   : Nat
deriving DecidableEq, Repr

/-! ## Share unit (05) -/

/-- The share states (R69). -/
inductive ShareState
  | unseated | seated | detached
deriving DecidableEq, Repr

/-- A lent or borrowed record (R68). -/
structure Loan where
  peer   : Nat
  amount : Nat
deriving DecidableEq, Repr

/-- The share unit's state (R85). A need is outstanding while its timer runs (R70). -/
structure Shares where
  state        : ShareState
  held         : Nat
  lent         : List Loan
  borrowed     : List Loan
  needAmount   : Nat
  needTimer    : Timer
  shortPeriods : Nat
deriving DecidableEq, Repr

/-! ## Pot unit (06) -/

/-- The pump states (R87). -/
inductive PumpState
  | locked | down | raising | up | lowering
deriving DecidableEq, Repr

/-- A pump (R87). -/
structure Pump where
  state  : PumpState
  speed  : Nat
  target : Nat
  settle : Timer
deriving DecidableEq, Repr

/-- The pot unit's state (R101). The two requests are those last worked out (R89): the target asked for, or none. -/
structure Pot where
  main        : Pump
  chip        : Pump
  mainRequest : Option Nat
  chipRequest : Option Nat
  level       : Int
  established : Bool
  feeding     : Bool
  feedTimer   : Timer
deriving DecidableEq, Repr

/-! ## Alarm unit (07) -/

/-- A quantity of the measurement table (R102). -/
structure Quantity where
  value : Int
  valid : Bool
deriving DecidableEq, Repr

/-- A watch entry and its origin (R105). -/
inductive WatchEntry
  | empty
  | fixed (d : WatchDef)
  | panel (d : WatchDef)
deriving DecidableEq, Repr

/-- The alarm states (R108). -/
inductive AlarmState
  | quiet | pending | active | activeAcked | latched
deriving DecidableEq, Repr

/-- An alarm record (R108). -/
structure AlarmRecord where
  state        : AlarmState
  matchCount   : Nat
  value        : Int
  announced    : Bool
  announceOwed : Bool
  clearOwed    : Bool
  delivered    : Bool
  /-- the class and the group of the last ALARM queued for the index, which its CLEAR carries (R115) -/
  sentClass    : Nat
  sentGroup    : Nat
deriving DecidableEq, Repr

/-- The cause of a held built-in condition: raised or released, and the value the raiser last gave (R110). -/
structure Cause where
  raised : Bool
  value  : Int
deriving DecidableEq, Repr

/-- The local first-out record while held (R121). -/
structure FirstOut where
  index : Nat
  value : Int
  board : Nat
  later : Nat
deriving DecidableEq, Repr

/-- The alarm unit's state (R123). -/
structure Alarms where
  table      : List Quantity
  sensorOpen : List Bool
  flowHist   : List Half
  countHist  : List (BitVec 32)
  entries    : List WatchEntry
  records    : List AlarmRecord
  causes     : List Cause
  firstOut   : Option FirstOut
deriving DecidableEq, Repr

/-! ## Extraction monitor and group unit (08) -/

/-- The proving states of a duct (R126). -/
inductive DuctState
  | off | proving | proven | lost | failed
deriving DecidableEq, Repr

/-- A duct (R126). -/
structure Duct where
  state : DuctState
  prove : Nat
  loss  : Nat
  timer : Timer
deriving DecidableEq, Repr

/-- The extraction monitor's state (R130). -/
structure Extraction where
  request : Bool
  runOn   : Timer
  ducts   : List Duct
deriving DecidableEq, Repr

/-- One index held in the activity set of a pair (group, raiser) (R132). -/
structure Activity where
  group  : Nat
  raiser : Nat
  index  : Nat
deriving DecidableEq, Repr

/-- The group unit's state (R140): the activity sets as one list with no repeats, and the raisers flagged ORPHAN. -/
structure Groups where
  activity : List Activity
  orphans  : List Nat
deriving DecidableEq, Repr

/-! ## State control (09) -/

/-- The station states (R141). -/
inductive StationState
  | loading | configFault | claiming | claimFail | joined
deriving DecidableEq, Repr

/-- The modes (R142). -/
inductive Mode
  | idle | run | service
deriving DecidableEq, Repr

/-- The conditions (R144). -/
inductive Condition
  | normal | hold | lineStop | tripped
deriving DecidableEq, Repr

/-- The states of the line first-out record (R148). -/
inductive LineState
  | armed | opened | captured
deriving DecidableEq, Repr

/-- State control's state (R155) with the two line wires: what the other stations pull, and the level last sensed. -/
structure Control where
  station      : StationState
  mode         : Mode
  condition    : Condition
  service      : BitVec 32
  lineState    : LineState
  lineValue    : Option (Nat × Nat)
  tripOthers   : Bool
  permitOthers : Bool
  tripSensed   : Bool
  permitSensed : Bool
deriving DecidableEq, Repr

/-! ## Line bus interface (10) -/

/-- What a queued frame is and what its block fixed when it queued it (R167). -/
inductive TxBody
  | claim
  | join (incarnation : Nat)
  | status
  | need
  /-- LEND with its requested amount (R73) -/
  | lend (requested : Nat)
  | returnShares
  | recallShares
  | hand (board : Nat)
  | amendMark (board station code : Nat)
  | amendLength (board length : Nat)
  | amendPosition (board : Nat)
  /-- DONE with the copied line record and its anchor (R22, R23) -/
  | done (line : LineRecord) (anchorPos : Nat) (anchorCount : BitVec 32)
  | alarm (index action group : Nat) (scope : BitVec 32) (value : Int) (mark : Nat)
  | clear (index group : Nat)
  | report (code item : Nat)
deriving DecidableEq, Repr

/-- Where a queued frame stands (R166). -/
inductive TxPhase
  | waiting
  | backoff (ms : Nat)
  | onBus
deriving DecidableEq, Repr

/-- A frame of the transmit queue (R165, R169). -/
structure TxFrame where
  cls      : Nat
  dst      : Nat
  body     : TxBody
  attempts : Nat
  phase    : TxPhase
deriving DecidableEq, Repr

/-- A frame as this station sends it, header and payload (R157). -/
structure WireFrame where
  cls     : Nat
  src     : Nat
  kind    : Nat
  dst     : Nat
  payload : List Byte
deriving DecidableEq, Repr

/-- What a station reserves at an ACK slot (R164). -/
inductive Reservation
  | boardPlace | borrowedPlace | txPlace
deriving DecidableEq, Repr

/-- The line bus interface's state (R172). `frameStart` is held while a frame that was seen from its start goes on. -/
structure Bus where
  queue       : List TxFrame
  onWire      : Option WireFrame
  frameStart  : Option (BitVec 32)
  /-- the bus has been seen idle for 10 bit times since the station began to listen (R158, R170) -/
  footing     : Bool
  stuck       : Bool
  answer      : Slots
  reservation : Option Reservation
  ownContact  : Timer
  peerContact : Timer
  failed      : Nat
  stuckCount  : Nat
deriving DecidableEq, Repr

/-! ## Station directory (11) -/

/-- The summary of the last STATUS (R173), as its bytes gave it. -/
structure Summary where
  mode      : Nat
  condition : Nat
  level     : Nat
  held      : Nat
  base      : Nat
  boards    : Nat
deriving DecidableEq, Repr

/-- A directory entry (R173); `quiet` false is LIVE. -/
structure DirEntry where
  uid         : Option (BitVec 48)
  roles       : Byte
  window      : Option (Nat × Nat)
  incarnation : Option Nat
  quiet       : Bool
  touched     : Bool
  summary     : Option Summary
deriving DecidableEq, Repr

/-- The station directory's state (R183). Place `n` of `entries` is that of number `n`; place 0 is never used. -/
structure Directory where
  entries     : List (Option DirEntry)
  own         : Nat
  incarnation : Option Nat
  claimListen : Timer
  aging       : Timer
  presence    : Timer
  joinOwed    : Bool
deriving DecidableEq, Repr

/-! ## Configuration loader (12) -/

/-- Where the loader stands: the reset pin held, reading, or done (R184, R185). -/
inductive LoaderPhase
  | pinHeld | reading | done
deriving DecidableEq, Repr

/-- The configuration loader's state. `config` holds the fields given to the blocks by an accepted image (log entry 12). -/
structure Loader where
  phase     : LoaderPhase
  buffer    : List Byte
  config    : Option StationConfig
  /-- a refused image whose marker, length, check and bit rate were good (R187) -/
  rateGiven : Bool
deriving DecidableEq, Repr

/-- The state of one station and the commands that wait for it. -/
structure State where
  uid        : BitVec 48
  loader     : Loader
  control    : Control
  dir        : Directory
  bus        : Bus
  tracker    : Tracker
  recipes    : RecipeStore
  spray      : Spray
  heater     : Heater
  shares     : Shares
  pot        : Pot
  extraction : Extraction
  alarms     : Alarms
  groups     : Groups
  /-- the model's own: how many free choices have been taken (log entry 6) -/
  free       : Nat
  pending    : List Instr
deriving DecidableEq, Repr

/-! ## Reset values -/

def RecipeBody.blank : RecipeBody := ⟨[], 0, 0, 0, false, false, 0, 0, 0, 0, 0⟩
def Slot.blank : Slot := ⟨.free, 0, 0, 0, false, .blank⟩
def Channel.blank : Channel := ⟨none, 0, 0, 0, false, 0, 0⟩
def Pump.blank : Pump := ⟨.locked, 0, 0, .stopped⟩
def AlarmRecord.blank : AlarmRecord := ⟨.quiet, 0, 0, false, false, false, false, 0, 0⟩
def Duct.blank : Duct := ⟨.off, 0, 0, .stopped⟩

/-- R184 and log entry 8. -/
def Loader.reset (pinHeld : Bool) : Loader := ⟨if pinHeld then .pinHeld else .reading, [], none, false⟩
/-- R155. The two input pins: log entry 9. -/
def Control.reset : Control := ⟨.loading, .idle, .normal, 0, .armed, none, false, false, false, false⟩
/-- R183. -/
def Directory.reset : Directory := ⟨List.replicate 32 none, 0, none, .stopped, .stopped, .stopped, false⟩
/-- R172. -/
def Bus.reset : Bus := ⟨[], none, none, false, false, ⟨false, false, false⟩, none, .stopped, .stopped, 0, 0⟩
/-- R25. -/
def Tracker.reset : Tracker := ⟨[], [], 0, 1, none, .stopped, 0, none⟩
/-- R27. -/
def RecipeStore.reset : RecipeStore := ⟨List.replicate 8 Slot.blank, none, .stopped⟩
/-- R50. -/
def Spray.reset : Spray := ⟨List.replicate 8 none, none, 0⟩
/-- R66. -/
def Heater.reset : Heater := ⟨List.replicate 8 Channel.blank, .stopped, 0, 0, 0⟩
/-- R85. -/
def Shares.reset : Shares := ⟨.unseated, 0, [], [], 0, .stopped, 0⟩
/-- R101. -/
def Pot.reset : Pot := ⟨.blank, .blank, none, none, 0, false, false, .stopped⟩
/-- R130. -/
def Extraction.reset : Extraction := ⟨false, .stopped, List.replicate 2 Duct.blank⟩
/-- R123. -/
def Alarms.reset : Alarms :=
  ⟨List.replicate 30 ⟨0, false⟩, List.replicate 10 false, [], [], List.replicate 16 .empty,
    List.replicate 29 .blank, List.replicate 13 ⟨false, 0⟩, none⟩
/-- R140. -/
def Groups.reset : Groups := ⟨[], []⟩

/-- The station right after a power-on start reset, the reset pin not held (R184; log entries 7, 8, 9). -/
def State.reset : State where
  uid := Config.uid
  loader := .reset false
  control := .reset
  dir := .reset
  bus := .reset
  tracker := .reset
  recipes := .reset
  spray := .reset
  heater := .reset
  shares := .reset
  pot := .reset
  extraction := .reset
  alarms := .reset
  groups := .reset
  free := 0
  pending := []

end Sys2Proof.Machine
end

