-- ==== Sys2Proof/Machine/Operands.lean ====
section
/-! DEFINITION. Numbers in bytes and codes in numbers (R189), the check (R157), and the bits of a header (13.2). -/

namespace Sys2Proof.Machine

open Sys2Proof

/-! ## Reading bytes: most significant byte first (R189) -/

/-- Byte `i` of a payload or image, 0 beyond its end. -/
def byteAt (l : List Byte) (i : Nat) : Nat := (l.getD i 0).toNat

/-- A two-byte number. -/
def halfAt (l : List Byte) (i : Nat) : Nat := byteAt l i * 256 + byteAt l (i + 1)

/-- A three-byte number. -/
def posAt (l : List Byte) (i : Nat) : Nat := halfAt l i * 256 + byteAt l (i + 2)

/-- A four-byte number or mask, most significant byte first. On the wire that is R157; R189 gives no order for the four-byte mask
of the configuration image (log entry 55, DESIGN CHOICE). -/
def wordAt (l : List Byte) (i : Nat) : Nat := halfAt l i * 65536 + halfAt l (i + 2)

/-- A six-byte number. -/
def uidAt (l : List Byte) (i : Nat) : Nat := wordAt l i * 65536 + halfAt l (i + 4)

/-- The signed reading of a two-byte number: two's complement. -/
def signed16 (n : Nat) : Int := if n < 32768 then (n : Int) else (n : Int) - 65536

/-- A signed two-byte field of an operand. -/
def signedHalf (h : Half) : Int := signed16 h.toNat

/-- Bit `i` of a mask or flag byte, bit 0 least significant. -/
def bitOf (n i : Nat) : Bool := n / 2 ^ i % 2 == 1

/-! ## Writing bytes -/

/-- One byte. -/
def byte1 (n : Nat) : List Byte := [BitVec.ofNat 8 n]

/-- Two bytes. -/
def byte2 (n : Nat) : List Byte := [BitVec.ofNat 8 (n / 256), BitVec.ofNat 8 n]

/-- Three bytes. -/
def byte3 (n : Nat) : List Byte := BitVec.ofNat 8 (n / 65536) :: byte2 n

/-- Four bytes. -/
def byte4 (n : Nat) : List Byte := byte2 (n / 65536) ++ byte2 n

/-- Six bytes. -/
def byte6 (n : Nat) : List Byte := byte2 (n / 4294967296) ++ byte4 n

/-- The 16-bit pattern of a signed value. -/
def pattern16 (v : Int) : Nat := (v.emod 65536).toNat

/-- A signed field in two bytes. -/
def byteS (v : Int) : List Byte := byte2 (pattern16 v)

/-- A flag as a number. -/
def flag (b : Bool) (i : Nat) : Nat := if b then 2 ^ i else 0

/-! ## Limits -/

/-- `x` limited to `lo`..`hi`. -/
def clampInt (lo hi x : Int) : Int := if x < lo then lo else if hi < x then hi else x

/-- `x` limited to 0..`hi`, as a number. -/
def clampNat (hi : Nat) (x : Int) : Nat := if x < 0 then 0 else if (hi : Int) < x then hi else x.toNat

/-- `x` limited to the signed 16-bit range (R102, R109). -/
def clamp16 (x : Int) : Int := clampInt (-32768) 32767 x

/-- A count that stays at 65535 once it has reached it (R23, R40, R169, R170). -/
def bump (n : Nat) : Nat := if n < 65535 then n + 1 else 65535

/-! ## The check: CRC-16, polynomial 0x1021, initial value 0xFFFF (R157, R186) -/

/-- One bit into the check. -/
def crcBit (acc bit : Nat) : Nat :=
  if (acc / 32768 + bit) % 2 = 1 then Nat.xor (acc * 2 % 65536) 0x1021 else acc * 2 % 65536

/-- The low `w` bits of `n`, most significant first, into the check. -/
def crcBits : Nat → Nat → Nat → Nat
  | 0, _, acc => acc
  | w + 1, n, acc => crcBits w n (crcBit acc (n / 2 ^ w % 2))

/-- Bytes into the check. -/
def crcBytes (l : List Byte) (acc : Nat) : Nat := l.foldl (fun a b => crcBits 8 b.toNat a) acc

/-- The 23 header bits as a number (13.2): the class is sent as 3 − class (R157). -/
def headerBits (cls src kind dst len : Nat) : Nat :=
  (((3 - cls) * 32 + src) * 32 + kind) * 2048 + dst * 64 + len

/-- The check over the header and the payload (R157). -/
def frameCheck (cls src kind dst len : Nat) (payload : List Byte) : Nat :=
  crcBytes payload (crcBits 23 (headerBits cls src kind dst len) 65535)

/-! ## Arbitration (R160) -/

/-- The low `w` bits of `n`, most significant first; `true` is recessive. -/
def bitsOf : Nat → Nat → List Bool
  | 0, _ => []
  | w + 1, n => (n / 2 ^ w % 2 == 1) :: bitsOf w n

/-- The bits of a frame's header and payload as sent. -/
def WireFrame.bits (f : WireFrame) : List Bool :=
  bitsOf 23 (headerBits f.cls f.src f.kind f.dst f.payload.length) ++ f.payload.flatMap (fun b => bitsOf 8 b.toNat)

/-- The sender of the first bits loses to the sender of the second: at the first bit where they differ it sends recessive
and reads dominant (R160). -/
def losesTo : List Bool → List Bool → Bool
  | a :: as, b :: bs => if a == b then losesTo as bs else a
  | _, _ => false

/-! ## Codes (R189) -/

def rolesByte (r : Roles) : Nat := flag r.entry 0 + flag r.flux 1 + flag r.heat 2 + flag r.pot 3

def Mode.code : Mode → Nat
  | .idle => 0 | .run => 1 | .service => 2

def Mode.ofCode : Nat → Option Mode
  | 0 => some .idle | 1 => some .run | 2 => some .service | _ => none

def Condition.code : Condition → Nat
  | .normal => 0 | .hold => 1 | .lineStop => 2 | .tripped => 3

def actionCode : Action → Nat
  | .note => 1 | .warn => 2 | .hold => 3 | .trip => 4

def actionOf : Nat → Option Action
  | 1 => some .note | 2 => some .warn | 3 => some .hold | 4 => some .trip | _ => none

def AlarmState.code : AlarmState → Nat
  | .quiet => 0 | .pending => 1 | .active => 2 | .activeAcked => 3 | .latched => 4

def SprayPhase.code : SprayPhase → Nat
  | .waiting => 0 | .spraying => 1 | .ended => 2 | .checked => 3

def SlotState.code : SlotState → Nat
  | .free => 0 | .current => 1 | .retiring => 2

def LineState.code : LineState → Nat
  | .armed => 0 | .opened => 1 | .captured => 2

/-- The kind codes of 13.3. -/
def TxBody.kind : TxBody → Nat
  | .claim => 1 | .join _ => 2 | .status => 3 | .need => 4 | .lend _ => 5 | .returnShares => 6 | .recallShares => 7
  | .hand _ => 8 | .amendMark _ _ _ => 9 | .amendLength _ _ => 9 | .amendPosition _ => 9 | .done _ _ _ => 10
  | .alarm _ _ _ _ _ _ => 11 | .clear _ _ => 12 | .report _ _ => 13

/-- Mark codes that a pair may hold (R1, R12, R21): 1..12 and 16..63. -/
def markCodeOk (c : Nat) : Bool := (1 ≤ c && c ≤ 12) || (16 ≤ c && c ≤ 63)

/-- Mark codes of an alarm or a group (R105, R131): 0 or 16..63. -/
def optMarkOk (c : Nat) : Bool := c == 0 || (16 ≤ c && c ≤ 63)

/-- A pair in range (R12, R21). -/
def pairOk (station code : Nat) : Bool := 1 ≤ station && station ≤ 29 && markCodeOk code

/-! ## Watch entries in bytes (13.3) -/

/-- The fields of a watch entry as a frame gives them, or none where a field is out of range (R119, R189). -/
def watchOf (quantity compare threshold margin chainMode persistence action group mark : Nat) : Option WatchDef :=
  match actionOf action with
  | none => none
  | some a =>
    if quantity < 30 && compare < 2 && chainMode / 8 % 16 == 0 && 1 ≤ persistence && persistence ≤ 15 && group ≤ 8
        && optMarkOk mark then
      some { quantity, above := compare == 0, threshold := signed16 threshold, margin, chain := bitOf chainMode 7,
             inIdle := bitOf chainMode 0, inRun := bitOf chainMode 1, inService := bitOf chainMode 2, persistence,
             action := a, group, mark }
    else none

/-- The watch entry at offset `i` of an image or a payload. -/
def watchAt (l : List Byte) (i : Nat) : Option WatchDef :=
  watchOf (byteAt l i) (byteAt l (i + 1)) (halfAt l (i + 2)) (halfAt l (i + 4)) (byteAt l (i + 6)) (byteAt l (i + 7))
    (byteAt l (i + 8)) (byteAt l (i + 9)) (byteAt l (i + 10))

/-- The watch entry a committed WATCH carries. -/
def watchDefOf (w : WatchFields) : Option WatchDef :=
  watchOf w.quantity.toNat w.compare.toNat w.threshold.toNat w.margin.toNat w.chainMode.toNat w.persistence.toNat
    w.action.toNat w.group.toNat w.mark.toNat

/-- A watch entry's eleven bytes, for REPORT (13.4). -/
def watchBytes (d : WatchDef) : List Byte :=
  byte1 d.quantity ++ byte1 (if d.above then 0 else 1) ++ byteS d.threshold ++ byte2 d.margin
    ++ byte1 (flag d.inIdle 0 + flag d.inRun 1 + flag d.inService 2 + flag d.chain 7)
    ++ byte1 d.persistence ++ byte1 (actionCode d.action) ++ byte1 d.group ++ byte1 d.mark

/-! ## Recipes in bytes (13.3) -/

/-- Number not 0, pulse width 1..50, pitch not 0 (R30), no flag beyond bits 0..2 (R189; DEDUCED, log entry 29). -/
def recipeInRange (number flags pulse pitch : Nat) : Bool :=
  number != 0 && decide (flags < 8) && decide (1 ≤ pulse) && decide (pulse ≤ 50) && pitch != 0

/-- A RECIPE in range (R30). -/
def recipeFieldsInRange (r : RecipeFields) : Bool :=
  recipeInRange r.number.toNat r.flags.toNat r.pulse.toNat r.pitch.toNat

/-- The body a RECIPE carries (R26). -/
def recipeBodyOf (r : RecipeFields) : RecipeBody where
  zones := r.zones.map signedHalf
  pot := signedHalf r.pot
  mainSpeed := r.mainSpeed.toNat
  chipSpeed := r.chipSpeed.toNat
  mainWave := bitOf r.flags.toNat 1
  chipWave := bitOf r.flags.toNat 2
  pulse := r.pulse.toNat
  pitch := r.pitch.toNat
  margin := r.margin.toNat
  mask := r.mask
  flow := r.flow.toNat

/-- The RECIPE layout of a slot (13.4). -/
def slotBytes (s : Slot) : List Byte :=
  byte1 s.number ++ byte1 s.version ++ byte1 (flag s.isDefault 0 + flag s.body.mainWave 1 + flag s.body.chipWave 2)
    ++ ((List.range 8).flatMap (fun i => byteS (s.body.zones.getD i 0))) ++ byteS s.body.pot
    ++ byte1 s.body.mainSpeed ++ byte1 s.body.chipSpeed ++ byte1 s.body.pulse ++ byte1 s.body.pitch
    ++ byte1 s.body.margin ++ [s.body.mask] ++ byte1 s.body.flow

/-! ## Line records in bytes (13.3) -/

/-- The board flags (R189). -/
def LineRecord.flags (r : LineRecord) : Nat :=
  flag r.unannounced 0 + flag r.lengthFinal 1 + flag r.markOverflow 2

/-- The HAND and DONE layout. -/
def lineBytes (r : LineRecord) (pos : Nat) : List Byte :=
  byte2 r.id ++ byte1 r.recipe ++ byte1 r.version ++ byte2 r.length ++ byte3 pos ++ byte1 r.flags
    ++ byte1 r.marks.length ++ r.marks.flatMap (fun m => byte1 m.station ++ byte1 m.code)

/-- The pairs of a HAND as marks, in the frame's order. -/
def handMarks (f : HandFields) : List Mark := f.marks.map (fun p => ⟨p.1.toNat, p.2.toNat⟩)

/-- The line record a HAND carries (R13). -/
def handLine (f : HandFields) : LineRecord where
  id := f.board.toNat
  recipe := f.recipe.toNat
  version := f.version.toNat
  length := f.length.toNat
  unannounced := bitOf f.flags.toNat 0
  lengthFinal := bitOf f.flags.toNat 1
  markOverflow := bitOf f.flags.toNat 2
  marks := handMarks f

/-! ## Payloads of committed frames, as their commands bring the fields (13.3) -/

/-- HAND and DONE. -/
def handBytes (f : HandFields) : List Byte :=
  byte2 f.board.toNat ++ [f.recipe, f.version] ++ byte2 f.length.toNat ++ byte3 f.pos.toNat ++ [f.flags]
    ++ byte1 f.marks.length ++ f.marks.flatMap (fun p => [p.1, p.2])

/-- ALARM. -/
def alarmBytes (f : AlarmFields) : List Byte :=
  [f.index, f.action, f.group] ++ byte4 f.scope.toNat ++ byte2 f.value.toNat ++ [f.mark]

/-- A window. -/
def windowBytes (a b : Nat) : List Byte := byte3 a ++ byte3 b

/-- CLAIM. -/
def claimBytes (f : ClaimFields) : List Byte :=
  byte6 f.uid.toNat ++ [f.number, f.roles] ++ windowBytes f.winStart.toNat f.winEnd.toNat

/-- JOIN. -/
def joinBytes (f : JoinFields) : List Byte :=
  byte6 f.uid.toNat ++ [f.incarnation, f.roles] ++ windowBytes f.winStart.toNat f.winEnd.toNat

/-- STATUS. -/
def statusBytes (f : StatusFields) : List Byte :=
  [f.roles, f.mode, f.condition, f.level] ++ windowBytes f.winStart.toNat f.winEnd.toNat ++ byte2 f.held.toNat
    ++ byte2 f.base.toNat ++ [f.boards, f.incarnation]

end Sys2Proof.Machine
end

