-- ==== Sys2Proof/Machine/Flags.lean ====
section
/-! DEFINITION. What follows from the state: positions, the properties of alarms, actions in force, the condition, the
drivers, inhibits and locks, and the output pins. -/

namespace Sys2Proof.Machine

open Sys2Proof

/-! ## Station -/

/-- The configuration fields the blocks read (R188); blank while no image is accepted (R184). -/
def State.cfg (s : State) : StationConfig := s.loader.config.getD .blank

/-- The station is JOINED (R141). -/
def State.joined (s : State) : Bool := s.control.station == .joined

/-- The station receives and checks frames (R156, R187). -/
def State.receives (s : State) : Bool :=
  match s.control.station with
  | .loading => false
  | .configFault => s.loader.rateGiven
  | .claiming | .claimFail | .joined => true

/-- The station learns its directory from commits (R174). -/
def State.learns (s : State) : Bool :=
  match s.control.station with
  | .claiming | .claimFail | .joined => true
  | .loading | .configFault => false

/-- A panel's number (00_scope.md): 30 or 31. -/
def isPanel (n : Nat) : Bool := n == 30 || n == 31

/-- The place of number `n` in the directory. -/
def State.entry (s : State) (n : Nat) : Option DirEntry := s.dir.entries.getD n none

/-- Line `n` of the service word (R149). -/
def State.line (s : State) (n : Nat) : Bool := s.control.service.getLsbD n

/-- The timer runs. -/
def Timer.isRunning : Timer → Bool
  | .running _ => true
  | .stopped | .expired => false

/-- The station is isolated (R171). -/
def State.isolated (s : State) : Bool := s.joined && (s.bus.ownContact == .expired || s.bus.peerContact == .expired)

/-! ## Boards -/

/-- L from an anchor (R5): the quotient truncated toward zero, the result limited to 0..16777215. -/
def leadingEdge (countsPerMetre anchorPos : Nat) (count anchorCount : BitVec 32) : Nat :=
  clampNat 16777215 ((anchorPos : Int) + Int.tdiv ((count - anchorCount).toInt * 10000) countsPerMetre)

/-- The leading edge of a record now. -/
def State.pos (s : State) (b : Board) : Nat :=
  leadingEdge s.cfg.countsPerMetre b.anchorPos s.tracker.count b.anchorCount

/-- The held record of a board id. -/
def State.board (s : State) (id : Nat) : Option Board := s.tracker.queue.find? (fun b => b.line.id == id)

/-- The ids held, in queue order. -/
def State.boardIds (s : State) : List Nat := s.tracker.queue.map (fun b => b.line.id)

/-- The record overlaps the station's own process window (00_scope.md, Units; R19). -/
def State.inWindow (s : State) (b : Board) : Bool :=
  decide (s.cfg.winStart ≤ s.pos b) && decide (s.pos b ≤ s.cfg.winEnd + b.line.length)

/-- The free places of the board queue (R3). -/
def State.freePlaces (s : State) : Nat :=
  8 - (s.tracker.queue.length + (if s.bus.reservation == some .boardPlace then 1 else 0))

/-- The slot a record resolves to. -/
def State.slotOf (s : State) (b : Board) : Option Slot := b.slot.bind (fun i => s.recipes.slots[i]?)

/-- The window start of the downstream neighbour, if there is one (R7). -/
def State.neighbourStart (s : State) : Option Nat :=
  s.tracker.neighbour.bind (fun n => (s.entry n).bind (fun e => e.window.map Prod.fst))

/-- The record is in the contact zone of a POT station (R36). -/
def State.inContactZone (s : State) (b : Board) : Bool :=
  decide (s.cfg.wavePos - s.cfg.raiseLead ≤ s.pos b) && decide (s.pos b ≤ s.cfg.wavePos + s.cfg.lowerLag + b.line.length)

/-- The record's span covers a position: on the wave (R86), under the nozzles (R147). -/
def State.spans (s : State) (at' : Nat) (b : Board) : Bool :=
  decide (at' ≤ s.pos b) && decide (s.pos b ≤ at' + b.line.length)

/-! ## Alarms -/

/-- The fields of a watch entry that is not EMPTY. -/
def WatchEntry.def? : WatchEntry → Option WatchDef
  | .empty => none
  | .fixed d => some d
  | .panel d => some d

/-- Watch entry `i` (R105). -/
def State.watch (s : State) (i : Nat) : WatchEntry := s.alarms.entries.getD i .empty

/-- The action of an alarm index (R105, R111). -/
def State.alarmAction (s : State) (i : Nat) : Action :=
  if i < 16 then ((s.watch i).def?.map (·.action)).getD .note
  else match i with
    | 16 | 17 | 18 | 19 | 20 => .hold
    | 21 | 22 | 27 => .warn
    | 23 => .trip
    | 24 => s.cfg.failedLevel
    | 25 => s.cfg.lostLevel
    | _ => .note

/-- The group an alarm index names, 0 for none (R105, R111). -/
def State.alarmGroup (s : State) (i : Nat) : Nat :=
  if i < 16 then ((s.watch i).def?.map (·.group)).getD 0 else s.cfg.builtinGroups.getD (i - 16) 0

/-- The mark code of an alarm index, 0 for none; a built-in condition has none (R111). -/
def State.alarmMark (s : State) (i : Nat) : Nat :=
  if i < 16 then ((s.watch i).def?.map (·.mark)).getD 0 else 0

/-- Whether an alarm index latches (R109, R111). -/
def State.alarmLatches (s : State) (i : Nat) : Bool :=
  if i < 16 then s.alarmAction i == .hold || s.alarmAction i == .trip
  else match i with
    | 17 | 18 | 19 | 20 | 22 | 23 | 24 => true
    | 25 => s.cfg.lostLatching
    | _ => false

/-- Alarm record `i`. -/
def State.record (s : State) (i : Nat) : AlarmRecord := s.alarms.records.getD i .blank

/-- The state of alarm `i`. -/
def State.alarmState (s : State) (i : Nat) : AlarmState := (s.record i).state

/-- An alarm stands (R108). -/
def AlarmState.stands : AlarmState → Bool
  | .active | .activeAcked | .latched => true
  | .quiet | .pending => false

/-- Alarm `i` stands. -/
def State.stands (s : State) (i : Nat) : Bool := (s.alarmState i).stands

/-- The alarm needs announcing (R108). -/
def State.needsAnnouncing (s : State) (i : Nat) : Bool := s.alarmAction i != .note || s.alarmGroup i != 0

/-- Some alarm of the action stands, other than `except`. -/
def State.standsOther (s : State) (a : Action) (except : Nat) : Bool :=
  (List.range 29).any (fun i => i != except && s.stands i && s.alarmAction i == a)

/-- Some alarm of the action stands (R144). -/
def State.anyStands (s : State) (a : Action) : Bool :=
  (List.range 29).any (fun i => s.stands i && s.alarmAction i == a)

/-- The station alarm level (R112). -/
def State.alarmLevel (s : State) : Nat :=
  if s.anyStands .trip then 4 else if s.anyStands .hold then 3 else if s.anyStands .warn then 2
  else if s.anyStands .note then 1 else 0

/-- A quantity of the measurement table (R102, numbered as R189 does). -/
def State.quantity (s : State) (q : Nat) : Quantity := s.alarms.table.getD q ⟨0, false⟩

/-- The sensor of this code was found open at the last sample (R104). -/
def State.sensorOpen (s : State) (code : Nat) : Bool := s.alarms.sensorOpen.getD code false

/-! ## Groups -/

/-- The group table's entry for group `g` (R131). -/
def State.group (s : State) (g : Nat) : GroupConfig := s.cfg.groups.getD (g - 1) ⟨0, 0, 0⟩

/-- The group is in force (R138). -/
def State.groupInForce (s : State) (g : Nat) : Bool := s.groups.activity.any (fun a => a.group == g)

/-- The group's action set, an empty one counted as HOLD_CONVEYOR (R131, R138). -/
def State.groupActions (s : State) (g : Nat) : Nat :=
  if (s.group g).actions.toNat = 0 then 8 else (s.group g).actions.toNat

/-- The groups 1..8. -/
def groupNumbers : List Nat := [1, 2, 3, 4, 5, 6, 7, 8]

/-- The action of this bit (R189) is in force (R138). -/
def State.inForce (s : State) (bit : Nat) : Bool :=
  groupNumbers.any (fun g => s.groupInForce g && bitOf (s.groupActions g) bit)

def State.inhibitSpray (s : State) : Bool := s.inForce 0
def State.lowerWave (s : State) : Bool := s.inForce 1
def State.standbyHeat (s : State) : Bool := s.inForce 2
def State.holdConveyor (s : State) : Bool := s.inForce 3

/-- The mark codes that MARK_BOARDS adds at present (R139). -/
def State.markCodes (s : State) : List Nat :=
  (groupNumbers.filter (fun g => s.groupInForce g && bitOf (s.groupActions g) 4 && (s.group g).mark != 0)).map
    (fun g => (s.group g).mark)

/-! ## Condition and wires (R144..R146) -/

/-- The station pulls the trip line. -/
def State.tripPull (s : State) : Bool := s.joined && s.anyStands .trip

/-- The trip line as it stands: any station pulls it. -/
def State.tripLevel (s : State) : Bool := s.tripPull || s.control.tripOthers

/-- The station asserts permit. -/
def State.permitAsserted (s : State) : Bool :=
  s.joined && s.control.mode == .run && s.control.condition == .normal

/-- The permit line as it stands: active while no station pulls it. -/
def State.permitLevel (s : State) : Bool := s.permitAsserted && !s.control.permitOthers

/-- The condition that state control derives (R144); NORMAL while not JOINED (R141). -/
def State.derivedCondition (s : State) : Condition :=
  if !s.joined then .normal
  else if s.anyStands .trip then .tripped
  else if s.control.tripSensed then .lineStop
  else if s.anyStands .hold || s.holdConveyor then .hold
  else .normal

/-- The condition is TRIPPED or LINE_STOP. -/
def State.stopped (s : State) : Bool := s.control.condition == .tripped || s.control.condition == .lineStop

/-! ## Spray (R44, R46) -/

/-- Duct `n` is enabled (R124). -/
def State.ductEnabled (s : State) (n : Nat) : Bool := s.cfg.ductEnabled.getD n false

/-- Duct `n`. -/
def State.duct (s : State) (n : Nat) : Duct := s.extraction.ducts.getD n .blank

/-- Duct `n` is PROVEN; a disabled duct never is (R126). -/
def State.proven (s : State) (n : Nat) : Bool := s.ductEnabled n && (s.duct n).state == .proven

/-- What closes every nozzle valve (R46). -/
def State.valvesShut (s : State) : Bool := !s.joined || s.stopped || s.inhibitSpray || !s.proven 0

/-- A station inhibit holds (R44). -/
def State.stationInhibit (s : State) : Bool :=
  s.control.mode != .run || s.stopped || s.inhibitSpray || !s.proven 0

/-- Nozzle `n`'s one-shot. -/
def State.oneShot (s : State) (n : Nat) : Option Owner := s.spray.oneShots.getD n none

/-- The nozzles present (R38). -/
def State.nozzles (s : State) : Nat := if s.cfg.roles.flux then s.cfg.nozzleCount else 0

/-- The selected nozzles of a slot: set in its mask and present (R38). -/
def State.selected (s : State) (body : RecipeBody) : List Nat :=
  (List.range 8).filter (fun n => body.mask.getLsbD n && decide (n < s.nozzles))

/-- A one-shot owned by the board is OPEN. -/
def State.ownsOpen (s : State) (id : Nat) : Bool := s.spray.oneShots.any (fun o => o == some (Owner.board id))

/-! ## Heaters -/

/-- The configuration of channel `n` (R51). -/
def State.channelConfig (s : State) (n : Nat) : ChannelConfig :=
  s.cfg.channels.getD n ⟨.unused, 0, 0, 0, 0, 0, 0⟩

/-- Channel `n`. -/
def State.channel (s : State) (n : Nat) : Channel := s.heater.channels.getD n .blank

/-- Channel `n` is in use (R51). -/
def State.inUse (s : State) (n : Nat) : Bool := s.joined && (s.channelConfig n).zone != .unused

/-- Channel `n` is open (R57): its thermocouple was found open at the last sample. -/
def State.channelOpen (s : State) (n : Nat) : Bool := s.sensorOpen n

/-- The setpoints that govern the heaters, preheat zones and pot (R35). -/
def State.governing (s : State) : Option HoldOver :=
  match s.tracker.queue with
  | b :: _ => (s.slotOf b).map (fun sl => ⟨sl.body.zones, sl.body.pot⟩)
  | [] => s.recipes.holdOver

/-! ## Pot -/

/-- The lock condition of both pumps (R88). -/
def State.lockCondition (s : State) : Bool :=
  !s.joined || !s.cfg.roles.pot || s.stopped
    || decide ((s.quantity s.cfg.refChannel).value < s.cfg.meltSafe) || s.channelOpen s.cfg.refChannel
    || s.stands 23 || s.control.mode == .idle

/-- The feeder is allowed (R99). -/
def State.feederAllowed (s : State) : Bool :=
  s.joined && s.cfg.roles.pot && s.control.mode != .idle && s.control.condition != .tripped
    && s.alarmState 22 == .quiet

/-- The feeder is forced in SERVICE by line 18 (R99). -/
def State.feederForced (s : State) : Bool := s.control.mode == .service && s.line 18

/-! ## Shares -/

/-- The sum of a loan list. -/
def loanSum (l : List Loan) : Nat := (l.map (·.amount)).sum

/-- A need is outstanding (R70). -/
def State.needOutstanding (s : State) : Bool := s.shares.needTimer.isRunning

/-- The lendable amount (R73). -/
def State.lendable (s : State) : Int :=
  min ((s.shares.held : Int) - s.heater.cost - s.cfg.lendMargin) ((s.cfg.base : Int) - loanSum s.shares.lent)

/-- The excess (R77). -/
def State.excess (s : State) : Int := (s.shares.held : Int) - s.heater.cost - s.cfg.lendMargin

/-- What a NEED asks for (R71, R72). -/
def State.needAmount (s : State) : Int :=
  min (min (s.heater.shortfall : Int) 255) ((s.cfg.cap : Int) - s.shares.held)

/-! ## Extraction -/

/-- A channel's setpoint is at or above the heat threshold (R125, R54). -/
def State.heatCause (s : State) : Bool :=
  s.heater.channels.any (fun c => match c.setpoint with
    | some v => decide (s.cfg.heatThreshold ≤ v)
    | none => false)

/-- A cause of the extraction request holds (R125). -/
def State.extractionCause (s : State) : Bool := s.joined && (s.control.mode != .idle || s.heatCause)

/-! ## Output pins -/

/-- The fault output (R141). -/
def State.faultOutput (s : State) : Bool :=
  s.control.station == .configFault || s.control.station == .claimFail

/-- Heater output `n`: on while one of the channel's pulses is on (R60). A pulse of 256 slots is on up to the next period
start, where the next pulse may follow it without a break. -/
def State.heaterOutput (s : State) (n : Nat) : Bool :=
  let c := s.channel n
  let p := (s.channelConfig n).phase
  (decide (p ≤ s.heater.slot) && (decide (s.heater.slot < p + c.pulse) || decide (256 ≤ c.pulse))) || decide (256 + s.heater.slot < p + c.runOn)

/-- Nozzle valve `n`: open exactly while its one-shot is OPEN (R39). -/
def State.nozzleValve (s : State) (n : Nat) : Bool := (s.oneShot n).isSome

/-- The wire feeder output (R99). -/
def State.feederOutput (s : State) : Bool := s.pot.feeding

end Sys2Proof.Machine
end

