-- ==== Sys2Proof/Machine/Ops.lean ====
section
/-! DEFINITION. The operations every block uses: the transmit queue (R165..R168), the board queue's order (R3), the
add-mark operation (R19). -/

namespace Sys2Proof.Machine

open Sys2Proof

/-- The answer of every meaning. -/
abbrev Result := Host.Outcome State Fault Refusal

/-! ## Transmit queue -/

/-- The free places (R165). -/
def State.txFree (s : State) : Nat :=
  16 - (s.bus.queue.length + (if s.bus.reservation == some .txPlace then 1 else 0))

/-- The free places a class needs (R165). -/
def classThreshold (cls : Nat) : Nat := if cls = 3 then 1 else if cls = 2 then 3 else if cls = 1 then 5 else 7

/-- A frame of the class would be admitted now (R165). -/
def State.admits (s : State) (cls : Nat) : Bool := decide (classThreshold cls ≤ s.txFree)

/-- A frame as its block queues it. -/
def newFrame (cls dst : Nat) (body : TxBody) : TxFrame := ⟨cls, dst, body, 0, .waiting⟩

/-- The transmit queue replaced. -/
def State.withTx (s : State) (q : List TxFrame) : State := { s with bus := { s.bus with queue := q } }

/-- The frame takes its place at the end of the order of admission. -/
def State.push (s : State) (f : TxFrame) : State := s.withTx (s.bus.queue ++ [f])

/-- Queues a frame whose block drops it when it is REFUSED locally (R165). -/
def queueOrDrop (f : TxFrame) (s : State) : State := if s.admits f.cls then s.push f else s

/-- Withdraws the waiting frames that meet `p`; a frame on the bus stays (R168). -/
def withdrawFrames (p : TxFrame → Bool) (s : State) : State :=
  s.withTx (s.bus.queue.filter (fun f => f.phase == .onBus || !p f))

/-- Some queued frame meets `p`. -/
def State.hasFrame (s : State) (p : TxFrame → Bool) : Bool := s.bus.queue.any p

/-- Some waiting frame meets `p` (R166). -/
def State.hasWaiting (s : State) (p : TxFrame → Bool) : Bool := s.bus.queue.any (fun f => f.phase != .onBus && p f)

/-- The frame is of this kind code. -/
def TxFrame.isKind (k : Nat) (f : TxFrame) : Bool := f.body.kind == k

/-- The frame is the HAND of this board. -/
def TxFrame.isHandOf (id : Nat) (f : TxFrame) : Bool := f.body == .hand id

/-- The frame is the ALARM of this index. -/
def TxFrame.isAlarmOf (i : Nat) (f : TxFrame) : Bool :=
  match f.body with
  | .alarm j _ _ _ _ _ => j == i
  | _ => false

/-- STATUS is queued, or taken by the STATUS already there, or dropped (R182, R165). -/
def queueStatus (s : State) : State :=
  if !s.joined || s.hasFrame (TxFrame.isKind 3) then s else queueOrDrop (newFrame 0 0 .status) s

/-! ## Board queue -/

/-- The board queue replaced. -/
def State.withQueue (s : State) (q : List Board) : State := { s with tracker := { s.tracker with queue := q } }

/-- The record of a board id changed in its place. -/
def updateBoard (id : Nat) (f : Board → Board) (s : State) : State :=
  s.withQueue (s.tracker.queue.map (fun b => if b.line.id == id then f b else b))

/-- A record put behind every record that stands at or ahead of its position (R3). -/
def insertByPos (pos : Board → Nat) (x : Board) : List Board → List Board
  | [] => [x]
  | b :: bs => if pos b < pos x then x :: b :: bs else b :: insertByPos pos x bs

/-- The queue put back into order; equal positions keep their order (R3). -/
def orderBoards (pos : Board → Nat) (q : List Board) : List Board :=
  q.foldl (fun acc b => insertByPos pos b acc) []

/-- The board queue put back into order (R3). -/
def reorder (s : State) : State := s.withQueue (orderBoards s.pos s.tracker.queue)

/-! ## Marks -/

/-- A pair added to a mark list: held once, at most 4, otherwise MARK_OVERFLOW (R19). -/
def addPair (m : Mark) (r : LineRecord) : LineRecord :=
  if r.marks.contains m then r
  else if r.marks.length < 4 then { r with marks := r.marks ++ [m] }
  else { r with markOverflow := true }

/-- The line record of a board changed. -/
def updateLine (id : Nat) (f : LineRecord → LineRecord) (s : State) : State :=
  updateBoard id (fun b => { b with line := f b.line }) s

/-- The add-mark operation (R19), with the AMEND MARK of R20. -/
def addMark (id code : Nat) (s : State) : State :=
  match s.board id with
  | none => s
  | some b =>
    if !s.inWindow b || b.line.marks.contains ⟨s.dir.own, code⟩ then s
    else queueOrDrop (newFrame 1 0 (.amendMark id s.dir.own code)) (updateLine id (addPair ⟨s.dir.own, code⟩) s)

/-- The add-mark operation for every held record that meets `p`, from the head of the queue. -/
def markBoards (p : Board → Bool) (code : Nat) (s : State) : State :=
  ((s.tracker.queue.filter p).map (fun b => b.line.id)).foldl (fun s id => addMark id code s) s

end Sys2Proof.Machine
end

