-- ==== Sys2Proof/Machine/Heater.lean ====
section
/-! DEFINITION. The heater unit (04): setpoints, regulation, allocation, and the pulses within the period. -/

namespace Sys2Proof.Machine

open Sys2Proof

/-- The channels replaced. -/
def State.withChannels (s : State) (l : List Channel) : State := { s with heater := { s.heater with channels := l } }

/-- Every channel in use changed, given its number. -/
def mapInUse (f : Nat → Channel → Channel) (s : State) : State :=
  s.withChannels (s.heater.channels.mapIdx (fun n c => if s.inUse n then f n c else c))

/-! ## Allocation (R58) -/

/-- The cost of duty `d` on a channel of this rating: ceil(rated × d / 256). -/
def dutyCost (rated d : Nat) : Nat := (rated * d + 255) / 256

/-- The largest duty up to the demand whose cost fits in the remaining shares. -/
def grantOf (rated remaining demand : Nat) : Nat :=
  if rated = 0 then demand else min demand (remaining * 256 / rated)

/-- The channels in use, priority 3 first, within one priority in rising number. -/
def State.inUseOrder (s : State) : List Nat :=
  [3, 2, 1, 0].flatMap (fun p => (List.range 8).filter (fun n => s.inUse n && (s.channelConfig n).priority == p))

/-- The allocation of the remaining shares over the channels of a list, in its order. -/
def allocate (s : State) : List Nat → Nat → List (Nat × Nat)
  | [], _ => []
  | n :: ns, remaining =>
    let g := grantOf (s.channelConfig n).rated remaining (s.channel n).demand
    (n, g) :: allocate s ns (remaining - dutyCost (s.channelConfig n).rated g)

/-- The grant that an allocation of the held shares now gives channel `n`. -/
def State.allotted (s : State) (n : Nat) : Nat := ((allocate s s.inUseOrder s.shares.held).lookup n).getD 0

/-- The demand cost of the demands as they stand. -/
def State.demandCost (s : State) : Nat :=
  ((List.range 8).map (fun n => if s.inUse n then dutyCost (s.channelConfig n).rated (s.channel n).demand else 0)).sum

/-- Demand cost and shortfall computed again (R58). -/
def recost (s : State) : State :=
  { s with heater := { s.heater with cost := s.demandCost, shortfall := s.demandCost - s.shares.held } }

/-! ## A fall of grant (R61) -/

/-- The new length of a pulse of which `spent` slots have passed, when the grant falls to `g`. -/
def cutPulse (spent len g : Nat) : Nat := if len ≤ spent then len else if g ≤ spent then spent else min len g

/-- A channel's grant lowered to `g`, with both its pulses, at slot `slot` with phase offset `p`. A pulse of 256 slots from
offset 0 is still on at the end of the period (R60), so there its 256th slot counts as not yet spent. -/
def lowerGrant (p slot g : Nat) (c : Channel) : Channel :=
  { c with grant := min c.grant g
           pulse := cutPulse (min 255 (slot - p)) c.pulse (min c.grant g)
           runOn := cutPulse (256 + slot - p) c.runOn (min c.grant g) }

/-- R59: every grant becomes the smaller of itself and what an allocation from the new held shares and the present demands gives.
Where the lower held shares would give a channel more, R52 says of a period start and a fall together that the grants are those of
the allocation from the lower value; the model takes the minimum of R59 there (log entry 49, DESIGN CHOICE, unsafe). -/
def reallocate (s : State) : State :=
  mapInUse (fun n c => lowerGrant (s.channelConfig n).phase s.heater.slot (s.allotted n) c) s

/-- A change of the held shares handed to the heater unit (R59, R62, R67). A fall and a cut by R57 or R63 are taken one after the
other, each from the demands that then stand, so that the two orders may leave different grants, where R59 says that they leave the
same (log entry 50, DESIGN CHOICE, unsafe). -/
def setHeld (h : Nat) (s : State) : State :=
  let s1 := { s with shares := { s.shares with held := h } }
  recost (if h < s.shares.held then reallocate s1 else s1)

/-- A channel whose demand falls to 0, with its grant and its pulses. -/
def zeroDemand (p slot : Nat) (c : Channel) : Channel := { lowerGrant p slot 0 c with demand := 0 }

/-- R57: the channels of a list have just been found open. -/
def openChannels (l : List Nat) (s : State) : State :=
  if l.isEmpty then s
  else recost (s.withChannels (s.heater.channels.mapIdx (fun n c =>
    if l.contains n then
      { zeroDemand (s.channelConfig n).phase s.heater.slot c with integral := 0, regulated := false }
    else c)))

/-! ## SERVICE (R63) -/

/-- The demand that SERVICE forces on channel `n`. -/
def State.forcedDemand (s : State) (n : Nat) : Nat :=
  if s.line n && !s.stopped && !s.channelOpen n then 256 else 0

/-- In SERVICE a forced demand that must fall falls at once; nothing happens in the other modes. -/
def forcedFalls (s : State) : State :=
  if s.control.mode = .service then
    recost (mapInUse (fun n c =>
      if s.forcedDemand n < c.demand then zeroDemand (s.channelConfig n).phase s.heater.slot c else c) s)
  else s

/-- The mode enters or leaves SERVICE: every demand falls to 0, and the next regulation has no freeze case. -/
def serviceBoundary (s : State) : State :=
  recost (mapInUse (fun n c =>
    { zeroDemand (s.channelConfig n).phase s.heater.slot c with regulated := false }) s)

/-! ## Period start (R52) -/

/-- The setpoint the governing recipe gives a zone, none where the standby setpoint applies (R53). -/
def recipeSetpoint (gov : Option HoldOver) (zone : Zone) : Option Int :=
  match gov, zone with
  | some g, .preheat k => if g.zones.getD (k - 1) 0 = 0 then none else g.zones[k - 1]?
  | some g, .pot => if g.pot = 0 then none else some g.pot
  | _, _ => none

/-- The setpoint that channel `n` takes (R53). -/
def State.setpointOf (s : State) (n : Nat) : Int :=
  if s.stopped || s.standbyHeat then (s.channelConfig n).standby
  else (recipeSetpoint s.governing (s.channelConfig n).zone).getD (s.channelConfig n).standby

/-- The integral is frozen for this period (R55). -/
def frozen (e : Int) (c : Channel) : Bool :=
  c.regulated && (decide (c.grant < c.demand) || (c.demand == 256 && decide (0 < e)) || (c.demand == 0 && decide (e < 0)))

/-- The integral after the update (R55). -/
def nextIntegral (ki : Nat) (e : Int) (c : Channel) : Nat :=
  if frozen e c then c.integral else clampNat 256 ((c.integral : Int) + Int.tdiv ((ki : Int) * e) 256)

/-- The demand of a regulated channel (R56). -/
def demandOf (kp : Nat) (e : Int) (integral : Nat) : Nat := clampNat 256 (Int.tdiv ((kp : Int) * e) 16 + integral)

/-- Setpoint and demand of channel `n` at a period start (R53, R55..R57, R63). -/
def regulate (s : State) (n : Nat) (c : Channel) : Channel :=
  let sp := s.setpointOf n
  let e := sp - (s.quantity n).value
  if s.channelOpen n then { c with setpoint := some sp, demand := 0, grant := 0, integral := 0, regulated := false }
  else if s.control.mode = .service then { c with setpoint := some sp, demand := s.forcedDemand n, regulated := false }
  else
    let i := nextIntegral (s.channelConfig n).ki e c
    { c with setpoint := some sp, integral := i, demand := demandOf (s.channelConfig n).kp e i, regulated := true }

/-- The pulses of a channel at a period start: the old one is held to the new grant, the new one takes it (R60, R61). -/
def startPulse (p g : Nat) (c : Channel) : Channel :=
  { c with grant := g, pulse := g, runOn := if 256 < p + c.pulse then cutPulse (256 - p) c.pulse g else 0 }

/-- The heater unit's own work at a period start. -/
def heaterPeriod (s : State) : State :=
  let s1 := mapInUse (regulate s) s
  let s2 := mapInUse (fun n c => startPulse (s.channelConfig n).phase (s1.allotted n) c) s1
  recost { s2 with heater := { s2.heater with slot := 0, periodTimer := .running (s.cfg.heaterPeriod * 100) } }

/-! ## The position within the period (log entry 2) -/

/-- The slot a heater edge of channel `n` is made at. -/
def toSlot (k : Nat) (s : State) : State :=
  if s.heater.periodTimer.isRunning then { s with heater := { s.heater with slot := max s.heater.slot k } } else s

/-- The slot at which the present pulse of channel `n` ends within this period, if one does (R60). A pulse of 256 slots from
offset 0 ends, if no pulse follows it, with the period start alone. -/
def State.offSlot (s : State) (n : Nat) : Option Nat :=
  let c := s.channel n
  let p := (s.channelConfig n).phase
  if 256 + s.heater.slot < p + c.runOn then some (p + c.runOn - 256)
  else if 0 < c.pulse ∧ c.pulse < 256 ∧ p + c.pulse ≤ 256 then some (p + c.pulse)
  else none

/-- One period slot passes. -/
def tick (s : State) : State :=
  if s.heater.periodTimer.isRunning then { s with heater := { s.heater with slot := min 256 (s.heater.slot + 1) } } else s

end Sys2Proof.Machine
end

