-- ==== Sys2Proof/Machine/Pot.lean ====
section
/-! DEFINITION. The pot unit (06): requests, pump transitions, ramp steps, the feeder, the level and the contact check. -/

namespace Sys2Proof.Machine

open Sys2Proof

/-! ## Requests and targets (R89, R90, R93) -/

/-- A recipe speed as a speed demand (R37). -/
def speedDemand (speed : Nat) : Nat := speed * 256 / 255

/-- The slot of the requesting record of a pump whose wave flag is read by `flagOf` (R89). -/
def State.requestSlot (s : State) (flagOf : RecipeBody → Bool) : Option RecipeBody :=
  s.tracker.queue.findSome? (fun b =>
    if s.inContactZone b then (s.slotOf b).bind (fun sl => if flagOf sl.body then some sl.body else none) else none)

/-- The target a pump's raise request asks for, none without a request. -/
def State.raiseRequest (s : State) (flagOf : RecipeBody → Bool) (speedOf : RecipeBody → Nat) (line : Nat) : Option Nat :=
  match s.control.mode with
  | .idle => none
  | .run => (s.requestSlot flagOf).map (fun r => speedDemand (speedOf r))
  | .service => if s.line line then some 256 else none

/-- MAIN's request as it would be worked out now. -/
def State.mainRequest (s : State) : Option Nat := s.raiseRequest (·.mainWave) (·.mainSpeed) 16

/-- CHIP's request as it would be worked out now. -/
def State.chipRequest (s : State) : Option Nat := s.raiseRequest (·.chipWave) (·.chipSpeed) 17

/-- Both pumps' requests are worked out afresh (R36, R89): at every position event, whenever the queue or its order changes,
and at every change of the mode or of the service word. At any other event the pumps keep those last worked out (log entry
41). -/
def workRequests (s : State) : State :=
  { s with pot := { s.pot with mainRequest := s.mainRequest, chipRequest := s.chipRequest } }

/-- Nothing but the lack of a request keeps a raise from being permitted (R90). -/
def State.raiseAllowed (s : State) : Bool := s.control.condition != .hold && !s.lowerWave

/-! ## Transitions (R88, R90, R91, R92) -/

/-- RAISING from a speed toward a target: at the target the settle timer starts, a settle of 0 is UP at once (R91). -/
def raising (settle speed target : Nat) : Pump :=
  if speed = target then
    if settle = 0 then ⟨.up, speed, target, .stopped⟩ else ⟨.raising, speed, target, .running settle⟩
  else ⟨.raising, speed, target, .stopped⟩

/-- LOWERING, or DOWN at speed 0 (R90, R92). -/
def lowering (speed target : Nat) : Pump := ⟨if speed = 0 then .down else .lowering, speed, target, .stopped⟩

/-- The pump after its lock condition, its request and what permits a raise have been worked out. -/
def nextPump (locked allowed : Bool) (request : Option Nat) (settle : Nat) (p : Pump) : Pump :=
  if locked then ⟨.locked, 0, 0, .stopped⟩
  else
    match p.state, request, allowed with
    | .raising, some t, true => if p.target = t then p else raising settle p.speed t
    | .up, some t, true => if p.target = t then p else raising settle p.speed t
    | _, some t, true => raising settle p.speed t
    | _, r, _ => lowering p.speed (r.getD 0)

/-- A pump leaves UP: every record on the wave is marked WAVE_INTERRUPTED (R94). -/
def leftUp (before after : Pump) (s : State) : State :=
  if before.state = .up ∧ after.state ≠ .up then markBoards (s.spans s.cfg.wavePos) 6 s else s

/-- MAIN takes a new value. -/
def setMain (p : Pump) (s : State) : State := leftUp s.pot.main p { s with pot := { s.pot with main := p } }

/-- CHIP takes a new value. -/
def setChip (p : Pump) (s : State) : State := leftUp s.pot.chip p { s with pot := { s.pot with chip := p } }

/-! ## The feeder (R99) -/

/-- A run starts. -/
def State.feederStarts (s : State) : Bool :=
  s.feederAllowed && ((s.pot.established && decide (s.pot.level < s.cfg.feedOn)) || s.feederForced)

/-- A run stops. -/
def State.feederStops (s : State) : Bool :=
  !s.feederAllowed || (s.pot.established && decide (s.cfg.feedOff ≤ s.pot.level) && !s.feederForced)

/-- The feed run timer as it starts (R99, R100). -/
def State.feedTimerStart (s : State) : Timer :=
  if s.cfg.feedLimit = 0 then .stopped else .running (s.cfg.feedLimit * 1000)

/-- The feeder follows its tests. -/
def feederUpdate (s : State) : State :=
  if s.pot.feeding then
    if s.feederStops then { s with pot := { s.pot with feeding := false, feedTimer := .stopped } } else s
  else if s.feederStarts then { s with pot := { s.pot with feeding := true, feedTimer := s.feedTimerStart } } else s

/-- The pumps, with the requests last worked out, and the feeder follow what they read. -/
def potUpdate (s : State) : State :=
  let s1 := setMain (nextPump s.lockCondition s.raiseAllowed s.pot.mainRequest s.cfg.settleTime s.pot.main) s
  feederUpdate (setChip (nextPump s.lockCondition s.raiseAllowed s.pot.chipRequest s.cfg.settleTime s.pot.chip) s1)

/-! ## Sample events (R91, R92, R96, R97) -/

/-- One step of a speed toward a target. -/
def rampToward (rate speed target : Nat) : Nat :=
  if rate = 0 then target else if speed < target then min (speed + rate) target else max (speed - rate) target

/-- The ramp step of one pump, given the pump before the sample event: one that has entered RAISING in it moves at the next
(R90), one in LOWERING makes its step in either case (R92). -/
def rampStep (rate settle : Nat) (before p : Pump) : Pump :=
  match p.state with
  | .raising =>
    if before.state = .raising ∧ p.speed ≠ p.target then raising settle (rampToward rate p.speed p.target) p.target else p
  | .lowering => lowering (rampToward rate p.speed 0) p.target
  | .locked | .down | .up => p

/-- The ramp steps of both pumps, given the pot unit before the sample event. -/
def rampPumps (before : Pot) (s : State) : State :=
  let step := rampStep s.cfg.rampRate s.cfg.settleTime
  { s with pot := { s.pot with main := step before.main s.pot.main, chip := step before.chip s.pot.chip } }

/-- A pump is steady (R96). -/
def Pump.steady (p : Pump) : Bool :=
  match p.state with
  | .locked | .down | .up => true
  | .raising | .lowering => false

/-- The compensated level of a probe reading (R96). -/
def State.compensated (s : State) (reading : Int) : Int :=
  clamp16 (reading + (if s.pot.main.state = .up then (s.cfg.mainDrawdown : Int) else 0)
    + (if s.pot.chip.state = .up then (s.cfg.chipDrawdown : Int) else 0))

/-- The level reading of a sample event at a POT station (R86, R96, R97). -/
def levelSample (reading : Int) (s : State) : State :=
  if s.cfg.roles.pot && s.pot.main.steady && s.pot.chip.steady then
    { s with pot := { s.pot with level := s.compensated reading, established := true } }
  else s

/-! ## The contact check (R95) -/

/-- A pump named by the record's slot is not UP. -/
def State.waveMissing (s : State) (b : Board) : Bool :=
  match s.slotOf b with
  | none => false
  | some sl => (sl.body.mainWave && s.pot.main.state != .up) || (sl.body.chipWave && s.pot.chip.state != .up)

/-- WAVE_CONTACT and the contact check of a record. -/
def contactCheck (id : Nat) (s : State) : State :=
  match s.board id with
  | none => s
  | some b =>
    if s.cfg.roles.pot && !b.waveContact && decide (s.cfg.wavePos ≤ s.pos b) then
      let s1 := updateBoard id (fun b => { b with waveContact := true }) s
      if s.waveMissing b then addMark id 5 s1 else s1
    else s

end Sys2Proof.Machine
end

