-- ==== Sys2Proof/Machine/Spray.lean ====
section
/-! DEFINITION. The spray unit (03): closing and service nozzles, dots, and the flow check. -/

namespace Sys2Proof.Machine

open Sys2Proof

/-- The one-shots replaced. -/
def State.withShots (s : State) (l : List (Option Owner)) : State := { s with spray := { s.spray with oneShots := l } }

/-! ## Flow check (R48) -/

/-- The record is ENDED, owns no OPEN one-shot, and its flow lag timer does not run. -/
def State.checkDue (s : State) (b : Board) : Bool :=
  s.cfg.roles.flux && b.phase == .ended && !s.ownsOpen b.line.id && !b.flowLag.isRunning

/-- The expected pulses E of a record (R48). -/
def State.expectedPulses (s : State) (b : Board) : Nat :=
  match s.slotOf b with
  | some sl => b.dotsFired * (s.selected sl.body).length * sl.body.flow / 16
  | none => 0

/-- The marks a check adds, in the table's order (R48): FLUX_LOW, FLUX_HIGH, SPRAY_OVERRUN. -/
def State.checkMarks (s : State) (b : Board) : List Nat :=
  let e := s.expectedPulses b
  (if 1 ≤ b.dotsFired ∧ 1 ≤ e ∧ 4 * b.flowPulses < 3 * e then [2] else [])
    ++ (if 1 ≤ b.dotsFired ∧ 1 ≤ e ∧ 3 * e < 2 * b.flowPulses then [3] else [])
    ++ (if 1 ≤ b.nextDot ∧ b.nextDot < 10 * b.dotsSkipped then [4] else [])

/-- The record ceases to be the counting board (R47). -/
def dropCounting (id : Nat) (s : State) : State :=
  if s.spray.counting = some id then { s with spray := { s.spray with counting := none } } else s

/-- The check of a record, if it is due. -/
def flowCheck (id : Nat) (s : State) : State :=
  match s.board id with
  | none => s
  | some b =>
    if s.checkDue b then
      (s.checkMarks b).foldl (fun s c => addMark id c s)
        (dropCounting id (updateBoard id (fun b => { b with phase := .checked }) s))
    else s

/-- The check of every record, from the head of the queue. -/
def flowCheckAll (s : State) : State := s.boardIds.foldl (fun s id => flowCheck id s) s

/-! ## Closing (R45, R46) and service nozzles (R49) -/

/-- The flow lag timer as it restarts (R48); a lag of 0 has run out at once (log entry 16). -/
def State.lagTimer (s : State) : Timer := if s.cfg.flowLag = 0 then .expired else .running s.cfg.flowLag

/-- The flow lag timer of the record restarts. -/
def restartLag (id : Nat) (s : State) : State := updateBoard id (fun b => { b with flowLag := s.lagTimer }) s

/-- NOT_FLUXED once for a record (R41, R43, R45). -/
def markNotFluxed (id : Nat) (s : State) : State :=
  match s.board id with
  | none => s
  | some b => if b.notFluxed then s else updateBoard id (fun b => { b with notFluxed := true }) (addMark id 1 s)

/-- The boards that own an OPEN one-shot, in nozzle order. -/
def State.shotOwners (s : State) : List Nat :=
  (s.spray.oneShots.filterMap (fun o => match o with
    | some (.board id) => some id
    | _ => none)).eraseDups

/-- The one-shots that dots opened close, those of released records too (R46). -/
def closeBoardShots (s : State) : State :=
  s.withShots (s.spray.oneShots.map (fun o => match o with
    | some (.board _) | some (.released _) => none
    | o => o))

/-- The one-shots of one owner close. -/
def closeShots (owner : Owner) (s : State) : State :=
  s.withShots (s.spray.oneShots.map (fun o => if o = some owner then none else o))

/-- The record is released: a pulse of its runs on to its end, and no later record of the same id owns it (R39). -/
def disownShots (id : Nat) (s : State) : State :=
  s.withShots (s.spray.oneShots.map (fun o => if o = some (.board id) then some (.released id) else o))

/-- Every OPEN dot is truncated (R45). -/
def truncateShots (s : State) : State :=
  s.shotOwners.foldl (fun s id => markNotFluxed id (restartLag id s)) (closeBoardShots s)

/-- Nozzle `n` is held open by the service word (R49). That it is so after a RESTART too, where the RESTART row of R50 keeps the valves
closed until the station is in RUN and free of every inhibit of R44, is log entry 58 (DESIGN CHOICE, unsafe). -/
def State.serviceOpens (s : State) (n : Nat) : Bool :=
  s.control.mode == .service && !s.valvesShut && decide (n < s.nozzles) && s.line (8 + n)

/-- The one-shots owned by SERVICE follow the service word. -/
def serviceShots (s : State) : State :=
  s.withShots (s.spray.oneShots.mapIdx (fun n o => match o with
    | some (.board id) => some (.board id)
    | some (.released id) => some (.released id)
    | _ => if s.serviceOpens n then some .service else none))

/-- The nozzles follow the inhibits and the service word, and the checks that then fall due are made. -/
def sprayUpdate (s : State) : State :=
  flowCheckAll (serviceShots (if s.stationInhibit then truncateShots s else s))

/-! ## Dots (R40..R43) -/

/-- How far the record's leading edge stands beyond the nozzle row. -/
def State.beyondRow (s : State) (b : Board) : Int := (s.pos b : Int) - s.cfg.sprayPos

/-- Margin and pitch in 0.1 mm (R37). -/
def marginOf (body : RecipeBody) : Nat := body.margin * 10
def pitchOf (body : RecipeBody) : Nat := body.pitch * 10

/-- The indices of the dots that are due (R40, R42), in rising order. -/
def State.dueDots (s : State) (b : Board) : List Nat :=
  if !s.cfg.roles.flux || !(b.phase == .waiting || b.phase == .spraying) then []
  else match s.slotOf b with
    | none => if b.nextDot = 0 ∧ 0 ≤ s.beyondRow b then [0] else []
    | some sl =>
      let reach := min (s.beyondRow b) ((b.line.length : Int) - marginOf sl.body)
      if reach < marginOf sl.body then []
      else
        let last := (reach - marginOf sl.body).toNat / pitchOf sl.body
        List.range' b.nextDot (last + 1 - b.nextDot)

/-- The dot is counted as handled: the next dot is one past it, and the phase leaves WAITING (R40). -/
def advanceDot (id k : Nat) (s : State) : State :=
  updateBoard id (fun b => { b with nextDot := k + 1, phase := .spraying }) s

/-- A dot fires (R41 case 3). -/
def fireDot (id : Nat) (b : Board) (body : RecipeBody) (s : State) : State :=
  let open' := s.selected body
  let s1 := s.withShots (s.spray.oneShots.mapIdx (fun n o => if open'.contains n then some (.board id) else o))
  let s2 := if b.dotsFired = 0 then { s1 with spray := { s1.spray with counting := some id } } else s1
  updateBoard id (fun b => { b with dotsFired := bump b.dotsFired }) s2

/-- A due dot is inhibited, skipped or fired (R41). -/
def handleDot (id k : Nat) (s : State) : State :=
  match s.board id with
  | none => s
  | some b =>
    advanceDot id k
      (match s.slotOf b with
        | none => markNotFluxed id s
        | some sl =>
          if s.stationInhibit then markNotFluxed id s
          else if s.spray.oneShots.any Option.isSome then
            updateBoard id (fun b => { b with dotsSkipped := bump b.dotsSkipped }) s
          else fireDot id b sl.body s)

/-- The dots of one record made due by a position event. -/
def sprayDots (id : Nat) (s : State) : State :=
  match s.board id with
  | none => s
  | some b => (s.dueDots b).foldl (fun s k => handleDot id k s) s

/-- No dot at or above the next dot can still become due (R43). -/
def State.sprayOver (s : State) (b : Board) : Bool :=
  s.cfg.roles.flux && (b.phase == .waiting || b.phase == .spraying) &&
    (match s.slotOf b with
      | none => decide (1 ≤ b.nextDot)
      | some sl => decide ((b.line.length : Int) - marginOf sl.body < s.beyondRow b))

/-- The end test of a position event (R43), and the check it may bring. -/
def sprayEnd (id : Nat) (s : State) : State :=
  match s.board id with
  | none => s
  | some b =>
    if s.sprayOver b then flowCheck id (updateBoard id (fun b => { b with phase := .ended }) s) else s

/-- A record taken in with its dot 0 already passed is passed over (R43). -/
def sprayPassOver (id : Nat) (s : State) : State :=
  match s.board id with
  | none => s
  | some b =>
    let first : Int := match s.slotOf b with
      | none => 0
      | some sl => marginOf sl.body
    if s.cfg.roles.flux && decide (first < s.beyondRow b) then
      flowCheck id (markNotFluxed id (updateBoard id (fun b => { b with phase := .ended }) s))
    else s

/-- The records in the order that a free value gives (R41 "in either order", log entry 6). -/
def freeOrder : Nat → Nat → List Nat → List Nat
  | 0, _, l => l
  | fuel + 1, n, l =>
    match l with
    | [] => []
    | [x] => [x]
    | x :: y :: rest =>
      let i := n % (rest.length + 2)
      (x :: y :: rest).getD i x :: freeOrder fuel (n / (rest.length + 2)) ((x :: y :: rest).eraseIdx i)

/-- The dots that one event makes due on the records of `ids`: where several records have due dots, a free value says in
which order the records are taken (R41, log entry 6). -/
def sprayRecords (ids : List Nat) (s : State) : State :=
  let due := ids.filter (fun id => match s.board id with
    | none => false
    | some b => !(s.dueDots b).isEmpty)
  match due with
  | _ :: _ :: _ =>
    (freeOrder due.length (Config.dotOrder s.free) due).foldl (fun s id => sprayDots id s) { s with free := s.free + 1 }
  | _ => due.foldl (fun s id => sprayDots id s) s

end Sys2Proof.Machine
end

