-- ==== Sys2Proof/Machine/Control.lean ====
section
/-! DEFINITION. State control (09): the trip line and the line first-out record, the condition and its marks. -/

namespace Sys2Proof.Machine

open Sys2Proof

/-- The line first-out record as the trip line is sensed to become active or inactive (R148). -/
def lineSensed (active : Bool) (c : Control) : Control :=
  if active then
    if c.lineState = .armed then { c with lineState := .opened, lineValue := none } else c
  else { c with lineState := .armed }

/-- The trip line is sensed as it stands after the own driver has changed (R145); the record follows while JOINED. -/
def senseTrip (s : State) : State :=
  if s.tripLevel = s.control.tripSensed then s
  else
    let c := { s.control with tripSensed := s.tripLevel }
    { s with control := if s.joined then lineSensed s.tripLevel c else c }

/-- The marks made at a change of the condition to `c` (R147). -/
def conditionMarks (c : Condition) (s : State) : State :=
  match c with
  | .tripped | .lineStop => markBoards (fun _ => true) 11 s
  | .hold =>
    let s1 := if s.cfg.roles.pot then markBoards (s.spans s.cfg.wavePos) 12 s else s
    if s1.cfg.roles.flux then markBoards (s1.spans s1.cfg.sprayPos) 12 s1 else s1
  | .normal => s

/-- A changed condition takes effect at once (R144): drivers, spray, heater, pot, marks, STATUS. R144 lists the units so; that they
follow in this order is log entry 5 (DESIGN CHOICE, unsafe). -/
def setCondition (c : Condition) (s : State) : State :=
  queueStatus (conditionMarks c (potUpdate (forcedFalls (sprayUpdate { s with control := { s.control with condition := c } }))))

/-- The trip line is sensed, the condition is derived again (R144), and the units that read alarm records, group actions and
the condition follow. -/
def recondition (s : State) : State :=
  let s1 := senseTrip s
  if s1.derivedCondition = s1.control.condition then potUpdate (sprayUpdate s1) else setCondition s1.derivedCondition s1

end Sys2Proof.Machine
end

