-- ==== Sys2Proof/Machine/Alarms.lean ====
section
/-! DEFINITION. The alarm unit's records and frames (07) with the group activity they drive (08): entries to ACTIVE, returns
to QUIET, raise and release, acknowledgement, chains. -/

namespace Sys2Proof.Machine

open Sys2Proof

/-- An alarm record changed. -/
def updateRecord (i : Nat) (f : AlarmRecord → AlarmRecord) (s : State) : State :=
  { s with alarms := { s.alarms with records := s.alarms.records.modify i f } }

/-! ## Group activity (R132, R138, R139) -/

/-- The activity sets replaced; every mark code that comes into force marks the boards at once (R139). -/
def withActivity (l : List Activity) (s : State) : State :=
  let s1 := { s with groups := { s.groups with activity := l } }
  ((s1.markCodes.filter (fun c => !s.markCodes.contains c)).eraseDups).foldl (fun s c => markBoards (fun _ => true) c s) s1

/-- An index added to the set of a pair, once. -/
def addActivity (a : Activity) (s : State) : State :=
  if s.groups.activity.contains a then s else withActivity (s.groups.activity ++ [a]) s

/-- The indices that meet `p` removed. -/
def removeActivity (p : Activity → Bool) (s : State) : State := withActivity (s.groups.activity.filter (fun a => !p a)) s

/-- The ORPHAN flag of a raiser cleared. -/
def clearOrphan (r : Nat) (s : State) : State :=
  { s with groups := { s.groups with orphans := s.groups.orphans.filter (· != r) } }

/-- The ORPHAN flags of the raisers that meet `p` and whose sets are all empty are cleared (R134, R135, R137). -/
def clearEmptyOrphans (p : Nat → Bool) (s : State) : State :=
  { s with groups := { s.groups with
      orphans := s.groups.orphans.filter (fun r => !(p r && !s.groups.activity.any (fun a => a.raiser == r))) } }

/-! ## ALARM and CLEAR (R114..R116) -/

/-- The class of an alarm's frames (R114, R115). -/
def State.alarmClass (s : State) (i : Nat) : Nat := if s.alarmAction i = .trip then 3 else 2

/-- The scope an alarm carries: its group's member mask, empty for group 0 (R132). -/
def State.alarmScope (s : State) (i : Nat) : BitVec 32 :=
  if s.alarmGroup i = 0 then 0 else (s.group (s.alarmGroup i)).members

/-- ALARM of index `i`, its payload fixed now. -/
def State.alarmFrame (s : State) (i : Nat) : TxFrame :=
  newFrame (s.alarmClass i) 0
    (.alarm i (actionCode (s.alarmAction i)) (s.alarmGroup i) (s.alarmScope i) (s.record i).value (s.alarmMark i))

/-- CLEAR of index `i`: in the class and with the group of the ALARM it follows (R115). -/
def State.clearFrame (s : State) (i : Nat) : TxFrame :=
  newFrame (s.record i).sentClass 0 (.clear i (s.record i).sentGroup)

/-- ALARM is queued, or taken by the one that waits (log entry 26), or owed (R114, R116). -/
def announce (i : Nat) (s : State) : State :=
  if s.hasWaiting (TxFrame.isAlarmOf i) then updateRecord i (fun r => { r with announced := true }) s
  else if s.admits (s.alarmClass i) then
    updateRecord i (fun r => { r with announced := true, sentClass := s.alarmClass i, sentGroup := s.alarmGroup i })
      (s.push (s.alarmFrame i))
  else updateRecord i (fun r => { r with announceOwed := true }) s

/-- CLEAR is queued or owed (R115, R116). -/
def queueClear (i : Nat) (s : State) : State :=
  if s.admits (s.record i).sentClass then s.push (s.clearFrame i) else updateRecord i (fun r => { r with clearOwed := true }) s

/-- An ALARM of index `i` is on the bus. -/
def State.alarmOnBus (s : State) (i : Nat) : Bool := s.hasFrame (fun f => f.phase == .onBus && f.isAlarmOf i)

/-- R115 at a return to QUIET: a waiting ALARM is withdrawn, one that the line may have seen is followed by CLEAR. -/
def clearAnnounced (i : Nat) (s : State) : State :=
  if (s.record i).announced then
    let s1 := withdrawFrames (TxFrame.isAlarmOf i) s
    updateRecord i (fun r => { r with announced := false, delivered := false })
      (if s.alarmOnBus i || (s.record i).delivered then queueClear i s1 else s1)
  else updateRecord i (fun r => { r with delivered := false }) s

/-! ## Entries to ACTIVE and returns to QUIET (R112, R113, R121) -/

/-- The first-out capture or count at the entry of a TRIP alarm (R121); a count on an empty record has nothing to count. -/
def firstOutEntry (i : Nat) (v : Int) (s : State) : State :=
  if s.standsOther .trip i then
    { s with alarms := { s.alarms with firstOut := s.alarms.firstOut.map (fun f => { f with later := min 255 (f.later + 1) }) } }
  else
    { s with alarms := { s.alarms with firstOut := some ⟨i, v, (s.boardIds.head?).getD 0, 0⟩ } }

/-- The alarm names a group in whose member mask the station stands (R132). -/
def State.ownSetTakes (s : State) (i : Nat) : Bool := s.alarmGroup i != 0 && (s.alarmScope i).getLsbD s.dir.own

/-- An alarm enters ACTIVE (R112, R113), and the condition follows. The places of the mark codes and of the condition, which the
order of R112 does not name, are log entry 5 (DESIGN CHOICE, unsafe). -/
def enterActive (i : Nat) (v : Int) (s : State) : State :=
  let s1 := updateRecord i (fun r => { r with state := .active, matchCount := 0, value := v }) s
  let s2 := if s.alarmAction i = .trip then firstOutEntry i v s1 else s1
  let s3 := if s.ownSetTakes i then addActivity ⟨s.alarmGroup i, s.dir.own, i⟩ s2 else s2
  let s4 := if s.needsAnnouncing i then announce i s3 else s3
  let s5 := if s.alarmMark i = 0 then s4 else markBoards (fun _ => true) (s.alarmMark i) s4
  recondition s5

/-- An alarm returns to QUIET (R112, R115), and the condition follows. -/
def returnQuiet (i : Nat) (s : State) : State :=
  let s1 := updateRecord i (fun r => { r with state := .quiet, matchCount := 0 }) s
  recondition (clearAnnounced i (removeActivity (fun a => a.raiser == s.dir.own && a.index == i) s1))

/-- A release of an alarm's cause acts on a record that is ACTIVE or ACTIVE_ACKED (R109, R110). -/
def releaseRecord (i : Nat) (s : State) : State :=
  match s.alarmState i with
  | .active => if s.alarmLatches i then updateRecord i (fun r => { r with state := .latched }) s else returnQuiet i s
  | .activeAcked => returnQuiet i s
  | .quiet | .pending | .latched => s

/-! ## Raise and release of built-in conditions (R110) -/

/-- The cause of built-in index `i`. -/
def State.cause (s : State) (i : Nat) : Cause := s.alarms.causes.getD (i - 16) ⟨false, 0⟩

/-- The cause of a built-in index changed. -/
def updateCause (i : Nat) (f : Cause → Cause) (s : State) : State :=
  { s with alarms := { s.alarms with causes := s.alarms.causes.mapIdx (fun k c => if k + 16 = i then f c else c) } }

/-- A value as a record holds it: the 16-bit pattern of what the raiser gives (R111). -/
def recordValue (v : Int) : Int := signed16 (pattern16 v)

/-- The record of a raised cause goes from QUIET to ACTIVE while the station is JOINED. -/
def takeCause (i : Nat) (s : State) : State :=
  if s.joined && (s.cause i).raised && s.alarmState i == .quiet then enterActive i (s.cause i).value s else s

/-- A held condition is raised; while it is raised it keeps the value it had (R111). -/
def raiseHeld (i : Nat) (v : Int) (s : State) : State :=
  takeCause i (updateCause i (fun c => if c.raised then c else ⟨true, recordValue v⟩) s)

/-- A held condition is released. -/
def releaseHeld (i : Nat) (s : State) : State :=
  if (s.cause i).raised then releaseRecord i (updateCause i (fun c => { c with raised := false }) s) else s

/-- A held condition follows its cause. -/
def holdWhile (i : Nat) (v : Int) (b : Bool) (s : State) : State := if b then raiseHeld i v s else releaseHeld i s

/-- One occurrence: a raise followed at once by a release; discarded while the station is not JOINED. -/
def occurrence (i : Nat) (v : Int) (s : State) : State :=
  if s.joined && s.alarmState i == .quiet then releaseRecord i (enterActive i (recordValue v) s) else s

/-! ## Acknowledgement (R118, R122) -/

/-- An alarm is acknowledged; a LATCHED record whose cause is still raised goes back to ACTIVE with none of the effects of a
return or an entry (R110). -/
def acknowledgeOne (i : Nat) (s : State) : State :=
  match s.alarmState i with
  | .active => updateRecord i (fun r => { r with state := .activeAcked }) s
  | .latched =>
    if decide (16 ≤ i) && (s.cause i).raised then
      updateRecord i (fun r => { r with state := .active, value := (s.cause i).value }) s
    else returnQuiet i s
  | .quiet | .pending | .activeAcked => s

/-- The alarms that an index names (R118). -/
def acknowledged (index : Nat) : List Nat := if index = 255 then List.range 29 else if index ≤ 28 then [index] else []

/-- ACKNOWLEDGE taken by the station: the alarms in rising index (log entry 5), then the local first-out record (R122), also
where the index names no alarm (log entry 43). -/
def acknowledgeAlarms (index : Nat) (s : State) : State :=
  let s1 := (acknowledged index).foldl (fun s i => acknowledgeOne i s) s
  if s1.derivedCondition = .tripped then s1 else { s1 with alarms := { s1.alarms with firstOut := none } }

/-! ## Owed frames (R116) -/

/-- The owed frames of one index are tried again. -/
def retryOwed (i : Nat) (s : State) : State :=
  let s1 :=
    if (s.record i).announceOwed then
      let t := updateRecord i (fun r => { r with announceOwed := false }) s
      if s.stands i then announce i t else t
    else s
  if (s1.record i).clearOwed then
    match s1.alarmState i with
    | .quiet => queueClear i (updateRecord i (fun r => { r with clearOwed := false }) s1)
    | .pending => s1
    | .active | .activeAcked | .latched => updateRecord i (fun r => { r with clearOwed := false }) s1
  else s1

/-- Every owed frame is tried again. -/
def retryAllOwed (s : State) : State := (List.range 29).foldl (fun s i => retryOwed i s) s

/-- ALARM is queued for a standing alarm unless one for its index waits (R136). -/
def reannounce (i : Nat) (s : State) : State := if s.hasWaiting (TxFrame.isAlarmOf i) then s else announce i s

/-- The standing alarms that meet `p` are announced again, in rising index (R136). -/
def reannounceAll (p : Nat → Bool) (s : State) : State :=
  ((List.range 29).filter (fun i => s.stands i && p i)).foldl (fun s i => reannounce i s) s

/-! ## Chains (R105..R107) -/

/-- The chain flag of entry `i` as it counts: clear for entry 15 and for an EMPTY entry (R107). -/
def chained (entries : List WatchEntry) (i : Nat) : Bool :=
  decide (i < 15) && (((entries.getD i .empty).def?.map (·.chain)).getD false)

/-- The holder of the chain that contains entry `i`; 16 steps always reach it. -/
def holderFrom (entries : List WatchEntry) : Nat → Nat → Nat
  | 0, i => i
  | fuel + 1, i => if chained entries i then holderFrom entries fuel (i + 1) else i

/-- The holder of the chain that contains entry `i` (R107). -/
def holderOf (entries : List WatchEntry) (i : Nat) : Nat := holderFrom entries 16 i

/-- The members of the chain of holder `h`, the holder included (R107). -/
def membersOf (entries : List WatchEntry) (h : Nat) : List Nat :=
  (List.range 16).filter (fun i => decide (i ≤ h) && holderOf entries i == h)

/-- The test results (R106). -/
inductive TestResult
  | matches | releases | neither
deriving DecidableEq, Repr

/-- The mode stands in the entry's mode mask. -/
def inModeMask (d : WatchDef) (m : Mode) : Bool :=
  match m with
  | .idle => d.inIdle
  | .run => d.inRun
  | .service => d.inService

/-- The test result of an entry (R105, R106). -/
def testEntry (m : Mode) (q : Quantity) (d : WatchDef) : TestResult :=
  if !inModeMask d m then .releases
  else if !q.valid then .neither
  else if d.above then
    if d.threshold < q.value then .matches else if q.value < d.threshold - d.margin then .releases else .neither
  else if q.value < d.threshold then .matches else if d.threshold + d.margin < q.value then .releases else .neither

/-- The result of the chain of holder `h` (R107). -/
def State.chainResult (s : State) (h : Nat) : TestResult :=
  let results := (membersOf s.alarms.entries h).map (fun i =>
    match (s.watch i).def? with
    | some d => testEntry s.control.mode (s.quantity d.quantity) d
    | none => .neither)
  if results.all (· == .matches) then .matches else if results.any (· == .releases) then .releases else .neither

/-- The record of a watch holder takes its chain's result (R109). -/
def takeResult (i : Nat) (d : WatchDef) (r : TestResult) (s : State) : State :=
  match s.alarmState i, r with
  | .quiet, .matches | .pending, .matches =>
    if d.persistence ≤ (s.record i).matchCount + 1 then enterActive i (clamp16 (s.quantity d.quantity).value) s
    else updateRecord i (fun r => { r with state := .pending, matchCount := r.matchCount + 1 }) s
  | .quiet, _ | .pending, _ => updateRecord i (fun r => { r with state := .quiet, matchCount := 0 }) s
  | .active, .releases | .activeAcked, .releases => releaseRecord i s
  | .active, _ | .activeAcked, _ | .latched, _ => s

/-- Entry `i` is tested if it holds a chain that is not dormant (R107, R109). -/
def watchSample (i : Nat) (s : State) : State :=
  match (s.watch i).def? with
  | some d => if chained s.alarms.entries i then s else takeResult i d (s.chainResult i) s
  | none => s

/-- Every chain is tested, in rising order of the holders. -/
def watchSamples (s : State) : State := (List.range 16).foldl (fun s i => watchSample i s) s

/-! ## WATCH (R120) -/

/-- The alarm of an affected chain's holder is withdrawn, unless it is QUIET, and then its owed frames, a CLEAR that this
withdrawal could not queue among them (log entry 44). -/
def withdrawAlarm (i : Nat) (s : State) : State :=
  if s.alarmState i = .quiet then s
  else updateRecord i (fun r => { r with announceOwed := false, clearOwed := false }) (returnQuiet i s)

/-- Entry `i` is replaced, its affected chains withdrawn before (R120). -/
def installWatch (i : Nat) (e : WatchEntry) (s : State) : State :=
  let entries := s.alarms.entries.set i e
  let affected := [holderOf s.alarms.entries i, holderOf entries i].eraseDups
  let s1 := affected.foldl (fun s h => withdrawAlarm h s) s
  { s1 with alarms := { s1.alarms with entries := entries } }

end Sys2Proof.Machine
end

