-- ==== Sys2Proof/Machine/Shares.lean ====
section
/-! DEFINITION. The share unit (05): loans, seating, and the frames of a period start and of a need's end. -/

namespace Sys2Proof.Machine

open Sys2Proof

/-! ## Loan lists (R68) -/

/-- The amount of a peer's record, 0 without one. -/
def loanOf (peer : Nat) (l : List Loan) : Nat := ((l.find? (fun r => r.peer == peer)).map (·.amount)).getD 0

/-- The list holds a record for the peer. -/
def hasLoan (peer : Nat) (l : List Loan) : Bool := l.any (fun r => r.peer == peer)

/-- A record grows, or is appended at the tail. -/
def growLoan (peer m : Nat) (l : List Loan) : List Loan :=
  if hasLoan peer l then l.map (fun r => if r.peer == peer then { r with amount := r.amount + m } else r)
  else l ++ [⟨peer, m⟩]

/-- A record falls by `m`, and vanishes at 0. -/
def shrinkLoan (peer m : Nat) (l : List Loan) : List Loan :=
  (l.map (fun r => if r.peer == peer then { r with amount := r.amount - m } else r)).filter (fun r => r.amount != 0)

/-- A peer's record removed. -/
def dropLoan (peer : Nat) (l : List Loan) : List Loan := l.filter (fun r => r.peer != peer)

/-- The lent list replaced. -/
def State.withLent (s : State) (l : List Loan) : State := { s with shares := { s.shares with lent := l } }

/-- The borrowed list replaced. -/
def State.withBorrowed (s : State) (l : List Loan) : State := { s with shares := { s.shares with borrowed := l } }

/-- The share unit is SEATED. -/
def State.seated (s : State) : Bool := s.shares.state == .seated

/-- `m` shares more lent to a peer (R76). -/
def lendTo (peer m : Nat) (s : State) : State := setHeld (s.shares.held - m) (s.withLent (growLoan peer m s.shares.lent))

/-- `m` shares more borrowed from a peer (R76). -/
def borrowFrom (peer m : Nat) (s : State) : State :=
  setHeld (s.shares.held + m) (s.withBorrowed (growLoan peer m s.shares.borrowed))

/-- The lent record for a peer falls by at most `m`, and H rises by as much (R78, R80). -/
def takeBack (peer m : Nat) (s : State) : State :=
  setHeld (s.shares.held + min m (loanOf peer s.shares.lent)) (s.withLent (shrinkLoan peer m s.shares.lent))

/-- The borrowed record from a peer falls by at most `m`, and H falls by as much (R78, R80). -/
def giveBack (peer m : Nat) (s : State) : State :=
  setHeld (s.shares.held - min m (loanOf peer s.shares.borrowed)) (s.withBorrowed (shrinkLoan peer m s.shares.borrowed))

/-- The lent record for a peer removed, its amount added to H (R80, R81, R82). -/
def reclaim (peer : Nat) (s : State) : State :=
  setHeld (s.shares.held + loanOf peer s.shares.lent) (s.withLent (dropLoan peer s.shares.lent))

/-- The borrowed record from a peer removed, its amount subtracted from H (R78, R81). -/
def surrender (peer : Nat) (s : State) : State :=
  setHeld (s.shares.held - loanOf peer s.shares.borrowed) (s.withBorrowed (dropLoan peer s.shares.borrowed))

/-! ## Needs (R70) -/

/-- A need ends, for any reason. -/
def endNeed (s : State) : State := { s with shares := { s.shares with needAmount := 0, needTimer := .stopped } }

/-- The own NEED commits with an amount (R70, R72). -/
def setNeed (m : Nat) (s : State) : State :=
  { s with shares := { s.shares with needAmount := m, needTimer := .running s.cfg.presencePeriod } }

/-- A loan meets part of an outstanding need (R76). -/
def meetNeed (m : Nat) (s : State) : State :=
  if !s.needOutstanding then s
  else if s.shares.needAmount ≤ m then endNeed s
  else { s with shares := { s.shares with needAmount := s.shares.needAmount - m } }

/-! ## Seating and its end (R69, R81..R83) -/

/-- At the commit of the station's own CLAIM or JOIN (R69). -/
def seat (s : State) : State :=
  setHeld s.cfg.base (endNeed { s with shares := { s.shares with state := .seated, lent := [], borrowed := [] } })

/-- At the commit of a CLAIM or JOIN of station `k` (R81). -/
def dropLoansOf (k : Nat) (s : State) : State := if s.shares.state = .unseated then s else surrender k (reclaim k s)

/-- Entry `k` goes GONE (R82). -/
def loanGone (k : Nat) (s : State) : State := if s.seated then reclaim k s else s

/-- The station enters isolation (R83). The need of a DETACHED unit ends too (R70), and a NEED or RETURN that still waits there
stays in the queue up to its next start of transmission (log entry 47); an UNSEATED unit is not changed. -/
def detach (s : State) : State :=
  match s.shares.state with
  | .seated =>
    let s1 := endNeed { s with shares := { s.shares with state := .detached, borrowed := [] } }
    withdrawFrames (fun f => f.isKind 4 || f.isKind 6) (setHeld (s.shares.held - loanSum s.shares.borrowed) s1)
  | .detached => endNeed s
  | .unseated => s

/-! ## Period starts (R71, R77, R84) -/

/-- NEED is queued (R71). -/
def queueNeed (s : State) : State :=
  if s.seated && decide (0 < s.heater.shortfall) && !s.needOutstanding && !s.hasFrame (TxFrame.isKind 4)
      && decide (1 ≤ s.needAmount) then
    queueOrDrop (newFrame 2 0 .need) s
  else s

/-- RETURN is queued to the lender of the oldest borrowed record (R77). -/
def queueReturn (s : State) : State :=
  match s.shares.borrowed with
  | [] => s
  | r :: _ =>
    if s.seated && decide ((s.cfg.returnHysteresis : Int) < s.excess) && !s.hasFrame (TxFrame.isKind 6) then
      queueOrDrop (newFrame 2 r.peer .returnShares) s
    else s

/-- The shortfall-period count and BUDGET_SHORT (R84). -/
def budgetShort (s : State) : State :=
  if s.heater.shortfall = 0 then releaseHeld 28 { s with shares := { s.shares with shortPeriods := 0 } }
  else
    let n := min 10 (s.shares.shortPeriods + 1)
    let s1 := { s with shares := { s.shares with shortPeriods := n } }
    if n = 10 then raiseHeld 28 (min s.heater.shortfall 32767 : Nat) s1 else s1

/-- The share unit's work after the heater unit's hand-over. -/
def shareHandOver (s : State) : State := budgetShort (queueReturn (queueNeed s))

/-! ## RECALL at the expiry of a need (R79) -/

/-- RECALL is queued to the borrower of the newest lent record. -/
def queueRecall (s : State) : State :=
  match s.shares.lent.getLast? with
  | none => s
  | some r =>
    if s.seated && decide (0 < s.heater.shortfall) && !s.hasFrame (TxFrame.isKind 7) then
      queueOrDrop (newFrame 2 r.peer .recallShares) s
    else s

/-! ## Lending (R73, R74) -/

/-- The five conditions under which the station lends to `x`. -/
def State.lendsTo (s : State) (x : Nat) : Bool :=
  s.seated && !s.needOutstanding && (s.entry x).isSome
    && (hasLoan x s.shares.lent || decide (s.shares.lent.length < 8)) && decide (1 ≤ s.lendable)

/-- The frame is a LEND to `x`. -/
def TxFrame.isLendTo (x : Nat) (f : TxFrame) : Bool := f.isKind 5 && f.dst == x

/-- A NEED of amount `a` from `x` is answered: LEND is queued, or the waiting one takes the new amount (R73). -/
def answerNeed (x a : Nat) (s : State) : State :=
  if !s.lendsTo x then s
  else if s.hasWaiting (TxFrame.isLendTo x) then
    s.withTx (s.bus.queue.map (fun f => if f.phase != .onBus && f.isLendTo x then { f with body := .lend a } else f))
  else queueOrDrop (newFrame 2 x (.lend a)) s

end Sys2Proof.Machine
end

