-- ==== Sys2Proof/Machine/Recipes.lean ====
section
/-! DEFINITION. The recipe store (02): slots, reference counts, resolution, posting, and the hold-over copy. -/

namespace Sys2Proof.Machine

open Sys2Proof

/-- The slots replaced. -/
def State.withSlots (s : State) (l : List Slot) : State := { s with recipes := { s.recipes with slots := l } }

/-- Slot `i`. -/
def State.slot (s : State) (i : Nat) : Slot := s.recipes.slots.getD i .blank

/-- Slot `i` changed. -/
def updateSlot (i : Nat) (f : Slot → Slot) (s : State) : State := s.withSlots (s.recipes.slots.modify i f)

/-- The first slot that meets `p`. -/
def State.findSlot (s : State) (p : Slot → Bool) : Option Nat := s.recipes.slots.findIdx? p

/-- The slot holds number `n`. -/
def Slot.holds (n : Nat) (sl : Slot) : Bool := sl.state != .free && sl.number == n

/-- The slot holds (n, v). -/
def Slot.holdsVersion (n v : Nat) (sl : Slot) : Bool := sl.holds n && sl.version == v

/-- The slot is CURRENT for number `n`. -/
def Slot.isCurrent (n : Nat) (sl : Slot) : Bool := sl.state == .current && sl.number == n

/-- The slot is RETIRING with number `n`. -/
def Slot.isRetiring (n : Nat) (sl : Slot) : Bool := sl.state == .retiring && sl.number == n

/-- The slot a recipe number and version resolve to (R29). -/
def State.resolve (s : State) (number version : Nat) : Option Nat :=
  if number = 0 then none else s.findSlot (Slot.holdsVersion number version)

/-- A slot's reference count rises by one (R28). -/
def addRef (i : Option Nat) (s : State) : State :=
  match i with
  | some i => updateSlot i (fun sl => { sl with refs := sl.refs + 1 }) s
  | none => s

/-- A slot whose count has come to 0 while RETIRING is FREE (R28). -/
def freeIfRetired (sl : Slot) : Slot := if sl.state = .retiring ∧ sl.refs = 0 then .blank else sl

/-- A slot's reference count falls by one (R28). -/
def dropRef (i : Option Nat) (s : State) : State :=
  match i with
  | some i => updateSlot i (fun sl => freeIfRetired { sl with refs := sl.refs - 1 }) s
  | none => s

/-! ## RECIPE (R30..R32) -/

/-- A CURRENT slot is in use (R30). -/
def State.slotInUse (s : State) (sl : Slot) : Bool := decide (0 < sl.refs) || (s.cfg.roles.entry && sl.isDefault)

/-- The cases of R30. -/
inductive RecipeCase
  | a | b | c | d | e | f | g
deriving DecidableEq, Repr

/-- The case that the slots holding number `n` give for (n, v) (R30). -/
def State.recipeCase (s : State) (n v : Nat) : RecipeCase :=
  if s.recipes.slots.any (Slot.holdsVersion n v) then .a
  else
    match s.recipes.slots.find? (Slot.isCurrent n), (s.recipes.slots.filter (Slot.isRetiring n)).length with
    | none, 0 | none, 1 => .b
    | none, _ => .g
    | some cur, 0 => if s.slotInUse cur then .d else .c
    | some cur, _ => if s.slotInUse cur then .f else .e

/-- Some slot is FREE. -/
def State.someSlotFree (s : State) : Bool := s.recipes.slots.any (fun sl => sl.state == .free)

/-- BUSY is asserted for a RECIPE in range (R30). -/
def State.recipeBusy (s : State) (n v : Nat) : Bool :=
  match s.recipeCase n v with
  | .a | .c | .e => false
  | .b | .d => !s.someSlotFree
  | .f | .g => true

/-- The lowest-numbered FREE slot becomes CURRENT with count 0 (R31). -/
def fillFree (n v : Nat) (isDefault : Bool) (body : RecipeBody) (s : State) : State :=
  match s.findSlot (fun sl => sl.state == .free) with
  | some i => updateSlot i (fun _ => ⟨.current, n, v, 0, isDefault, body⟩) s
  | none => s

/-- The CURRENT slot of `n` changed. -/
def updateCurrent (n : Nat) (f : Slot → Slot) (s : State) : State :=
  s.withSlots (s.recipes.slots.map (fun sl => if sl.isCurrent n then f sl else sl))

/-- The effect on the slots (R31); in case D the DEFAULT flag goes to the new slot (R32). The new slot is filled before
the old one can become FREE. -/
def postRecipe (n v : Nat) (body : RecipeBody) (s : State) : State :=
  match s.recipeCase n v with
  | .a | .f | .g => s
  | .b => fillFree n v false body s
  | .c | .e => updateCurrent n (fun sl => { sl with version := v, body := body }) s
  | .d =>
    match s.findSlot (Slot.isCurrent n), s.findSlot (fun sl => sl.state == .free) with
    | some old, some new =>
      updateSlot old (fun sl => freeIfRetired { sl with state := .retiring, isDefault := false })
        (updateSlot new (fun _ => ⟨.current, n, v, 0, (s.slot old).isDefault, body⟩) s)
    | _, _ => s

/-- The DEFAULT flag of a RECIPE acts (R32). -/
def moveDefault (n v : Nat) (s : State) : State :=
  match s.findSlot (fun sl => sl.isCurrent n && sl.version == v) with
  | some i => s.withSlots (s.recipes.slots.mapIdx (fun k sl => { sl with isDefault := k == i }))
  | none => s

/-- A RECIPE is taken (R31, R32). -/
def takeRecipe (r : RecipeFields) (s : State) : State :=
  if recipeFieldsInRange r then
    let s1 := postRecipe r.number.toNat r.version.toNat (recipeBodyOf r) s
    if bitOf r.flags.toNat 0 then moveDefault r.number.toNat r.version.toNat s1 else s1
  else s

/-- A DROP is taken (R33). -/
def takeDrop (n : Nat) (s : State) : State :=
  updateCurrent n (fun sl => if sl.refs = 0 then .blank else { sl with state := .retiring, isDefault := false }) s

/-! ## ADMIT (R34) -/

/-- The admission an ADMIT brings is appended, bound to the CURRENT version. -/
def takeAdmit (n length count : Nat) (s : State) : State :=
  match s.findSlot (Slot.isCurrent n) with
  | some i =>
    addRef (some i) { s with tracker := { s.tracker with
      admissions := s.tracker.admissions ++ [⟨n, (s.slot i).version, length, count⟩] } }
  | none => s

/-! ## Hold-over (R35) -/

/-- The copy and its timer as they start when the queue becomes empty. -/
def startHoldOver (copy : Option HoldOver) (s : State) : State :=
  if s.cfg.holdOverTime = 0 then { s with recipes := { s.recipes with holdOver := none, holdTimer := .stopped } }
  else { s with recipes := { s.recipes with holdOver := copy, holdTimer := .running (s.cfg.holdOverTime * 1000) } }

/-- The copy is emptied and its timer stops. -/
def endHoldOver (s : State) : State := { s with recipes := { s.recipes with holdOver := none, holdTimer := .stopped } }

end Sys2Proof.Machine
end

