-- ==== Sys2Proof/Machine/Tracker.lean ====
section
/-! DEFINITION. The board tracker (01): handover, position events, take-in, release, and the neighbour. -/

namespace Sys2Proof.Machine

open Sys2Proof

/-! ## Handover (R9, R11) -/

/-- The record is due for handover (R9). -/
def State.handDue (s : State) (b : Board) : Bool :=
  b.handed.isNone &&
    match s.neighbourStart with
    | some w => decide (w - s.cfg.handoverLead ≤ s.pos b)
    | none => false

/-- The handover check of a record (R9): HAND to the neighbour, or held back where the queue refuses it. -/
def handoverCheck (id : Nat) (s : State) : State :=
  match s.board id, s.tracker.neighbour with
  | some b, some d =>
    if s.handDue b && !b.heldBack && !s.hasFrame (TxFrame.isHandOf id) then
      if s.admits 1 then s.push (newFrame 1 d (.hand id)) else updateBoard id (fun b => { b with heldBack := true }) s
    else s
  | _, _ => s

/-- The handover check of every record, from the head of the queue. -/
def handoverAll (s : State) : State := s.boardIds.foldl (fun s id => handoverCheck id s) s

/-- The record makes HAND_LATE hold (R11). -/
def State.late (s : State) (b : Board) : Bool :=
  b.handed.isNone &&
    match s.neighbourStart with
    | some w => decide (w ≤ s.pos b)
    | none => false

/-- HAND_LATE follows the records (R11). -/
def handLate (s : State) : State :=
  holdWhile 16 (s.tracker.neighbour.getD 0) (s.tracker.queue.any s.late) s

/-! ## What follows every change (R18, R89, R146) -/

/-- The stall timer as it starts (R18): a stall time of 0 turns the check off. -/
def State.stallStart (s : State) : Timer := if s.cfg.stallTime = 0 then .stopped else .running s.cfg.stallTime

/-- The stall timer replaced. -/
def State.withStall (s : State) (t : Timer) : State := { s with tracker := { s.tracker with stall := t } }

/-- The permit line is sensed as it stands; the stall check follows a change (R18, R146). -/
def sensePermit (s : State) : State :=
  let level := s.permitLevel
  if level = s.control.permitSensed then s
  else
    let s1 := { s with control := { s.control with permitSensed := level } }
    if level then s1.withStall s1.stallStart else releaseHeld 19 (s1.withStall .stopped)

/-- What may follow any change of positions, boards, mode, service word or condition: HAND_LATE, the nozzles, the pumps and
the feeder, and the permit line. Its own change may release CONVEYOR_STALL and so assert the permit again, so the permit is
sensed twice. -/
def settle (s : State) : State := sensePermit (sensePermit (potUpdate (sprayUpdate (handLate s))))

/-! ## Marks that stand (R29, R113, R139) -/

/-- The codes that standing watch alarms add (R113). -/
def State.alarmMarks (s : State) : List Nat :=
  ((List.range 16).filter (fun i => (s.alarmState i == .active || s.alarmState i == .activeAcked) && s.alarmMark i != 0)).map
    s.alarmMark

/-- The marks of R113 and R139 for one record. -/
def standingMarks (id : Nat) (s : State) : State :=
  ((s.alarmMarks ++ s.markCodes).eraseDups).foldl (fun s c => addMark id c s) s

/-- NO_RECIPE once for a record without a slot that overlaps the window (R29). -/
def noRecipeMark (id : Nat) (s : State) : State :=
  match s.board id with
  | none => s
  | some b =>
    if b.slot.isNone && !b.noRecipeNoted && s.inWindow b then
      updateBoard id (fun b => { b with noRecipeNoted := true }) (addMark id 7 s)
    else s

/-- The missing-board check (R17). -/
def missingCheck (id : Nat) (s : State) : State :=
  match s.board id, s.cfg.eyePos with
  | some b, some e =>
    if !b.confirmed && !b.seenMissing && decide (e + s.cfg.eyeTolerance < s.pos b) then
      occurrence 18 id (addMark id 9 (updateBoard id (fun b => { b with seenMissing := true }) s))
    else s
  | _, _ => s

/-! ## Release (R22, R23, R35) -/

/-- The lowest-numbered panel whose entry is LIVE or QUIET. -/
def State.panel (s : State) : Option Nat := [30, 31].find? (fun n => (s.entry n).isSome)

/-- One board more is unreported (R23). -/
def countUnreported (s : State) : State :=
  { s with tracker := { s.tracker with unreported := bump s.tracker.unreported } }

/-- DONE for a released record that was not handed on (R22, R23). -/
def reportBoard (b : Board) (s : State) : State :=
  if b.handed.isSome then s
  else match s.panel with
    | none => countUnreported s
    | some p =>
      if s.admits 1 then s.push (newFrame 1 p (.done b.line b.anchorPos b.anchorCount)) else countUnreported s

/-- The frame is a HAND or AMEND POSITION of the board. -/
def TxFrame.isPositionOf (id : Nat) (f : TxFrame) : Bool := f.body == .hand id || f.body == .amendPosition id

/-- The record leaves the queue with its local fields, and with the part it played elsewhere (R22, R39, R47). -/
def removeBoard (id : Nat) (s : State) : State :=
  let s1 := dropCounting id (disownShots id (s.withQueue (s.tracker.queue.filter (fun b => b.line.id != id))))
  if s.tracker.underEye = some id then { s1 with tracker := { s1.tracker with underEye := none } } else s1

/-- The release of a record, in the order of R22. The hold-over copy is made before the count falls (R35). -/
def releaseBoard (b : Board) (s : State) : State :=
  let copy := s.governing
  let s1 := removeBoard b.line.id (dropRef b.slot (withdrawFrames (TxFrame.isPositionOf b.line.id) s))
  let s2 := reportBoard b s1
  if s2.tracker.queue.isEmpty then startHoldOver copy s2 else s2

/-- The release check (R22). -/
def releaseCheck (id : Nat) (s : State) : State :=
  match s.board id with
  | none => s
  | some b => if s.cfg.winEnd + b.line.length < s.pos b then releaseBoard b s else s

/-! ## Position events (R5) -/

/-- One check made for every record of a list. -/
def eachBoard (f : Nat → State → State) (ids : List Nat) (s : State) : State := ids.foldl (fun s id => f id s) s

/-- The position event of the records of a list, in queue order (log entry 15): the checks of the tracker, the store, the
spray unit, the pot unit, the alarm and group units, the handover check, release, and last the pumps' requests (R36). -/
def positionEvents (ids : List Nat) (s : State) : State :=
  let s1 := eachBoard noRecipeMark ids (eachBoard missingCheck ids s)
  let s2 := eachBoard contactCheck ids (eachBoard sprayEnd ids (sprayRecords ids s1))
  let s3 := eachBoard releaseCheck ids (eachBoard handoverCheck ids (eachBoard standingMarks ids s2))
  if ids.isEmpty then s3 else workRequests s3

/-- The ids whose leading edge differs between two states, in the queue order of the second (R5). -/
def movedBoards (before after : State) : List Nat :=
  (after.tracker.queue.filter (fun b =>
    match before.board b.line.id with
    | some b0 => before.pos b0 != after.pos b
    | none => true)).map (fun b => b.line.id)

/-! ## Taking a record in (R2, R13, R14) -/

/-- A record as it is taken in (R2, 3.2, R48, R95). -/
def freshBoard (line : LineRecord) (pos : Nat) (count : BitVec 32) : Board where
  line := line
  anchorPos := pos
  anchorCount := count
  handed := none
  confirmed := false
  seenMissing := false
  admitted := none
  slot := none
  noRecipeNoted := false
  heldBack := false
  phase := .waiting
  nextDot := 0
  dotsFired := 0
  dotsSkipped := 0
  flowPulses := 0
  notFluxed := false
  flowLag := .stopped
  waveContact := false

/-- The record is resolved, joins the queue, and ends a hold-over (R3, R28, R29, R35). -/
def joinQueue (b : Board) (s : State) : State :=
  let slot := s.resolve b.line.recipe b.line.version
  let s1 := addRef slot s
  endHoldOver (s1.withQueue (insertByPos s1.pos { b with slot := slot } s1.tracker.queue))

/-- What is done at the take-in of a record (R29, R43, R95, R113, R139). -/
def takeInChecks (id : Nat) (s : State) : State :=
  standingMarks id (contactCheck id (noRecipeMark id (sprayPassOver id s)))

/-! ## The downstream neighbour (R7, R8) -/

/-- The better of two candidates: the smaller window start, then the lower number, which comes first in the scan. -/
def betterNeighbour (a b : Option (Nat × Nat)) : Option (Nat × Nat) :=
  match a, b with
  | some x, some y => if y.2 < x.2 then some y else some x
  | none, y => y
  | x, none => x

/-- Number `n` as a candidate: present, not a panel, window known and beginning after the own window start. -/
def State.candidate (s : State) (n : Nat) : Option (Nat × Nat) :=
  match s.entry n with
  | some e =>
    match e.window with
    | some w => if s.cfg.winStart < w.1 then some (n, w.1) else none
    | none => none
  | none => none

/-- The downstream neighbour that the directory gives (R7). -/
def State.findNeighbour (s : State) : Option Nat :=
  ((List.range' 1 29).foldl (fun best n => betterNeighbour best (s.candidate n)) none).map Prod.fst

/-- The neighbour is worked out again (R7); `gone` are the numbers that have just gone GONE (R8). -/
def updateNeighbour (gone : List Nat) (s : State) : State :=
  let new := s.findNeighbour
  if new = s.tracker.neighbour then s
  else
    let s1 := { s with tracker := { s.tracker with
      neighbour := new
      queue := s.tracker.queue.map (fun b => { b with handed := none, heldBack := false }) } }
    let s2 := withdrawFrames (TxFrame.isKind 8) s1
    let absent := match s.tracker.neighbour with
      | some n => gone.contains n && new.isSome
      | none => false
    handoverAll (if absent then markBoards (fun _ => true) 10 s2 else s2)

end Sys2Proof.Machine
end

