-- ==== Sys2Proof/Machine/Directory.lean ====
section
/-! DEFINITION. The station directory (11): learning, aging, JOIN and STATUS requests, the group unit at joins. -/

namespace Sys2Proof.Machine

open Sys2Proof

/-! ## Entries (R173, R174) -/

/-- An entry as a touch creates it. -/
def freshEntry (n : Nat) : DirEntry := ⟨none, if isPanel n then 16 else 0, none, none, false, true, none⟩

/-- The place of number `n` written. -/
def setEntry (n : Nat) (e : Option DirEntry) (s : State) : State :=
  { s with dir := { s.dir with entries := s.dir.entries.set n e } }

/-- The station learns from a commit with this source (R174). -/
def State.learnsFrom (s : State) (src : Nat) : Bool := s.learns && decide (1 ≤ src) && decide (src ≤ 31) && src != s.dir.own

/-- The touch of a commit's source; a creation clears the ORPHAN flag (R137, R174). -/
def touch (src : Nat) (s : State) : State :=
  if s.learnsFrom src then
    match s.entry src with
    | some e => setEntry src (some { e with touched := true }) s
    | none => clearOrphan src (setEntry src (some (freshEntry src)) s)
  else s

/-- The roles byte that an entry takes: a panel entry keeps PANEL (R174). -/
def entryRoles (n : Nat) (old announced : Byte) : Byte := if isPanel n then old else announced

/-- The fields a STATUS writes (R174), the incarnation also in an entry that this commit has just created again (log entry
42). The bytes are stored as they come (log entry 29). -/
def writeStatus (src : Nat) (f : StatusFields) (s : State) : State :=
  match s.entry src with
  | some e =>
    if s.learnsFrom src then
      updateNeighbour [] (setEntry src (some { e with
        roles := entryRoles src e.roles f.roles
        window := some (f.winStart.toNat, f.winEnd.toNat)
        incarnation := some f.incarnation.toNat
        summary := some ⟨f.mode.toNat, f.condition.toNat, f.level.toNat, f.held.toNat, f.base.toNat, f.boards.toNat⟩ }) s)
    else s
  | none => s

/-- The fields a JOIN writes (R174, R181). The roles byte is stored as it comes, whatever bits it sets (log entry 29). -/
def writeJoin (src : Nat) (f : JoinFields) (s : State) : State :=
  match s.entry src with
  | some e =>
    setEntry src (some { e with
      uid := some f.uid
      roles := entryRoles src e.roles f.roles
      window := some (f.winStart.toNat, f.winEnd.toNat)
      incarnation := some f.incarnation.toNat }) s
  | none => s

/-- The entry a CLAIM of number `k` writes, created if the place is empty (R179). The roles byte is stored as it comes,
whatever bits it sets (log entry 29). -/
def writeClaim (k : Nat) (f : ClaimFields) (s : State) : State :=
  let e := (s.entry k).getD (freshEntry k)
  setEntry k (some { e with
    uid := some f.uid
    roles := f.roles
    window := some (f.winStart.toNat, f.winEnd.toNat)
    incarnation := some 0
    quiet := false
    touched := true }) s

/-! ## Aging (R175) -/

/-- An entry after a sweep. -/
def sweepEntry (e : DirEntry) : Option DirEntry :=
  if e.touched then some { e with quiet := false, touched := false }
  else if e.quiet then none else some { e with quiet := true }

/-- The numbers that a sweep now would take to GONE. -/
def State.goneNumbers (s : State) : List Nat :=
  (List.range 32).filter (fun n => match s.entry n with
    | some e => (sweepEntry e).isNone
    | none => false)

/-- ORPHAN of a raiser that is GONE with activity (R137). -/
def orphanGone (r : Nat) (s : State) : State :=
  if s.groups.activity.any (fun a => a.raiser == r) && !s.groups.orphans.contains r then
    { s with groups := { s.groups with orphans := s.groups.orphans ++ [r] } }
  else s

/-- One sweep over every entry, with the hand-over of what is GONE (R175, log entry 14). -/
def sweep (s : State) : State :=
  let gone := s.goneNumbers
  let s1 := { s with dir := { s.dir with entries := s.dir.entries.map (fun e => e.bind sweepEntry) } }
  updateNeighbour gone (gone.foldl (fun s n => orphanGone n (loanGone n s)) s1)

/-! ## JOIN and STATUS (R180, R182) -/

/-- JOIN is queued, or owed where the queue refuses it. -/
def queueJoin (s : State) : State :=
  if s.admits 3 then s.push (newFrame 3 0 (.join (s.dir.incarnation.getD 0)))
  else { s with dir := { s.dir with joinOwed := true } }

/-- An owed JOIN is tried again (R180). -/
def retryJoin (s : State) : State :=
  if s.dir.joinOwed then queueJoin { s with dir := { s.dir with joinOwed := false } } else s

/-- Every hold-back ends, and the records that were held back are checked again (R9). -/
def endHoldBacks (s : State) : State :=
  eachBoard handoverCheck ((s.tracker.queue.filter (·.heldBack)).map (fun b => b.line.id))
    (s.withQueue (s.tracker.queue.map (fun b => { b with heldBack := false })))

/-! ## A station joins (R81, R136) -/

/-- At a JOINED station: the loans and the activity of station `k` go, and the own standing alarms whose member mask holds
`k` are announced again (R81, R136, R179, R181). -/
def peerJoined (k : Nat) (s : State) : State :=
  let s1 := dropLoansOf k s
  let s2 := recondition (clearOrphan k (removeActivity (fun a => a.raiser == k) s1))
  reannounceAll (fun i => (s2.alarmScope i).getLsbD k) s2

end Sys2Proof.Machine
end

