-- ==== Sys2Proof/Machine/Reports.lean ====
section
/-! DEFINITION. The contents of REPORT (R154, R190). -/

namespace Sys2Proof.Machine

open Sys2Proof

/-- STATION. -/
def stationReport (s : State) : List Byte :=
  byte1 (rolesByte s.cfg.roles) ++ byte1 s.control.mode.code ++ byte1 s.control.condition.code ++ byte1 s.alarmLevel
    ++ byte2 s.shares.held ++ byte2 s.cfg.base ++ byte2 (loanSum s.shares.lent) ++ byte2 (loanSum s.shares.borrowed)
    ++ byte1 (s.dir.incarnation.getD 0) ++ byte1 s.tracker.queue.length ++ byte4 s.control.service.toNat
    ++ byte2 s.tracker.unreported ++ byte2 s.bus.stuckCount ++ byte2 s.bus.failed

/-- DIRECTORY of a learned entry: of the roles byte the bits that R189 names, every other bit clear. -/
def entryReport (n : Nat) (e : DirEntry) : List Byte :=
  let w := e.window.getD (0, 0)
  let m := e.summary.getD ⟨0, 0, 0, 0, 0, 0⟩
  byte1 n ++ byte1 (flag e.uid.isSome 0 + flag e.window.isSome 1 + flag e.incarnation.isSome 2 + flag e.summary.isSome 3)
    ++ byte1 (flag e.quiet 0 + flag e.touched 7) ++ byte6 (e.uid.getD 0).toNat ++ [e.roles &&& 31] ++ windowBytes w.1 w.2
    ++ byte1 (e.incarnation.getD 0) ++ byte1 m.mode ++ byte1 m.condition ++ byte1 m.level ++ byte2 m.held ++ byte2 m.base
    ++ byte1 m.boards

/-- What DIRECTORY reports for the own number: LIVE, with no summary (R173, log entry 18). -/
def State.ownEntry (s : State) : DirEntry where
  uid := some s.uid
  roles := BitVec.ofNat 8 (rolesByte s.cfg.roles)
  window := some (s.cfg.winStart, s.cfg.winEnd)
  incarnation := s.dir.incarnation
  quiet := false
  touched := false
  summary := none

/-- DIRECTORY. -/
def directoryReport (n : Nat) (s : State) : List Byte :=
  if n = s.dir.own then entryReport n s.ownEntry
  else match s.entry n with
    | some e => entryReport n e
    | none => []

/-- BOARDS from place `p`. -/
def boardsReport (p : Nat) (s : State) : List Byte :=
  byte1 s.tracker.queue.length
    ++ ((s.tracker.queue.drop p).take 7).flatMap (fun b => byte2 b.line.id ++ byte3 (s.pos b))

/-- The local fields of a record in BOARD. -/
def localBytes (b : Board) : List Byte :=
  byte1 (b.handed.getD 0)
    ++ byte1 (flag b.confirmed 0 + flag b.seenMissing 1 + flag b.noRecipeNoted 2 + flag b.notFluxed 3 + flag b.waveContact 4)
    ++ byte1 (b.slot.getD 255) ++ byte1 b.phase.code ++ byte2 b.nextDot ++ byte2 b.dotsFired ++ byte2 b.dotsSkipped
    ++ byte2 b.flowPulses

/-- BOARD at place `p`. -/
def boardReport (p : Nat) (s : State) : List Byte :=
  match s.tracker.queue[p]? with
  | some b => lineBytes b.line (s.pos b) ++ localBytes b
  | none => []

/-- RECIPE of slot `i`. -/
def recipeReport (i : Nat) (s : State) : List Byte :=
  let sl := s.recipes.slots.getD i .blank
  byte1 sl.state.code ++ byte1 sl.refs ++ slotBytes sl

/-- WATCH of entry `i`. -/
def watchReport (i : Nat) (s : State) : List Byte :=
  match s.watch i with
  | .empty => byte1 0
  | .fixed d => byte1 1 ++ watchBytes d
  | .panel d => byte1 2 ++ watchBytes d

/-- ALARMS. -/
def alarmsReport (s : State) : List Byte :=
  (List.range 29).flatMap (fun i =>
    let r := s.record i
    byte1 (r.state.code + flag r.announced 3 + flag r.announceOwed 4 + flag r.clearOwed 5))

/-- FIRSTOUT. -/
def firstoutReport (s : State) : List Byte :=
  (match s.alarms.firstOut with
    | some f => byte1 1 ++ byte1 f.index ++ byteS f.value ++ byte2 f.board ++ byte1 f.later
    | none => List.replicate 7 0)
    ++ byte1 s.control.lineState.code
    ++ (match s.control.lineValue with
      | some v => byte1 v.1 ++ byte1 v.2
      | none => [0, 0])

/-- LOANS: 0 the lent list, 1 the borrowed list. -/
def loansReport (item : Nat) (s : State) : List Byte :=
  let l := if item = 0 then s.shares.lent else s.shares.borrowed
  byte1 l.length ++ l.flatMap (fun r => byte1 r.peer ++ byte2 r.amount)

/-- A raiser set in four bytes: bit n for station n (R189). -/
def raiserBytes (p : Nat → Bool) : List Byte := byte4 ((List.range 32).map (fun r => flag (p r) r)).sum

/-- GROUP `g`. -/
def groupReport (g : Nat) (s : State) : List Byte :=
  byte1 (flag (s.groupInForce g) 0) ++ [(s.group g).actions] ++ byte1 (s.group g).mark
    ++ raiserBytes (fun r => s.groups.activity.any (fun a => a.group == g && a.raiser == r))
    ++ raiserBytes (fun r => s.groups.orphans.contains r)

/-- The content that a query code and item ask for (R154). -/
def reportContent (code item : Nat) (s : State) : List Byte :=
  match code with
  | 1 => stationReport s
  | 2 => directoryReport item s
  | 3 => boardsReport item s
  | 4 => boardReport item s
  | 5 => recipeReport item s
  | 6 => watchReport item s
  | 7 => alarmsReport s
  | 8 => firstoutReport s
  | 9 => loansReport item s
  | 10 => groupReport item s
  | _ => []

/-- The item lies in the code's range (R153, R154). -/
def queryInRange (code item : Nat) : Bool :=
  match code with
  | 1 | 7 | 8 => true
  | 2 => decide (1 ≤ item) && decide (item ≤ 31)
  | 3 | 4 | 5 => decide (item ≤ 7)
  | 6 => decide (item ≤ 15)
  | 9 => decide (item ≤ 1)
  | 10 => decide (1 ≤ item) && decide (item ≤ 8)
  | _ => false

end Sys2Proof.Machine
end

