-- ==== Sys2Proof/Machine/Bus.lean ====
section
/-! DEFINITION. The line bus interface (10): the frame a station builds, its answers in the slots, outcomes and failures,
and what every commit does before the effects of its kind. -/

namespace Sys2Proof.Machine

open Sys2Proof

/-! ## Building frames (R167) -/

/-- An amount to be sent, none where it comes to 0 or below. -/
def amountBytes (v : Int) : Option (List Byte) := if 1 ≤ v then some (byte2 v.toNat) else none

/-- The roles and the window, as CLAIM and JOIN carry them. -/
def State.announcement (s : State) : List Byte := byte1 (rolesByte s.cfg.roles) ++ windowBytes s.cfg.winStart s.cfg.winEnd

/-- STATUS (R182). -/
def State.statusPayload (s : State) : List Byte :=
  byte1 (rolesByte s.cfg.roles) ++ byte1 s.control.mode.code ++ byte1 s.control.condition.code ++ byte1 s.alarmLevel
    ++ windowBytes s.cfg.winStart s.cfg.winEnd ++ byte2 s.shares.held ++ byte2 s.cfg.base
    ++ byte1 s.tracker.queue.length ++ byte1 (s.dir.incarnation.getD 0)

/-- The payload of a frame at its start of transmission, none where the kind's rule withdraws it (R167). A HAND and an AMEND
POSITION are built from the record that holds the board id now, also where it is not the record that queued them: released while
the frame was on the bus and taken in anew before it is built again (R20, R22; log entry 56, DESIGN CHOICE, unsafe). -/
def State.payload (s : State) (f : TxFrame) : Option (List Byte) :=
  match f.body with
  | .claim => some (byte6 s.uid.toNat ++ byte1 s.cfg.preferred ++ s.announcement)
  | .join incarnation => some (byte6 s.uid.toNat ++ byte1 incarnation ++ s.announcement)
  | .status => some s.statusPayload
  | .need => if s.seated && !s.needOutstanding then amountBytes s.needAmount else none
  | .lend requested => if s.lendsTo f.dst then amountBytes (min s.lendable requested) else none
  | .returnShares =>
    if s.seated && hasLoan f.dst s.shares.borrowed then amountBytes (min s.excess (loanOf f.dst s.shares.borrowed)) else none
  | .recallShares =>
    if s.seated && hasLoan f.dst s.shares.lent then
      amountBytes (min (s.heater.shortfall : Int) (loanOf f.dst s.shares.lent)) else none
  | .hand board => (s.board board).map (fun b => lineBytes b.line (s.pos b))
  | .amendMark board station code => some (byte2 board ++ byte1 1 ++ byte1 station ++ byte1 code)
  | .amendLength board length => some (byte2 board ++ byte1 2 ++ byte2 length)
  | .amendPosition board => (s.board board).map (fun b => byte2 board ++ byte1 3 ++ byte3 (s.pos b))
  | .done line pos count => some (lineBytes line (leadingEdge s.cfg.countsPerMetre pos s.tracker.count count))
  | .alarm index action group scope value mark =>
    some (byte1 index ++ byte1 action ++ byte1 group ++ byte4 scope.toNat ++ byteS value ++ byte1 mark)
  | .clear index group => some (byte1 index ++ byte1 group)
  | .report code item => some (byte1 code ++ byte1 item ++ reportContent code item s)

/-- The source number of the station's own frames: 0 for CLAIM (R157, R160). -/
def State.sourceOf (s : State) (f : TxFrame) : Nat := if f.isKind 1 then 0 else s.dir.own

/-- The frame with its payload as it goes on the wire. -/
def State.wireFrame (s : State) (f : TxFrame) (payload : List Byte) : WireFrame :=
  ⟨f.cls, s.sourceOf f, f.body.kind, f.dst, payload⟩

/-- The station may transmit the frame in its station state (R156). -/
def State.mayTransmit (s : State) (f : TxFrame) : Bool := s.joined || (s.control.station == .claiming && f.isKind 1)

/-- The place of the first eligible frame: highest class first, then in order of admission (R166). -/
def State.firstEligible (s : State) : Option Nat :=
  [3, 2, 1, 0].findSome? (fun cls =>
    s.bus.queue.findIdx? (fun f => f.cls == cls && f.phase == .waiting && s.mayTransmit f))

/-- The first eligible frame is built and started; one whose build fails is withdrawn and the next is taken (R167). The
first argument bounds the frames tried by the places of the queue. -/
def startFrame : Nat → State → State
  | 0, s => s
  | fuel + 1, s =>
    match s.firstEligible with
    | none => s
    | some i =>
      match s.bus.queue[i]? with
      | none => s
      | some f =>
        match s.payload f with
        | none => startFrame fuel (s.withTx (s.bus.queue.eraseIdx i))
        | some p =>
          { s with bus := { s.bus with
              queue := s.bus.queue.modify i (fun f => { f with phase := .onBus })
              onWire := some (s.wireFrame f p)
              frameStart := some s.tracker.count
              answer := ⟨false, false, false⟩
              reservation := none } }

/-! ## The end of a frame (R162..R164, R170) -/

/-- The frame of the queue that is on the bus (R166). -/
def State.onBusFrame (s : State) : Option TxFrame := s.bus.queue.find? (fun f => f.phase == .onBus)

/-- A frame that was on the bus waits again. -/
def toWaiting (f : TxFrame) : TxFrame := if f.phase = .onBus then { f with phase := .waiting } else f

/-- The frame in progress ends at this station: its frame-start count, answers and reservation go (R6, R164). -/
def endFrame (s : State) : State :=
  { s with bus := { s.bus with onWire := none, frameStart := none, answer := ⟨false, false, false⟩, reservation := none } }

/-- The station's own frame on the bus leaves the queue. -/
def removeOnBus (s : State) : State := s.withTx (s.bus.queue.filter (fun f => f.phase != .onBus))

/-- The station's own frame on the bus waits again. -/
def keepOnBus (s : State) : State := s.withTx (s.bus.queue.map toWaiting)

/-- What the rule of the frame's kind makes of FAILED (R10, R23, R116, R176, R180); a HAND's acts by the board id (log entry 56). -/
def failedKind (f : TxFrame) (s : State) : State :=
  match f.body with
  | .hand id => handoverCheck id s
  | .done _ _ _ => countUnreported s
  | .alarm i _ _ _ _ _ => updateRecord i (fun r => { r with announced := r.announced && r.delivered }) s
  | .claim => { s with dir := { s.dir with claimListen := .running s.cfg.presencePeriod } }
  | .join _ => { s with dir := { s.dir with joinOwed := true } }
  | .status | .need | .lend _ | .returnShares | .recallShares | .amendMark _ _ _ | .amendLength _ _ | .amendPosition _
  | .clear _ _ | .report _ _ => s

/-- The frame fails (R169). -/
def failFrame (f : TxFrame) (s : State) : State :=
  let s1 := removeOnBus s
  failedKind f (raiseHeld 26 f.body.kind { s1 with bus := { s1.bus with failed := bump s1.bus.failed } })

/-- An attempt counts (R169): the frame takes the phase it then has, or fails at 16. -/
def countAttempt (f : TxFrame) (phase : TxPhase) (s : State) : State :=
  if 16 ≤ f.attempts + 1 then failFrame f s
  else s.withTx (s.bus.queue.map (fun g => if g.phase = .onBus then { g with attempts := g.attempts + 1, phase := phase } else g))

/-- A claimant goes to CLAIM_FAIL (R176, R177): its transmit queue is emptied. That its claim listen timer stops, so that no CLAIM is
queued in CLAIM_FAIL, is log entry 54 (DESIGN CHOICE, unsafe). -/
def failClaim (s : State) : State :=
  if s.control.station = .claiming then
    { s with
      control := { s.control with station := .claimFail }
      dir := { s.dir with claimListen := .stopped }
      bus := { s.bus with queue := [], onWire := none } }
  else s

/-- The backoff of a REFUSED frame; a backoff of 0 has run out at once (R166, log entry 16). -/
def State.backoff (s : State) : TxPhase := if s.cfg.busyBackoff = 0 then .waiting else .backoff s.cfg.busyBackoff

/-- The frame is REFUSED (R162). -/
def refuseFrame (f : TxFrame) (s : State) : State :=
  if f.body = .claim then failClaim s else countAttempt f s.backoff s

/-- What the rule of the frame's kind makes of DECLINED (R10, R23, R78, R80). -/
def declinedKind (f : TxFrame) (s : State) : State :=
  match f.body with
  | .hand id => updateBoard id (fun b => { b with heldBack := true }) s
  | .done _ _ _ => countUnreported s
  | .returnShares => surrender f.dst s
  | .recallShares => reclaim f.dst s
  | .claim | .join _ | .status | .need | .lend _ | .amendMark _ _ _ | .amendLength _ _ | .amendPosition _
  | .alarm _ _ _ _ _ _ | .clear _ _ | .report _ _ => s

/-- The frame is DECLINED (R162). -/
def declineFrame (f : TxFrame) (s : State) : State := declinedKind f (removeOnBus s)

/-- The outcome of the station's own frame from the three slots, where they do not commit it (R162). -/
def ownOutcome (f : TxFrame) (x : Slots) (s : State) : State :=
  if x.veto then countAttempt f .waiting s
  else if x.busy then refuseFrame f s
  else declineFrame f s

/-- The slots commit the station's own frame (R162). -/
def ownCommits (f : TxFrame) (x : Slots) : Bool := !x.veto && !x.busy && (x.ack || f.dst == 0)

/-! ## Answers (R161) -/

/-- The frame is faulty at a receiver (R159). -/
def faultyFrame (f : RawFrame) : Bool :=
  !f.readable || decide (40 < f.length.toNat) || f.payload.length != f.length.toNat
    || f.check != some (BitVec.ofNat 16
        (frameCheck (3 - f.cls.toNat) f.src.toNat f.kind.toNat f.dst.toNat f.length.toNat f.payload))

/-- The frame is faulty at its transmitter: a check bit it read differs from the one it sent (R159). -/
def faultyOwn (w : WireFrame) (f : RawFrame) : Bool :=
  f.check != some (BitVec.ofNat 16 (frameCheck w.cls w.src w.kind w.dst w.payload.length w.payload))

/-- The station answers with nothing, with ACK, with BUSY, with VETO. -/
def noAnswer : Slots := ⟨false, false, false⟩
def ackAnswer (b : Bool) : Slots := ⟨b, false, false⟩
def busyAnswer (b : Bool) : Slots := ⟨false, b, false⟩
def vetoAnswer : Slots := ⟨false, false, true⟩

/-- The pairs that follow the mark count of a HAND. -/
def pairsAt (l : List Byte) (k : Nat) : List (Nat × Nat) := (List.range k).map (fun i => (byteAt l (11 + 2 * i), byteAt l (12 + 2 * i)))

/-- No pair is repeated. -/
def noRepeats : List (Nat × Nat) → Bool
  | [] => true
  | p :: ps => !ps.contains p && noRepeats ps

/-- A HAND payload is in range (R12, case 2). -/
def handInRange (l : List Byte) : Bool :=
  let k := byteAt l 10
  l.length == 11 + 2 * k && halfAt l 0 != 0 && halfAt l 4 != 0 && decide (k ≤ 4) && decide (byteAt l 9 < 8)
    && (pairsAt l k).all (fun p => pairOk p.1 p.2) && noRepeats (pairsAt l k)

/-- HAND (R12). -/
def handAnswer (l : List Byte) (s : State) : Slots × Option Reservation :=
  if !s.joined || !handInRange l then (noAnswer, none)
  else if (s.board (halfAt l 0)).isSome then (ackAnswer true, none)
  else if 1 ≤ s.freePlaces then (ackAnswer true, some .boardPlace)
  else (busyAnswer true, none)

/-- ADMIT (R34). -/
def admitAnswer (src : Nat) (l : List Byte) (s : State) : Slots × Option Reservation :=
  if !s.joined || !s.cfg.roles.entry || !isPanel src || l.length != 4 then (noAnswer, none)
  else if halfAt l 1 == 0 || byteAt l 3 == 0 || (s.findSlot (Slot.isCurrent (byteAt l 0))).isNone then (noAnswer, none)
  else if 4 ≤ s.tracker.admissions.length then (busyAnswer true, none)
  else (ackAnswer true, none)

/-- LEND (R75). -/
def lendAnswer (src : Nat) (l : List Byte) (s : State) : Slots × Option Reservation :=
  let amount := halfAt l 0
  let known := hasLoan src s.shares.borrowed
  if !s.joined || !(decide (1 ≤ src) && decide (src ≤ 29)) || l.length != 2 then (noAnswer, none)
  else if !s.seated || !s.needOutstanding then (noAnswer, none)
  else if !known && decide (8 ≤ s.shares.borrowed.length) then (noAnswer, none)
  else if s.cfg.cap < s.shares.held + amount || amount == 0 then (noAnswer, none)
  else (ackAnswer true, if known then none else some .borrowedPlace)

/-- RETURN and RECALL: a JOINED station whose list holds a record for the source (R78, R80). -/
def loanAnswer (src : Nat) (l : List Byte) (list : List Loan) (s : State) : Slots × Option Reservation :=
  (ackAnswer (s.joined && decide (1 ≤ src) && decide (src ≤ 29) && l.length == 2 && hasLoan src list), none)

/-- The entry a WATCH asks for is in range: an action of 0 leaves the other fields out (R119). -/
def watchInRange (l : List Byte) : Bool := byteAt l 9 == 0 || (watchAt l 1).isSome

/-- WATCH (R119). The entry stands at offset 1; its action is byte 9 of the payload. -/
def watchAnswer (src : Nat) (l : List Byte) (s : State) : Slots × Option Reservation :=
  let fixed := match s.watch (byteAt l 0) with
    | .fixed _ => true
    | .empty | .panel _ => false
  (ackAnswer (s.joined && isPanel src && l.length == 12 && decide (byteAt l 0 ≤ 15) && watchInRange l && !fixed), none)

/-- SIGNAL (R150). -/
def signalAnswer (src : Nat) (l : List Byte) (s : State) : Slots × Option Reservation :=
  (ackAnswer (s.joined && isPanel src && l.length == 5 && s.control.mode == .service && decide (1 ≤ byteAt l 0)
    && decide (byteAt l 0 ≤ 4)), none)

/-- A RESTART would be taken (R151, R152). -/
def State.restartable (s : State) : Bool := s.tracker.queue.isEmpty && s.control.condition != .tripped

/-- RESTART (R151). -/
def restartAnswer (src : Nat) (l : List Byte) (s : State) : Slots × Option Reservation :=
  (ackAnswer (s.joined && isPanel src && l.isEmpty && s.control.mode == .idle && s.restartable), none)

/-- QUERY (R153). -/
def queryAnswer (src : Nat) (l : List Byte) (s : State) : Slots × Option Reservation :=
  if !s.joined || !isPanel src || l.length != 2 || !queryInRange (byteAt l 0) (byteAt l 1) then (noAnswer, none)
  else if s.admits 1 then (ackAnswer true, some .txPlace)
  else (busyAnswer true, none)

/-- A frame directed to the station (R161). -/
def directedAnswer (kind src : Nat) (l : List Byte) (s : State) : Slots × Option Reservation :=
  match kind with
  | 8 => handAnswer l s
  | 19 => admitAnswer src l s
  | 5 => lendAnswer src l s
  | 6 => loanAnswer src l s.shares.lent s
  | 7 => loanAnswer src l s.shares.borrowed s
  | 20 => (ackAnswer (s.joined && isPanel src && l.length == 1), none)
  | 22 => watchAnswer src l s
  | 24 => signalAnswer src l s
  | 25 => restartAnswer src l s
  | 23 => queryAnswer src l s
  | _ => (noAnswer, none)

/-- The RECIPE of a payload, in range (R30). -/
def recipeInRangeAt (l : List Byte) : Bool :=
  l.length == 28 && recipeInRange (byteAt l 0) (byteAt l 2) (byteAt l 23) (byteAt l 24)

/-- The holder of the claimed number defends it (R178). -/
def State.defends (s : State) (l : List Byte) : Bool :=
  s.joined && l.length == 14 && decide (1 ≤ byteAt l 6) && decide (byteAt l 6 ≤ 29) && byteAt l 6 == s.dir.own
    && uidAt l 0 != s.uid.toNat

/-- BUSY for a broadcast (R30, R178). -/
def broadcastAnswer (kind src : Nat) (l : List Byte) (s : State) : Slots :=
  match kind with
  | 17 => busyAnswer (s.joined && isPanel src && recipeInRangeAt l && s.recipeBusy (byteAt l 0) (byteAt l 1))
  | 1 => busyAnswer (s.defends l)
  | _ => noAnswer

/-- The answer of a station and what it reserves (R159, R161, R164). -/
def answerTo (f : RawFrame) (s : State) : Slots × Option Reservation :=
  match s.bus.onWire with
  | some w => (if faultyOwn w f then vetoAnswer else noAnswer, none)
  | none =>
    if faultyFrame f then (vetoAnswer, none)
    else if f.dst = 0 then (broadcastAnswer f.kind.toNat f.src.toNat f.payload s, none)
    else if f.dst.toNat = s.dir.own then directedAnswer f.kind.toNat f.src.toNat f.payload s
    else (noAnswer, none)

/-! ## Commits (R163) -/

/-- What a commit leaves to the effects of its kind: whether the frame was this station's own, whether it acknowledged it as
the destination, the frame-start count, and whether a place of the transmit queue was reserved for it. -/
structure Commit where
  own      : Bool
  forMe    : Bool
  start    : BitVec 32
  reserved : Bool
deriving DecidableEq, Repr

/-- The frame that commits is the one this station transmits: header and payload agree in every bit (R160). -/
def State.ownsFrame (s : State) (kind src dst : Nat) (payload : List Byte) : Bool :=
  match s.bus.onWire with
  | some w => w.kind == kind && w.src == src && w.dst == dst && w.payload == payload
  | none => false

/-- The contact timers as they start (R171). -/
def State.contactTimer (s : State) : Timer := .running (3 * s.cfg.presencePeriod)

/-- The exit from isolation (R171): ISOLATED is released and JOIN queued, unless one of the station is in the queue. -/
def leaveIsolation (s : State) : State :=
  let s1 := releaseHeld 27 s
  settle (if s1.hasFrame (TxFrame.isKind 2) then s1 else queueJoin s1)

/-- A contact timer restarts; the station may leave isolation (R171). -/
def restartContact (own : Bool) (s : State) : State :=
  if !s.joined then s
  else
    let s1 := if own then { s with bus := { s.bus with ownContact := s.contactTimer } }
      else { s with bus := { s.bus with peerContact := s.contactTimer } }
    if s.isolated && !s1.isolated then leaveIsolation s1 else s1

/-- BUS_DELIVERY is released at a commit of the station's own (R169). -/
def deliverOwn (s : State) : State := if (s.cause 26).raised then settle (releaseHeld 26 s) else s

/-- The frame in progress commits: a reservation made for it stands until the effects of its kind have used it (R164). -/
def closeFrame (s : State) : State :=
  { s with bus := { s.bus with onWire := none, frameStart := none, answer := ⟨false, false, false⟩ } }

/-- The reservation goes (R164). -/
def dropReservation (s : State) : State := { s with bus := { s.bus with reservation := none } }

/-- What every commit does before the effects of its kind (R6, R163, R169, R171, R174). A frame with source 0, a JOIN too, restarts
the peer-contact timer (log entry 48). -/
def commitFrame (own : Bool) (src : Nat) (s : State) : State :=
  let s1 := closeFrame (if own then removeOnBus s else keepOnBus s)
  if own then deliverOwn (restartContact true s1)
  else touch src (if s.joined && src == s.dir.own && src != 0 then s1 else restartContact false s1)

/-- A commit at this station: nothing unless the frame was seen from its start (R163), otherwise the common part and then
the effects of the kind. The sender brings a commit only for slots that commit the frame: the station's own VETO or BUSY, with which
R162 gives no commit, is not tested here (log entry 51, DESIGN CHOICE, safe). -/
def committed (kind src dst : Nat) (payload : List Byte) (effect : Commit → State → State) (s : State) : Result :=
  match s.bus.frameStart with
  | none => .next s
  | some start =>
    let own := s.ownsFrame kind src dst payload
    .next (dropReservation (effect ⟨own, s.bus.answer.ack && dst == s.dir.own, start, s.bus.reservation == some .txPlace⟩
      (commitFrame own src s)))

end Sys2Proof.Machine
end

