-- ==== Sys2Proof/Machine/BusEvents.lean ====
section
/-! DEFINITION. The meanings of the line bus events below the commit (10). -/

namespace Sys2Proof.Machine

open Sys2Proof

/-- BUS_STUCK (R170): the frame in progress is abandoned, once for each stuck stretch, which lasts until BUS_IDLE (log entry
45). -/
def execBusStuck (s : State) : Result :=
  if !s.receives || s.bus.stuck then .next s
  else
    let s1 := { s with bus := { s.bus with stuck := true, footing := false, stuckCount := bump s.bus.stuckCount } }
    match s.onBusFrame with
    | none => .next (endFrame s1)
    | some f => .next (settle (countAttempt f .waiting (endFrame s1)))

/-- BUS_IDLE (R158, R170): both wires have been recessive for 10 bit times. -/
def execBusIdle (s : State) : Result :=
  if s.receives then .next { s with bus := { s.bus with stuck := false, footing := true } } else .next s

/-- FRAME_START (R6, R158): of another participant's frame, or of one that starts on the same bit as the station's own. A start while
a received frame is still in progress, which R158 excludes, is taken as the start of a new frame: the old frame ends here without an
outcome (log entry 52, DESIGN CHOICE, safe). -/
def execFrameStart (s : State) : Result :=
  if s.receives && s.bus.footing && s.bus.onWire.isNone then
    .next { s with bus := { s.bus with frameStart := some s.tracker.count, answer := noAnswer, reservation := none } }
  else .next s

/-- START_OF_TRANSMISSION (R158, R166, R167): with its footing and no frame in progress. -/
def execStartOfTransmission (s : State) : Result :=
  if s.bus.footing && s.bus.frameStart.isNone then .next (startFrame 16 s) else .next s

/-- LOST_ARBITRATION (R160): the frame stays in its place with its attempt count, and the station becomes a receiver. -/
def execLostArbitration (s : State) : Result :=
  if s.bus.onWire.isSome then .next { keepOnBus s with bus := { (keepOnBus s).bus with onWire := none } } else .next s

/-- ACK_SLOT (R159, R161, R164). A second one in the same frame decides again (log entry 52, DESIGN CHOICE, safe). -/
def execAckSlot (frame : RawFrame) (s : State) : Result :=
  if s.bus.frameStart.isSome then
    .next { s with bus := { s.bus with answer := (answerTo frame s).1, reservation := (answerTo frame s).2 } }
  else .next s

/-- The slots end a frame that another participant sent without a commit (R162, R164). The state does not hold whether that frame was
a broadcast, so slots with none asserted count as those of a DECLINED directed frame (log entry 53, DESIGN CHOICE, safe). -/
def othersOutcome (x : Slots) : Bool := x.veto || x.busy || !x.ack

/-- FRAME_OUTCOME (R162): the frame ends aborted, REFUSED or DECLINED. Slots that commit it are the commit's own command (log entry
20), but for a broadcast of another participant with no slot asserted, which ends as not committed (log entry 53). -/
def execFrameOutcome (slots : Slots) (s : State) : Result :=
  if s.bus.frameStart.isNone then .next s
  else
    match s.onBusFrame with
    | some f => if ownCommits f slots then .next s else .next (settle (ownOutcome f slots (endFrame s)))
    | none => if othersOutcome slots then .next (endFrame s) else .next s

end Sys2Proof.Machine
end

