-- ==== Sys2Proof/Machine/Extraction.lean ====
section
/-! DEFINITION. The extraction monitor (08): the request, the ducts, and the two conditions they drive. -/

namespace Sys2Proof.Machine

open Sys2Proof

/-- Every enabled duct changed. -/
def mapDucts (f : Nat → Duct → Duct) (s : State) : State :=
  { s with extraction := { s.extraction with
      ducts := s.extraction.ducts.mapIdx (fun n d => if s.ductEnabled n then f n d else d) } }

/-- The first enabled duct in a state, if one is (R129). -/
def State.ductIn (s : State) (st : DuctState) : Option Nat :=
  [0, 1].find? (fun n => s.ductEnabled n && (s.duct n).state == st)

/-- EXTRACT_FAILED and EXTRACT_LOST follow the proving states (R129); before them the spray unit (R46). -/
def driveDucts (s : State) : State :=
  let s1 := sprayUpdate s
  let s2 := holdWhile 24 ((s1.ductIn .failed).getD 0) (s1.ductIn .failed).isSome s1
  holdWhile 25 ((s2.ductIn .lost).getD 0) (s2.ductIn .lost).isSome s2

/-- The prove timer as it starts (R128). -/
def State.proveTimer (s : State) : Timer := if s.cfg.proveTimeout = 0 then .stopped else .running s.cfg.proveTimeout

/-- A duct at the entry to PROVING (R127, R128). -/
def provingDuct (t : Timer) (d : Duct) : Duct := { d with state := .proving, prove := 0, timer := t }

/-- The request comes on (R128). -/
def requestOn (s : State) : State :=
  mapDucts (fun _ d => if d.state = .off then provingDuct s.proveTimer d else d)
    { s with extraction := { s.extraction with request := true, runOn := .stopped } }

/-- The request goes off: every enabled duct goes to OFF (R128). -/
def requestOff (s : State) : State :=
  driveDucts (mapDucts (fun _ _ => ⟨.off, 0, 0, .stopped⟩)
    { s with extraction := { s.extraction with request := false, runOn := .stopped } })

/-- The causes of the request are tested (R125). -/
def testRequest (s : State) : State :=
  if s.extractionCause then
    if s.extraction.request then { s with extraction := { s.extraction with runOn := .stopped } } else requestOn s
  else if s.extraction.request && !s.extraction.runOn.isRunning then
    if s.cfg.runOnTime = 0 then requestOff s
    else { s with extraction := { s.extraction with runOn := .running (s.cfg.runOnTime * 1000) } }
  else s

/-- A proving test in SERVICE (R128). -/
def provingTest (s : State) : State :=
  driveDucts (mapDucts (fun _ d => if d.state = .off then d else provingDuct s.proveTimer d) s)

/-- The samples needed (R124: 0 is taken as 1). -/
def neededSamples (n : Nat) : Nat := if n = 0 then 1 else n

/-- An enabled duct at a sample of its pressure (R127). In PROVEN the loss test decides also for a sample at or above the
prove threshold, as the rule says of a loss threshold above it (log entry 24). -/
def sampleDuct (c : StationConfig) (q : Quantity) (d : Duct) : Duct :=
  let proves := q.valid && decide ((c.proveThreshold : Int) ≤ q.value)
  match d.state with
  | .off => d
  | .proven =>
    if q.valid && decide ((c.lossThreshold : Int) ≤ q.value) then { d with loss := 0 }
    else if neededSamples c.lossSamples ≤ d.loss + 1 then { d with state := .lost, loss := d.loss + 1, prove := 0 }
    else { d with loss := d.loss + 1 }
  | .proving | .lost | .failed =>
    if proves then
      if neededSamples c.proveHold ≤ d.prove + 1 then ⟨.proven, d.prove + 1, 0, .stopped⟩
      else { d with prove := d.prove + 1 }
    else { d with prove := 0 }

/-- Duct `n` takes its sample, and what reads it follows. -/
def ductSample (n : Nat) (s : State) : State :=
  driveDucts (mapDucts (fun k d => if k = n then sampleDuct s.cfg (s.quantity (25 + n)) d else d) s)

/-- The prove timer of duct `n` expires in PROVING (R128). -/
def failDuct (n : Nat) (s : State) : State :=
  driveDucts (mapDucts (fun k d => if k = n then { d with state := .failed, timer := .stopped } else d) s)

end Sys2Proof.Machine
end

