-- ==== Sys2Proof/Machine/Image.lean ====
section
/-! DEFINITION. The configuration image: its layout (13.5) and its checks (R186). -/

namespace Sys2Proof.Machine

open Sys2Proof

/-- The 402 bytes the loader holds when the read ends: a byte no memory drove reads as 255 (R185). -/
def imageBytes (image : List Byte) : List Byte := (image ++ List.replicate 402 255).take 402

/-! ## Layout (13.5) -/

/-- The zone codes (R189). -/
def zoneOf : Nat → Zone
  | 0 => .unused
  | 9 => .pot
  | 10 => .standbyOnly
  | n => .preheat n

/-- Channel `n`, at 43 + 9n. -/
def channelAt (l : List Byte) (n : Nat) : ChannelConfig :=
  let o := 43 + 9 * n
  { zone := zoneOf (byteAt l o), rated := halfAt l (o + 1), priority := byteAt l (o + 3), kp := byteAt l (o + 4),
    ki := byteAt l (o + 5), phase := byteAt l (o + 6), standby := signed16 (halfAt l (o + 7)) }

/-- Group `g` 1..8, at 175 + 6 × (g − 1), from `i` = g − 1. The four bytes of the member mask are read most significant byte
first (log entry 55, DESIGN CHOICE). -/
def groupAt (l : List Byte) (i : Nat) : GroupConfig :=
  { members := BitVec.ofNat 32 (wordAt l (175 + 6 * i)), actions := BitVec.ofNat 8 (byteAt l (179 + 6 * i)),
    mark := byteAt l (180 + 6 * i) }

/-- The eye position, none when the field holds all ones. -/
def eyeOf (n : Nat) : Option Nat := if n = 16777215 then none else some n

/-- The fields of an image (13.5). -/
def parseImage (l : List Byte) : StationConfig where
  preferred := byteAt l 4
  roles := ⟨bitOf (byteAt l 5) 0, bitOf (byteAt l 5) 1, bitOf (byteAt l 5) 2, bitOf (byteAt l 5) 3⟩
  winStart := posAt l 6
  winEnd := posAt l 9
  handoverLead := halfAt l 12
  eyePos := eyeOf (posAt l 14)
  eyeTolerance := halfAt l 17
  lengthTolerance := halfAt l 19
  countsPerMetre := posAt l 21
  stallTime := halfAt l 24
  holdOverTime := halfAt l 26
  bitRate := byteAt l 28
  presencePeriod := halfAt l 29
  agingInterval := halfAt l 31
  busyBackoff := byteAt l 33
  cap := halfAt l 34
  base := halfAt l 36
  lendMargin := halfAt l 38
  returnHysteresis := halfAt l 40
  heaterPeriod := byteAt l 42
  channels := (List.range 8).map (channelAt l)
  refChannel := byteAt l 115
  meltSafe := signed16 (halfAt l 116)
  feedOn := signed16 (halfAt l 118)
  feedOff := signed16 (halfAt l 120)
  lowLow := signed16 (halfAt l 122)
  feedLimit := halfAt l 124
  mainDrawdown := halfAt l 126
  chipDrawdown := halfAt l 128
  wavePos := posAt l 130
  raiseLead := halfAt l 133
  lowerLag := halfAt l 135
  rampRate := byteAt l 137
  settleTime := halfAt l 138
  sprayPos := posAt l 140
  nozzleCount := byteAt l 143
  flowLag := halfAt l 144
  ductEnabled := [bitOf (byteAt l 146) 0, bitOf (byteAt l 146) 1]
  proveThreshold := halfAt l 147
  lossThreshold := halfAt l 149
  proveHold := byteAt l 151
  lossSamples := byteAt l 152
  proveTimeout := halfAt l 153
  runOnTime := halfAt l 155
  heatThreshold := signed16 (halfAt l 157)
  failedLevel := if byteAt l 159 = 4 then .trip else .hold
  lostLevel := if byteAt l 160 = 4 then .trip else .hold
  lostLatching := byteAt l 161 == 1
  builtinGroups := (List.range 13).map (fun i => byteAt l (162 + i))
  groups := (List.range 8).map (groupAt l)
  fixedWatches := (List.range (byteAt l 223)).filterMap (fun n => watchAt l (224 + 11 * n))

/-! ## Checks (R186), in the manual's order -/

/-- Check 1: the marker. -/
def markerGood (l : List Byte) : Bool := halfAt l 0 == 0xA548

/-- Check 2: the length. -/
def lengthGood (l : List Byte) : Bool := halfAt l 2 == 402

/-- Check 3: the CRC of bytes 0..399. -/
def crcGood (l : List Byte) : Bool := halfAt l 400 == crcBytes (l.take 400) 65535

/-- The bit rate field holds one of the three rates (R187, R189). -/
def rateGood (l : List Byte) : Bool := 1 ≤ byteAt l 28 && byteAt l 28 ≤ 3

/-- Ranges of the Station, Bus and Shares groups. -/
def stationRanges (l : List Byte) : Bool :=
  1 ≤ byteAt l 4 && byteAt l 4 ≤ 29 && byteAt l 5 < 16 && posAt l 6 < posAt l 9 && 1 ≤ posAt l 21
    && rateGood l && 100 ≤ halfAt l 29 && halfAt l 29 ≤ 2000 && 2 * halfAt l 29 ≤ halfAt l 31 && halfAt l 31 ≤ 60000
    && 1 ≤ halfAt l 34 && halfAt l 34 ≤ 4000 && halfAt l 36 ≤ halfAt l 34

/-- Ranges of one heater channel. -/
def channelRanges (l : List Byte) (n : Nat) : Bool :=
  byteAt l (43 + 9 * n) ≤ 10 && halfAt l (44 + 9 * n) ≤ 400 && byteAt l (46 + 9 * n) ≤ 3

/-- Ranges of the Heater, Pot and Flux groups. -/
def processRanges (l : List Byte) : Bool :=
  5 ≤ byteAt l 42 && byteAt l 42 ≤ 100 && (List.range 8).all (channelRanges l) && byteAt l 115 ≤ 7
    && decide (signed16 (halfAt l 118) < signed16 (halfAt l 120))
    && decide (signed16 (halfAt l 122) < signed16 (halfAt l 118)) && byteAt l 143 ≤ 8

/-- Range of one group of the group table: stations 1..29, the five actions, mark code. The four bytes of the member mask are
read most significant byte first (log entry 55, DESIGN CHOICE). -/
def groupRanges (l : List Byte) (i : Nat) : Bool :=
  wordAt l (175 + 6 * i) % 2 == 0 && wordAt l (175 + 6 * i) < 2 ^ 30 && byteAt l (179 + 6 * i) < 32
    && optMarkOk (byteAt l (180 + 6 * i))

/-- Ranges of the Extraction, Built-in groups, Groups and Watches groups. -/
def alarmRanges (l : List Byte) : Bool :=
  byteAt l 146 < 4 && (byteAt l 159 == 3 || byteAt l 159 == 4) && (byteAt l 160 == 3 || byteAt l 160 == 4)
    && byteAt l 161 ≤ 1 && (List.range 13).all (fun i => byteAt l (162 + i) ≤ 8) && (List.range 8).all (groupRanges l)
    && byteAt l 223 ≤ 16 && (List.range (byteAt l 223)).all (fun n => (watchAt l (224 + 11 * n)).isSome)
    && (byteAt l 223 == 0 || byteAt l 223 == 16 || !bitOf (byteAt l (230 + 11 * (byteAt l 223 - 1))) 7)

/-- Check 4: every range of the table. -/
def rangesGood (l : List Byte) : Bool := stationRanges l && processRanges l && alarmRanges l

/-- Check 5: the fields agree with the roles. -/
def rolesGood (l : List Byte) : Bool :=
  (!bitOf (byteAt l 5) 0 || posAt l 14 == 0) && (!bitOf (byteAt l 5) 1 || (1 ≤ byteAt l 143 && byteAt l 143 ≤ 8))
    && (!bitOf (byteAt l 5) 3 || byteAt l (43 + 9 * byteAt l 115) == 9)

/-- The image was good up to its check, so that its bit rate may be used (R187). -/
def imageSound (l : List Byte) : Bool := markerGood l && lengthGood l && crcGood l

/-- The image is accepted (R186). -/
def imageAccepted (l : List Byte) : Bool := imageSound l && rangesGood l && rolesGood l

end Sys2Proof.Machine
end

