-- ==== Sys2Proof/Machine/StartEvents.lean ====
section
/-! DEFINITION. The meanings of the start (12) and the shared operations of a station that joins or restarts (09, 11). -/

namespace Sys2Proof.Machine

open Sys2Proof

/-- START_RESET (R184): every block at its start-reset values. Kept: the uid, what the other stations pull on the two wires,
and the model's own queue and counter. The trip line is sensed as the others leave it (log entry 8). -/
def execStartReset (pinHeld : Bool) (s : State) : Result :=
  .next { State.reset with
    uid := s.uid
    loader := .reset pinHeld
    control := { Control.reset with
      tripOthers := s.control.tripOthers
      permitOthers := s.control.permitOthers
      tripSensed := s.control.tripOthers }
    free := s.free
    pending := s.pending }

/-- RESET_PIN_RELEASE (R184, R185): the start reset ends and the read begins from byte 0. -/
def execResetPinRelease (s : State) : Result :=
  if s.loader.phase = .pinHeld then .next { s with loader := { s.loader with phase := .reading, buffer := [] } } else .next s

/-- The watch entries after a good load (R105). -/
def loadedEntries (c : StationConfig) : List WatchEntry :=
  (List.range 16).map (fun n => match c.fixedWatches[n]? with
    | some d => .fixed d
    | none => .empty)

/-- An accepted image (R188): the station enters CLAIMING. -/
def acceptImage (bytes : List Byte) (s : State) : State :=
  let c := parseImage bytes
  { s with
    loader := ⟨.done, bytes, some c, false⟩
    control := { s.control with station := .claiming }
    dir := { s.dir with claimListen := .running c.presencePeriod, aging := .running c.agingInterval }
    alarms := { s.alarms with entries := loadedEntries c } }

/-- A refused image (R187). -/
def refuseImage (bytes : List Byte) (s : State) : State :=
  { s with
    loader := ⟨.done, bytes, none, imageSound bytes && rateGood bytes⟩
    control := { s.control with station := .configFault } }

/-- IMAGE_READ_END (R185, R186). -/
def execImageReadEnd (image : List Byte) (s : State) : Result :=
  if s.control.station = .loading ∧ s.loader.phase = .reading then
    .next (if imageAccepted (imageBytes image) then acceptImage (imageBytes image) s else refuseImage (imageBytes image) s)
  else .next s

/-! ## Joining and restarting -/

/-- The work of a heater period start (R52, R65, R71, R77, R84, R125). -/
def periodWork (s : State) : State := testRequest (shareHandOver (heaterPeriod s))

/-- Every held cause that is raised takes its record to ACTIVE, in rising index (R110, R123). -/
def takeCauses (s : State) : State := (List.range' 16 13).foldl (fun s i => takeCause i s) s

/-- The line first-out record of a station that becomes JOINED (R148). -/
def openLineRecord (s : State) : State :=
  if s.control.tripSensed then { s with control := lineSensed true s.control } else s

/-- The own number of a station that has claimed `n`. -/
def claimedNumber (n : Nat) : Nat := if 1 ≤ n ∧ n ≤ 29 then n else 0

/-- The station is JOINED under number `n`, in IDLE, with its presence and contact timers started (R142, R171, R173, R176,
R182). -/
def enterJoined (n : Nat) (s : State) : State :=
  { s with
    control := { s.control with station := .joined, mode := .idle }
    dir := { s.dir with
      entries := s.dir.entries.set (claimedNumber n) none
      own := claimedNumber n
      incarnation := some 0
      claimListen := .stopped
      presence := .running s.cfg.presencePeriod }
    bus := { s.bus with ownContact := s.contactTimer, peerContact := s.contactTimer } }

/-- The commit of the own CLAIM of number `n` (R69, R148, R176): the units start, and their first period begins. -/
def becomeJoined (n : Nat) (s : State) : State :=
  let s2 := recondition (takeCauses (openLineRecord (updateNeighbour [] (seat (enterJoined n s)))))
  settle (periodWork (reannounceAll s2.needsAnnouncing s2))

/-- The commit of the own JOIN (R69, R136, R180). -/
def ownJoin (s : State) : State :=
  let s1 := seat s
  reannounceAll s1.needsAnnouncing s1

/-- The other stations' commit effects of a CLAIM or JOIN at a JOINED station, once the entry is written (R7, R81, R136). -/
def welcome (k : Nat) (s : State) : State := settle (updateNeighbour [] (peerJoined k s))

/-- A channel at a RESTART commit (R66): its pulses end, its integral and its freeze history go. -/
def restartChannel (c : Channel) : Channel := { c with integral := 0, regulated := false, pulse := 0, runOn := 0 }

/-- The watch entries that stay at RESTART (R123). -/
def keepFixed : WatchEntry → WatchEntry
  | .fixed d => .fixed d
  | .empty | .panel _ => .empty

/-- The held causes at RESTART (R85, R123, R130): those of the ducts and of the share unit are released. -/
def restartCauses (l : List Cause) : List Cause :=
  l.mapIdx (fun k c => if k = 8 ∨ k = 9 ∨ k = 12 then { c with raised := false } else c)

/-- The RESTART columns of the blocks' reset tables (R25, R27, R50, R66, R85, R101, R123, R130, R140, R155, R172, R183).
The measurement table is kept whole, LEVEL with it, up to the next sample event (log entry 40). -/
def restartBlocks (s : State) : State :=
  { s with
    control := { s.control with mode := .idle, service := 0 }
    dir := { s.dir with
      incarnation := s.dir.incarnation.map (fun n => (n + 1) % 256)
      claimListen := .stopped
      joinOwed := false }
    bus := { s.bus with queue := [], onWire := none, reservation := none }
    tracker := { s.tracker with
      queue := []
      admissions := []
      underEye := none
      stall := if s.control.permitSensed then s.stallStart else .stopped }
    recipes := .reset
    spray := { s.spray with oneShots := List.replicate 8 none, counting := none }
    heater := { s.heater with channels := s.heater.channels.map restartChannel }
    shares := .reset
    pot := .reset
    extraction := .reset
    alarms := { s.alarms with
      entries := s.alarms.entries.map keepFixed
      records := List.replicate 29 .blank
      causes := restartCauses s.alarms.causes }
    groups := .reset }

/-- A RESTART is taken (R152): the reset values first, then the new period start, so that a shortfall of that period counts as
the first (R85, log entry 39). -/
def restartStation (s : State) : State :=
  let s1 := takeCauses (updateNeighbour [] (queueJoin (restartBlocks s)))
  settle (periodWork (recondition s1))

end Sys2Proof.Machine
end

