-- ==== Sys2Proof/Machine/FieldEvents.lean ====
section
/-! DEFINITION. The meanings of the field signals: encoder, eyes, flow meter, line wires, and the sample event. -/

namespace Sys2Proof.Machine

open Sys2Proof

/-! ## Encoder and flow meter -/

/-- CONVEYOR_STALL at a count event: it is released, and the stall timer starts again while the permit is sensed active (R18). -/
def stallCounted (s : State) : State :=
  releaseHeld 19 (if s.control.permitSensed then s.withStall s.stallStart else s)

/-- The new count, and the queue back in order (R3, R4). -/
def countStep (forward : Bool) (s : State) : State :=
  reorder { s with tracker := { s.tracker with count := if forward then s.tracker.count + 1 else s.tracker.count - 1 } }

/-- COUNT_EVENT (R4, R5). -/
def execCountEvent (forward : Bool) (s : State) : Result :=
  let s1 := countStep forward s
  .next (settle (positionEvents (movedBoards s s1) (stallCounted s1)))

/-- FLOW_PULSE (R47). A pulse counts in every station state; that it counts while the reset pin is held too, where R184 keeps the
station at the start reset with its count at 0 (R50), is log entry 57 (DESIGN CHOICE, unsafe). -/
def execFlowPulse (s : State) : Result :=
  let s1 := { s with spray := { s.spray with flowCount := s.spray.flowCount + 1 } }
  match s.spray.counting with
  | none => .next s1
  | some id => .next (updateBoard id (fun b => { b with flowPulses := bump b.flowPulses }) s1)

/-! ## Eyes -/

/-- The board under the eye. -/
def State.withUnderEye (s : State) (id : Option Nat) : State := { s with tracker := { s.tracker with underEye := id } }

/-- The id that follows in the board sequence (R14). -/
def nextBoardId (n : Nat) : Nat := if n < 65535 then n + 1 else 1

/-- The first id of the sequence that is not held; 8 records can hold at most 8 ids, so 9 tries find one. -/
def freshId (held : List Nat) : Nat → Nat → Nat
  | 0, n => n
  | fuel + 1, n => if held.contains n then freshId held fuel (nextBoardId n) else n

/-- Recipe, version, length and admitted length of a board that enters, and whether it has neither admission nor default (R14). -/
def State.entryData (s : State) : Nat × Nat × Nat × Option Nat × Bool :=
  match s.tracker.admissions with
  | a :: _ => (a.recipe, a.version, a.length, some a.length, false)
  | [] =>
    match s.recipes.slots.find? (·.isDefault) with
    | some sl => (sl.number, sl.version, 1, none, false)
    | none => (0, 0, 1, none, true)

/-- The head admission's count falls by one; at 0 it is removed and its slot's count falls (R14, R28). -/
def useAdmission (s : State) : State :=
  match s.tracker.admissions with
  | [] => s
  | a :: rest =>
    if 1 < a.count then { s with tracker := { s.tracker with admissions := { a with count := a.count - 1 } :: rest } }
    else dropRef (s.resolve a.recipe a.version) { s with tracker := { s.tracker with admissions := rest } }

/-- The record that the entry eye creates (R14). -/
def State.entryBoard (s : State) (id : Nat) : Board :=
  let d := s.entryData
  let line : LineRecord :=
    { id, recipe := d.1, version := d.2.1, length := d.2.2.1, unannounced := s.tracker.admissions.isEmpty,
      lengthFinal := false, markOverflow := false, marks := [] }
  let b := { freshBoard line 0 s.tracker.count with confirmed := true, admitted := d.2.2.2.1 }
  { b with noRecipeNoted := d.2.2.2.2 && s.inWindow b }

/-- A board enters (R14): the record joins the queue and is resolved before the admission's own count falls, so that a slot
held by the admission alone is not freed between. -/
def enterBoard (s : State) : State :=
  let id := freshId s.boardIds 9 s.tracker.nextId
  let b := s.entryBoard id
  let s1 := joinQueue b { s with tracker := { s.tracker with nextId := nextBoardId id, underEye := some id } }
  let s2 := useAdmission s1
  let s3 := if s.entryData.2.2.2.2 then occurrence 20 id (addMark id 7 s2) else s2
  settle (workRequests (takeInChecks id s3))

/-- ENTRY_LEADING_EDGE (R14). -/
def execEntryLeadingEdge (s : State) : Result :=
  if !s.joined then .next (s.withUnderEye none)
  else if !s.cfg.roles.entry then .next s
  else if s.freePlaces = 0 then .next (settle (occurrence 17 s.tracker.queue.length (s.withUnderEye none)))
  else .next (enterBoard s)

/-- The measured length (R15). -/
def measuredLength (pos : Nat) : Nat := if pos = 0 then 1 else min pos 65535

/-- The length of the board under the eye is measured (R15). -/
def measureBoard (b : Board) (s : State) : State :=
  let m := measuredLength (s.pos b)
  let id := b.line.id
  let s1 := updateLine id (fun r => { r with length := m, lengthFinal := true }) s
  let off := match b.admitted with
    | some a => decide (s.cfg.lengthTolerance < m - a) || decide (s.cfg.lengthTolerance < a - m)
    | none => false
  let s2 := if off then addMark id 8 s1 else s1
  (if b.handed.isSome then queueOrDrop (newFrame 1 0 (.amendLength id m)) s2 else s2).withUnderEye none

/-- ENTRY_TRAILING_EDGE (R15). -/
def execEntryTrailingEdge (s : State) : Result :=
  match s.tracker.underEye.bind s.board with
  | some b => .next (measureBoard b s)
  | none => .next s

/-- The record is a candidate at the eye (R16, R17). -/
def State.eyeCandidate (s : State) (eye : Nat) (b : Board) : Bool :=
  !b.confirmed && !b.seenMissing && decide (eye ≤ s.pos b + s.cfg.eyeTolerance) && decide (s.pos b ≤ eye + s.cfg.eyeTolerance)

/-- How far a record stands from the eye. -/
def eyeDistance (eye pos : Nat) : Nat := (eye - pos) + (pos - eye)

/-- The nearest candidate; at equal distance the greater L, which stands earlier in the queue (R3, R16). Of two with the same L the
one earlier in the queue is taken (log entry 46). -/
def State.chooseAtEye (s : State) (eye : Nat) : Option Board :=
  (s.tracker.queue.filter (s.eyeCandidate eye)).foldl (fun best b => match best with
    | none => some b
    | some x => if eyeDistance eye (s.pos b) < eyeDistance eye (s.pos x) then some b else some x) none

/-- The chosen record is confirmed (R16); the queue is put back into order whether or not an L has changed (R3, R89). -/
def confirmBoard (id eye : Nat) (s : State) : State :=
  let s1 := reorder (updateBoard id (fun b => { b with anchorPos := eye, anchorCount := s.tracker.count, confirmed := true }) s)
  workRequests (positionEvents (movedBoards s s1) (queueOrDrop (newFrame 1 0 (.amendPosition id)) s1))

/-- EYE_LEADING_EDGE (R16). -/
def execEyeLeadingEdge (s : State) : Result :=
  match s.cfg.eyePos with
  | none => .next s
  | some eye =>
    if !s.joined || s.cfg.roles.entry then .next s
    else
      match s.chooseAtEye eye with
      | some b => .next (settle (confirmBoard b.line.id eye s))
      | none => .next (settle (occurrence 17 s.tracker.queue.length s))

/-! ## Line wires -/

/-- PERMIT_LINE_CHANGE (R18, R146). -/
def execPermitLineChange (othersPull : Bool) (s : State) : Result :=
  .next (settle { s with control := { s.control with permitOthers := othersPull } })

/-- TRIP_LINE_CHANGE (R144, R145, R148). -/
def execTripLineChange (othersPull : Bool) (s : State) : Result :=
  .next (settle (recondition { s with control := { s.control with tripOthers := othersPull } }))

/-! ## The sample event (R102, log entry 24) -/

/-- Thermocouple input `n` of a sample. -/
def thermocouple (x : Samples) (n : Nat) : Sensor := x.thermocouples.getD n ⟨0, false⟩

/-- Duct pressure input `n` of a sample. -/
def ductInput (x : Samples) (n : Nat) : Sensor := x.ducts.getD n ⟨0, false⟩

/-- The zone of channel `n` is not UNUSED. -/
def State.fitted (s : State) (n : Nat) : Bool := (s.channelConfig n).zone != .unused

/-- The open-circuit results by sensor code (R104). -/
def State.openResults (s : State) (x : Samples) : List Bool :=
  (List.range 8).map (fun n => s.fitted n && (thermocouple x n).isOpen)
    ++ (List.range 2).map (fun n => s.ductEnabled n && (ductInput x n).isOpen)

/-- A quantity written: while it is invalid it keeps the value it last had while valid (R102). -/
def writeQuantity (old : Quantity) (valid : Bool) (v : Int) : Quantity := if valid then ⟨v, true⟩ else ⟨old.value, false⟩

/-- FLOWRATE (R103); like every derived quantity it is invalid until the image is accepted (R184). -/
def State.flowRate (s : State) : Option Int :=
  if s.loader.config.isSome then s.alarms.flowHist[9]?.map (fun old => ((s.spray.flowCount - old).toNat : Int)) else none

/-- SPEED (R103). -/
def State.speed (s : State) : Option Int :=
  if s.loader.config.isSome then
    s.alarms.countHist[9]?.map (fun old => clamp16 (Int.tdiv ((s.tracker.count - old).toInt * 10000) s.cfg.countsPerMetre))
  else none

/-- A quantity as a sample event finds it: valid with its value, or invalid. LEVEL is written after the level reading. -/
def State.sampled (s : State) (x : Samples) (q : Nat) : Option Int :=
  let temp (n : Nat) : Option Int :=
    if s.fitted n && !(thermocouple x n).isOpen then some (signedHalf (thermocouple x n).reading) else none
  if q < 8 then temp q
  else if q < 16 then (temp (q - 8)).bind (fun t => (s.channel (q - 8)).setpoint.map (fun sp => clamp16 (t - sp)))
  else if q < 24 then some (s.channel (q - 16)).grant
  else if q = 24 then if (s.quantity 24).valid then some (s.quantity 24).value else none
  else if q < 27 then
    if s.ductEnabled (q - 25) && !(ductInput x (q - 25)).isOpen then some (ductInput x (q - 25)).reading.toNat else none
  else if q = 27 then s.flowRate
  else if q = 28 then some s.shares.held
  else s.speed

/-- The measurement table, the open-circuit results and the histories (R102..R104). -/
def writeTable (x : Samples) (s : State) : State :=
  { s with alarms := { s.alarms with
      table := (List.range 30).map (fun q =>
        writeQuantity (s.quantity q) (s.sampled x q).isSome ((s.sampled x q).getD 0))
      sensorOpen := s.openResults x
      flowHist := (s.spray.flowCount :: s.alarms.flowHist).take 10
      countHist := (s.tracker.count :: s.alarms.countHist).take 10 } }

/-- LEVEL takes the held level (R97, R102). -/
def writeLevel (s : State) : State :=
  { s with alarms := { s.alarms with
      table := s.alarms.table.modify 24 (fun q => writeQuantity q s.pot.established s.pot.level) } }

/-- The channels that this sample finds open and that were not (R57). -/
def State.newlyOpen (s : State) (x : Samples) : List Nat :=
  (List.range 8).filter (fun n => (s.openResults x).getD n false && !s.sensorOpen n)

/-- SENSOR_OPEN (R104). -/
def sensorCondition (s : State) : State :=
  holdWhile 21 ((s.alarms.sensorOpen.findIdx? (· == true)).getD 0 : Nat) (s.alarms.sensorOpen.contains true) s

/-- POT_LOW_LOW (R98). -/
def potLow (s : State) : State :=
  if s.cfg.roles.pot && s.pot.established then holdWhile 23 s.pot.level (decide (s.pot.level < s.cfg.lowLow)) s else s

/-- The sample work up to the pot unit. -/
def sampleFields (x : Samples) (s : State) : State :=
  let s1 := writeLevel (levelSample (signedHalf x.level) (writeTable x s))
  sensorCondition (openChannels (s.newlyOpen x) s1)

/-- The pot unit's work: the lock with the new temperatures, POT_LOW_LOW and the feeder with the new level, and the ramp
steps, of a pump in RAISING only if it was so before the sample event (R90). -/
def samplePot (before : Pot) (s : State) : State := potUpdate (rampPumps before (potUpdate (potLow (potUpdate s))))

/-- The alarm unit's work: the chains and the owed frames, while JOINED (R106, R109, R116). -/
def sampleAlarms (s : State) : State := if s.joined then retryAllOwed (watchSamples s) else s

/-- SAMPLE_EVENT; while the reset pin is held the start reset has not ended and there is none (R102, R184). -/
def execSampleEvent (x : Samples) (s : State) : Result :=
  if s.loader.phase = .pinHeld then .next s
  else .next (settle (sampleAlarms (ductSample 1 (ductSample 0 (samplePot s.pot (sampleFields x s))))))

end Sys2Proof.Machine
end

