-- ==== Sys2Proof/Machine/PanelFrames.lean ====
section
/-! DEFINITION. The meanings of the commits of the kinds that panels send, queries apart. -/

namespace Sys2Proof.Machine

open Sys2Proof

/-- A broadcast panel frame is taken: the station is JOINED and the source is 30 or 31. -/
def State.takesPanel (s : State) (src : Station) : Bool := s.joined && isPanel src.toNat

/-- A commit of a kind that only panels send, so that it is never this station's own frame (R165). -/
def panelFrame (kind : Nat) (src : Station) (dst : Nat) (effect : Commit → State → State) (s : State) : Result :=
  committed kind src.toNat dst [] effect s

/-! ## Recipes (R31..R34) -/

/-- RECIPE commits (R27, R31, R32). -/
def execRecipe (src : Station) (fields : RecipeFields) (s : State) : Result :=
  panelFrame 17 src 0 (fun _ s => if s.takesPanel src then takeRecipe fields s else s) s

/-- DROP commits (R33). -/
def execDrop (src : Station) (number : Byte) (s : State) : Result :=
  panelFrame 18 src 0 (fun _ s => if s.takesPanel src then takeDrop number.toNat s else s) s

/-- ADMIT commits (R34). -/
def execAdmit (src dst : Station) (number : Byte) (length : Half) (count : Byte) (s : State) : Result :=
  panelFrame 19 src dst.toNat (fun c s =>
    if c.forMe then takeAdmit number.toNat length.toNat count.toNat s else s) s

/-! ## Alarms and groups (R118, R120, R135) -/

/-- ACKNOWLEDGE commits (R117, R118, R122): taken where it is a broadcast, or directed here and acknowledged. -/
def execAcknowledge (src dst : Station) (index : Byte) (s : State) : Result :=
  panelFrame 20 src dst.toNat (fun c s =>
    if s.takesPanel src && (dst == 0 || c.forMe) then settle (acknowledgeAlarms index.toNat s) else s) s

/-- WATCH with an action commits (R119, R120). -/
def execWatchInstall (src dst : Station) (index : Byte) (fields : WatchFields) (s : State) : Result :=
  panelFrame 22 src dst.toNat (fun c s =>
    match watchDefOf fields with
    | some d => if c.forMe then settle (recondition (installWatch index.toNat (.panel d) s)) else s
    | none => s) s

/-- WATCH with action 0 commits (R119, R120). -/
def execWatchEmpty (src dst : Station) (index : Byte) (s : State) : Result :=
  panelFrame 22 src dst.toNat (fun c s => if c.forMe then settle (recondition (installWatch index.toNat .empty s)) else s) s

/-- The pair is named by a RELEASE, 0 standing for every group or raiser; never a pair of the own number (R135). -/
def released (group raiser own : Nat) (a : Activity) : Bool :=
  (group == 0 || a.group == group) && (raiser == 0 || a.raiser == raiser) && a.raiser != own

/-- RELEASE commits (R135). -/
def execRelease (src : Station) (group raiser : Byte) (s : State) : Result :=
  panelFrame 21 src 0 (fun _ s =>
    if s.takesPanel src && decide (group.toNat ≤ 8) && decide (raiser.toNat ≤ 31) then
      settle (recondition (clearEmptyOrphans (fun _ => true)
        (removeActivity (released group.toNat raiser.toNat s.dir.own) s)))
    else s) s

/-! ## MODE (R142, R143) -/

/-- The mode is taken: the service word is cleared on leaving SERVICE, and the units follow (R143). R143 gives a table and no order:
the order here is log entry 5 (DESIGN CHOICE, unsafe). -/
def setMode (m : Mode) (s : State) : State :=
  let s1 := { s with control := { s.control with
    mode := m
    service := if s.control.mode = .service then 0 else s.control.service } }
  let s2 := sprayUpdate s1
  let s3 := if s.control.mode = .service ∨ m = .service then serviceBoundary s2 else s2
  queueStatus (testRequest (potUpdate (workRequests s3)))

/-- MODE commits (R142). -/
def execMode (src : Station) (value : Byte) (s : State) : Result :=
  panelFrame 16 src 0 (fun _ s =>
    match Mode.ofCode value.toNat with
    | some m => if s.takesPanel src && m != s.control.mode then settle (setMode m s) else s
    | none => s) s

/-! ## SIGNAL (R149, R150) -/

/-- The service word changes, and each unit takes its lines (R149). -/
def setService (w : BitVec 32) (s : State) : State :=
  if w = s.control.service then s
  else
    let s1 := { s with control := { s.control with service := w } }
    let s2 := potUpdate (workRequests (forcedFalls (sprayUpdate s1)))
    settle (if w.getLsbD 19 && !s.line 19 then provingTest s2 else s2)

/-- SIGNAL WRITE commits (R150). -/
def execSignalWrite (src dst : Station) (value : BitVec 32) (s : State) : Result :=
  panelFrame 24 src dst.toNat (fun c s => if c.forMe then setService value s else s) s

/-- SIGNAL SET commits (R150). -/
def execSignalSet (src dst : Station) (value : BitVec 32) (s : State) : Result :=
  panelFrame 24 src dst.toNat (fun c s => if c.forMe then setService (s.control.service ||| value) s else s) s

/-- SIGNAL CLEAR commits (R150). -/
def execSignalClear (src dst : Station) (value : BitVec 32) (s : State) : Result :=
  panelFrame 24 src dst.toNat (fun c s => if c.forMe then setService (s.control.service &&& ~~~value) s else s) s

/-- SIGNAL INVERT commits (R150). -/
def execSignalInvert (src dst : Station) (value : BitVec 32) (s : State) : Result :=
  panelFrame 24 src dst.toNat (fun c s => if c.forMe then setService (s.control.service ^^^ value) s else s) s

/-! ## RESTART (R152) -/

/-- RESTART commits: taken if the two tests still hold. -/
def execRestart (src dst : Station) (s : State) : Result :=
  panelFrame 25 src dst.toNat (fun c s => if c.forMe && s.restartable then restartStation s else s) s

end Sys2Proof.Machine
end

