-- ==== Sys2Proof/Machine/Queries.lean ====
section
/-! DEFINITION. The meanings of the commits of QUERY (R153, R154): each queues a REPORT whose content is built at its start
of transmission (Reports.lean). -/

namespace Sys2Proof.Machine

open Sys2Proof

/-- REPORT takes the reserved place, or is admitted like any frame of class 1 where none was reserved (R153, R165). -/
def queueReport (code item src : Nat) (reserved : Bool) (s : State) : State :=
  if reserved then s.push (newFrame 1 src (.report code item)) else queueOrDrop (newFrame 1 src (.report code item)) s

/-- A QUERY of this code commits. -/
def answerQuery (code : Nat) (src dst : Station) (item : Byte) (s : State) : Result :=
  committed 23 src.toNat dst.toNat [BitVec.ofNat 8 code, item] (fun c s =>
    if c.forMe then queueReport code item.toNat src.toNat c.reserved s else s) s

/-- QUERY STATION. -/
def execQueryStation (src dst : Station) (item : Byte) (s : State) : Result := answerQuery 1 src dst item s
/-- QUERY DIRECTORY. -/
def execQueryDirectory (src dst : Station) (item : Byte) (s : State) : Result := answerQuery 2 src dst item s
/-- QUERY BOARDS. -/
def execQueryBoards (src dst : Station) (item : Byte) (s : State) : Result := answerQuery 3 src dst item s
/-- QUERY BOARD. -/
def execQueryBoard (src dst : Station) (item : Byte) (s : State) : Result := answerQuery 4 src dst item s
/-- QUERY RECIPE. -/
def execQueryRecipe (src dst : Station) (item : Byte) (s : State) : Result := answerQuery 5 src dst item s
/-- QUERY WATCH. -/
def execQueryWatch (src dst : Station) (item : Byte) (s : State) : Result := answerQuery 6 src dst item s
/-- QUERY ALARMS. -/
def execQueryAlarms (src dst : Station) (item : Byte) (s : State) : Result := answerQuery 7 src dst item s
/-- QUERY FIRSTOUT. -/
def execQueryFirstout (src dst : Station) (item : Byte) (s : State) : Result := answerQuery 8 src dst item s
/-- QUERY LOANS. -/
def execQueryLoans (src dst : Station) (item : Byte) (s : State) : Result := answerQuery 9 src dst item s
/-- QUERY GROUP. -/
def execQueryGroup (src dst : Station) (item : Byte) (s : State) : Result := answerQuery 10 src dst item s

end Sys2Proof.Machine
end

