-- ==== Sys2Proof/Machine/StationFrames.lean ====
section
/-! DEFINITION. The meanings of the commits of the kinds that stations send: boards, shares, alarms, and the directory's. -/

namespace Sys2Proof.Machine

open Sys2Proof

/-! ## HAND (R10, R13) -/

/-- A pair of a HAND joins the held list (R13). -/
def mergePairs (marks : List Mark) (r : LineRecord) : LineRecord := marks.foldl (fun r m => addPair m r) r

/-- The frame's line record merged into a held one (R13). -/
def mergeLine (f r : LineRecord) : LineRecord :=
  mergePairs f.marks
    { r with
      length := if f.lengthFinal then f.length else r.length
      lengthFinal := r.lengthFinal || f.lengthFinal
      unannounced := r.unannounced || f.unannounced
      markOverflow := r.markOverflow || f.markOverflow }

/-- The destination takes a HAND (R13). A record is made only while the queue has a place (log entry 30). -/
def takeHand (start : BitVec 32) (f : HandFields) (s : State) : State :=
  let line := handLine f
  if (s.board line.id).isSome then positionEvents [line.id] (updateLine line.id (mergeLine line) s)
  else if s.tracker.queue.length < 8 then
    positionEvents [line.id] (takeInChecks line.id (joinQueue (freshBoard line f.pos.toNat start) s))
  else s

/-- The sender's HAND has committed (R10), by the board id (log entry 56). -/
def handDelivered (id dst : Nat) (s : State) : State :=
  if s.tracker.neighbour = some dst then updateBoard id (fun b => { b with handed := some dst }) s else handoverCheck id s

/-- HAND commits (R10, R13). -/
def execHand (src dst : Station) (fields : HandFields) (s : State) : Result :=
  committed 8 src.toNat dst.toNat (handBytes fields) (fun c s =>
    if c.own then settle (handDelivered fields.board.toNat dst.toNat s)
    else if c.forMe && s.joined then settle (takeHand c.start fields s)
    else s) s

/-! ## AMEND (R21) -/

/-- The station takes an AMEND of another station for a board it holds. -/
def takesAmend (c : Commit) (src : Station) (s : State) : Bool := !c.own && s.joined && src.toNat != s.dir.own

/-- AMEND MARK commits (R21). -/
def execAmendMark (src : Station) (board : Half) (station code : Byte) (s : State) : Result :=
  committed 9 src.toNat 0 (byte2 board.toNat ++ [1, station, code]) (fun c s =>
    if takesAmend c src s && pairOk station.toNat code.toNat then
      updateLine board.toNat (addPair ⟨station.toNat, code.toNat⟩) s
    else s) s

/-- AMEND LENGTH commits (R21). -/
def execAmendLength (src : Station) (board : Half) (length : Half) (s : State) : Result :=
  committed 9 src.toNat 0 (byte2 board.toNat ++ [2] ++ byte2 length.toNat) (fun c s =>
    if takesAmend c src s && length != 0 then
      updateLine board.toNat (fun r => { r with length := length.toNat, lengthFinal := true }) s
    else s) s

/-- A held record takes a new anchor from a frame (R6, R21). -/
def reanchor (id pos : Nat) (start : BitVec 32) (s : State) : State :=
  positionEvents [id] (reorder (updateBoard id (fun b => { b with anchorPos := pos, anchorCount := start }) s))

/-- AMEND POSITION commits (R21). -/
def execAmendPosition (src : Station) (board : Half) (pos : Pos) (s : State) : Result :=
  committed 9 src.toNat 0 (byte2 board.toNat ++ [3] ++ byte3 pos.toNat) (fun c s =>
    if takesAmend c src s && (s.board board.toNat).isSome then settle (reanchor board.toNat pos.toNat c.start s) else s) s

/-! ## Shares (R70..R80) -/

/-- A NEED in range (R72). -/
def needInRange (src amount : Nat) : Bool :=
  decide (1 ≤ src) && decide (src ≤ 29) && decide (1 ≤ amount) && decide (amount ≤ 255)

/-- NEED commits (R70, R72, R73). -/
def execNeed (src : Station) (amount : Half) (s : State) : Result :=
  committed 4 src.toNat 0 (byte2 amount.toNat) (fun c s =>
    if !needInRange src.toNat amount.toNat || !s.joined then s
    else if c.own then setNeed amount.toNat s
    else if src.toNat = s.dir.own then s
    else answerNeed src.toNat amount.toNat s) s

/-- LEND commits (R76): at its borrower only while SEATED. -/
def execLend (src dst : Station) (amount : Half) (s : State) : Result :=
  committed 5 src.toNat dst.toNat (byte2 amount.toNat) (fun c s =>
    if c.own then lendTo dst.toNat amount.toNat s
    else if c.forMe && s.seated then meetNeed amount.toNat (borrowFrom src.toNat amount.toNat s)
    else s) s

/-- RETURN commits (R78). -/
def execReturn (src dst : Station) (amount : Half) (s : State) : Result :=
  committed 6 src.toNat dst.toNat (byte2 amount.toNat) (fun c s =>
    if c.own then giveBack dst.toNat amount.toNat s
    else if c.forMe then takeBack src.toNat amount.toNat s
    else s) s

/-- RECALL commits (R80). -/
def execRecall (src dst : Station) (amount : Half) (s : State) : Result :=
  committed 7 src.toNat dst.toNat (byte2 amount.toNat) (fun c s =>
    if c.own then takeBack dst.toNat amount.toNat s
    else if c.forMe then giveBack src.toNat amount.toNat s
    else s) s

/-! ## ALARM and CLEAR (R114, R133, R134, R148) -/

/-- The line first-out record captures a TRIP ALARM while it is OPEN (R148). -/
def captureLine (src : Nat) (f : AlarmFields) (s : State) : State :=
  if s.joined && s.control.lineState == .opened && f.action == 4 && decide (1 ≤ src) && decide (f.index.toNat ≤ 28) then
    { s with control := { s.control with lineState := .captured, lineValue := some (src, f.index.toNat) } }
  else s

/-- The frame's index is added to an activity set here (R133). -/
def State.inScope (s : State) (src : Nat) (f : AlarmFields) : Bool :=
  s.joined && decide (1 ≤ src) && src != s.dir.own && decide (1 ≤ f.group.toNat) && decide (f.group.toNat ≤ 8)
    && decide (f.index.toNat ≤ 28) && f.scope.getLsbD s.dir.own

/-- The sender's ALARM has committed (R114). -/
def alarmDelivered (i : Nat) (s : State) : State :=
  if s.stands i then updateRecord i (fun r => { r with delivered := true }) s else s

/-- The record of the station's own ALARM, where the frame that commits is that one, takes the delivered flag before the common
part of the commit: the commit may end the cause of ISOLATED or BUS_DELIVERY, and a CLEAR then follows the ALARM that the line has
seen (R114, R115, R169, R171). -/
def noteDelivered (src : Nat) (f : AlarmFields) (s : State) : State :=
  if s.bus.frameStart.isSome && s.ownsFrame 11 src 0 (alarmBytes f) then alarmDelivered f.index.toNat s else s

/-- ALARM commits (R114, R133, R148). -/
def execAlarm (src : Station) (fields : AlarmFields) (s : State) : Result :=
  committed 11 src.toNat 0 (alarmBytes fields) (fun c s =>
    let s1 := captureLine src.toNat fields s
    if !c.own && s1.inScope src.toNat fields then
      settle (recondition (addActivity ⟨fields.group.toNat, src.toNat, fields.index.toNat⟩ s1))
    else s1) (noteDelivered src.toNat fields s)

/-- CLEAR commits (R134). -/
def execClear (src : Station) (index group : Byte) (s : State) : Result :=
  committed 12 src.toNat 0 [index, group] (fun c s =>
    let a : Activity := ⟨group.toNat, src.toNat, index.toNat⟩
    if !c.own && s.joined && src.toNat != s.dir.own && s.groups.activity.contains a then
      settle (recondition (clearEmptyOrphans (· == src.toNat) (removeActivity (· == a) s)))
    else s) s

/-! ## CLAIM, JOIN, STATUS (R174, R176, R177, R179, R181) -/

/-- A CLAIM or JOIN of the own number that this station has not sent: R174 gives it no directory effect, and R136 its own
(log entries 19 and 28). -/
def ownNumberHeard (s : State) : State := if s.joined then settle (reannounceAll s.needsAnnouncing s) else s

/-- The CLAIM of another claimant (R136, R177, R179). -/
def othersClaim (f : ClaimFields) (s : State) : State :=
  let k := f.number.toNat
  if !s.learns || !(decide (1 ≤ k) && decide (k ≤ 29)) then s
  else if k = s.dir.own then ownNumberHeard s
  else
    let s1 := writeClaim k f s
    if s.joined then welcome k s1
    else
      let s2 := updateNeighbour [] s1
      if s2.control.station = .claiming ∧ k = s2.cfg.preferred ∧ f.uid ≠ s2.uid then failClaim s2 else s2

/-- CLAIM commits (R176, R177, R179). -/
def execClaim (fields : ClaimFields) (s : State) : Result :=
  committed 1 0 0 (claimBytes fields) (fun c s =>
    if c.own then becomeJoined fields.number.toNat s else othersClaim fields s) s

/-- JOIN commits (R136, R180, R181). -/
def execJoin (src : Station) (fields : JoinFields) (s : State) : Result :=
  committed 2 src.toNat 0 (joinBytes fields) (fun c s =>
    if c.own then settle (ownJoin s)
    else if src ≠ 0 ∧ src.toNat = s.dir.own then ownNumberHeard s
    else if !s.learnsFrom src.toNat then s
    else
      let s1 := writeJoin src.toNat fields s
      if s.joined then welcome src.toNat s1 else updateNeighbour [] s1) s

/-- STATUS commits (R174, R182). -/
def execStatus (src : Station) (fields : StatusFields) (s : State) : Result :=
  committed 3 src.toNat 0 (statusBytes fields) (fun c s =>
    if c.own || !s.learnsFrom src.toNat then s else settle (writeStatus src.toNat fields s)) s

/-! ## Frames whose commit has only the common part (R23, R154, R159) -/

/-- DONE commits (R23). -/
def execDone (src dst : Station) (fields : HandFields) (s : State) : Result :=
  committed 10 src.toNat dst.toNat (handBytes fields) (fun _ s => s) s

/-- REPORT commits (R154). -/
def execReport (src dst : Station) (code item : Byte) (content : List Byte) (s : State) : Result :=
  committed 13 src.toNat dst.toNat (code :: item :: content) (fun _ s => s) s

/-- A frame of no kind, or of the wrong length for its kind, commits (R159). -/
def execNoKindFrame (src dst : Station) (kind : BitVec 5) (payload : List Byte) (s : State) : Result :=
  committed kind.toNat src.toNat dst.toNat payload (fun _ s => s) s

end Sys2Proof.Machine
end

