-- ==== Sys2Proof/Machine/TimerEvents.lean ====
section
/-! DEFINITION. The meanings of the heater period's events and of the timers' expiries. An expiry of a timer that does not
run is no event of the part and changes nothing (log entries 1 and 22). -/

namespace Sys2Proof.Machine

open Sys2Proof

/-! ## The heater period -/

/-- PERIOD_START (R52). -/
def execPeriodStart (s : State) : Result :=
  if s.heater.periodTimer.isRunning then .next (settle (periodWork s)) else .next s

/-- HEATER_ON_EDGE (R60): the period has come to the channel's phase offset. -/
def execHeaterOnEdge (channel : Fin 8) (s : State) : Result :=
  if s.inUse channel && decide (0 < (s.channel channel).pulse) then .next (toSlot (s.channelConfig channel).phase s) else .next s

/-- HEATER_OFF_EDGE (R60): the period has come to the end of the channel's pulse. -/
def execHeaterOffEdge (channel : Fin 8) (s : State) : Result :=
  match s.offSlot channel with
  | some k => if s.inUse channel then .next (toSlot k s) else .next s
  | none => .next s

/-! ## Spray -/

/-- The one-shots that a dot of board `id` opened close together (R39). -/
def endPulse (id : Nat) (s : State) : State :=
  flowCheck id (restartLag id (closeShots (.board id) s))

/-- PULSE_END (R39): a pulse whose record has been released opens no lag timer; a one-shot owned by SERVICE has no pulse end. -/
def execPulseEnd (nozzle : Fin 8) (s : State) : Result :=
  match s.oneShot nozzle with
  | some (.board id) => .next (endPulse id s)
  | some (.released id) => .next (closeShots (.released id) s)
  | some .service | none => .next s

/-- FLOW_LAG_EXPIRY (R48). -/
def execFlowLagExpiry (board : Half) (s : State) : Result :=
  match s.board board.toNat with
  | some b =>
    if b.flowLag.isRunning then
      .next (flowCheck board.toNat (updateBoard board.toNat (fun b => { b with flowLag := .expired }) s))
    else .next s
  | none => .next s

/-! ## Presence, directory, contact -/

/-- PRESENCE_EVENT (R9, R180, R182). -/
def execPresenceEvent (s : State) : Result :=
  if s.joined && s.dir.presence.isRunning then
    .next (retryJoin (endHoldBacks (queueStatus
      { s with dir := { s.dir with presence := .running s.cfg.presencePeriod } })))
  else .next s

/-- AGING_SWEEP (R175). -/
def execAgingSweep (s : State) : Result :=
  if s.dir.aging.isRunning then
    .next (settle (sweep { s with dir := { s.dir with aging := .running s.cfg.agingInterval } }))
  else .next s

/-- CLAIM_LISTEN_EXPIRY (R176). -/
def execClaimListenExpiry (s : State) : Result :=
  if s.control.station = .claiming ∧ s.dir.claimListen.isRunning = true then
    .next (queueOrDrop (newFrame 3 0 .claim) { s with dir := { s.dir with claimListen := .expired } })
  else .next s

/-- One contact timer has run out. -/
def expireContact (t : ContactId) (s : State) : State :=
  match t with
  | .own => { s with bus := { s.bus with ownContact := .expired } }
  | .peer => { s with bus := { s.bus with peerContact := .expired } }

/-- The contact timer named. -/
def State.contact (s : State) (t : ContactId) : Timer :=
  match t with
  | .own => s.bus.ownContact
  | .peer => s.bus.peerContact

/-- CONTACT_TIMER_EXPIRY (R83, R171): the expiry that first makes a timer expired is the entry to isolation. -/
def execContactTimerExpiry (t : ContactId) (s : State) : Result :=
  if s.joined && (s.contact t).isRunning then
    if s.isolated then .next (expireContact t s) else .next (settle (raiseHeld 27 0 (detach (expireContact t s))))
  else .next s

/-! ## Shares, recipes -/

/-- NEED_EXPIRY (R70, R79). -/
def execNeedExpiry (s : State) : Result :=
  if s.needOutstanding then .next (queueRecall (endNeed s)) else .next s

/-- HOLD_OVER_EXPIRY (R35). -/
def execHoldOverExpiry (s : State) : Result :=
  if s.recipes.holdTimer.isRunning then .next (endHoldOver s) else .next s

/-! ## Conveyor, pot, extraction -/

/-- STALL_TIMER_EXPIRY (R18). -/
def execStallTimerExpiry (s : State) : Result :=
  if s.tracker.stall.isRunning then .next (settle (raiseHeld 19 0 (s.withStall .expired))) else .next s

/-- A pump whose settle timer expires (R91). -/
def settledPump (p : Pump) : Pump :=
  if p.state = .raising ∧ p.settle.isRunning = true then { p with state := .up, settle := .stopped } else p

/-- SETTLE_EXPIRY (R91). -/
def execSettleExpiry (pump : PumpId) (s : State) : Result :=
  match pump with
  | .main => .next { s with pot := { s.pot with main := settledPump s.pot.main } }
  | .chip => .next { s with pot := { s.pot with chip := settledPump s.pot.chip } }

/-- FEED_RUN_EXPIRY (R100): the feeder stops and WIRE_OUT is one occurrence with the held level. -/
def execFeedRunExpiry (s : State) : Result :=
  if s.pot.feeding && s.pot.feedTimer.isRunning then
    .next (settle (occurrence 22 s.pot.level { s with pot := { s.pot with feeding := false, feedTimer := .stopped } }))
  else .next s

/-- PROVE_TIMEOUT (R128). -/
def execProveTimeout (duct : Fin 2) (s : State) : Result :=
  if s.ductEnabled duct && (s.duct duct).state == .proving && (s.duct duct).timer.isRunning then .next (settle (failDuct duct s))
  else .next s

/-- RUN_ON_EXPIRY (R125, R128). -/
def execRunOnExpiry (s : State) : Result :=
  if s.extraction.runOn.isRunning then .next (settle (requestOff s)) else .next s

/-! ## Bus -/

/-- The frame's busy backoff has run out (R166). -/
def endBackoff (f : TxFrame) : TxFrame :=
  match f.phase with
  | .backoff _ => { f with phase := .waiting }
  | .waiting | .onBus => f

/-- BUSY_BACKOFF_END (R166). -/
def execBusyBackoffEnd (place : Fin 16) (s : State) : Result := .next (s.withTx (s.bus.queue.modify place endBackoff))

end Sys2Proof.Machine
end

