-- ==== Sys2Proof/Machine/Dispatch.lean ====
section
/-! DEFINITION. One arm for each command of spec/opcode_table.json. -/

namespace Sys2Proof.Machine

open Sys2Proof

def exec (i : Instr) (s : State) : Host.Outcome State Fault Refusal :=
  match i with
  | .startReset pinHeld => Sys2Proof.Machine.execStartReset pinHeld s
  | .imageReadEnd image => Sys2Proof.Machine.execImageReadEnd image s
  | .countEvent forward => Sys2Proof.Machine.execCountEvent forward s
  | .entryLeadingEdge => Sys2Proof.Machine.execEntryLeadingEdge s
  | .entryTrailingEdge => Sys2Proof.Machine.execEntryTrailingEdge s
  | .eyeLeadingEdge => Sys2Proof.Machine.execEyeLeadingEdge s
  | .flowPulse => Sys2Proof.Machine.execFlowPulse s
  | .permitLineChange othersPull => Sys2Proof.Machine.execPermitLineChange othersPull s
  | .tripLineChange othersPull => Sys2Proof.Machine.execTripLineChange othersPull s
  | .sampleEvent inputs => Sys2Proof.Machine.execSampleEvent inputs s
  | .periodStart => Sys2Proof.Machine.execPeriodStart s
  | .heaterOnEdge channel => Sys2Proof.Machine.execHeaterOnEdge channel s
  | .heaterOffEdge channel => Sys2Proof.Machine.execHeaterOffEdge channel s
  | .pulseEnd nozzle => Sys2Proof.Machine.execPulseEnd nozzle s
  | .flowLagExpiry board => Sys2Proof.Machine.execFlowLagExpiry board s
  | .presenceEvent => Sys2Proof.Machine.execPresenceEvent s
  | .agingSweep => Sys2Proof.Machine.execAgingSweep s
  | .claimListenExpiry => Sys2Proof.Machine.execClaimListenExpiry s
  | .contactTimerExpiry timer => Sys2Proof.Machine.execContactTimerExpiry timer s
  | .needExpiry => Sys2Proof.Machine.execNeedExpiry s
  | .holdOverExpiry => Sys2Proof.Machine.execHoldOverExpiry s
  | .stallTimerExpiry => Sys2Proof.Machine.execStallTimerExpiry s
  | .settleExpiry pump => Sys2Proof.Machine.execSettleExpiry pump s
  | .feedRunExpiry => Sys2Proof.Machine.execFeedRunExpiry s
  | .proveTimeout duct => Sys2Proof.Machine.execProveTimeout duct s
  | .runOnExpiry => Sys2Proof.Machine.execRunOnExpiry s
  | .busyBackoffEnd place => Sys2Proof.Machine.execBusyBackoffEnd place s
  | .busStuck => Sys2Proof.Machine.execBusStuck s
  | .frameStart => Sys2Proof.Machine.execFrameStart s
  | .startOfTransmission => Sys2Proof.Machine.execStartOfTransmission s
  | .lostArbitration => Sys2Proof.Machine.execLostArbitration s
  | .ackSlot frame => Sys2Proof.Machine.execAckSlot frame s
  | .frameOutcome slots => Sys2Proof.Machine.execFrameOutcome slots s
  | .hand src dst fields => Sys2Proof.Machine.execHand src dst fields s
  | .amendMark src board station code => Sys2Proof.Machine.execAmendMark src board station code s
  | .amendLength src board length => Sys2Proof.Machine.execAmendLength src board length s
  | .amendPosition src board pos => Sys2Proof.Machine.execAmendPosition src board pos s
  | .recipe src fields => Sys2Proof.Machine.execRecipe src fields s
  | .drop src number => Sys2Proof.Machine.execDrop src number s
  | .admitBoards src dst number length count => Sys2Proof.Machine.execAdmit src dst number length count s
  | .need src amount => Sys2Proof.Machine.execNeed src amount s
  | .lend src dst amount => Sys2Proof.Machine.execLend src dst amount s
  | .returnShares src dst amount => Sys2Proof.Machine.execReturn src dst amount s
  | .recallShares src dst amount => Sys2Proof.Machine.execRecall src dst amount s
  | .alarm src fields => Sys2Proof.Machine.execAlarm src fields s
  | .clear src index group => Sys2Proof.Machine.execClear src index group s
  | .acknowledge src dst index => Sys2Proof.Machine.execAcknowledge src dst index s
  | .watchInstall src dst index fields => Sys2Proof.Machine.execWatchInstall src dst index fields s
  | .watchEmpty src dst index => Sys2Proof.Machine.execWatchEmpty src dst index s
  | .release src group raiser => Sys2Proof.Machine.execRelease src group raiser s
  | .mode src value => Sys2Proof.Machine.execMode src value s
  | .signalWrite src dst value => Sys2Proof.Machine.execSignalWrite src dst value s
  | .signalSet src dst value => Sys2Proof.Machine.execSignalSet src dst value s
  | .signalClear src dst value => Sys2Proof.Machine.execSignalClear src dst value s
  | .signalInvert src dst value => Sys2Proof.Machine.execSignalInvert src dst value s
  | .restart src dst => Sys2Proof.Machine.execRestart src dst s
  | .queryStation src dst item => Sys2Proof.Machine.execQueryStation src dst item s
  | .queryDirectory src dst item => Sys2Proof.Machine.execQueryDirectory src dst item s
  | .queryBoards src dst item => Sys2Proof.Machine.execQueryBoards src dst item s
  | .queryBoard src dst item => Sys2Proof.Machine.execQueryBoard src dst item s
  | .queryRecipe src dst item => Sys2Proof.Machine.execQueryRecipe src dst item s
  | .queryWatch src dst item => Sys2Proof.Machine.execQueryWatch src dst item s
  | .queryAlarms src dst item => Sys2Proof.Machine.execQueryAlarms src dst item s
  | .queryFirstout src dst item => Sys2Proof.Machine.execQueryFirstout src dst item s
  | .queryLoans src dst item => Sys2Proof.Machine.execQueryLoans src dst item s
  | .queryGroup src dst item => Sys2Proof.Machine.execQueryGroup src dst item s
  | .claim fields => Sys2Proof.Machine.execClaim fields s
  | .join src fields => Sys2Proof.Machine.execJoin src fields s
  | .status src fields => Sys2Proof.Machine.execStatus src fields s
  | .done src dst fields => Sys2Proof.Machine.execDone src dst fields s
  | .report src dst code item content => Sys2Proof.Machine.execReport src dst code item content s
  | .noKindFrame src dst kind payload => Sys2Proof.Machine.execNoKindFrame src dst kind payload s
  | .busIdle => Sys2Proof.Machine.execBusIdle s
  | .resetPinRelease => Sys2Proof.Machine.execResetPinRelease s

end Sys2Proof.Machine
end

