-- ==== Sys2Proof/Machine/Step.lean ====
section
/-! DEFINITION. One step: the command at the front of the queue, or one period slot where none waits (log entry 2). -/

namespace Sys2Proof.Machine

open Sys2Proof

/-- The state with another queue of commands. -/
def State.withPending (s : State) (l : List Instr) : State := { s with pending := l }

/-- One step of the station. -/
def step (s : State) : Host.Outcome State Fault Refusal :=
  match s.pending with
  | [] => .next (tick s)
  | c :: rest => exec c (s.withPending rest)

/-- The command that a word spells by the table's bits, put at the front of the queue; the table gives no bits. -/
def State.withFetchWord (s : State) (nbits w : Nat) : State :=
  match decodeTableWord nbits w with
  | some c => s.withPending (c :: s.pending)
  | none => s

end Sys2Proof.Machine
end

