-- ==== Sys2Proof/Safety.lean ====
section
/-! DEFINITION. What the statements say of states: the part of a state that no cascade touches, and the invariants that
every step keeps. -/

namespace Sys2Proof.Machine

open Sys2Proof

/-! ## The part of a state that a change of condition, an alarm or a mark cannot touch -/

/-- A record without its marks and without the spray phase, the NOT_FLUXED flag and the flow lag timer. -/
def boardKeep (b : Board) : Board :=
  { b with
    line := { b.line with marks := [], markOverflow := false }
    phase := .waiting
    notFluxed := false
    flowLag := .stopped }

/-- A channel's setpoint, integral and freeze history, without the demand, the grant and the pulses. -/
def channelKeep (c : Channel) : Channel := { c with demand := 0, grant := 0, pulse := 0, runOn := 0 }

/-- The state with everything blanked that may follow, at once and in the same event, from a change of an alarm, a group
action, the condition, the mode, a line wire or a mark (R19, R45, R46, R63, R88, R90, R94, R99, R112..R116, R121, R138, R139,
R144..R148, R180): the condition and the sensed wires, the line first-out record, the transmit queue and JOIN owed, the
stall timer, the marks and spray phases of the records, the one-shots, the demands and pulses of the heaters, the pumps and
the feeder, the alarm records, causes and local first-out record, and the activity sets. What it keeps, no such event may
change. -/
def State.steady (s : State) : State :=
  { s with
    control := { s.control with
      condition := .normal, lineState := .armed, lineValue := none, tripSensed := false, permitSensed := false }
    dir := { s.dir with joinOwed := false }
    bus := { s.bus with queue := [] }
    tracker := { s.tracker with queue := s.tracker.queue.map boardKeep, stall := .stopped }
    spray := { s.spray with oneShots := [], counting := none }
    heater := { s.heater with channels := s.heater.channels.map channelKeep, cost := 0, shortfall := 0 }
    pot := { s.pot with main := .blank, chip := .blank, feeding := false, feedTimer := .stopped }
    alarms := { s.alarms with records := [], causes := [], firstOut := none }
    groups := { s.groups with activity := [] } }

/-- The steady part without what the commit of any frame may change before the effects of its kind (R163, R169, R171, R174):
the line bus interface, the directory, and the ORPHAN flags. -/
def State.still (s : State) : State := { s.steady with bus := .reset, dir := .reset, groups := .reset }

/-- The still part without what a position event, a handover check or a change of neighbour may change (R5, R7..R9, R17, R22,
R29, R35, R36, R40..R43): of the board tracker and the spray unit it keeps the two counts only, and not the pumps' requests. No
such event may change it. -/
def State.far (s : State) : State :=
  { s.still with
    tracker := { Tracker.reset with count := s.tracker.count }
    pot := { s.still.pot with mainRequest := none, chipRequest := none }
    recipes := .reset
    spray := { Spray.reset with flowCount := s.spray.flowCount }
    free := 0 }

/-! ## Invariants -/

/-- The trip line is sensed as it stands and the condition is the one that R144 derives (R144, R145). -/
def State.Derived (s : State) : Prop :=
  s.control.tripSensed = s.tripLevel ∧ s.control.condition = s.derivedCondition

/-- The places of the transmit queue that are taken (R164, R165). -/
def State.txUsed (s : State) : Nat :=
  s.bus.queue.length + (if s.bus.reservation == some .txPlace then 1 else 0)

/-- The transmit queue never holds more than its 16 places (R165). -/
def State.TxFits (s : State) : Prop := s.txUsed ≤ 16

/-- The summed cost of the granted duties of the channels in use (R58). -/
def State.grantCost (s : State) : Nat :=
  ((List.range 8).map (fun n => if s.inUse n then dutyCost (s.channelConfig n).rated (s.channel n).grant else 0)).sum

/-- The granted duties cost no more than the held shares (R58). -/
def State.GrantsFit (s : State) : Prop := s.grantCost ≤ s.shares.held

/-- The board queue as R3 gives it: at most 8 records, no id twice, the greatest L at the head. -/
def State.BoardsOrdered (s : State) : Prop :=
  s.tracker.queue.length ≤ 8 ∧ s.boardIds.Nodup ∧ (s.tracker.queue.map s.pos).Pairwise (fun a b => b ≤ a)

/-- The share unit as R67 and R69 give it: UNSEATED with H 0 and empty lists, or H = base − lent sum + borrowed sum with the
lent sum within the base, one record for each peer, and a LEND on the wire that the base still covers. -/
def State.SharesBalance (s : State) : Prop :=
  if s.shares.state = .unseated then s.shares.held = 0 ∧ s.shares.lent = [] ∧ s.shares.borrowed = []
  else
    s.shares.held + loanSum s.shares.lent = s.cfg.base + loanSum s.shares.borrowed ∧
      loanSum s.shares.lent ≤ s.cfg.base ∧
      (s.shares.lent.map (·.peer)).Nodup ∧ (s.shares.borrowed.map (·.peer)).Nodup

/-- A LEND that the station transmits carries no more than the base still covers, and its share unit is not UNSEATED (R74). -/
def State.LendCovered (s : State) : Prop :=
  ∀ w, s.bus.onWire = some w → w.kind = 5 →
    s.shares.state ≠ .unseated ∧ halfAt w.payload 0 + loanSum s.shares.lent ≤ s.cfg.base

/-- Every output of a station that is not JOINED is off, and every block is at rest (R24, R46, R64, R69, R101, R110, R130,
R140, R141). -/
def State.AtRest (s : State) : Prop :=
  s.control.mode = .idle ∧ s.control.condition = .normal ∧ s.control.service = 0 ∧ s.tracker.queue = [] ∧
    (∀ o ∈ s.spray.oneShots, o = none) ∧
    (∀ c ∈ s.heater.channels, c.setpoint = none ∧ c.demand = 0 ∧ c.grant = 0 ∧ c.pulse = 0 ∧ c.runOn = 0) ∧
    s.heater.periodTimer = .stopped ∧
    s.shares.state = .unseated ∧ s.pot.main = .blank ∧ s.pot.chip = .blank ∧ s.pot.feeding = false ∧
    s.extraction.request = false ∧ (∀ r ∈ s.alarms.records, r.state = .quiet) ∧ s.groups.activity = []

/-- A station that is not JOINED is at rest, it acknowledges nothing, and it transmits nothing but its CLAIM (R141, R156). -/
def State.OffLine (s : State) : Prop :=
  s.joined = false → s.AtRest ∧ s.bus.answer.ack = false ∧
    ∀ w, s.bus.onWire = some w → s.control.station = .claiming ∧ w.kind = 1

/-! ## Words of the statements -/

/-- The commands of the start, the only ones that read or replace the configuration (R184, R185). -/
def isStart : Instr → Bool
  | .startReset _ | .imageReadEnd _ | .resetPinRelease => true
  | _ => false

/-- The commands that a committed frame brings (R163). -/
def isCommit : Instr → Bool
  | .hand _ _ _ | .amendMark _ _ _ _ | .amendLength _ _ _ | .amendPosition _ _ _ | .recipe _ _ | .drop _ _
  | .admitBoards _ _ _ _ _ | .need _ _ | .lend _ _ _ | .returnShares _ _ _ | .recallShares _ _ _ | .alarm _ _ | .clear _ _ _
  | .acknowledge _ _ _ | .watchInstall _ _ _ _ | .watchEmpty _ _ _ | .release _ _ _ | .mode _ _ | .signalWrite _ _ _
  | .signalSet _ _ _ | .signalClear _ _ _ | .signalInvert _ _ _ | .restart _ _ | .queryStation _ _ _
  | .queryDirectory _ _ _ | .queryBoards _ _ _ | .queryBoard _ _ _ | .queryRecipe _ _ _ | .queryWatch _ _ _
  | .queryAlarms _ _ _ | .queryFirstout _ _ _ | .queryLoans _ _ _ | .queryGroup _ _ _ | .claim _ | .join _ _
  | .status _ _ | .done _ _ _ | .report _ _ _ _ _ | .noKindFrame _ _ _ _ => true
  | _ => false

/-- The frame that commits is another participant's, seen from its start at this count (R163), whatever VETO or BUSY this station
has asserted for it (log entry 51, DESIGN CHOICE). -/
def State.Hears (s : State) (start : BitVec 32) : Prop := s.bus.onWire = none ∧ s.bus.frameStart = some start

/-- The frame that commits is the one this station transmits (R160, R163), whatever VETO this station has asserted for it (log
entry 51, DESIGN CHOICE). -/
def State.Sends (s : State) (kind src dst : Nat) (payload : List Byte) : Prop :=
  s.ownsFrame kind src dst payload = true ∧ s.bus.frameStart.isSome = true

/-- The frame is directed to this station, and this station has asserted ACK for it (R161). -/
def State.Accepts (s : State) (dst : Station) : Prop := s.bus.answer.ack = true ∧ dst.toNat = s.dir.own

/-- The ACK slot of a sound frame of this kind, directed to this station, which does not transmit itself (R161). -/
def State.Asked (s : State) (f : RawFrame) (kind : BitVec 5) : Prop :=
  s.bus.onWire = none ∧ faultyFrame f = false ∧ f.dst ≠ 0 ∧ f.dst.toNat = s.dir.own ∧ f.kind = kind

/-- What a commit leaves where the kind has no effect here: the common part alone (R163). -/
def State.afterCommit (own : Bool) (src : Nat) (s : State) : State := dropReservation (commitFrame own src s)

/-- Some record of the queue has this id and meets `p`. -/
def State.someBoard (s : State) (id : Nat) (p : Board → Prop) : Prop := ∃ b ∈ s.tracker.queue, b.line.id = id ∧ p b

/-- Every record of the queue that has this id meets `p`. -/
def State.eachBoard (s : State) (id : Nat) (p : Board → Prop) : Prop := ∀ b ∈ s.tracker.queue, b.line.id = id → p b

/-- The step keeps `p`: whichever command it runs, and when it idles. -/
def Keeping (p : State → Prop) : Prop := ∀ s t : State, p s → step s = .next t → p t

end Sys2Proof.Machine
end

