-- ==== Sys2Proof/Certificates/Slice0/Obligations.lean ====
section
/-! DEFINITION. The statements for the provers. A frame is said by `State.steady`, `State.still` and `State.far` (Safety.lean):
each blanks exactly what the rules let follow from the event in other blocks, and an equality of two of them says that all the
rest of the state is the same. -/

open Sys2Proof Sys2Proof.Machine

/-! ## The step -/

/-- For every command and state, the step with the command at the front of the queue is `exec` on the queue's rest. -/
def Obligations.StepRunsTheFrontCommand : Prop :=
  ∀ (c : Instr) (s : State), step (s.withPending (c :: s.pending)) = exec c s

/-- Log entry 2, the model's choice: on an empty queue one slot of the heater period passes. -/
def Obligations.AnIdleStepIsOnePeriodSlot : Prop :=
  ∀ s : State, s.pending = [] →
    step s = .next (if s.heater.periodTimer.isRunning then
        { s with heater := { s.heater with slot := min 256 (s.heater.slot + 1) } } else s)

/-- No command stops the station, and none changes the uid or the waiting commands. -/
def Obligations.EveryCommandAnswersANextState : Prop :=
  ∀ (c : Instr) (s : State), ∃ t, exec c s = .next t ∧ t.uid = s.uid ∧ t.pending = s.pending

/-- The configuration and the image buffer change at the commands of the start alone (R184, R188). -/
def Obligations.OnlyTheStartChangesTheConfiguration : Prop :=
  ∀ (c : Instr) (s t : State), isStart c = false → exec c s = .next t → t.loader = s.loader

/-- A station that did not see the start of a frame takes nothing from its commit (R163). -/
def Obligations.FramesNotSeenFromTheirStartDoNothing : Prop :=
  ∀ (c : Instr) (s : State), isCommit c = true → s.bus.frameStart = none → exec c s = .next s

/-! ## Start (12) -/

/-- START_RESET, from any state: every output is off, both bus wires are left alone, the buffer is empty, no field has a value
and the encoder counts from 0 (R184). -/
def Obligations.StartResetTurnsEveryOutputOff : Prop :=
  ∀ (pinHeld : Bool) (s : State), ∃ t, exec (.startReset pinHeld) s = .next t ∧
    t.control.station = .loading ∧
    (∀ n, t.heaterOutput n = false) ∧ (∀ n, t.nozzleValve n = false) ∧ t.pot.main.speed = 0 ∧ t.pot.chip.speed = 0 ∧
    t.feederOutput = false ∧ t.extraction.request = false ∧ t.faultOutput = false ∧ t.permitAsserted = false ∧
    t.tripPull = false ∧ t.bus.onWire = none ∧ t.bus.answer = noAnswer ∧ t.loader.buffer = [] ∧ t.loader.config = none ∧
    t.tracker.count = 0

/-- START_RESET leaves the reset values but for the uid, what the others pull on the wires, and the model's own fields; the trip
line is sensed as the others leave it (log entries 8 and 9 are the model's choices). RESET_PIN_RELEASE begins the read; with the
pin not held it is no event (log entry 22, the model's choice). -/
def Obligations.StartResetAndPinRelease : Prop :=
  (∀ (pinHeld : Bool) (s : State), exec (.startReset pinHeld) s = .next { State.reset with
    uid := s.uid, loader := ⟨if pinHeld then .pinHeld else .reading, [], none, false⟩
    control := ⟨.loading, .idle, .normal, 0, .armed, none, s.control.tripOthers, s.control.permitOthers,
      s.control.tripOthers, false⟩
    free := s.free, pending := s.pending }) ∧
  (∀ s : State, s.loader.phase = .pinHeld →
    exec .resetPinRelease s = .next { s with loader := { s.loader with phase := .reading, buffer := [] } }) ∧
  (∀ s : State, s.loader.phase ≠ .pinHeld → exec .resetPinRelease s = .next s)

/-- IMAGE_READ_END in LOADING: an accepted image gives its fields and takes the station to CLAIMING with its two timers; a
refused one takes it to CONFIG_FAULT with no field given (R186..R188). The four bytes of a member mask are read most
significant byte first, which is log entry 55 (DESIGN CHOICE, unsafe). In any other state it is no event (log entry 22). The
checks of R186 and the layout of 13.5 are spelled in bytes, the CRC bit by bit; a read that ends short is filled with 255
(R185), which is log entry 11 (DEDUCED, safe). A refused image leaves the bit rate usable where its marker, length, check and
rate were good (R187). -/
def Obligations.TheImageIsAcceptedOrRefused : Prop :=
  (∀ (image : List Byte) (s : State), s.control.station = .loading → s.loader.phase = .reading →
    (imageAccepted (imageBytes image) = true → exec (.imageReadEnd image) s = .next { s with
      loader := ⟨.done, imageBytes image, some (parseImage (imageBytes image)), false⟩
      control := { s.control with station := .claiming }
      dir := { s.dir with
        claimListen := .running (parseImage (imageBytes image)).presencePeriod
        aging := .running (parseImage (imageBytes image)).agingInterval }
      alarms := { s.alarms with entries := loadedEntries (parseImage (imageBytes image)) } }) ∧
    (imageAccepted (imageBytes image) = false → ∃ t, exec (.imageReadEnd image) s = .next t ∧
      t.control = { s.control with station := .configFault } ∧ t.faultOutput = true ∧ t.loader.config = none ∧
      t.loader.phase = .done ∧ t.loader.buffer = imageBytes image ∧
      (t.loader.rateGiven = true ↔ imageSound (imageBytes image) = true ∧ 1 ≤ byteAt (imageBytes image) 28 ∧
        byteAt (imageBytes image) 28 ≤ 3) ∧
      { t with loader := s.loader, control := s.control } = s)) ∧
  (∀ (image : List Byte) (s : State), s.control.station ≠ .loading ∨ s.loader.phase ≠ .reading →
    exec (.imageReadEnd image) s = .next s) ∧
  (∀ image : List Byte, imageBytes image = (image ++ List.replicate 402 255).take 402) ∧
  (∀ (l : List Byte) (i : Nat), byteAt l i = (l.getD i 0).toNat ∧ halfAt l i = 256 * byteAt l i + byteAt l (i + 1) ∧
    posAt l i = 65536 * byteAt l i + 256 * byteAt l (i + 1) + byteAt l (i + 2) ∧
    wordAt l i = 16777216 * byteAt l i + 65536 * byteAt l (i + 1) + 256 * byteAt l (i + 2) + byteAt l (i + 3)) ∧
  (∀ n i : Nat, bitOf n i = n.testBit i) ∧
  (∀ n : Nat, signed16 n = if n < 32768 then (n : Int) else (n : Int) - 65536) ∧
  (∀ (b : Byte) (l : List Byte) (acc : Nat), crcBytes [] acc = acc ∧
    crcBytes (b :: l) acc = crcBytes l (crcBits 8 b.toNat acc)) ∧
  (∀ w n acc : Nat, crcBits 0 n acc = acc ∧ crcBits (w + 1) n acc = crcBits w n
    (if (acc / 32768 + n / 2 ^ w % 2) % 2 = 1 then Nat.xor (acc * 2 % 65536) 0x1021 else acc * 2 % 65536)) ∧
  (∀ l : List Byte, imageAccepted l = true ↔
    imageSound l = true ∧ stationRanges l = true ∧ processRanges l = true ∧ alarmRanges l = true ∧ rolesGood l = true) ∧
  (∀ l : List Byte, imageSound l = true ↔
    halfAt l 0 = 0xA548 ∧ halfAt l 2 = 402 ∧ halfAt l 400 = crcBytes (l.take 400) 65535) ∧
  (∀ l : List Byte, stationRanges l = true ↔
    1 ≤ byteAt l 4 ∧ byteAt l 4 ≤ 29 ∧ byteAt l 5 < 16 ∧ posAt l 6 < posAt l 9 ∧ 1 ≤ posAt l 21 ∧
    1 ≤ byteAt l 28 ∧ byteAt l 28 ≤ 3 ∧ 100 ≤ halfAt l 29 ∧ halfAt l 29 ≤ 2000 ∧ 2 * halfAt l 29 ≤ halfAt l 31 ∧
    halfAt l 31 ≤ 60000 ∧ 1 ≤ halfAt l 34 ∧ halfAt l 34 ≤ 4000 ∧ halfAt l 36 ≤ halfAt l 34) ∧
  (∀ l : List Byte, processRanges l = true ↔
    5 ≤ byteAt l 42 ∧ byteAt l 42 ≤ 100 ∧
    (∀ n, n < 8 → byteAt l (43 + 9 * n) ≤ 10 ∧ halfAt l (44 + 9 * n) ≤ 400 ∧ byteAt l (46 + 9 * n) ≤ 3) ∧
    byteAt l 115 ≤ 7 ∧ signed16 (halfAt l 118) < signed16 (halfAt l 120) ∧ signed16 (halfAt l 122) < signed16 (halfAt l 118) ∧
    byteAt l 143 ≤ 8) ∧
  (∀ l : List Byte, alarmRanges l = true ↔
    byteAt l 146 < 4 ∧ (byteAt l 159 = 3 ∨ byteAt l 159 = 4) ∧ (byteAt l 160 = 3 ∨ byteAt l 160 = 4) ∧ byteAt l 161 ≤ 1 ∧
    (∀ i, i < 13 → byteAt l (162 + i) ≤ 8) ∧
    (∀ i, i < 8 → wordAt l (175 + 6 * i) % 2 = 0 ∧ wordAt l (175 + 6 * i) < 2 ^ 30 ∧ byteAt l (179 + 6 * i) < 32 ∧
      (byteAt l (180 + 6 * i) = 0 ∨ (16 ≤ byteAt l (180 + 6 * i) ∧ byteAt l (180 + 6 * i) ≤ 63))) ∧
    byteAt l 223 ≤ 16 ∧ (∀ n, n < byteAt l 223 → (watchAt l (224 + 11 * n)).isSome = true) ∧
    (byteAt l 223 = 0 ∨ byteAt l 223 = 16 ∨ bitOf (byteAt l (230 + 11 * (byteAt l 223 - 1))) 7 = false)) ∧
  (∀ l : List Byte, rolesGood l = true ↔
    (bitOf (byteAt l 5) 0 = true → posAt l 14 = 0) ∧
    (bitOf (byteAt l 5) 1 = true → 1 ≤ byteAt l 143 ∧ byteAt l 143 ≤ 8) ∧
    (bitOf (byteAt l 5) 3 = true → byteAt l (43 + 9 * byteAt l 115) = 9)) ∧
  (∀ (l : List Byte) (i : Nat), (watchAt l i).isSome = true ↔
    byteAt l i < 30 ∧ byteAt l (i + 1) < 2 ∧ byteAt l (i + 6) / 8 % 16 = 0 ∧ 1 ≤ byteAt l (i + 7) ∧ byteAt l (i + 7) ≤ 15 ∧
    1 ≤ byteAt l (i + 8) ∧ byteAt l (i + 8) ≤ 4 ∧ byteAt l (i + 9) ≤ 8 ∧
    (byteAt l (i + 10) = 0 ∨ (16 ≤ byteAt l (i + 10) ∧ byteAt l (i + 10) ≤ 63))) ∧
  (∀ (l : List Byte) (i : Nat) (d : WatchDef), watchAt l i = some d →
    d.quantity = byteAt l i ∧ d.above = (byteAt l (i + 1) == 0) ∧ d.threshold = signed16 (halfAt l (i + 2)) ∧
    d.margin = halfAt l (i + 4) ∧ d.inIdle = bitOf (byteAt l (i + 6)) 0 ∧ d.inRun = bitOf (byteAt l (i + 6)) 1 ∧
    d.inService = bitOf (byteAt l (i + 6)) 2 ∧ d.chain = bitOf (byteAt l (i + 6)) 7 ∧ d.persistence = byteAt l (i + 7) ∧
    actionCode d.action = byteAt l (i + 8) ∧ d.group = byteAt l (i + 9) ∧ d.mark = byteAt l (i + 10)) ∧
  (∀ l : List Byte, parseImage l =
    { preferred := byteAt l 4
      roles := ⟨bitOf (byteAt l 5) 0, bitOf (byteAt l 5) 1, bitOf (byteAt l 5) 2, bitOf (byteAt l 5) 3⟩
      winStart := posAt l 6, winEnd := posAt l 9, handoverLead := halfAt l 12
      eyePos := if posAt l 14 = 16777215 then none else some (posAt l 14)
      eyeTolerance := halfAt l 17, lengthTolerance := halfAt l 19, countsPerMetre := posAt l 21, stallTime := halfAt l 24
      holdOverTime := halfAt l 26, bitRate := byteAt l 28, presencePeriod := halfAt l 29, agingInterval := halfAt l 31
      busyBackoff := byteAt l 33, cap := halfAt l 34, base := halfAt l 36, lendMargin := halfAt l 38
      returnHysteresis := halfAt l 40, heaterPeriod := byteAt l 42
      channels := (List.range 8).map (fun n => ⟨zoneOf (byteAt l (43 + 9 * n)), halfAt l (43 + 9 * n + 1),
        byteAt l (43 + 9 * n + 3), byteAt l (43 + 9 * n + 4), byteAt l (43 + 9 * n + 5), byteAt l (43 + 9 * n + 6),
        signed16 (halfAt l (43 + 9 * n + 7))⟩)
      refChannel := byteAt l 115, meltSafe := signed16 (halfAt l 116), feedOn := signed16 (halfAt l 118)
      feedOff := signed16 (halfAt l 120), lowLow := signed16 (halfAt l 122), feedLimit := halfAt l 124
      mainDrawdown := halfAt l 126, chipDrawdown := halfAt l 128, wavePos := posAt l 130, raiseLead := halfAt l 133
      lowerLag := halfAt l 135, rampRate := byteAt l 137, settleTime := halfAt l 138, sprayPos := posAt l 140
      nozzleCount := byteAt l 143, flowLag := halfAt l 144
      ductEnabled := [bitOf (byteAt l 146) 0, bitOf (byteAt l 146) 1], proveThreshold := halfAt l 147
      lossThreshold := halfAt l 149, proveHold := byteAt l 151, lossSamples := byteAt l 152, proveTimeout := halfAt l 153
      runOnTime := halfAt l 155, heatThreshold := signed16 (halfAt l 157)
      failedLevel := if byteAt l 159 = 4 then .trip else .hold, lostLevel := if byteAt l 160 = 4 then .trip else .hold
      lostLatching := byteAt l 161 == 1, builtinGroups := (List.range 13).map (fun i => byteAt l (162 + i))
      groups := (List.range 8).map (fun i => ⟨BitVec.ofNat 32 (wordAt l (175 + 6 * i)),
        BitVec.ofNat 8 (byteAt l (179 + 6 * i)), byteAt l (180 + 6 * i)⟩)
      fixedWatches := (List.range (byteAt l 223)).filterMap (fun n => watchAt l (224 + 11 * n)) }) ∧
  (∀ k : Nat, zoneOf k = if k = 0 then .unused else if k = 9 then .pot else if k = 10 then .standbyOnly else .preheat k) ∧
  (∀ c : StationConfig, loadedEntries c = (List.range 16).map (fun n => match c.fixedWatches[n]? with
    | some d => .fixed d
    | none => .empty))

/-! ## Encoder, eyes, marks (01) -/

/-- R4: the count's steps, its wrap, what keeps it, and the signed 32-bit difference that a position takes. With it, the frame of
COUNT_EVENT; what its position events make of the records is stated in PositionEventsAndDueDots. -/
def Obligations.TheEncoderCount : Prop :=
  (∀ (forward : Bool) (s : State), ∃ t, exec (.countEvent forward) s = .next t ∧
    t.tracker.count = (if forward then s.tracker.count + 1 else s.tracker.count - 1) ∧
    t.far = { s with tracker := { s.tracker with count := t.tracker.count } }.far) ∧
  (∀ (pinHeld : Bool) (s t : State), exec (.startReset pinHeld) s = .next t → t.tracker.count = 0) ∧
  (∀ (c : Instr) (s t : State), (∀ forward, c ≠ .countEvent forward) → (∀ pinHeld, c ≠ .startReset pinHeld) →
    exec c s = .next t → t.tracker.count = s.tracker.count) ∧
  (∀ (countsPerMetre pos : Nat) (count : BitVec 32) (d : Int), -2147483648 < d → d < 2147483648 →
    leadingEdge countsPerMetre pos (count + BitVec.ofInt 32 d) count =
      clampNat 16777215 ((pos : Int) + Int.tdiv (d * 10000) countsPerMetre))

/-- FLOW_PULSE: the station flow count rises and wraps, and the counting board's flow pulses rise (R47). That it does so while the
reset pin is held is log entry 57 (DESIGN CHOICE, unsafe). -/
def Obligations.FlowPulseIsCounted : Prop :=
  (∀ s : State, s.spray.counting = none →
    exec .flowPulse s = .next { s with spray := { s.spray with flowCount := s.spray.flowCount + 1 } }) ∧
  (∀ (s : State) (id : Nat), s.spray.counting = some id →
    exec .flowPulse s = .next { s with
      spray := { s.spray with flowCount := s.spray.flowCount + 1 }
      tracker := { s.tracker with queue := s.tracker.queue.map (fun b =>
        if b.line.id == id then { b with flowPulses := if b.flowPulses < 65535 then b.flowPulses + 1 else 65535 } else b) } })

/-- ENTRY_LEADING_EDGE (R14): a place is free and a record is made with the next id that is not held, and the head admission counts
it; no place is free, and UNTRACKED_BOARD is one occurrence and the board under the eye becomes none; the station is not JOINED; a
JOINED station without the ENTRY role, where the edge changes nothing (log entry 27, DEDUCED); and a board with neither admission
nor default, which is marked NO_RECIPE 7 where the window takes it in, with one occurrence of NO_RECIPE. The record with all its
local fields (R2), the three cases of its recipe and length (R14), the id sequence, the free places (R3) and the admission that is
used up (R28) are spelled, and the whole state after; the order in it, the join before the admission's own count falls, is log entry
34 (DEDUCED, unsafe). -/
def Obligations.EntryLeadingEdgeMakesABoard : Prop :=
  (∀ s : State, s.joined = true → s.cfg.roles.entry = true → s.freePlaces ≠ 0 →
    freshId s.boardIds 9 s.tracker.nextId ∉ s.boardIds ∧
    ∃ t, exec .entryLeadingEdge s = .next t ∧ t.far = s.far ∧
      t.tracker.nextId = nextBoardId (freshId s.boardIds 9 s.tracker.nextId) ∧
      t.tracker.underEye = some (freshId s.boardIds 9 s.tracker.nextId) ∧
      (∀ n, n ∈ t.boardIds ↔ n = freshId s.boardIds 9 s.tracker.nextId ∨ n ∈ s.boardIds) ∧
      t.someBoard (freshId s.boardIds 9 s.tracker.nextId) (fun b =>
        b.anchorPos = 0 ∧ b.anchorCount = s.tracker.count ∧ b.confirmed = true ∧ b.line.recipe = s.entryData.1 ∧
        b.line.version = s.entryData.2.1 ∧ b.line.length = s.entryData.2.2.1 ∧ b.admitted = s.entryData.2.2.2.1 ∧
        b.line.unannounced = s.tracker.admissions.isEmpty) ∧
      (s.tracker.admissions = [] → t.tracker.admissions = []) ∧
      (∀ (a : Admission) (rest : List Admission), s.tracker.admissions = a :: rest →
        t.tracker.admissions = if 1 < a.count then { a with count := a.count - 1 } :: rest else rest)) ∧
  (∀ s : State, s.joined = true → s.cfg.roles.entry = true → s.freePlaces = 0 →
    ∃ t, exec .entryLeadingEdge s = .next t ∧ t.steady = (s.withUnderEye none).steady ∧
      t = settle (occurrence 17 s.tracker.queue.length (s.withUnderEye none)) ∧
      (s.alarmState 17 ≠ .quiet → t.record 17 = s.record 17) ∧
      (s.alarmState 17 = .quiet → 17 < s.alarms.records.length → s.tracker.queue.length ≤ 8 →
        t.alarmState 17 = .latched ∧ (t.record 17).value = s.tracker.queue.length)) ∧
  (∀ s : State, s.joined = false → exec .entryLeadingEdge s = .next (s.withUnderEye none)) ∧
  (∀ s : State, s.joined = true → s.cfg.roles.entry = false → exec .entryLeadingEdge s = .next s) ∧
  (∀ s : State, s.joined = true → s.cfg.roles.entry = true → s.freePlaces ≠ 0 → ∃ t, exec .entryLeadingEdge s = .next t ∧
    (s.tracker.admissions ≠ [] ∨ (∃ sl ∈ s.recipes.slots, sl.isDefault = true) → t.record 20 = s.record 20) ∧
    (s.tracker.admissions = [] → (∀ sl ∈ s.recipes.slots, sl.isDefault = false) →
      t.someBoard (freshId s.boardIds 9 s.tracker.nextId) (fun b => b.line.recipe = 0 ∧ b.line.version = 0 ∧ b.line.length = 1 ∧
        (s.cfg.winStart = 0 → (⟨s.dir.own, 7⟩ : Mark) ∈ b.line.marks)) ∧
      (s.alarmState 20 ≠ .quiet → t.record 20 = s.record 20) ∧
      (s.alarmState 20 = .quiet → 20 < s.alarms.records.length → t.alarmState 20 = .latched ∧
        (t.record 20).value = recordValue (freshId s.boardIds 9 s.tracker.nextId)))) ∧
  (∀ s : State,
      (∀ (a : Admission) (rest : List Admission), s.tracker.admissions = a :: rest →
        s.entryData = (a.recipe, a.version, a.length, some a.length, false)) ∧
      (∀ sl : Slot, s.tracker.admissions = [] → s.recipes.slots.find? (fun x => x.isDefault) = some sl →
        s.entryData = (sl.number, sl.version, 1, none, false)) ∧
      (s.tracker.admissions = [] → (∀ sl ∈ s.recipes.slots, sl.isDefault = false) → s.entryData = (0, 0, 1, none, true))) ∧
  (∀ (held : List Nat) (tries n : Nat), freshId held 0 n = n ∧ (n ∉ held → freshId held tries n = n) ∧
      (n ∈ held → freshId held (tries + 1) n = freshId held tries (nextBoardId n))) ∧
  (∀ n : Nat, nextBoardId n = if n < 65535 then n + 1 else 1) ∧
  (∀ s : State, s.freePlaces = 8 - (s.tracker.queue.length + (if s.bus.reservation = some .boardPlace then 1 else 0))) ∧
  (∀ s : State, (s.tracker.admissions = [] → useAdmission s = s) ∧
      ∀ (a : Admission) (rest : List Admission), s.tracker.admissions = a :: rest →
        (1 < a.count → useAdmission s =
          { s with tracker := { s.tracker with admissions := { a with count := a.count - 1 } :: rest } }) ∧
        (a.count ≤ 1 → useAdmission s =
          dropRef (s.resolve a.recipe a.version) { s with tracker := { s.tracker with admissions := rest } })) ∧
  (∀ s : State, dropRef none s = s ∧ ∀ i : Nat, dropRef (some i) s = s.withSlots (s.recipes.slots.modify i (fun sl =>
      if sl.state = .retiring ∧ sl.refs - 1 = 0 then .blank else { sl with refs := sl.refs - 1 }))) ∧
  (∀ (s u v : State) (id : Nat) (b : Board), s.joined = true → s.cfg.roles.entry = true → s.freePlaces ≠ 0 →
      id = freshId s.boardIds 9 s.tracker.nextId →
      b = { line := ⟨id, s.entryData.1, s.entryData.2.1, s.entryData.2.2.1, s.tracker.admissions.isEmpty, false, false, []⟩
            anchorPos := 0, anchorCount := s.tracker.count, handed := none, confirmed := true, seenMissing := false
            admitted := s.entryData.2.2.2.1, slot := none
            noRecipeNoted := s.entryData.2.2.2.2 && decide (s.cfg.winStart = 0)
            heldBack := false, phase := .waiting, nextDot := 0, dotsFired := 0, dotsSkipped := 0, flowPulses := 0
            notFluxed := false, flowLag := .stopped, waveContact := false } →
      u = useAdmission (joinQueue b { s with tracker := { s.tracker with nextId := nextBoardId id, underEye := some id } }) →
      v = (if s.entryData.2.2.2.2 = true then occurrence 20 id (addMark id 7 u) else u) →
      exec .entryLeadingEdge s = .next (settle (workRequests (takeInChecks id v))))

/-- ENTRY_TRAILING_EDGE (R15): the board under the eye takes its measured length, 1..65535, and LENGTH_FINAL; a length off the
admitted one by more than the tolerance adds LENGTH_MISMATCH 8, and AMEND LENGTH is queued for a HANDED record where class 1 is
admitted. That a change of length alone leaves the pumps' requests as they were is log entry 41 (DEDUCED, unsafe). -/
def Obligations.EntryTrailingEdgeMeasuresTheBoard : Prop :=
  (∀ (s : State) (id : Nat) (b : Board), s.tracker.underEye = some id → s.board id = some b →
    ∃ t, exec .entryTrailingEdge s = .next t ∧
      t.steady = ((updateLine id (fun r =>
        { r with length := if s.pos b = 0 then 1 else min (s.pos b) 65535, lengthFinal := true }) s).withUnderEye none).steady) ∧
  (∀ (s u v : State) (id m : Nat) (b : Board), s.tracker.underEye = some id → s.board id = some b →
    m = (if s.pos b = 0 then 1 else min (s.pos b) 65535) →
    u = updateLine id (fun r => { r with length := m, lengthFinal := true }) s →
    v = (if ∃ a ∈ b.admitted, s.cfg.lengthTolerance < m - a ∨ s.cfg.lengthTolerance < a - m then addMark id 8 u else u) →
    exec .entryTrailingEdge s = .next ((if b.handed.isSome = true ∧ v.admits 1 = true then
      v.withTx (v.bus.queue ++ [newFrame 1 0 (.amendLength id m)]) else v).withUnderEye none)) ∧
  (∀ s : State, s.tracker.underEye.bind s.board = none → exec .entryTrailingEdge s = .next s)

/-- EYE_LEADING_EDGE at a JOINED station that is not ENTRY (R16): the chosen candidate is anchored at the eye and confirmed,
and is held on unless its span has then left the window (R22), AMEND POSITION is queued (R20), and the position events of R5
follow, in the order of log entry 15 (DESIGN CHOICE, unsafe). Without a candidate no record changes and UNTRACKED_BOARD is one
occurrence. The candidates of R16 and R17, and the one chosen: the nearest, of two at one distance the one with the greater L,
and of two with the same L the one earlier in the queue (log entry 46, DESIGN CHOICE, unsafe). While not JOINED the edge is
ignored; without an eye position or at ENTRY it changes nothing (log entry 27, DEDUCED). -/
def Obligations.EyeLeadingEdgeConfirmsABoard : Prop :=
  (∀ (s : State) (eye : Nat) (b : Board), s.cfg.eyePos = some eye → s.joined = true → s.cfg.roles.entry = false →
    s.chooseAtEye eye = some b → ∃ t, exec .eyeLeadingEdge s = .next t ∧ t.far = s.far ∧
      t.eachBoard b.line.id (fun x => x.anchorPos = eye ∧ x.anchorCount = s.tracker.count ∧ x.confirmed = true) ∧
      (s.eachBoard b.line.id (fun x =>
          leadingEdge s.cfg.countsPerMetre eye s.tracker.count s.tracker.count ≤ s.cfg.winEnd + x.line.length) →
        b.line.id ∈ t.boardIds)) ∧
  (∀ (s : State) (eye : Nat), s.cfg.eyePos = some eye → s.joined = true → s.cfg.roles.entry = false →
    s.chooseAtEye eye = none → ∃ t, exec .eyeLeadingEdge s = .next t ∧ t.steady = s.steady ∧
      t = settle (occurrence 17 s.tracker.queue.length s) ∧
      (s.alarmState 17 ≠ .quiet → t.record 17 = s.record 17) ∧
      (s.alarmState 17 = .quiet → 17 < s.alarms.records.length → s.tracker.queue.length ≤ 8 →
        t.alarmState 17 = .latched ∧ (t.record 17).value = s.tracker.queue.length)) ∧
  (∀ (s u v : State) (eye : Nat) (b : Board), s.cfg.eyePos = some eye → s.joined = true → s.cfg.roles.entry = false →
    s.chooseAtEye eye = some b →
    u = reorder (updateBoard b.line.id
      (fun x => { x with anchorPos := eye, anchorCount := s.tracker.count, confirmed := true }) s) →
    v = (if u.admits 1 = true then u.withTx (u.bus.queue ++ [newFrame 1 0 (.amendPosition b.line.id)]) else u) →
    exec .eyeLeadingEdge s = .next (settle (workRequests (positionEvents (movedBoards s u) v)))) ∧
  (∀ (s : State) (eye : Nat) (b : Board), s.eyeCandidate eye b = true ↔ b.confirmed = false ∧ b.seenMissing = false ∧
    eye ≤ s.pos b + s.cfg.eyeTolerance ∧ s.pos b ≤ eye + s.cfg.eyeTolerance) ∧
  (∀ p eye : Nat, (p ≤ eye → eyeDistance eye p = eye - p) ∧ (eye ≤ p → eyeDistance eye p = p - eye)) ∧
  (∀ (s : State) (eye : Nat), s.chooseAtEye eye = none ↔ ∀ x ∈ s.tracker.queue, s.eyeCandidate eye x = false) ∧
  (∀ (s : State) (eye : Nat) (b : Board), s.chooseAtEye eye = some b ↔
    ∃ i : Nat, s.tracker.queue[i]? = some b ∧ s.eyeCandidate eye b = true ∧
      ∀ (j : Nat) (x : Board), s.tracker.queue[j]? = some x → s.eyeCandidate eye x = true →
        eyeDistance eye (s.pos b) ≤ eyeDistance eye (s.pos x) ∧
        (j < i → eyeDistance eye (s.pos b) < eyeDistance eye (s.pos x))) ∧
  (∀ (s : State) (eye : Nat) (b x : Board), (s.tracker.queue.map s.pos).Pairwise (fun p q => q ≤ p) →
    s.chooseAtEye eye = some b → x ∈ s.tracker.queue → s.eyeCandidate eye x = true →
    eyeDistance eye (s.pos x) = eyeDistance eye (s.pos b) → s.pos x ≤ s.pos b) ∧
  (∀ s : State, s.cfg.eyePos = none ∨ s.joined = false ∨ s.cfg.roles.entry = true → exec .eyeLeadingEdge s = .next s)

/-- R19: the add-mark operation for a held record. -/
def Obligations.TheAddMarkOperation : Prop :=
  ∀ (s : State) (id code : Nat) (b : Board), s.board id = some b →
    (¬(s.cfg.winStart ≤ s.pos b ∧ s.pos b ≤ s.cfg.winEnd + b.line.length) → addMark id code s = s) ∧
    (s.cfg.winStart ≤ s.pos b ∧ s.pos b ≤ s.cfg.winEnd + b.line.length →
      ((⟨s.dir.own, code⟩ : Mark) ∈ b.line.marks → addMark id code s = s) ∧
      ((⟨s.dir.own, code⟩ : Mark) ∉ b.line.marks →
        (addMark id code s).board id = some { b with line :=
          if b.line.marks.length < 4 then { b.line with marks := b.line.marks ++ [⟨s.dir.own, code⟩] }
          else { b.line with markOverflow := true } } ∧
        (∀ n, n ≠ id → (addMark id code s).board n = s.board n) ∧
        (addMark id code s).bus.queue =
          (if s.admits 1 then s.bus.queue ++ [newFrame 1 0 (.amendMark id s.dir.own code)] else s.bus.queue) ∧
        { addMark id code s with
          tracker := { (addMark id code s).tracker with queue := s.tracker.queue }
          bus := { (addMark id code s).bus with queue := s.bus.queue } } = s))

/-- PERMIT_LINE_CHANGE and TRIP_LINE_CHANGE: the wires are sensed as they stand, the condition is the derived one, and nothing but
what follows from a condition or a mark changes (R18, R144..R148). The derived condition is the table of R144, in its order, with
HOLD_CONVEYOR in force where a group in force has it in its action set or has an empty set (R131, R138); NORMAL while the station is
not JOINED (R141). The operand of both commands is what the others pull, which is log entry 3 (DESIGN CHOICE, safe). What follows
every event: HAND_LATE (R11), the nozzles (spelled in PulseEndAndFlowLagExpiry), the pumps and the feeder (in
StallAndFeedRunExpiry), and the permit line with the stall timer (R18, R146), in the order of log entry 5 (DESIGN CHOICE, unsafe).
What a change of alarms, groups or the trip line brings: the sensed trip line with the line first-out record (R145, R148), the
condition with its units as R144 lists them, its marks (R147) and STATUS (R182), also in the order of log entry 5. Each of the two
commands is its own change and then these. -/
def Obligations.TheLineWiresAreSensed : Prop :=
  (∀ (pull : Bool) (s : State), ∃ t, exec (.permitLineChange pull) s = .next t ∧ t.control.permitSensed = t.permitLevel ∧
    t = settle { s with control := { s.control with permitOthers := pull } } ∧
    t.steady = { s with control := { s.control with permitOthers := pull } }.steady) ∧
  (∀ (pull : Bool) (s : State), ∃ t, exec (.tripLineChange pull) s = .next t ∧ t.Derived ∧
    t = settle (recondition { s with control := { s.control with tripOthers := pull } }) ∧
    t.steady = { s with control := { s.control with tripOthers := pull } }.steady) ∧
  (∀ s : State,
    (s.joined = false → s.derivedCondition = .normal) ∧
    (s.joined = true → (∃ i, i < 29 ∧ s.stands i = true ∧ s.alarmAction i = .trip) → s.derivedCondition = .tripped) ∧
    (s.joined = true → (∀ i, i < 29 → s.stands i = true → s.alarmAction i ≠ .trip) →
      (s.control.tripSensed = true → s.derivedCondition = .lineStop) ∧
      (s.control.tripSensed = false →
        ((∃ i, i < 29 ∧ s.stands i = true ∧ s.alarmAction i = .hold) ∨ s.holdConveyor = true → s.derivedCondition = .hold) ∧
        ((∀ i, i < 29 → s.stands i = true → s.alarmAction i ≠ .hold) → s.holdConveyor = false →
          s.derivedCondition = .normal)))) ∧
  (∀ s : State, s.holdConveyor = true ↔ ∃ g, 1 ≤ g ∧ g ≤ 8 ∧ (∃ a ∈ s.groups.activity, a.group = g) ∧
    ((s.group g).actions = 0 ∨ bitOf (s.group g).actions.toNat 3 = true)) ∧
  (∀ (s : State) (k : Nat), k < 3 → (s.inForce k = true ↔ ∃ g, 1 ≤ g ∧ g ≤ 8 ∧ (∃ a ∈ s.groups.activity, a.group = g) ∧
    bitOf (s.group g).actions.toNat k = true)) ∧
  (∀ s : State, s.inhibitSpray = s.inForce 0 ∧ s.lowerWave = s.inForce 1 ∧ s.standbyHeat = s.inForce 2) ∧
  (∀ s : State, settle s = sensePermit (sensePermit (potUpdate (sprayUpdate (handLate s))))) ∧
  (∀ (s : State) (b : Board) (w : Nat), b ∈ s.tracker.queue → b.handed = none → s.neighbourStart = some w → w ≤ s.pos b →
    handLate s = raiseHeld 16 (s.tracker.neighbour.getD 0) s) ∧
  (∀ s : State, (∀ b ∈ s.tracker.queue, ∀ w, b.handed = none → s.neighbourStart = some w → s.pos b < w) →
    handLate s = releaseHeld 16 s) ∧
  (∀ s : State, s.permitLevel = true ↔ s.joined = true ∧ s.control.mode = .run ∧ s.control.condition = .normal ∧
    s.control.permitOthers = false) ∧
  (∀ s : State,
    (s.permitLevel = s.control.permitSensed → sensePermit s = s) ∧
    (s.permitLevel = true → s.control.permitSensed = false → sensePermit s = { s with
      control := { s.control with permitSensed := true }
      tracker := { s.tracker with stall := if s.cfg.stallTime = 0 then .stopped else .running s.cfg.stallTime } }) ∧
    (s.permitLevel = false → s.control.permitSensed = true → sensePermit s = releaseHeld 19 { s with
      control := { s.control with permitSensed := false }
      tracker := { s.tracker with stall := .stopped } })) ∧
  (∀ s u : State, u = senseTrip s →
    (u.derivedCondition = u.control.condition → recondition s = potUpdate (sprayUpdate u)) ∧
    (u.derivedCondition ≠ u.control.condition → recondition s =
      queueStatus (conditionMarks u.derivedCondition (potUpdate (forcedFalls (sprayUpdate
        { u with control := { u.control with condition := u.derivedCondition } })))))) ∧
  (∀ s : State, queueStatus s = if s.joined = true ∧ s.hasFrame (TxFrame.isKind 3) = false ∧ s.admits 0 = true then
    s.withTx (s.bus.queue ++ [newFrame 0 0 .status]) else s) ∧
  (∀ s : State, s.tripLevel = true ↔
    (s.joined = true ∧ ∃ i, i < 29 ∧ s.stands i = true ∧ s.alarmAction i = .trip) ∨ s.control.tripOthers = true) ∧
  (∀ s : State,
    (s.tripLevel = s.control.tripSensed → senseTrip s = s) ∧
    (s.tripLevel ≠ s.control.tripSensed → s.joined = false →
      senseTrip s = { s with control := { s.control with tripSensed := s.tripLevel } }) ∧
    (s.tripLevel = true → s.control.tripSensed = false → s.joined = true → senseTrip s = { s with control := { s.control with
      tripSensed := true
      lineState := if s.control.lineState = .armed then .opened else s.control.lineState
      lineValue := if s.control.lineState = .armed then none else s.control.lineValue } }) ∧
    (s.tripLevel = false → s.control.tripSensed = true → s.joined = true →
      senseTrip s = { s with control := { s.control with tripSensed := false, lineState := .armed } })) ∧
  (∀ s : State, conditionMarks .normal s = s ∧
    conditionMarks .tripped s = markBoards (fun _ => true) 11 s ∧ conditionMarks .lineStop s = markBoards (fun _ => true) 11 s ∧
    ∀ u : State, u = (if s.cfg.roles.pot = true then markBoards (s.spans s.cfg.wavePos) 12 s else s) →
      conditionMarks .hold s = if s.cfg.roles.flux = true then markBoards (s.spans s.cfg.sprayPos) 12 u else u) ∧
  (∀ (s : State) (place : Nat) (b : Board), s.spans place b = true ↔ place ≤ s.pos b ∧ s.pos b ≤ place + b.line.length) ∧
  (∀ (p : Board → Bool) (code : Nat) (s : State), markBoards p code s =
    ((s.tracker.queue.filter p).map (fun b => b.line.id)).foldl (fun s id => addMark id code s) s)

/-! ## HAND and AMEND (01) -/

/-- HAND commits at its sender (R10): HANDED names the destination while it is still the neighbour; otherwise the record stays
unhanded and is checked again toward the present neighbour (R9; the check is spelled in PositionEventsAndDueDots), and no record's
HANDED changes. With no record of the board id there is no effect on a record. Both act by the board id, also on a record taken in
anew with the id after the one handed was released, which is log entry 56 (DESIGN CHOICE, unsafe). -/
def Obligations.HandCommitsAtItsSender : Prop :=
  (∀ (src dst : Station) (f : HandFields) (s : State), s.Sends 8 src.toNat dst.toNat (handBytes f) →
    s.tracker.neighbour = some dst.toNat → ∃ t, exec (.hand src dst f) s = .next t ∧
      t.still = (updateBoard f.board.toNat (fun b => { b with handed := some dst.toNat }) s).still ∧
      t = dropReservation (settle (updateBoard f.board.toNat (fun b => { b with handed := some dst.toNat })
        (commitFrame true src.toNat s)))) ∧
  (∀ (src dst : Station) (f : HandFields) (s : State), s.Sends 8 src.toNat dst.toNat (handBytes f) →
    s.tracker.neighbour ≠ some dst.toNat → ∃ t, exec (.hand src dst f) s = .next t ∧
      t = dropReservation (settle (handoverCheck f.board.toNat (commitFrame true src.toNat s))) ∧ t.far = s.far ∧
      t.boardIds = s.boardIds ∧ ∀ id, t.eachBoard id (fun x => s.someBoard id (fun b => x.handed = b.handed)))

/-- HAND commits at its destination (R13): an unknown id becomes a record of the frame's line record, anchored at the frame's L and
the frame-start count, held unless it has left the window; a known one is merged, keeps its anchor, recipe and version, and is held
unless its span with the merged length has left the window (R22). Its marks stay in their order, and new ones may follow. The merge
of the flags and of the pairs is spelled. The checks of a take-in are those of log entry 34 (DEDUCED, unsafe), and the checks of the
position event come in the order of log entry 15 (DESIGN CHOICE, unsafe). What the take-in checks make of a record passed over by
the spray unit (R43), and the local fields of a record taken in (R2). A station that has not acknowledged the HAND takes the common
part alone (R13, R163). -/
def Obligations.HandCommitsAtItsDestination : Prop :=
  (∀ (src dst : Station) (f : HandFields) (s : State) (start : BitVec 32), s.Hears start → s.Accepts dst → s.joined = true →
    s.board f.board.toNat = none → s.tracker.queue.length < 8 → ∃ t, exec (.hand src dst f) s = .next t ∧ t.far = s.far ∧
      t.eachBoard f.board.toNat (fun b => b.anchorPos = f.pos.toNat ∧ b.anchorCount = start ∧ b.handed = none ∧
        b.line.recipe = f.recipe.toNat ∧ b.line.version = f.version.toNat ∧ b.line.length = f.length.toNat ∧
        b.line.unannounced = bitOf f.flags.toNat 0 ∧ b.line.lengthFinal = bitOf f.flags.toNat 1 ∧
        (bitOf f.flags.toNat 2 = true → b.line.markOverflow = true) ∧ b.confirmed = false ∧
        f.marks.map (fun p => (⟨p.1.toNat, p.2.toNat⟩ : Mark)) <+: b.line.marks) ∧
      t = dropReservation (settle (positionEvents [f.board.toNat] (takeInChecks f.board.toNat
        (joinQueue (freshBoard (handLine f) f.pos.toNat start) (commitFrame false src.toNat s))))) ∧
      (leadingEdge s.cfg.countsPerMetre f.pos.toNat s.tracker.count start ≤ s.cfg.winEnd + f.length.toNat →
        f.board.toNat ∈ t.boardIds)) ∧
  (∀ (src dst : Station) (f : HandFields) (s : State) (start : BitVec 32), s.Hears start → s.Accepts dst → s.joined = true →
    (s.board f.board.toNat).isSome = true → ∃ t, exec (.hand src dst f) s = .next t ∧ t.far = s.far ∧
      t.eachBoard f.board.toNat (fun x => s.someBoard f.board.toNat (fun b => x.anchorPos = b.anchorPos ∧
        x.anchorCount = b.anchorCount ∧ x.line.recipe = b.line.recipe ∧ x.line.version = b.line.version ∧
        x.line.lengthFinal = (b.line.lengthFinal || bitOf f.flags.toNat 1) ∧
        x.line.unannounced = (b.line.unannounced || bitOf f.flags.toNat 0) ∧
        ((b.line.markOverflow || bitOf f.flags.toNat 2) = true → x.line.markOverflow = true) ∧
        b.line.marks <+: x.line.marks ∧
        (∀ p ∈ f.marks, (⟨p.1.toNat, p.2.toNat⟩ : Mark) ∈ x.line.marks ∨ x.line.markOverflow = true) ∧
        x.line.length = if bitOf f.flags.toNat 1 then f.length.toNat else b.line.length)) ∧
      t = dropReservation (settle (positionEvents [f.board.toNat]
        (updateLine f.board.toNat (mergeLine (handLine f)) (commitFrame false src.toNat s)))) ∧
      (s.eachBoard f.board.toNat (fun b =>
          s.pos b ≤ s.cfg.winEnd + (if bitOf f.flags.toNat 1 then f.length.toNat else b.line.length)) →
        f.board.toNat ∈ t.boardIds)) ∧
  (∀ f : HandFields, handLine f = ⟨f.board.toNat, f.recipe.toNat, f.version.toNat, f.length.toNat, bitOf f.flags.toNat 0,
    bitOf f.flags.toNat 1, bitOf f.flags.toNat 2, f.marks.map (fun p => ⟨p.1.toNat, p.2.toNat⟩)⟩) ∧
  (∀ f x : LineRecord, mergeLine f x = mergePairs f.marks { x with
    length := if f.lengthFinal then f.length else x.length, lengthFinal := x.lengthFinal || f.lengthFinal
    unannounced := x.unannounced || f.unannounced, markOverflow := x.markOverflow || f.markOverflow }) ∧
  (∀ (m : Mark) (rest : List Mark) (x : LineRecord), mergePairs [] x = x ∧
    mergePairs (m :: rest) x = mergePairs rest
      (if m ∈ x.marks then x else if x.marks.length < 4 then { x with marks := x.marks ++ [m] } else { x with markOverflow := true })) ∧
  (∀ (src dst : Station) (f : HandFields) (s : State) (start : BitVec 32), s.Hears start →
    s.bus.answer.ack = false ∨ dst.toNat ≠ s.dir.own ∨ s.joined = false →
    exec (.hand src dst f) s = .next (s.afterCommit false src.toNat)) ∧
  (∀ (id : Nat) (s : State),
    takeInChecks id s = standingMarks id (contactCheck id (noRecipeMark id (sprayPassOver id s)))) ∧
  (∀ (s : State) (id margin : Nat) (b : Board), s.board id = some b →
    margin = (match s.slotOf b with
      | some sl => 10 * sl.body.margin
      | none => 0) →
    sprayPassOver id s = if s.cfg.roles.flux = true ∧ s.cfg.sprayPos + margin < s.pos b then
      flowCheck id (markNotFluxed id (updateBoard id (fun b => { b with phase := .ended }) s)) else s) ∧
  (∀ (line : LineRecord) (pos : Nat) (count : BitVec 32), freshBoard line pos count =
      { line := line, anchorPos := pos, anchorCount := count, handed := none, confirmed := false, seenMissing := false
        admitted := none, slot := none, noRecipeNoted := false, heldBack := false, phase := .waiting, nextDot := 0
        dotsFired := 0, dotsSkipped := 0, flowPulses := 0, notFluxed := false, flowLag := .stopped, waveContact := false })

/-- The three forms of AMEND from another station (R21), at a station that holds the board; a pair or a length out of range has no
effect beyond the common part. A record with a new position is held on unless its span has then left the window (R22). That AMEND
LENGTH leaves the pumps' requests as they were is log entry 41 (DEDUCED, unsafe). A station that is not JOINED takes the common part
alone, and so does one that hears an AMEND with its own number (log entry 28, DEDUCED). The state after each form is written out,
with the add rule of R19 (held once, at most 4, then MARK_OVERFLOW) and no other record changed; POSITION puts the queue back in
order and brings the position event, spelled in PositionEventsAndDueDots. A station that does not hold the board takes the common
part alone, and so does the sender at its own commit (R21). The range of a pair is spelled. -/
def Obligations.AmendsOfOtherStations : Prop :=
  (∀ (src : Station) (board : Half) (station code : Byte) (s : State) (start : BitVec 32), s.Hears start → s.joined = true →
    src.toNat ≠ s.dir.own → pairOk station.toNat code.toNat = true → (s.board board.toNat).isSome = true →
    ∃ t, exec (.amendMark src board station code) s = .next t ∧ t.still = s.still ∧
      t = dropReservation (updateLine board.toNat (addPair ⟨station.toNat, code.toNat⟩) (commitFrame false src.toNat s)) ∧
      ∃ b, t.board board.toNat = some b ∧ ((⟨station.toNat, code.toNat⟩ : Mark) ∈ b.line.marks ∨ b.line.markOverflow = true)) ∧
  (∀ (src : Station) (board : Half) (station code : Byte) (s : State) (start : BitVec 32), s.Hears start →
    pairOk station.toNat code.toNat = false →
    exec (.amendMark src board station code) s = .next (s.afterCommit false src.toNat)) ∧
  (∀ (src : Station) (board length : Half) (s : State) (start : BitVec 32), s.Hears start → s.joined = true →
    src.toNat ≠ s.dir.own → length ≠ 0 → ∃ t, exec (.amendLength src board length) s = .next t ∧
      t.still = (updateLine board.toNat (fun r => { r with length := length.toNat, lengthFinal := true }) s).still ∧
      t = dropReservation (updateLine board.toNat (fun r => { r with length := length.toNat, lengthFinal := true })
        (commitFrame false src.toNat s))) ∧
  (∀ (src : Station) (board : Half) (s : State) (start : BitVec 32), s.Hears start →
    exec (.amendLength src board 0) s = .next (s.afterCommit false src.toNat)) ∧
  (∀ (src : Station) (board : Half) (pos : Pos) (s : State) (start : BitVec 32), s.Hears start → s.joined = true →
    src.toNat ≠ s.dir.own → (s.board board.toNat).isSome = true → ∃ t, exec (.amendPosition src board pos) s = .next t ∧
      t.far = s.far ∧
      t = dropReservation (settle (positionEvents [board.toNat] (reorder (updateBoard board.toNat
        (fun b => { b with anchorPos := pos.toNat, anchorCount := start }) (commitFrame false src.toNat s))))) ∧
      t.eachBoard board.toNat (fun b => b.anchorPos = pos.toNat ∧ b.anchorCount = start) ∧
      (s.eachBoard board.toNat (fun b =>
          leadingEdge s.cfg.countsPerMetre pos.toNat s.tracker.count start ≤ s.cfg.winEnd + b.line.length) →
        board.toNat ∈ t.boardIds)) ∧
  (∀ (src : Station) (board length : Half) (station code : Byte) (pos : Pos) (s : State) (start : BitVec 32), s.Hears start →
    s.joined = false ∨ src.toNat = s.dir.own →
    exec (.amendMark src board station code) s = .next (s.afterCommit false src.toNat) ∧
    exec (.amendLength src board length) s = .next (s.afterCommit false src.toNat) ∧
    exec (.amendPosition src board pos) s = .next (s.afterCommit false src.toNat)) ∧
  (∀ (src : Station) (board length : Half) (station code : Byte) (pos : Pos) (s : State) (start : BitVec 32), s.Hears start →
    board.toNat ∉ s.boardIds →
    exec (.amendMark src board station code) s = .next (s.afterCommit false src.toNat) ∧
    exec (.amendLength src board length) s = .next (s.afterCommit false src.toNat) ∧
    exec (.amendPosition src board pos) s = .next (s.afterCommit false src.toNat)) ∧
  (∀ (m : Mark) (r : LineRecord), addPair m r =
    if m ∈ r.marks then r else if r.marks.length < 4 then { r with marks := r.marks ++ [m] }
    else { r with markOverflow := true }) ∧
  (∀ (id : Nat) (f : LineRecord → LineRecord) (s : State), updateLine id f s = { s with tracker := { s.tracker with
    queue := s.tracker.queue.map (fun b => if b.line.id = id then { b with line := f b.line } else b) } }) ∧
  (∀ station code : Nat, pairOk station code = true ↔
      1 ≤ station ∧ station ≤ 29 ∧ ((1 ≤ code ∧ code ≤ 12) ∨ (16 ≤ code ∧ code ≤ 63))) ∧
  (∀ (src : Station) (board length : Half) (station code : Byte) (pos : Pos) (s : State),
      (s.Sends 9 src.toNat 0 (byte2 board.toNat ++ [1, station, code]) →
        exec (.amendMark src board station code) s = .next (s.afterCommit true src.toNat)) ∧
      (s.Sends 9 src.toNat 0 (byte2 board.toNat ++ [2] ++ byte2 length.toNat) →
        exec (.amendLength src board length) s = .next (s.afterCommit true src.toNat)) ∧
      (s.Sends 9 src.toNat 0 (byte2 board.toNat ++ [3] ++ byte3 pos.toNat) →
        exec (.amendPosition src board pos) s = .next (s.afterCommit true src.toNat)))

/-! ## Recipes (02) -/

/-- RECIPE, DROP and ADMIT commit (R31..R34): they reach the slots, and ADMIT the admission list, and nothing else. What RECIPE
makes of the slots, case by case (R30, R31), and where its DEFAULT flag goes (R32). The model's choices: an unknown flag bit makes a
RECIPE out of range (log entry 29), and a freed slot is left blank (log entry 9). A DROP from no panel or at a station that is not
JOINED, and an ADMIT that the station has not acknowledged or whose number no CURRENT slot holds, have the common part alone (R33,
R34, R163). The range of a RECIPE and the body that its fields give are spelled (R26, R30, R189). The state after each is written
out: the common part of the commit, and then that change alone. -/
def Obligations.RecipesArePostedAndBound : Prop :=
  (∀ (src : Station) (f : RecipeFields) (s : State) (start : BitVec 32), s.Hears start → s.joined = true →
    src.toNat = 30 ∨ src.toNat = 31 → ∃ t, exec (.recipe src f) s = .next t ∧
      t = dropReservation (takeRecipe f (commitFrame false src.toNat s)) ∧
      t.still = { s with recipes := (takeRecipe f s).recipes }.still) ∧
  (∀ (f : RecipeFields) (s : State), recipeFieldsInRange f = true →
    (bitOf f.flags.toNat 0 = false →
      takeRecipe f s = postRecipe f.number.toNat f.version.toNat (recipeBodyOf f) s) ∧
    (bitOf f.flags.toNat 0 = true →
      takeRecipe f s = moveDefault f.number.toNat f.version.toNat
        (postRecipe f.number.toNat f.version.toNat (recipeBodyOf f) s))) ∧
  (∀ (n v : Nat) (body : RecipeBody) (s : State),
    ((∃ sl ∈ s.recipes.slots, sl.state ≠ .free ∧ sl.number = n ∧ sl.version = v) → postRecipe n v body s = s) ∧
    ((∀ sl ∈ s.recipes.slots, ¬(sl.state ≠ .free ∧ sl.number = n ∧ sl.version = v)) →
      s.recipes.slots.findIdx? (Slot.isCurrent n) = none →
      ((s.recipes.slots.filter (Slot.isRetiring n)).length ≤ 1 →
        postRecipe n v body s = match s.recipes.slots.findIdx? (fun sl => sl.state == .free) with
          | some new => s.withSlots (s.recipes.slots.set new ⟨.current, n, v, 0, false, body⟩)
          | none => s) ∧
      (2 ≤ (s.recipes.slots.filter (Slot.isRetiring n)).length → postRecipe n v body s = s))) ∧
  (∀ (n v old : Nat) (cur : Slot) (body : RecipeBody) (s : State),
    s.recipes.slots.findIdx? (Slot.isCurrent n) = some old → s.recipes.slots[old]? = some cur →
    (∀ sl ∈ s.recipes.slots, ¬(sl.state ≠ .free ∧ sl.number = n ∧ sl.version = v)) →
    (cur.refs = 0 → (s.cfg.roles.entry = false ∨ cur.isDefault = false) →
      postRecipe n v body s = s.withSlots (s.recipes.slots.map (fun sl =>
        if sl.isCurrent n then { sl with version := v, body := body } else sl))) ∧
    (0 < cur.refs ∨ (s.cfg.roles.entry = true ∧ cur.isDefault = true) →
      ((s.recipes.slots.filter (Slot.isRetiring n)).length = 0 →
        postRecipe n v body s = match s.recipes.slots.findIdx? (fun sl => sl.state == .free) with
          | some new => s.withSlots ((s.recipes.slots.set new ⟨.current, n, v, 0, cur.isDefault, body⟩).set old
              (if cur.refs = 0 then .blank else { cur with state := .retiring, isDefault := false }))
          | none => s) ∧
      (0 < (s.recipes.slots.filter (Slot.isRetiring n)).length → postRecipe n v body s = s))) ∧
  (∀ (n v : Nat) (s : State), moveDefault n v s =
    match s.recipes.slots.findIdx? (fun sl => sl.state == .current && sl.number == n && sl.version == v) with
    | some i => s.withSlots (s.recipes.slots.mapIdx (fun k sl => { sl with isDefault := k == i }))
    | none => s) ∧
  (∀ (src : Station) (n : Byte) (s u : State) (start : BitVec 32), s.Hears start → s.joined = true →
    src.toNat = 30 ∨ src.toNat = 31 → u = commitFrame false src.toNat s → ∃ t, exec (.drop src n) s = .next t ∧
      t = dropReservation (u.withSlots (u.recipes.slots.map (fun sl =>
        if sl.state == SlotState.current && sl.number == n.toNat then
          if sl.refs = 0 then .blank else { sl with state := .retiring, isDefault := false }
        else sl))) ∧
      t.still = { s with recipes := { s.recipes with slots := s.recipes.slots.map (fun sl : Slot =>
        if sl.state == SlotState.current && sl.number == n.toNat then
          if sl.refs = 0 then .blank else { sl with state := .retiring, isDefault := false }
        else sl) } }.still) ∧
  (∀ (src dst : Station) (n count : Byte) (length : Half) (s u : State) (start : BitVec 32) (i : Nat), s.Hears start →
    s.Accepts dst → s.findSlot (Slot.isCurrent n.toNat) = some i → u = commitFrame false src.toNat s →
    ∃ t, exec (.admitBoards src dst n length count) s = .next t ∧
      t = dropReservation { u with
        recipes := { u.recipes with slots := u.recipes.slots.modify i (fun sl => { sl with refs := sl.refs + 1 }) }
        tracker := { u.tracker with admissions :=
          u.tracker.admissions ++ [(⟨n.toNat, (u.slot i).version, length.toNat, count.toNat⟩ : Admission)] } } ∧
      t.still = { s with
        recipes := { s.recipes with slots := s.recipes.slots.modify i (fun sl => { sl with refs := sl.refs + 1 }) }
        tracker := { s.tracker with admissions :=
          s.tracker.admissions ++ [(⟨n.toNat, (s.slot i).version, length.toNat, count.toNat⟩ : Admission)] } }.still) ∧
  (∀ (src : Station) (f : RecipeFields) (s : State) (start : BitVec 32), s.Hears start →
    recipeFieldsInRange f = false ∨ s.joined = false ∨ (src.toNat ≠ 30 ∧ src.toNat ≠ 31) →
    exec (.recipe src f) s = .next (s.afterCommit false src.toNat)) ∧
  (∀ (src : Station) (n : Byte) (s : State) (start : BitVec 32), s.Hears start →
    s.joined = false ∨ (src.toNat ≠ 30 ∧ src.toNat ≠ 31) → exec (.drop src n) s = .next (s.afterCommit false src.toNat)) ∧
  (∀ (src dst : Station) (n count : Byte) (length : Half) (s : State) (start : BitVec 32), s.Hears start →
    s.bus.answer.ack = false ∨ dst.toNat ≠ s.dir.own ∨ s.findSlot (Slot.isCurrent n.toNat) = none →
    exec (.admitBoards src dst n length count) s = .next (s.afterCommit false src.toNat)) ∧
  (∀ f : RecipeFields,
      (recipeFieldsInRange f = true ↔ f.number.toNat ≠ 0 ∧ f.flags.toNat < 8 ∧ 1 ≤ f.pulse.toNat ∧ f.pulse.toNat ≤ 50 ∧
        f.pitch.toNat ≠ 0) ∧
      recipeBodyOf f = { zones := f.zones.map (fun z => signed16 z.toNat), pot := signed16 f.pot.toNat
                         mainSpeed := f.mainSpeed.toNat, chipSpeed := f.chipSpeed.toNat, mainWave := bitOf f.flags.toNat 1
                         chipWave := bitOf f.flags.toNat 2, pulse := f.pulse.toNat, pitch := f.pitch.toNat
                         margin := f.margin.toNat, mask := f.mask, flow := f.flow.toNat }) ∧
  (∀ (n : Nat) (sl : Slot), (sl.isCurrent n = true ↔ sl.state = .current ∧ sl.number = n) ∧
      (sl.isRetiring n = true ↔ sl.state = .retiring ∧ sl.number = n))

/-! ## Spray (03) -/

/-- PULSE_END closes the nozzles that one dot opened together (R39); FLOW_LAG_EXPIRY makes the check if it is then due, and the
check adds the marks FLUX_LOW 2, FLUX_HIGH 3 and SPRAY_OVERRUN 4 by R48. That both change nothing where no dot is open or no lag
timer runs is the model's choice (log entries 1 and 22), and so is that a flow lag of 0 has run out at once (log entry 16, DEDUCED).
How the nozzles follow the inhibits and the service word, wherever another statement says `sprayUpdate`: a station inhibit (R44)
truncates the open dots (R45), the lines of the service word open and close theirs (R49), a condition of R46 leaves no valve open,
and the checks that are then due are made from the head of the queue (log entry 5, DESIGN CHOICE, unsafe). A pulse whose record has
been released runs to its end and opens no lag timer, whatever record then has its id (R39). The nozzles that a recipe selects are
those of its mask that are present (R38, R40). That the service word opens nozzles in SERVICE also after a RESTART, where R50 keeps
the valves closed until RUN, is log entry 58 (DESIGN CHOICE, unsafe). -/
def Obligations.PulseEndAndFlowLagExpiry : Prop :=
  (∀ (nozzle : Fin 8) (s : State) (id : Nat), s.oneShot nozzle = some (.board id) →
    ∃ t, exec (.pulseEnd nozzle) s = .next t ∧ t.steady = s.steady ∧
      t.spray.oneShots = s.spray.oneShots.map (fun o => if o = some (.board id) then none else o) ∧
      t = flowCheck id (updateBoard id
        (fun b => { b with flowLag := if s.cfg.flowLag = 0 then .expired else .running s.cfg.flowLag })
        (s.withShots (s.spray.oneShots.map (fun o => if o = some (.board id) then none else o))))) ∧
  (∀ (nozzle : Fin 8) (s : State) (id : Nat), s.oneShot nozzle = some (.released id) → exec (.pulseEnd nozzle) s =
    .next (s.withShots (s.spray.oneShots.map (fun o => if o = some (.released id) then none else o)))) ∧
  (∀ (nozzle : Fin 8) (s : State), s.oneShot nozzle = none ∨ s.oneShot nozzle = some .service →
    exec (.pulseEnd nozzle) s = .next s) ∧
  (∀ (board : Half) (s : State) (b : Board), s.board board.toNat = some b → b.flowLag.isRunning = true →
    ∃ t, exec (.flowLagExpiry board) s = .next t ∧ t.steady = s.steady ∧
      t = flowCheck board.toNat (updateBoard board.toNat (fun b => { b with flowLag := .expired }) s) ∧
      ∃ x, t.board board.toNat = some x ∧
        x.phase = if s.cfg.roles.flux && b.phase == .ended && !s.ownsOpen board.toNat then .checked else b.phase) ∧
  (∀ (board : Half) (s : State), (∀ b, s.board board.toNat = some b → b.flowLag.isRunning = false) →
    exec (.flowLagExpiry board) s = .next s) ∧
  (∀ (s : State) (id : Nat) (b : Board), s.board id = some b → flowCheck id s =
    if s.checkDue b = true then
      (s.checkMarks b).foldl (fun s code => addMark id code s)
        (updateBoard id (fun b => { b with phase := .checked })
          { s with spray := { s.spray with counting := if s.spray.counting = some id then none else s.spray.counting } })
    else s) ∧
  (∀ (s : State) (b : Board), s.checkDue b = true ↔ s.cfg.roles.flux = true ∧ b.phase = .ended ∧
    (∀ o ∈ s.spray.oneShots, o ≠ some (.board b.line.id)) ∧ b.flowLag.isRunning = false) ∧
  (∀ (s : State) (b : Board) (expected : Nat),
    expected = (match s.slotOf b with
      | some sl => b.dotsFired * (s.selected sl.body).length * sl.body.flow / 16
      | none => 0) →
    s.checkMarks b =
      (if 1 ≤ b.dotsFired ∧ 1 ≤ expected ∧ 4 * b.flowPulses < 3 * expected then [2] else [])
        ++ (if 1 ≤ b.dotsFired ∧ 1 ≤ expected ∧ 3 * expected < 2 * b.flowPulses then [3] else [])
        ++ (if 1 ≤ b.nextDot ∧ b.nextDot < 10 * b.dotsSkipped then [4] else [])) ∧
  (∀ s u : State,
    u = (if s.control.mode ≠ .run ∨ s.stopped = true ∨ s.inhibitSpray = true ∨ s.proven 0 = false then truncateShots s else s) →
    sprayUpdate s = u.boardIds.foldl (fun s id => flowCheck id s) (serviceShots u)) ∧
  (∀ (s : State) (owners : List Nat),
    owners = (s.spray.oneShots.filterMap (fun o => match o with
      | some (.board id) => some id
      | _ => none)).eraseDups →
    truncateShots s = owners.foldl (fun s id => markNotFluxed id (updateBoard id
        (fun b => { b with flowLag := if s.cfg.flowLag = 0 then .expired else .running s.cfg.flowLag }) s))
      (s.withShots (s.spray.oneShots.map (fun o => match o with
        | some (.board _) | some (.released _) => none
        | o => o)))) ∧
  (∀ (s : State) (id : Nat), (s.board id = none → markNotFluxed id s = s) ∧
    ∀ b, s.board id = some b → markNotFluxed id s =
      if b.notFluxed = true then s else updateBoard id (fun b => { b with notFluxed := true }) (addMark id 1 s)) ∧
  (∀ s : State, serviceShots s = s.withShots (s.spray.oneShots.mapIdx (fun n o => match o with
    | some (.board id) => some (.board id)
    | some (.released id) => some (.released id)
    | _ => if s.serviceOpens n = true then some .service else none))) ∧
  (∀ (s : State) (n : Nat), s.serviceOpens n = true ↔ s.control.mode = .service ∧ s.joined = true ∧ s.stopped = false ∧
    s.inhibitSpray = false ∧ s.proven 0 = true ∧ s.cfg.roles.flux = true ∧ n < s.cfg.nozzleCount ∧
    s.control.service.getLsbD (8 + n) = true) ∧
  (∀ (s : State) (n : Nat), s.stopped = true ∨ s.inhibitSpray = true ∨ s.proven 0 = false →
    (sprayUpdate s).nozzleValve n = false) ∧
  (∀ (s : State) (body : RecipeBody), s.selected body = (List.range 8).filter (fun n =>
      body.mask.getLsbD n && decide (s.cfg.roles.flux = true ∧ n < s.cfg.nozzleCount))) ∧
  (∀ (s : State) (n : Nat), (s.proven n = true ↔ s.ductEnabled n = true ∧ (s.duct n).state = .proven) ∧
      s.nozzleValve n = (s.oneShot n).isSome ∧
      (s.stopped = true ↔ s.control.condition = .tripped ∨ s.control.condition = .lineStop))

/-- What the position events of a COUNT_EVENT make of the records whose L has changed: the missing-board check (R17), the dots that
become due and their handling (R40, R41), the end of spray (R43), the contact check (R95), the standing marks (R29, R113, R139), the
handover check (R9), and the release (R22, R23), at which the counting board ends (R47) and, with the last record, the hold-over
starts (R35). A record that joins ends the hold-over and is resolved (R3, R28, R29, R35). Last, the three cases of a due dot; an
inhibited one marks the board NOT_FLUXED 1 once. The order of the checks is log entry 15 (DESIGN CHOICE, unsafe), and that
CONVEYOR_STALL is released before them is log entry 5 (DESIGN CHOICE, unsafe); the order of boards whose dots become due together is
free (R41, log entry 6), and for every one of them the clause holds. Every count event releases CONVEYOR_STALL and starts the stall
timer again while the permit is sensed active (R18). A pulse of a released record goes on without it (R39). The handover check takes
a HAND of the board id in the queue as this record's, also where it was queued for a released record of the same id, which is log
entry 56 (DESIGN CHOICE, unsafe). DONE goes to the lower of the panels 30 and 31 that has an entry, LIVE or QUIET (R22). -/
def Obligations.PositionEventsAndDueDots : Prop :=
  (∀ (forward : Bool) (s u : State),
    u = reorder { s with tracker := { s.tracker with count := if forward then s.tracker.count + 1 else s.tracker.count - 1 } } →
    exec (.countEvent forward) s = .next (settle (positionEvents (movedBoards s u) (stallCounted u)))) ∧
  (∀ s : State,
    (s.control.permitSensed = true → stallCounted s = releaseHeld 19 { s with tracker :=
      { s.tracker with stall := if s.cfg.stallTime = 0 then .stopped else .running s.cfg.stallTime } }) ∧
    (s.control.permitSensed = false → stallCounted s = releaseHeld 19 s)) ∧
  (∀ s : State, reorder s = { s with tracker :=
    { s.tracker with queue := s.tracker.queue.foldl (fun q b => insertByPos s.pos b q) [] } }) ∧
  (∀ (s u : State) (b : Board), b.line.id ∈ movedBoards s u ↔
    ∃ x ∈ u.tracker.queue, x.line.id = b.line.id ∧ ∀ y, s.board b.line.id = some y → s.pos y ≠ u.pos x) ∧
  (∀ s : State, positionEvents [] s = s) ∧
  (∀ (ids : List Nat) (s s1 s2 s3 : State), ids ≠ [] →
    s1 = ids.foldl (fun s id => noRecipeMark id s) (ids.foldl (fun s id => missingCheck id s) s) →
    s2 = ids.foldl (fun s id => contactCheck id s) (ids.foldl (fun s id => sprayEnd id s) (sprayRecords ids s1)) →
    s3 = ids.foldl (fun s id => releaseCheck id s)
      (ids.foldl (fun s id => handoverCheck id s) (ids.foldl (fun s id => standingMarks id s) s2)) →
    positionEvents ids s = workRequests s3) ∧
  (∀ (ids : List Nat) (s : State), ∃ (order : List Nat) (n : Nat),
    order.Perm (ids.filter (fun id => match s.board id with
      | none => false
      | some b => !(s.dueDots b).isEmpty)) ∧
    sprayRecords ids s = order.foldl (fun s id => sprayDots id s) { s with free := n }) ∧
  (∀ (s : State) (id : Nat) (b : Board), s.board id = some b →
    sprayDots id s = (s.dueDots b).foldl (fun s k => handleDot id k s) s ∧ (s.dueDots b).Pairwise (· < ·)) ∧
  (∀ (s : State) (b : Board),
    (s.cfg.roles.flux = false ∨ (b.phase ≠ .waiting ∧ b.phase ≠ .spraying) → s.dueDots b = []) ∧
    (s.cfg.roles.flux = true → b.phase = .waiting ∨ b.phase = .spraying →
      (∀ k sl, s.slotOf b = some sl → 1 ≤ sl.body.pitch →
        (k ∈ s.dueDots b ↔ b.nextDot ≤ k ∧
          10 * sl.body.margin + k * (10 * sl.body.pitch) + 10 * sl.body.margin ≤ b.line.length ∧
          s.cfg.sprayPos + 10 * sl.body.margin + k * (10 * sl.body.pitch) ≤ s.pos b)) ∧
      (∀ k, s.slotOf b = none → (k ∈ s.dueDots b ↔ k = 0 ∧ b.nextDot = 0 ∧ s.cfg.sprayPos ≤ s.pos b)))) ∧
  (∀ (s : State) (id eye : Nat) (b : Board), s.board id = some b → s.cfg.eyePos = some eye → missingCheck id s =
    if b.confirmed = false ∧ b.seenMissing = false ∧ eye + s.cfg.eyeTolerance < s.pos b then
      occurrence 18 id (addMark id 9 (updateBoard id (fun b => { b with seenMissing := true }) s))
    else s) ∧
  (∀ (s : State) (id : Nat), s.cfg.eyePos = none → missingCheck id s = s) ∧
  (∀ (s : State) (id : Nat) (b : Board), s.board id = some b →
    (s.cfg.roles.flux = true → b.phase = .waiting ∨ b.phase = .spraying →
      (∀ sl, s.slotOf b = some sl → s.cfg.sprayPos + b.line.length < s.pos b + 10 * sl.body.margin) →
      (s.slotOf b = none → 1 ≤ b.nextDot) →
      sprayEnd id s = flowCheck id (updateBoard id (fun b => { b with phase := .ended }) s)) ∧
    (s.cfg.roles.flux = false ∨ (b.phase ≠ .waiting ∧ b.phase ≠ .spraying) ∨
        (∃ sl, s.slotOf b = some sl ∧ s.pos b + 10 * sl.body.margin ≤ s.cfg.sprayPos + b.line.length) ∨
        (s.slotOf b = none ∧ b.nextDot = 0) → sprayEnd id s = s)) ∧
  (∀ (s : State) (id : Nat) (b : Board), s.board id = some b →
    (s.cfg.roles.pot = true → b.waveContact = false → s.cfg.wavePos ≤ s.pos b →
      contactCheck id s =
        if ∃ sl ∈ s.slotOf b, (sl.body.mainWave = true ∧ s.pot.main.state ≠ .up) ∨
            (sl.body.chipWave = true ∧ s.pot.chip.state ≠ .up) then
          addMark id 5 (updateBoard id (fun b => { b with waveContact := true }) s)
        else updateBoard id (fun b => { b with waveContact := true }) s) ∧
    (s.cfg.roles.pot = false ∨ b.waveContact = true ∨ s.pos b < s.cfg.wavePos → contactCheck id s = s)) ∧
  (∀ (s : State) (id dest start : Nat) (b : Board), s.board id = some b → s.tracker.neighbour = some dest →
    s.neighbourStart = some start → handoverCheck id s =
      if b.handed = none ∧ start - s.cfg.handoverLead ≤ s.pos b ∧ b.heldBack = false ∧ s.hasFrame (TxFrame.isHandOf id) = false then
        if s.admits 1 = true then s.withTx (s.bus.queue ++ [newFrame 1 dest (.hand id)])
        else updateBoard id (fun b => { b with heldBack := true }) s
      else s) ∧
  (∀ (s : State) (id : Nat), s.tracker.neighbour = none ∨ s.neighbourStart = none → handoverCheck id s = s) ∧
  (∀ (s : State) (id : Nat) (b : Board), s.board id = some b →
    releaseCheck id s = if s.cfg.winEnd + b.line.length < s.pos b then releaseBoard b s else s) ∧
  (∀ (s : State) (b : Board) (q : List TxFrame),
    q = s.bus.queue.filter (fun f => f.phase == .onBus || !(f.body == .hand b.line.id || f.body == .amendPosition b.line.id)) →
    (releaseBoard b s).tracker.queue = s.tracker.queue.filter (fun x => x.line.id != b.line.id) ∧
    (releaseBoard b s).tracker.underEye = (if s.tracker.underEye = some b.line.id then none else s.tracker.underEye) ∧
    (releaseBoard b s).recipes.slots = (match b.slot with
      | some i => s.recipes.slots.modify i (fun sl =>
          if sl.state = .retiring ∧ sl.refs - 1 = 0 then .blank else { sl with refs := sl.refs - 1 })
      | none => s.recipes.slots) ∧
    (b.handed.isSome = true → (releaseBoard b s).bus.queue = q ∧
      (releaseBoard b s).tracker.unreported = s.tracker.unreported) ∧
    (∀ p, b.handed = none → s.panel = some p → (s.withTx q).admits 1 = true →
      (releaseBoard b s).bus.queue = q ++ [newFrame 1 p (.done b.line b.anchorPos b.anchorCount)] ∧
      (releaseBoard b s).tracker.unreported = s.tracker.unreported) ∧
    (b.handed = none → s.panel = none ∨ (s.withTx q).admits 1 = false → (releaseBoard b s).bus.queue = q ∧
      (releaseBoard b s).tracker.unreported =
        if s.tracker.unreported < 65535 then s.tracker.unreported + 1 else 65535)) ∧
  (∀ (s : State) (b : Board),
    (releaseBoard b s).spray = { s.spray with
      oneShots := s.spray.oneShots.map (fun o => if o = some (.board b.line.id) then some (.released b.line.id) else o)
      counting := if s.spray.counting = some b.line.id then none else s.spray.counting } ∧
    ((∃ x ∈ s.tracker.queue, x.line.id ≠ b.line.id) → (releaseBoard b s).recipes.holdOver = s.recipes.holdOver ∧
      (releaseBoard b s).recipes.holdTimer = s.recipes.holdTimer) ∧
    ((∀ x ∈ s.tracker.queue, x.line.id = b.line.id) →
      (releaseBoard b s).recipes.holdOver = (if s.cfg.holdOverTime = 0 then none else s.governing) ∧
      (releaseBoard b s).recipes.holdTimer =
        if s.cfg.holdOverTime = 0 then .stopped else .running (s.cfg.holdOverTime * 1000))) ∧
  (∀ s : State, (s.tracker.queue = [] → s.governing = s.recipes.holdOver) ∧
    ∀ (b : Board) (rest : List Board), s.tracker.queue = b :: rest →
      s.governing = (s.slotOf b).map (fun sl => ⟨sl.body.zones, sl.body.pot⟩)) ∧
  (∀ (s : State) (b : Board) (slot : Option Nat), slot = s.resolve b.line.recipe b.line.version → joinQueue b s = { s with
    recipes := ⟨match slot with
      | some i => s.recipes.slots.modify i (fun sl => { sl with refs := sl.refs + 1 })
      | none => s.recipes.slots, none, .stopped⟩
    tracker := { s.tracker with queue := insertByPos s.pos { b with slot := slot } s.tracker.queue } }) ∧
  (∀ (number version : Nat) (s : State), s.resolve number version = if number = 0 then none
    else s.recipes.slots.findIdx? (fun sl => sl.state != .free && sl.number == number && sl.version == version)) ∧
  (∀ (pos : Board → Nat) (x : Board) (q : List Board), ∃ front back, q = front ++ back ∧
    insertByPos pos x q = front ++ x :: back ∧ (∀ b ∈ front, pos x ≤ pos b) ∧ (∀ b, back.head? = some b → pos b < pos x)) ∧
  (∀ (s : State) (id : Nat) (b : Board), s.board id = some b → noRecipeMark id s =
    if b.slot = none ∧ b.noRecipeNoted = false ∧ s.inWindow b = true then
      updateBoard id (fun b => { b with noRecipeNoted := true }) (addMark id 7 s) else s) ∧
  (∀ (id : Nat) (s : State), standingMarks id s = ((s.alarmMarks ++ s.markCodes).eraseDups).foldl (fun s c => addMark id c s) s) ∧
  (∀ (s : State) (c : Nat), c ∈ s.alarmMarks ↔
    ∃ i, i < 16 ∧ (s.alarmState i = .active ∨ s.alarmState i = .activeAcked) ∧ s.alarmMark i = c ∧ c ≠ 0) ∧
  (∀ s : State, s.stationInhibit = true ↔ s.control.mode ≠ .run ∨ s.stopped = true ∨ s.inhibitSpray = true ∨ s.proven 0 = false) ∧
  (∀ (s : State) (b : Board), s.inWindow b = true ↔ s.cfg.winStart ≤ s.pos b ∧ s.pos b ≤ s.cfg.winEnd + b.line.length) ∧
  (∀ s : State, (∀ p, s.panel = some p ↔
        (p = 30 ∧ (s.entry 30).isSome = true) ∨ (p = 31 ∧ s.entry 30 = none ∧ (s.entry 31).isSome = true)) ∧
      (s.panel = none ↔ s.entry 30 = none ∧ s.entry 31 = none)) ∧
  ∀ (s : State) (id k : Nat) (b : Board), s.board id = some b →
    ∃ x, (handleDot id k s).board id = some x ∧ x.nextDot = k + 1 ∧ x.phase = .spraying ∧
      (s.slotOf b = none ∨ s.stationInhibit = true →
        (handleDot id k s).spray = s.spray ∧ x.notFluxed = true ∧ x.dotsFired = b.dotsFired ∧ x.dotsSkipped = b.dotsSkipped ∧
          (b.notFluxed = true → x.line = b.line) ∧
          (b.notFluxed = false → s.inWindow b = true →
            (⟨s.dir.own, 1⟩ : Mark) ∈ x.line.marks ∨ x.line.markOverflow = true)) ∧
      (∀ sl, s.slotOf b = some sl → s.stationInhibit = false →
        (s.spray.oneShots.any Option.isSome = true →
          (handleDot id k s).spray = s.spray ∧ x.dotsFired = b.dotsFired ∧ x.dotsSkipped = bump b.dotsSkipped ∧
            x.notFluxed = b.notFluxed) ∧
        (s.spray.oneShots.any Option.isSome = false →
          (handleDot id k s).spray.oneShots = s.spray.oneShots.mapIdx (fun n o =>
            if (s.selected sl.body).contains n then some (.board id) else o) ∧
          (handleDot id k s).spray.counting = (if b.dotsFired = 0 then some id else s.spray.counting) ∧
          x.dotsFired = bump b.dotsFired ∧ x.dotsSkipped = b.dotsSkipped ∧ x.notFluxed = b.notFluxed))

/-! ## Heaters (04) -/

/-- PERIOD_START (R52..R65): a new period from slot 0, each channel in use at its setpoint, the granted duties within the held
shares; nothing of other blocks but the shares' own work and the extraction request. A stopped timer has no period start (log
entries 1 and 22, the model's choice). What the work makes of a channel: setpoint (R53), regulation with its frozen integral
(R55..R57, R63), the allocation over the channels by priority (R58), and the pulses (R60, R61). Then the share unit's work
(R71, R77, R84), whose order of NEED, RETURN and BUDGET_SHORT, before the extraction request, is log entry 5 (DESIGN CHOICE,
unsafe). -/
def Obligations.PeriodStartAllocatesTheHeldShares : Prop :=
  (∀ s : State, s.heater.periodTimer.isRunning = true → ∃ t, exec .periodStart s = .next t ∧
    t.heater.slot = 0 ∧ t.heater.periodTimer = .running (s.cfg.heaterPeriod * 100) ∧ t.GrantsFit ∧
    (∀ n, n < s.heater.channels.length → s.inUse n = true → (t.channel n).setpoint = some (s.setpointOf n)) ∧
    t.shares.held = s.shares.held ∧ t.shares.lent = s.shares.lent ∧ t.shares.borrowed = s.shares.borrowed ∧
    t.extraction = (testRequest (heaterPeriod s)).extraction ∧
    t = settle (testRequest (budgetShort (queueReturn (queueNeed (heaterPeriod s))))) ∧
    { t.steady with heater := s.steady.heater, shares := s.steady.shares, extraction := s.steady.extraction } = s.steady) ∧
  (∀ s : State, s.heater.periodTimer.isRunning = false → exec .periodStart s = .next s) ∧
  (∀ (s : State) (n : Nat), s.setpointOf n =
    if s.stopped = true ∨ s.standbyHeat = true then (s.channelConfig n).standby
    else match s.governing, (s.channelConfig n).zone with
      | some g, .preheat k => if g.zones.getD (k - 1) 0 = 0 then (s.channelConfig n).standby else g.zones.getD (k - 1) 0
      | some g, .pot => if g.pot = 0 then (s.channelConfig n).standby else g.pot
      | _, _ => (s.channelConfig n).standby) ∧
  (∀ (s : State) (n integral : Nat) (sp e : Int) (c : Channel), sp = s.setpointOf n → e = sp - (s.quantity n).value →
    integral = (if c.regulated = true ∧ (c.grant < c.demand ∨ (c.demand = 256 ∧ 0 < e) ∨ (c.demand = 0 ∧ e < 0)) then c.integral
      else (max 0 (min 256 ((c.integral : Int) + Int.tdiv ((s.channelConfig n).ki * e) 256))).toNat) →
    regulate s n c =
      if s.channelOpen n = true then ⟨some sp, 0, 0, 0, false, c.pulse, c.runOn⟩
      else if s.control.mode = .service then
        ⟨some sp, if s.line n = true ∧ s.stopped = false then 256 else 0, c.grant, c.integral, false, c.pulse, c.runOn⟩
      else ⟨some sp, (max 0 (min 256 (Int.tdiv ((s.channelConfig n).kp * e) 16 + integral))).toNat, c.grant, integral, true,
        c.pulse, c.runOn⟩) ∧
  (∀ (s u : State) (n p : Nat), n < s.heater.channels.length → s.inUse n = true → p = (s.channelConfig n).phase →
    u = { s with heater := { s.heater with
      channels := s.heater.channels.mapIdx (fun k c => if s.inUse k then regulate s k c else c) } } →
    (heaterPeriod s).channel n = { regulate s n (s.channel n) with
      grant := u.allotted n, pulse := u.allotted n
      runOn := if 256 < p + (s.channel n).pulse then cutPulse (256 - p) (s.channel n).pulse (u.allotted n) else 0 } ∧
    u.inUseOrder = [3, 2, 1, 0].flatMap (fun q =>
      (List.range 8).filter (fun k => s.inUse k && (s.channelConfig k).priority == q)) ∧
    u.allotted n = ((allocate u u.inUseOrder s.shares.held).lookup n).getD 0 ∧
    (heaterPeriod s).heater.cost = u.demandCost ∧ (heaterPeriod s).heater.shortfall = u.demandCost - s.shares.held) ∧
  (∀ (s : State) (n remaining g : Nat) (rest : List Nat),
    g = grantOf (s.channelConfig n).rated remaining (s.channel n).demand →
    allocate s [] remaining = [] ∧
    allocate s (n :: rest) remaining = (n, g) :: allocate s rest (remaining - dutyCost (s.channelConfig n).rated g)) ∧
  (∀ spent len g : Nat, cutPulse spent len g = if len ≤ spent then len else if g ≤ spent then spent else min len g) ∧
  (∀ s : State, queueNeed s =
    if s.shares.state = .seated ∧ 0 < s.heater.shortfall ∧ s.shares.needTimer.isRunning = false ∧
        s.hasFrame (TxFrame.isKind 4) = false ∧ s.shares.held < s.cfg.cap ∧ s.admits 2 = true then
      s.withTx (s.bus.queue ++ [newFrame 2 0 .need])
    else s) ∧
  (∀ s : State, (s.shares.borrowed = [] → queueReturn s = s) ∧
    ∀ (r : Loan) (rest : List Loan), s.shares.borrowed = r :: rest → queueReturn s =
      if s.shares.state = .seated ∧ s.heater.cost + s.cfg.lendMargin + s.cfg.returnHysteresis < s.shares.held ∧
          s.hasFrame (TxFrame.isKind 6) = false ∧ s.admits 2 = true then
        s.withTx (s.bus.queue ++ [newFrame 2 r.peer .returnShares])
      else s) ∧
  (∀ (s : State) (n : Nat), n = min 10 (s.shares.shortPeriods + 1) →
    (s.heater.shortfall = 0 → budgetShort s = releaseHeld 28 { s with shares := { s.shares with shortPeriods := 0 } }) ∧
    (0 < s.heater.shortfall → budgetShort s =
      if n = 10 then raiseHeld 28 (min s.heater.shortfall 32767 : Nat) { s with shares := { s.shares with shortPeriods := n } }
      else { s with shares := { s.shares with shortPeriods := n } })) ∧
  (∀ (s : State) (n : Nat), (s.inUse n = true ↔ s.joined = true ∧ (s.channelConfig n).zone ≠ .unused) ∧
      s.channelOpen n = s.alarms.sensorOpen.getD n false)

/-- HEATER_ON_EDGE and HEATER_OFF_EDGE: the period has come to the edge's slot (R60; that an edge sets the slot is the model's
choice, log entry 2). A pulse of 256 slots keeps its output on from the phase offset to the period's end, where the next pulse
may follow it without a break (R60). The output is on exactly while the pulse of this period or the one that runs on is on
(R60), by the slot of log entry 2. -/
def Obligations.HeaterEdgesSetTheSlot : Prop :=
  (∀ (n : Fin 8) (s : State), s.inUse n = true → 0 < (s.channel n).pulse → s.heater.periodTimer.isRunning = true →
    exec (.heaterOnEdge n) s = .next { s with heater := { s.heater with slot := max s.heater.slot (s.channelConfig n).phase } }) ∧
  (∀ (n : Fin 8) (s : State), s.inUse n = false ∨ (s.channel n).pulse = 0 ∨ s.heater.periodTimer.isRunning = false →
    exec (.heaterOnEdge n) s = .next s) ∧
  (∀ (n : Fin 8) (s : State) (k : Nat), s.inUse n = true → s.offSlot n = some k → s.heater.periodTimer.isRunning = true →
    exec (.heaterOffEdge n) s = .next { s with heater := { s.heater with slot := max s.heater.slot k } }) ∧
  (∀ (n : Fin 8) (s : State), s.inUse n = false ∨ s.offSlot n = none ∨ s.heater.periodTimer.isRunning = false →
    exec (.heaterOffEdge n) s = .next s) ∧
  (∀ (n p : Nat) (s : State) (c : Channel), c = s.channel n → p = (s.channelConfig n).phase →
    (s.heaterOutput n = true ↔ (p ≤ s.heater.slot ∧ (s.heater.slot < p + c.pulse ∨ 256 ≤ c.pulse)) ∨
      256 + s.heater.slot < p + c.runOn) ∧
    s.offSlot n = if 256 + s.heater.slot < p + c.runOn then some (p + c.runOn - 256)
      else if 0 < c.pulse ∧ c.pulse < 256 ∧ p + c.pulse ≤ 256 then some (p + c.pulse) else none) ∧
  (∀ (n : Nat) (s : State), 256 ≤ (s.channel n).pulse → (s.channelConfig n).phase ≤ s.heater.slot → s.heaterOutput n = true)

/-- The grant of R58 is the largest duty up to the demand whose cost, ceil(rated × d / 256), fits in the remaining shares. -/
def Obligations.TheGrantIsTheLargestDutyThatFits : Prop :=
  ∀ rated remaining demand : Nat,
    grantOf rated remaining demand ≤ demand ∧ dutyCost rated (grantOf rated remaining demand) ≤ remaining ∧
    (∀ d, d ≤ demand → dutyCost rated d ≤ remaining → d ≤ grantOf rated remaining demand) ∧
    (∀ d k, dutyCost rated d ≤ k ↔ rated * d ≤ k * 256)

/-! ## Samples (07) -/

/-- SAMPLE_EVENT (R97, R102..R104): the table, the open-circuit results and the histories are written; outside the alarm, heater,
pot and extraction units nothing changes but what follows from a condition, an alarm or a mark. The model's choices: the table is
written from the state before the event (log entry 24), the histories run from the start reset (log entry 10), and there is no
sample while the reset pin is held (log entry 8). What the blocks then make of it, in the order of log entry 24: the held level
(R96, R97), SENSOR_OPEN (R104), POT_LOW_LOW (R98), the ramp steps (R91, R92), the ducts (R127) and, at a JOINED station, the watch
chains (R106, R107, R109) and the owed frames (R116). Each quantity is spelled with its range and when it is invalid (R102, R103),
the open tests (R104), a channel found open (R57), and the chains with their holders (R107). -/
def Obligations.ASampleEventWritesTheTable : Prop :=
  (∀ (x : Samples) (s : State), s.loader.phase ≠ .pinHeld → ∃ t, exec (.sampleEvent x) s = .next t ∧
    t.alarms.sensorOpen = s.openResults x ∧
    t.alarms.flowHist = (s.spray.flowCount :: s.alarms.flowHist).take 10 ∧
    t.alarms.countHist = (s.tracker.count :: s.alarms.countHist).take 10 ∧
    (∀ q, q < 30 → q ≠ 24 → t.quantity q =
      if (s.sampled x q).isSome then ⟨(s.sampled x q).getD 0, true⟩ else ⟨(s.quantity q).value, false⟩) ∧
    t.quantity 24 = (if t.pot.established then ⟨t.pot.level, true⟩ else ⟨(s.quantity 24).value, false⟩) ∧
    { t.steady with heater := s.steady.heater, pot := s.steady.pot, extraction := s.steady.extraction
                    alarms := s.steady.alarms } = s.steady) ∧
  (∀ (x : Samples) (s : State), s.loader.phase = .pinHeld → exec (.sampleEvent x) s = .next s) ∧
  (∀ (x : Samples) (s s1 s2 s3 s4 : State), s.loader.phase ≠ .pinHeld →
    s1 = writeLevel (levelSample (signedHalf x.level) (writeTable x s)) →
    s2 = sensorCondition (openChannels (s.newlyOpen x) s1) →
    s3 = potUpdate (rampPumps s.pot (potUpdate (potLow (potUpdate s2)))) →
    s4 = ductSample 1 (ductSample 0 s3) →
    exec (.sampleEvent x) s = .next (settle (if s4.joined then
      (List.range 29).foldl (fun s i => retryOwed i s) ((List.range 16).foldl (fun s i => watchSample i s) s4) else s4))) ∧
  (∀ (reading : Int) (s : State), levelSample reading s =
    if s.cfg.roles.pot = true ∧ s.pot.main.state ∉ [PumpState.raising, .lowering] ∧
        s.pot.chip.state ∉ [PumpState.raising, .lowering] then
      { s with pot := { s.pot with
        level := max (-32768) (min 32767 (reading + (if s.pot.main.state = .up then (s.cfg.mainDrawdown : Int) else 0)
          + (if s.pot.chip.state = .up then (s.cfg.chipDrawdown : Int) else 0)))
        established := true } }
    else s) ∧
  (∀ s : State, ((∀ b ∈ s.alarms.sensorOpen, b = false) → sensorCondition s = releaseHeld 21 s) ∧
    (∀ n : Nat, s.alarms.sensorOpen[n]? = some true → (∀ k, k < n → s.alarms.sensorOpen[k]? = some false) →
      sensorCondition s = raiseHeld 21 n s)) ∧
  (∀ s : State, potLow s =
    if s.cfg.roles.pot = true ∧ s.pot.established = true then
      if s.pot.level < s.cfg.lowLow then raiseHeld 23 s.pot.level s else releaseHeld 23 s
    else s) ∧
  (∀ (before : Pot) (s : State), rampPumps before s = { s with pot := { s.pot with
    main := rampStep s.cfg.rampRate s.cfg.settleTime before.main s.pot.main
    chip := rampStep s.cfg.rampRate s.cfg.settleTime before.chip s.pot.chip } }) ∧
  (∀ (rate settle v : Nat) (before p : Pump),
    (p.state = .lowering → v = (if rate = 0 then 0 else p.speed - rate) → rampStep rate settle before p =
      ⟨if v = 0 then .down else .lowering, v, p.target, .stopped⟩) ∧
    (p.state = .raising → before.state = .raising → p.speed ≠ p.target →
      v = (if rate = 0 then p.target else if p.speed < p.target then min (p.speed + rate) p.target
        else max (p.speed - rate) p.target) → rampStep rate settle before p =
      if v ≠ p.target then ⟨.raising, v, p.target, .stopped⟩
      else if settle = 0 then ⟨.up, v, p.target, .stopped⟩ else ⟨.raising, v, p.target, .running settle⟩) ∧
    (p.state = .raising → before.state ≠ .raising ∨ p.speed = p.target → rampStep rate settle before p = p) ∧
    (p.state ≠ .raising → p.state ≠ .lowering → rampStep rate settle before p = p)) ∧
  (∀ (n : Nat) (s : State), n < s.extraction.ducts.length →
    (ductSample n s).duct n = (if s.ductEnabled n then sampleDuct s.cfg (s.quantity (25 + n)) (s.duct n) else s.duct n) ∧
    ∀ k, k ≠ n → (ductSample n s).duct k = s.duct k) ∧
  (∀ (c : StationConfig) (q : Quantity) (d : Duct),
    (d.state = .off → sampleDuct c q d = d) ∧
    (d.state = .proven → q.valid = true ∧ (c.lossThreshold : Int) ≤ q.value → sampleDuct c q d = { d with loss := 0 }) ∧
    (d.state = .proven → q.valid = false ∨ q.value < c.lossThreshold → sampleDuct c q d =
      if max 1 c.lossSamples ≤ d.loss + 1 then { d with state := .lost, loss := d.loss + 1, prove := 0 }
      else { d with loss := d.loss + 1 }) ∧
    (d.state ∈ [DuctState.proving, .lost, .failed] → q.valid = true ∧ (c.proveThreshold : Int) ≤ q.value → sampleDuct c q d =
      if max 1 c.proveHold ≤ d.prove + 1 then ⟨.proven, d.prove + 1, 0, .stopped⟩ else { d with prove := d.prove + 1 }) ∧
    (d.state ∈ [DuctState.proving, .lost, .failed] → q.valid = false ∨ q.value < c.proveThreshold →
      sampleDuct c q d = { d with prove := 0 })) ∧
  (∀ (m : Mode) (q : Quantity) (d : WatchDef), testEntry m q d =
    if (match m with
        | .idle => d.inIdle
        | .run => d.inRun
        | .service => d.inService) = false then .releases
    else if q.valid = false then .neither
    else if (if d.above then d.threshold < q.value else q.value < d.threshold) then .matches
    else if (if d.above then q.value < d.threshold - d.margin else d.threshold + d.margin < q.value) then .releases
    else .neither) ∧
  (∀ (s : State) (h : Nat) (results : List TestResult),
    results = ((List.range 16).filter (fun i => decide (i ≤ h) && holderOf s.alarms.entries i == h)).map (fun i =>
      match (s.watch i).def? with
      | some d => testEntry s.control.mode (s.quantity d.quantity) d
      | none => .neither) →
    s.chainResult h = if ∀ r ∈ results, r = .matches then .matches else if .releases ∈ results then .releases else .neither) ∧
  (∀ (s : State) (i : Nat), watchSample i s = match (s.watch i).def? with
    | some d => if chained s.alarms.entries i = true then s else takeResult i d (s.chainResult i) s
    | none => s) ∧
  (∀ (s : State) (i : Nat) (d : WatchDef) (r : TestResult),
    (s.alarmState i = .quiet ∨ s.alarmState i = .pending →
      (r = .matches → (s.record i).matchCount + 1 < d.persistence →
        takeResult i d r s = updateRecord i (fun x => { x with state := .pending, matchCount := x.matchCount + 1 }) s) ∧
      (r = .matches → d.persistence ≤ (s.record i).matchCount + 1 →
        takeResult i d r s = enterActive i (max (-32768) (min 32767 (s.quantity d.quantity).value)) s) ∧
      (r ≠ .matches → takeResult i d r s = updateRecord i (fun x => { x with state := .quiet, matchCount := 0 }) s)) ∧
    (s.alarmState i = .active → r = .releases → i < 16 → takeResult i d r s =
      if s.alarmAction i = .hold ∨ s.alarmAction i = .trip then updateRecord i (fun x => { x with state := .latched }) s
      else returnQuiet i s) ∧
    (s.alarmState i = .activeAcked → r = .releases → takeResult i d r s = returnQuiet i s) ∧
    (s.alarmState i = .active ∨ s.alarmState i = .activeAcked → r ≠ .releases → takeResult i d r s = s) ∧
    (s.alarmState i = .latched → takeResult i d r s = s)) ∧
  (∀ (x : Samples) (s : State) (n : Nat) (t : Sensor), n < 8 → t = x.thermocouples.getD n ⟨0, false⟩ →
      s.sampled x n = if (s.channelConfig n).zone ≠ .unused ∧ t.isOpen = false then some (signed16 t.reading.toNat) else none) ∧
  (∀ (x : Samples) (s : State) (n : Nat), n < 8 →
      (∀ t sp, s.sampled x n = some t → (s.channel n).setpoint = some sp →
        s.sampled x (8 + n) = some (max (-32768) (min 32767 (t - sp)))) ∧
      (s.sampled x n = none ∨ (s.channel n).setpoint = none → s.sampled x (8 + n) = none) ∧
      s.sampled x (16 + n) = some ((s.channel n).grant : Int)) ∧
  (∀ (x : Samples) (s : State) (n : Nat) (t : Sensor), n < 2 → t = x.ducts.getD n ⟨0, false⟩ →
      s.sampled x (25 + n) = if s.ductEnabled n = true ∧ t.isOpen = false then some (t.reading.toNat : Int) else none) ∧
  (∀ (x : Samples) (s : State), s.sampled x 24 = (if (s.quantity 24).valid = true then some (s.quantity 24).value else none) ∧
      s.sampled x 28 = some (s.shares.held : Int)) ∧
  (∀ (x : Samples) (s : State),
      (s.loader.config = none ∨ s.alarms.flowHist[9]? = none → s.sampled x 27 = none) ∧
      (s.loader.config = none ∨ s.alarms.countHist[9]? = none → s.sampled x 29 = none)) ∧
  (∀ (x : Samples) (s : State) (old : Half), s.loader.config.isSome = true → s.alarms.flowHist[9]? = some old →
      s.sampled x 27 = some (((s.spray.flowCount.toNat + 65536 - old.toNat) % 65536 : Nat) : Int)) ∧
  (∀ (x : Samples) (s : State) (old : BitVec 32), s.loader.config.isSome = true → s.alarms.countHist[9]? = some old →
      s.sampled x 29 = some (max (-32768) (min 32767 (Int.tdiv ((s.tracker.count - old).toInt * 10000) s.cfg.countsPerMetre)))) ∧
  (∀ (x : Samples) (s : State), (s.openResults x).length = 10 ∧
      (∀ n, n < 8 → (s.openResults x)[n]? =
        some ((s.channelConfig n).zone != .unused && (x.thermocouples.getD n ⟨0, false⟩).isOpen)) ∧
      (∀ n, n < 2 → (s.openResults x)[8 + n]? = some (s.ductEnabled n && (x.ducts.getD n ⟨0, false⟩).isOpen))) ∧
  (∀ (x : Samples) (s : State) (n : Nat), n ∈ s.newlyOpen x ↔
      n < 8 ∧ (s.openResults x)[n]? = some true ∧ s.alarms.sensorOpen.getD n false = false) ∧
  (∀ (l : List Nat) (s u : State), openChannels [] s = s ∧
      (u = { s with heater := { s.heater with channels := s.heater.channels.mapIdx (fun n c => if n ∈ l then
          { c with
            demand := 0
            grant := 0
            integral := 0
            regulated := false
            pulse := cutPulse (min 255 (s.heater.slot - (s.channelConfig n).phase)) c.pulse 0
            runOn := cutPulse (256 + s.heater.slot - (s.channelConfig n).phase) c.runOn 0 }
        else c) } } →
        l ≠ [] → openChannels l s = { u with heater :=
          { u.heater with cost := u.demandCost, shortfall := u.demandCost - s.shares.held } })) ∧
  (∀ (x : Samples) (s : State), writeTable x s = { s with alarms := { s.alarms with
      table := (List.range 30).map (fun q =>
        if (s.sampled x q).isSome = true then ⟨(s.sampled x q).getD 0, true⟩ else ⟨(s.quantity q).value, false⟩)
      sensorOpen := s.openResults x
      flowHist := (s.spray.flowCount :: s.alarms.flowHist).take 10
      countHist := (s.tracker.count :: s.alarms.countHist).take 10 } }) ∧
  (∀ s : State, writeLevel s = { s with alarms := { s.alarms with table := s.alarms.table.modify 24 (fun q =>
      if s.pot.established = true then ⟨s.pot.level, true⟩ else ⟨q.value, false⟩) } }) ∧
  (∀ (n : Nat) (s : State), ductSample n s = driveDucts { s with extraction := { s.extraction with
      ducts := s.extraction.ducts.mapIdx (fun k d =>
        if s.ductEnabled k = true ∧ k = n then sampleDuct s.cfg (s.quantity (25 + n)) d else d) } }) ∧
  (∀ (i : Nat) (s u : State),
      u = (if (s.record i).announceOwed = true then
        if s.stands i = true then announce i (updateRecord i (fun r => { r with announceOwed := false }) s)
        else updateRecord i (fun r => { r with announceOwed := false }) s else s) →
      ((u.record i).clearOwed = false ∨ u.alarmState i = .pending → retryOwed i s = u) ∧
      ((u.record i).clearOwed = true → u.alarmState i = .quiet →
        retryOwed i s = queueClear i (updateRecord i (fun r => { r with clearOwed := false }) u)) ∧
      ((u.record i).clearOwed = true → u.alarmState i = .active ∨ u.alarmState i = .activeAcked ∨ u.alarmState i = .latched →
        retryOwed i s = updateRecord i (fun r => { r with clearOwed := false }) u)) ∧
  (∀ (entries : List WatchEntry) (i : Nat), chained entries i = true ↔
      i < 15 ∧ ∃ d : WatchDef, (entries.getD i .empty = .fixed d ∨ entries.getD i .empty = .panel d) ∧ d.chain = true) ∧
  (∀ (entries : List WatchEntry) (i : Nat), (chained entries i = false → holderOf entries i = i) ∧
      (chained entries i = true → holderOf entries i = holderOf entries (i + 1)))

/-! ## Shares (05) -/

/-- NEED commits (R70, R72, R73): the sender's need is set; at another JOINED station the LEND of R73 is queued where it lends, or a
LEND that waits takes the amount asked for; a source or an amount out of range has no effect, nor has any NEED heard at a station
that is not JOINED (R69), nor one with the station's own number (log entry 28, DEDUCED). The state after is the common part of the
commit and then that change alone. -/
def Obligations.NeedCommits : Prop :=
  (∀ (src : Station) (amount : Half) (s u : State), s.Sends 4 src.toNat 0 (byte2 amount.toNat) → s.joined = true →
    1 ≤ src.toNat ∧ src.toNat ≤ 29 → 1 ≤ amount.toNat ∧ amount.toNat ≤ 255 → u = commitFrame true src.toNat s →
    ∃ t, exec (.need src amount) s = .next t ∧
      t = dropReservation { u with shares := { u.shares with
        needAmount := amount.toNat, needTimer := .running u.cfg.presencePeriod } } ∧
      t.still = { s with shares := { s.shares with
        needAmount := amount.toNat, needTimer := .running s.cfg.presencePeriod } }.still) ∧
  (∀ (src : Station) (amount : Half) (s : State) (start : BitVec 32), s.Hears start → s.joined = true →
    1 ≤ src.toNat ∧ src.toNat ≤ 29 → 1 ≤ amount.toNat ∧ amount.toNat ≤ 255 → src.toNat ≠ s.dir.own →
    ∃ t, exec (.need src amount) s = .next t ∧ t.still = s.still ∧
      t = dropReservation (answerNeed src.toNat amount.toNat (commitFrame false src.toNat s))) ∧
  (∀ (x a : Nat) (s : State),
    (¬(s.shares.state = .seated ∧ s.shares.needTimer.isRunning = false ∧ (s.entry x).isSome = true ∧
        (hasLoan x s.shares.lent = true ∨ s.shares.lent.length < 8) ∧
        1 ≤ min ((s.shares.held : Int) - s.heater.cost - s.cfg.lendMargin) ((s.cfg.base : Int) - loanSum s.shares.lent)) →
      answerNeed x a s = s) ∧
    (s.shares.state = .seated → s.shares.needTimer.isRunning = false → (s.entry x).isSome = true →
      (hasLoan x s.shares.lent = true ∨ s.shares.lent.length < 8) →
      1 ≤ min ((s.shares.held : Int) - s.heater.cost - s.cfg.lendMargin) ((s.cfg.base : Int) - loanSum s.shares.lent) →
      ((∃ f ∈ s.bus.queue, f.phase ≠ .onBus ∧ f.body.kind = 5 ∧ f.dst = x) →
        answerNeed x a s = s.withTx (s.bus.queue.map (fun f =>
          if f.phase ≠ .onBus ∧ f.body.kind = 5 ∧ f.dst = x then { f with body := .lend a } else f))) ∧
      ((∀ f ∈ s.bus.queue, ¬(f.phase ≠ .onBus ∧ f.body.kind = 5 ∧ f.dst = x)) →
        answerNeed x a s = s.withTx (if s.admits 2 then s.bus.queue ++ [newFrame 2 x (.lend a)] else s.bus.queue)))) ∧
  (∀ (src : Station) (amount : Half) (s : State) (start : BitVec 32), s.Hears start →
    ¬(1 ≤ src.toNat ∧ src.toNat ≤ 29 ∧ 1 ≤ amount.toNat ∧ amount.toNat ≤ 255) →
    exec (.need src amount) s = .next (s.afterCommit false src.toNat)) ∧
  (∀ (src : Station) (amount : Half) (s : State) (start : BitVec 32), s.Hears start →
      s.joined = false ∨ src.toNat = s.dir.own → exec (.need src amount) s = .next (s.afterCommit false src.toNat))

/-- LEND of `m` commits (R76): the lender's H falls and its lent record grows by `m`; the borrower's H rises and its borrowed record
grows by `m`, and its need falls, while it is SEATED; a borrower that is not takes nothing, and neither does a station that has not
acknowledged the LEND, SEATED or not. What a change of H makes of the heater unit: at a fall every grant becomes the smaller of
itself and what an allocation from the new H and the present demands gives (R59; the allocation is spelled in
PeriodStartAllocatesTheHeldShares), the pulses are cut at once (R61), and a rise leaves the grants (R62). R59's minimum stands also
where R52 would give a channel more after a period start of the same instant (log entry 49, DESIGN CHOICE, unsafe), and a fall and a
cut by R57 or R63 are taken one after the other (log entry 50, DESIGN CHOICE, unsafe). The lists of R68: a record is appended at the
tail, grows and shrinks in its place, and is removed at 0. -/
def Obligations.LendCommits : Prop :=
  (∀ (src dst : Station) (m : Half) (s : State), s.Sends 5 src.toNat dst.toNat (byte2 m.toNat) →
    ∃ t, exec (.lend src dst m) s = .next t ∧
      t.shares = { s.shares with held := s.shares.held - m.toNat, lent := growLoan dst.toNat m.toNat s.shares.lent } ∧
      t = dropReservation (lendTo dst.toNat m.toNat (commitFrame true src.toNat s)) ∧
      t.still = { s with shares := t.shares, heater := t.heater }.still) ∧
  (∀ (src dst : Station) (m : Half) (s : State) (start : BitVec 32), s.Hears start → s.Accepts dst →
    s.shares.state = .seated → ∃ t, exec (.lend src dst m) s = .next t ∧
      t.shares = { s.shares with
        held := s.shares.held + m.toNat
        borrowed := growLoan src.toNat m.toNat s.shares.borrowed
        needAmount := if s.shares.needTimer.isRunning then s.shares.needAmount - m.toNat else s.shares.needAmount
        needTimer := if s.shares.needTimer.isRunning && decide (s.shares.needAmount ≤ m.toNat) then .stopped
          else s.shares.needTimer } ∧
      t = dropReservation (meetNeed m.toNat (borrowFrom src.toNat m.toNat (commitFrame false src.toNat s))) ∧
      t.still = { s with shares := t.shares, heater := t.heater }.still) ∧
  (∀ (src dst : Station) (m : Half) (s : State) (start : BitVec 32), s.Hears start →
    s.bus.answer.ack = false ∨ dst.toNat ≠ s.dir.own ∨ s.shares.state ≠ .seated →
    exec (.lend src dst m) s = .next (s.afterCommit false src.toNat)) ∧
  (∀ (x m : Nat) (s : State),
    lendTo x m s = setHeld (s.shares.held - m) (s.withLent (growLoan x m s.shares.lent)) ∧
    borrowFrom x m s = setHeld (s.shares.held + m) (s.withBorrowed (growLoan x m s.shares.borrowed)) ∧
    meetNeed m s = { s with shares := { s.shares with
      needAmount := if s.shares.needTimer.isRunning then s.shares.needAmount - m else s.shares.needAmount
      needTimer := if s.shares.needTimer.isRunning && decide (s.shares.needAmount ≤ m) then .stopped
        else s.shares.needTimer } }) ∧
  (∀ (h : Nat) (s u : State), u = { s with shares := { s.shares with held := h } } → setHeld h s = { u with heater :=
    { s.heater with
      channels := if h < s.shares.held then s.heater.channels.mapIdx (fun n c => if s.inUse n = true then
          { c with
            grant := min c.grant (u.allotted n)
            pulse := cutPulse (min 255 (s.heater.slot - (s.channelConfig n).phase)) c.pulse (min c.grant (u.allotted n))
            runOn := cutPulse (256 + s.heater.slot - (s.channelConfig n).phase) c.runOn (min c.grant (u.allotted n)) }
        else c) else s.heater.channels
      cost := s.demandCost
      shortfall := s.demandCost - h } }) ∧
  (∀ s : State, s.demandCost = ((List.range 8).map (fun n =>
    if s.inUse n = true then dutyCost (s.channelConfig n).rated (s.channel n).demand else 0)).sum) ∧
  (∀ (p : Nat) (l : List Loan), hasLoan p l = true ↔ ∃ r ∈ l, r.peer = p) ∧
  (∀ (p : Nat) (r : Loan) (l : List Loan), loanOf p [] = 0 ∧ loanOf p (r :: l) = if r.peer = p then r.amount else loanOf p l) ∧
  (∀ (p m : Nat) (l : List Loan), growLoan p m l = if ∃ r ∈ l, r.peer = p then
      l.map (fun r => if r.peer = p then { r with amount := r.amount + m } else r) else l ++ [⟨p, m⟩]) ∧
  (∀ (p m : Nat) (l : List Loan), shrinkLoan p m l =
      (l.map (fun r => if r.peer = p then { r with amount := r.amount - m } else r)).filter (fun r => decide (1 ≤ r.amount))) ∧
  (∀ (p : Nat) (l : List Loan), dropLoan p l = l.filter (fun r => decide (r.peer ≠ p)))

/-- RETURN and RECALL of `m` commit (R78, R80): each side moves the smaller of `m` and what its own record holds, and the heater
unit follows H as LendCommits spells (R59, R61, R62; log entries 49 and 50, DESIGN CHOICE, unsafe). A station that has not
acknowledged the frame takes the common part alone (R163). A record that falls to 0 leaves its list (R68). -/
def Obligations.ReturnAndRecallCommit : Prop :=
  (∀ (src dst : Station) (m : Half) (s : State),
    (s.Sends 6 src.toNat dst.toNat (byte2 m.toNat) → ∃ t, exec (.returnShares src dst m) s = .next t ∧
      t.shares = { s.shares with
        held := s.shares.held - min m.toNat (loanOf dst.toNat s.shares.borrowed)
        borrowed := shrinkLoan dst.toNat m.toNat s.shares.borrowed } ∧
      t = dropReservation (giveBack dst.toNat m.toNat (commitFrame true src.toNat s)) ∧
      t.still = { s with shares := t.shares, heater := t.heater }.still) ∧
    (s.Sends 7 src.toNat dst.toNat (byte2 m.toNat) → ∃ t, exec (.recallShares src dst m) s = .next t ∧
      t.shares = { s.shares with
        held := s.shares.held + min m.toNat (loanOf dst.toNat s.shares.lent)
        lent := shrinkLoan dst.toNat m.toNat s.shares.lent } ∧
      t = dropReservation (takeBack dst.toNat m.toNat (commitFrame true src.toNat s)) ∧
      t.still = { s with shares := t.shares, heater := t.heater }.still)) ∧
  (∀ (src dst : Station) (m : Half) (s : State) (start : BitVec 32), s.Hears start → s.Accepts dst →
    (∃ t, exec (.returnShares src dst m) s = .next t ∧
      t.shares = { s.shares with
        held := s.shares.held + min m.toNat (loanOf src.toNat s.shares.lent)
        lent := shrinkLoan src.toNat m.toNat s.shares.lent } ∧
      t = dropReservation (takeBack src.toNat m.toNat (commitFrame false src.toNat s)) ∧
      t.still = { s with shares := t.shares, heater := t.heater }.still) ∧
    (∃ t, exec (.recallShares src dst m) s = .next t ∧
      t.shares = { s.shares with
        held := s.shares.held - min m.toNat (loanOf src.toNat s.shares.borrowed)
        borrowed := shrinkLoan src.toNat m.toNat s.shares.borrowed } ∧
      t = dropReservation (giveBack src.toNat m.toNat (commitFrame false src.toNat s)) ∧
      t.still = { s with shares := t.shares, heater := t.heater }.still)) ∧
  (∀ (src dst : Station) (m : Half) (s : State) (start : BitVec 32), s.Hears start →
    s.bus.answer.ack = false ∨ dst.toNat ≠ s.dir.own →
    exec (.returnShares src dst m) s = .next (s.afterCommit false src.toNat) ∧
    exec (.recallShares src dst m) s = .next (s.afterCommit false src.toNat)) ∧
  (∀ (x m : Nat) (s : State),
    giveBack x m s = setHeld (s.shares.held - min m (loanOf x s.shares.borrowed))
      (s.withBorrowed (shrinkLoan x m s.shares.borrowed)) ∧
    takeBack x m s = setHeld (s.shares.held + min m (loanOf x s.shares.lent)) (s.withLent (shrinkLoan x m s.shares.lent))) ∧
  (∀ (p : Nat) (l : List Loan), hasLoan p l = true ↔ ∃ r ∈ l, r.peer = p) ∧
  (∀ (p : Nat) (r : Loan) (l : List Loan), loanOf p [] = 0 ∧ loanOf p (r :: l) = if r.peer = p then r.amount else loanOf p l) ∧
  (∀ (p m : Nat) (l : List Loan), shrinkLoan p m l =
      (l.map (fun r => if r.peer = p then { r with amount := r.amount - m } else r)).filter (fun r => decide (1 ≤ r.amount)))

/-- NEED_EXPIRY (R70, R79): the need ends, RECALL goes to the borrower of the newest lent record where R79 holds and class 2 is
admitted, and nothing else changes. A stopped timer has no expiry (log entries 1 and 22, the model's choice). -/
def Obligations.NeedExpiryRecalls : Prop :=
  (∀ s : State, s.shares.needTimer.isRunning = true → ∃ t, exec .needExpiry s = .next t ∧
    t = { s with
      shares := { s.shares with needAmount := 0, needTimer := .stopped }, bus := { s.bus with queue := t.bus.queue } } ∧
    (∀ r, s.shares.lent.getLast? = some r → s.shares.state = .seated → 0 < s.heater.shortfall →
      s.hasFrame (TxFrame.isKind 7) = false → s.admits 2 = true →
      t.bus.queue = s.bus.queue ++ [newFrame 2 r.peer .recallShares]) ∧
    (s.shares.lent = [] ∨ s.shares.state ≠ .seated ∨ s.heater.shortfall = 0 ∨ s.hasFrame (TxFrame.isKind 7) = true ∨
      s.admits 2 = false → t.bus.queue = s.bus.queue)) ∧
  (∀ s : State, s.shares.needTimer.isRunning = false → exec .needExpiry s = .next s)

/-! ## Timers -/

/-- HOLD_OVER_EXPIRY (R35), SETTLE_EXPIRY (R91), CLAIM_LISTEN_EXPIRY (R176) and BUSY_BACKOFF_END (R166): each changes its own
unit alone, and nothing where its timer does not run (log entries 1 and 22). That BUSY_BACKOFF_END names the place of its
frame in the transmit queue is log entry 21 (DESIGN CHOICE, safe). -/
def Obligations.TimersThatChangeTheirOwnUnitAlone : Prop :=
  (∀ s : State, exec .holdOverExpiry s = .next (if s.recipes.holdTimer.isRunning then
    { s with recipes := { s.recipes with holdOver := none, holdTimer := .stopped } } else s)) ∧
  (∀ s : State, s.pot.main.state = .raising → s.pot.main.settle.isRunning = true → exec (.settleExpiry .main) s = .next
    { s with pot := { s.pot with main := { s.pot.main with state := .up, settle := .stopped } } }) ∧
  (∀ s : State, s.pot.chip.state = .raising → s.pot.chip.settle.isRunning = true → exec (.settleExpiry .chip) s = .next
    { s with pot := { s.pot with chip := { s.pot.chip with state := .up, settle := .stopped } } }) ∧
  (∀ s : State, s.pot.main.state ≠ .raising ∨ s.pot.main.settle.isRunning = false → exec (.settleExpiry .main) s = .next s) ∧
  (∀ s : State, s.pot.chip.state ≠ .raising ∨ s.pot.chip.settle.isRunning = false → exec (.settleExpiry .chip) s = .next s) ∧
  (∀ s : State, s.control.station = .claiming → s.dir.claimListen.isRunning = true → exec .claimListenExpiry s = .next
    { s with
      dir := { s.dir with claimListen := .expired }
      bus := { s.bus with queue := if s.admits 3 then s.bus.queue ++ [newFrame 3 0 .claim] else s.bus.queue } }) ∧
  (∀ s : State, s.control.station ≠ .claiming ∨ s.dir.claimListen.isRunning = false → exec .claimListenExpiry s = .next s) ∧
  (∀ (place : Fin 16) (s : State), exec (.busyBackoffEnd place) s = .next
    { s with bus := { s.bus with queue := s.bus.queue.modify place (fun f =>
      { f with phase := match f.phase with
        | .backoff _ => .waiting
        | .waiting => .waiting
        | .onBus => .onBus }) } })

/-- STALL_TIMER_EXPIRY (R18) raises CONVEYOR_STALL; FEED_RUN_EXPIRY (R100) stops the feeder and reports WIRE_OUT once with the
held level; nothing but what follows from an alarm changes. A timer that does not run has no expiry (log entries 1 and 22, the
model's choice). How the pumps and the feeder follow what they read, wherever another statement says `potUpdate`: each pump's
next state from the lock condition (R88), the request last worked out (R89, R93; log entry 41, DEDUCED, unsafe) and what
permits a raise (R90, R91), with WAVE_INTERRUPTED for the records on the wave when a pump leaves UP (R94), and the feeder's
start and stop (R99). The target of a pump without a request is 0, which is log entry 17 (DEDUCED, unsafe); MAIN before CHIP
before the feeder is log entry 5 (DESIGN CHOICE, unsafe). -/
def Obligations.StallAndFeedRunExpiry : Prop :=
  (∀ s : State, s.tracker.stall.isRunning = true → ∃ t, exec .stallTimerExpiry s = .next t ∧ t.steady = s.steady ∧
    t = settle (raiseHeld 19 0 { s with tracker := { s.tracker with stall := .expired } })) ∧
  (∀ s : State, s.tracker.stall.isRunning = false → exec .stallTimerExpiry s = .next s) ∧
  (∀ s : State, s.pot.feeding = true → s.pot.feedTimer.isRunning = true → ∃ t, exec .feedRunExpiry s = .next t ∧
    t.steady = s.steady ∧
    t = settle (occurrence 22 s.pot.level { s with pot := { s.pot with feeding := false, feedTimer := .stopped } })) ∧
  (∀ s : State, s.pot.feeding = false ∨ s.pot.feedTimer.isRunning = false → exec .feedRunExpiry s = .next s) ∧
  (∀ s u v : State,
    u = setMain (nextPump s.lockCondition s.raiseAllowed s.pot.mainRequest s.cfg.settleTime s.pot.main) s →
    v = setChip (nextPump s.lockCondition s.raiseAllowed s.pot.chipRequest s.cfg.settleTime s.pot.chip) u →
    potUpdate s = feederUpdate v) ∧
  (∀ (p : Pump) (s u : State), u = { s with pot := { s.pot with main := p } } → setMain p s =
    if s.pot.main.state = .up ∧ p.state ≠ .up then markBoards (s.spans s.cfg.wavePos) 6 u else u) ∧
  (∀ (p : Pump) (s u : State), u = { s with pot := { s.pot with chip := p } } → setChip p s =
    if s.pot.chip.state = .up ∧ p.state ≠ .up then markBoards (s.spans s.cfg.wavePos) 6 u else u) ∧
  (∀ (locked allowed : Bool) (request : Option Nat) (settle : Nat) (p : Pump),
    (locked = true → nextPump locked allowed request settle p = ⟨.locked, 0, 0, .stopped⟩) ∧
    (locked = false → request = none ∨ allowed = false → nextPump locked allowed request settle p =
      ⟨if p.speed = 0 then .down else .lowering, p.speed, request.getD 0, .stopped⟩) ∧
    (∀ t, locked = false → request = some t → allowed = true →
      (p.state = .raising ∨ p.state = .up → p.target = t → nextPump locked allowed request settle p = p) ∧
      ((p.state ≠ .raising ∧ p.state ≠ .up) ∨ p.target ≠ t → nextPump locked allowed request settle p =
        if p.speed ≠ t then ⟨.raising, p.speed, t, .stopped⟩
        else if settle = 0 then ⟨.up, p.speed, t, .stopped⟩ else ⟨.raising, p.speed, t, .running settle⟩))) ∧
  (∀ s : State, s.lockCondition = true ↔ s.joined = false ∨ s.cfg.roles.pot = false ∨ s.stopped = true ∨
    (s.quantity s.cfg.refChannel).value < s.cfg.meltSafe ∨ s.channelOpen s.cfg.refChannel = true ∨ s.stands 23 = true ∨
    s.control.mode = .idle) ∧
  (∀ s : State, s.raiseAllowed = true ↔ s.control.condition ≠ .hold ∧ s.lowerWave = false) ∧
  (∀ s : State, workRequests s = { s with pot := { s.pot with mainRequest := s.mainRequest, chipRequest := s.chipRequest } }) ∧
  (∀ s : State,
    (s.control.mode = .idle → s.mainRequest = none ∧ s.chipRequest = none) ∧
    (s.control.mode = .run →
      s.mainRequest = (s.requestSlot (·.mainWave)).map (fun body => body.mainSpeed * 256 / 255) ∧
      s.chipRequest = (s.requestSlot (·.chipWave)).map (fun body => body.chipSpeed * 256 / 255)) ∧
    (s.control.mode = .service →
      s.mainRequest = (if s.control.service.getLsbD 16 = true then some 256 else none) ∧
      s.chipRequest = (if s.control.service.getLsbD 17 = true then some 256 else none))) ∧
  (∀ (s : State) (flagOf : RecipeBody → Bool),
    ((∀ b ∈ s.tracker.queue, ¬(s.inContactZone b = true ∧ ∃ sl ∈ s.slotOf b, flagOf sl.body = true)) →
      s.requestSlot flagOf = none) ∧
    (∀ (i : Nat) (b : Board) (sl : Slot), s.tracker.queue[i]? = some b → s.inContactZone b = true → s.slotOf b = some sl →
      flagOf sl.body = true →
      (∀ (j : Nat) (x : Board), j < i → s.tracker.queue[j]? = some x →
        ¬(s.inContactZone x = true ∧ ∃ y ∈ s.slotOf x, flagOf y.body = true)) →
      s.requestSlot flagOf = some sl.body)) ∧
  (∀ (s : State) (b : Board), s.inContactZone b = true ↔
    s.cfg.wavePos - s.cfg.raiseLead ≤ s.pos b ∧ s.pos b ≤ s.cfg.wavePos + s.cfg.lowerLag + b.line.length) ∧
  (∀ s : State, s.feederAllowed = true ↔ s.joined = true ∧ s.cfg.roles.pot = true ∧ s.control.mode ≠ .idle ∧
    s.control.condition ≠ .tripped ∧ s.alarmState 22 = .quiet) ∧
  (∀ s : State, s.feederForced = true ↔ s.control.mode = .service ∧ s.control.service.getLsbD 18 = true) ∧
  (∀ s : State,
    (s.pot.feeding = false → s.feederAllowed = true →
      (s.pot.established = true ∧ s.pot.level < s.cfg.feedOn) ∨ s.feederForced = true → feederUpdate s = { s with pot :=
        { s.pot with
          feeding := true
          feedTimer := if s.cfg.feedLimit = 0 then .stopped else .running (s.cfg.feedLimit * 1000) } }) ∧
    (s.pot.feeding = false →
      s.feederAllowed = false ∨ ((s.pot.established = false ∨ s.cfg.feedOn ≤ s.pot.level) ∧ s.feederForced = false) →
      feederUpdate s = s) ∧
    (s.pot.feeding = true →
      s.feederAllowed = false ∨ (s.pot.established = true ∧ s.cfg.feedOff ≤ s.pot.level ∧ s.feederForced = false) →
      feederUpdate s = { s with pot := { s.pot with feeding := false, feedTimer := .stopped } }) ∧
    (s.pot.feeding = true → s.feederAllowed = true →
      s.pot.established = false ∨ s.pot.level < s.cfg.feedOff ∨ s.feederForced = true → feederUpdate s = s))

/-- PROVE_TIMEOUT takes a PROVING duct to FAILED (R128); RUN_ON_EXPIRY takes the request off and every enabled duct to OFF
(R125, R128); nothing but what follows from an alarm or an inhibit changes elsewhere. For a duct that is not PROVING or a
timer that does not run both are no events (log entries 1 and 22, the model's choice). What a test of the causes makes of the
request and the ducts (R125, R128), at the events that PeriodStartAllocatesTheHeldShares and ModeIsTaken name; what the ducts
then drive (R129), in the order of log entry 5 (DESIGN CHOICE, unsafe). The state after each is written out: PROVE_TIMEOUT
changes its own duct alone and raises EXTRACT_FAILED through `driveDucts` (R129). -/
def Obligations.ProveTimeoutAndRunOnExpiry : Prop :=
  (∀ (n : Fin 2) (s : State), s.ductEnabled n = true → (s.duct n).state = .proving → (s.duct n).timer.isRunning = true →
    ∃ t, exec (.proveTimeout n) s = .next t ∧
      t.duct n = { s.duct n with state := .failed, timer := .stopped } ∧
      t = settle (driveDucts { s with extraction := { s.extraction with ducts := s.extraction.ducts.mapIdx (fun k d =>
        if k = n then { d with state := .failed, timer := .stopped } else d) } }) ∧
      t.steady = { s with extraction := t.extraction }.steady) ∧
  (∀ (n : Fin 2) (s : State), s.ductEnabled n = false ∨ (s.duct n).state ≠ .proving ∨ (s.duct n).timer.isRunning = false →
    exec (.proveTimeout n) s = .next s) ∧
  (∀ s : State, s.extraction.runOn.isRunning = true → ∃ t, exec .runOnExpiry s = .next t ∧ t = settle (requestOff s) ∧
    t.extraction.request = false ∧ t.extraction.runOn = .stopped ∧
    (∀ n, n < s.extraction.ducts.length → s.ductEnabled n = true → t.duct n = ⟨.off, 0, 0, .stopped⟩) ∧
    t.steady = { s with extraction := t.extraction }.steady) ∧
  (∀ s : State, s.extraction.runOn.isRunning = false → exec .runOnExpiry s = .next s) ∧
  (∀ s : State, testRequest s =
    if s.joined = true ∧ (s.control.mode ≠ .idle ∨ ∃ c ∈ s.heater.channels, ∃ v ∈ c.setpoint, s.cfg.heatThreshold ≤ v) then
      if s.extraction.request = true then { s with extraction := { s.extraction with runOn := .stopped } }
      else { s with extraction := ⟨true, .stopped, s.extraction.ducts.mapIdx (fun n d =>
        if s.ductEnabled n = true ∧ d.state = .off then
          { d with state := .proving, prove := 0
                   timer := if s.cfg.proveTimeout = 0 then .stopped else .running s.cfg.proveTimeout }
        else d)⟩ }
    else if s.extraction.request = true ∧ s.extraction.runOn.isRunning = false then
      if s.cfg.runOnTime = 0 then requestOff s
      else { s with extraction := { s.extraction with runOn := .running (s.cfg.runOnTime * 1000) } }
    else s) ∧
  (∀ s : State, requestOff s = driveDucts { s with extraction := ⟨false, .stopped, s.extraction.ducts.mapIdx (fun n d =>
    if s.ductEnabled n then ⟨.off, 0, 0, .stopped⟩ else d)⟩ }) ∧
  (∀ s u v : State, u = sprayUpdate s →
    v = (match u.ductIn .failed with
      | some n => raiseHeld 24 n u
      | none => releaseHeld 24 u) →
    driveDucts s = match v.ductIn .lost with
      | some n => raiseHeld 25 n v
      | none => releaseHeld 25 v) ∧
  (∀ (s : State) (st : DuctState), s.ductIn st =
    if s.ductEnabled 0 = true ∧ (s.duct 0).state = st then some 0
    else if s.ductEnabled 1 = true ∧ (s.duct 1).state = st then some 1 else none)

/-- CONTACT_TIMER_EXPIRY (R70, R83, R171): the expiry that first makes a timer expired detaches a SEATED share unit, ends the
need of a DETACHED one, and raises ISOLATED; in isolation the other timer's expiry changes that timer alone. That `detach`
leaves the waiting frames of a DETACHED unit in the queue is log entry 47 (DESIGN CHOICE, unsafe). A timer that does not run
has no expiry (log entries 1 and 22, the model's choice). The heater unit follows the fall of H as LendCommits spells
`setHeld` (R59, R61; log entries 49 and 50, DESIGN CHOICE, unsafe). -/
def Obligations.ContactTimerExpiryIsolates : Prop :=
  (∀ (c : ContactId) (s : State), s.joined = true → (s.contact c).isRunning = true → s.isolated = true →
    exec (.contactTimerExpiry c) s = .next (expireContact c s)) ∧
  (∀ (c : ContactId) (s : State), s.joined = true → (s.contact c).isRunning = true → s.isolated = false →
    ∃ t, exec (.contactTimerExpiry c) s = .next t ∧ t = settle (raiseHeld 27 0 (detach (expireContact c s))) ∧
      t.contact c = .expired ∧ t.isolated = true ∧
      t.shares = (if s.shares.state = .seated then { s.shares with
          state := .detached, borrowed := [], held := s.shares.held - loanSum s.shares.borrowed
          needAmount := 0, needTimer := .stopped }
        else if s.shares.state = .detached then { s.shares with needAmount := 0, needTimer := .stopped }
        else s.shares) ∧
      t.still = { s with shares := t.shares, heater := t.heater }.still) ∧
  (∀ (c : ContactId) (s : State), s.joined = false ∨ (s.contact c).isRunning = false →
    exec (.contactTimerExpiry c) s = .next s) ∧
  (∀ s u : State, s.shares.state = .seated →
    u = setHeld (s.shares.held - loanSum s.shares.borrowed) { s with shares := { s.shares with
      state := .detached, borrowed := [], needAmount := 0, needTimer := .stopped } } →
    detach s = u.withTx (u.bus.queue.filter (fun f => f.phase == .onBus || !(f.isKind 4 || f.isKind 6)))) ∧
  (∀ s : State, expireContact .own s = { s with bus := { s.bus with ownContact := .expired } } ∧
      expireContact .peer s = { s with bus := { s.bus with peerContact := .expired } } ∧
      s.contact .own = s.bus.ownContact ∧ s.contact .peer = s.bus.peerContact)

/-- PRESENCE_EVENT (R9, R180, R182): the timer starts again, STATUS is in the queue where it was or was admitted, every hold-back
ends and the records that were held back are checked again, and an owed JOIN is queued or stays owed; no record moves. A stopped
timer has no presence event (log entries 1 and 22, the model's choice). -/
def Obligations.PresenceEventQueuesStatus : Prop :=
  (∀ s : State, s.joined = true → s.dir.presence.isRunning = true → ∃ t, exec .presenceEvent s = .next t ∧
    t.dir.presence = .running s.cfg.presencePeriod ∧ t.dir.entries = s.dir.entries ∧
    (s.hasFrame (TxFrame.isKind 3) = true ∨ s.admits 0 = true → t.hasFrame (TxFrame.isKind 3) = true) ∧
    t.boardIds = s.boardIds ∧ t.far = s.far ∧
    (∀ b ∈ t.tracker.queue, b.heldBack = true → t.admits 1 = false ∧ s.someBoard b.line.id (fun x => x.heldBack = true)) ∧
    (∀ (id dest start : Nat) (b : Board), s.board id = some b → b.heldBack = true → b.handed = none →
      s.tracker.neighbour = some dest → s.neighbourStart = some start → start - s.cfg.handoverLead ≤ s.pos b →
      s.hasFrame (TxFrame.isHandOf id) = false →
      newFrame 1 dest (.hand id) ∈ t.bus.queue ∨ t.someBoard id (fun x => x.heldBack = true)) ∧
    (∀ f ∈ s.bus.queue, f ∈ t.bus.queue) ∧
    (∀ f ∈ t.bus.queue, f ∈ s.bus.queue ∨ f = newFrame 0 0 .status ∨
      f = newFrame 3 0 (.join (s.dir.incarnation.getD 0)) ∨
      ∃ b ∈ s.tracker.queue, b.heldBack = true ∧ s.tracker.neighbour = some f.dst ∧ f = newFrame 1 f.dst (.hand b.line.id)) ∧
    (s.dir.joinOwed = false → t.dir.joinOwed = false) ∧
    (s.dir.joinOwed = true →
      (t.dir.joinOwed = false ∧ newFrame 3 0 (.join (s.dir.incarnation.getD 0)) ∈ t.bus.queue) ∨
      (t.dir.joinOwed = true ∧ t.admits 3 = false))) ∧
  (∀ s : State, s.joined = false ∨ s.dir.presence.isRunning = false → exec .presenceEvent s = .next s)

/-- AGING_SWEEP (R175): every entry by the table of R175; the timer starts again. The numbers that go GONE are handed to a SEATED
share unit, which takes back what it lent them (R82), and to the group unit, which flags those with activity ORPHAN (R137). The
neighbour is then the one that the directory gives (R7), and what a change of neighbour makes of the records and the waiting HAND
frames is R8. R7's choice is spelled: of the entries LIVE or QUIET of the numbers 1..29, which no panel has, whose window is known,
the one with the smallest win_start above the station's own, the lower number on a tie. A stopped timer has no sweep (log entries 1
and 22, the model's choice). The whole sweep is written out, with what is GONE handed over after every entry is aged (log entry 14,
DEDUCED, safe); the heater unit follows the rise of H as LendCommits spells `setHeld`. -/
def Obligations.AgingSweepAgesEveryEntry : Prop :=
  (∀ s : State, s.dir.aging.isRunning = true → ∃ t, exec .agingSweep s = .next t ∧
    t.dir.aging = .running s.cfg.agingInterval ∧
    t.dir.entries = s.dir.entries.map (fun place => place.bind (fun e =>
      if e.touched then some { e with quiet := false, touched := false }
      else if e.quiet then none else some { e with quiet := true })) ∧
    t.far = { s with shares := t.shares, heater := t.heater }.far ∧
    (∀ gone : List Nat, gone = (List.range 32).filter (fun n => match s.entry n with
        | some e => !e.touched && e.quiet
        | none => false) →
      t.shares = (if s.shares.state = .seated then { s.shares with
          held := s.shares.held + (gone.map (fun n => loanOf n s.shares.lent)).sum
          lent := s.shares.lent.filter (fun r => !gone.contains r.peer) }
        else s.shares) ∧
      (∀ r, r ∈ t.groups.orphans ↔
        r ∈ s.groups.orphans ∨ (r ∈ gone ∧ ∃ a ∈ s.groups.activity, a.raiser = r)) ∧
      t = settle (updateNeighbour gone (gone.foldl (fun x n => orphanGone n (loanGone n x))
        { s with dir := { s.dir with aging := .running s.cfg.agingInterval, entries := t.dir.entries } }))) ∧
    t.tracker.neighbour = t.findNeighbour) ∧
  (∀ s : State, s.dir.aging.isRunning = false → exec .agingSweep s = .next s) ∧
  (∀ (gone : List Nat) (s : State), s.findNeighbour = s.tracker.neighbour → updateNeighbour gone s = s) ∧
  (∀ (gone : List Nat) (s t : State), s.findNeighbour ≠ s.tracker.neighbour → t = updateNeighbour gone s →
    t.tracker.neighbour = s.findNeighbour ∧ t.boardIds = s.boardIds ∧ (∀ b ∈ t.tracker.queue, b.handed = none) ∧
    (∀ f ∈ s.bus.queue, f.body.kind ≠ 8 ∨ f.phase = .onBus → f ∈ t.bus.queue) ∧
    (∀ f ∈ t.bus.queue, f.body.kind = 8 → (f ∈ s.bus.queue ∧ f.phase = .onBus) ∨
      ∃ dest, ∃ b ∈ s.tracker.queue, s.findNeighbour = some dest ∧ f = newFrame 1 dest (.hand b.line.id)) ∧
    (∀ (id start : Nat) (b : Board), s.board id = some b → t.neighbourStart = some start →
      start - s.cfg.handoverLead ≤ s.pos b →
      t.hasFrame (TxFrame.isHandOf id) = true ∨ t.someBoard id (fun x => x.heldBack = true)) ∧
    (s.boardIds.Nodup → ∀ b ∈ t.tracker.queue, s.someBoard b.line.id (fun x =>
      ((∃ n, s.tracker.neighbour = some n ∧ n ∈ gone) → s.findNeighbour.isSome = true → s.inWindow x = true →
        (⟨s.dir.own, 10⟩ : Mark) ∈ b.line.marks ∨ b.line.markOverflow = true) ∧
      ((∀ n ∈ gone, s.tracker.neighbour ≠ some n) ∨ s.findNeighbour = none → b.line = x.line)))) ∧
  (∀ (n : Nat) (s : State), loanGone n s = if s.shares.state = .seated then
    setHeld (s.shares.held + loanOf n s.shares.lent) (s.withLent (dropLoan n s.shares.lent)) else s) ∧
  (∀ (s : State) (n : Nat), s.findNeighbour = some n ↔ 1 ≤ n ∧ n ≤ 29 ∧ ∃ e w, s.entry n = some e ∧ e.window = some w ∧
      s.cfg.winStart < w.1 ∧ ∀ k d v, 1 ≤ k → k ≤ 29 → s.entry k = some d → d.window = some v → s.cfg.winStart < v.1 →
        w.1 < v.1 ∨ (w.1 = v.1 ∧ n ≤ k)) ∧
  (∀ s : State, s.findNeighbour = none ↔
      ∀ k d v, 1 ≤ k → k ≤ 29 → s.entry k = some d → d.window = some v → ¬ s.cfg.winStart < v.1) ∧
  (∀ (s : State) (start : Nat), s.neighbourStart = some start ↔
      ∃ n e w, s.tracker.neighbour = some n ∧ s.entry n = some e ∧ e.window = some w ∧ w.1 = start) ∧
  (∀ (r : Nat) (s : State), orphanGone r s = if (∃ a ∈ s.groups.activity, a.raiser = r) ∧ r ∉ s.groups.orphans then
      { s with groups := { s.groups with orphans := s.groups.orphans ++ [r] } } else s)

/-! ## Line bus (10) -/

/-- BUS_IDLE, FRAME_START and LOST_ARBITRATION (R6, R158, R160, R170): each changes the bus interface alone. FRAME_START while the
own frame is on the wire, and LOST_ARBITRATION without one, are no events (log entry 22, the model's choice); that FRAME_START
during a received frame begins a new one is log entry 52 (DESIGN CHOICE, safe), and that BUS_IDLE ends a stuck stretch is log entry
45 (DESIGN CHOICE, unsafe). A station receives in every state but LOADING, and in CONFIG_FAULT where the image gives one of the
three bit rates (R156, R187). -/
def Obligations.BusIdleFrameStartAndLostArbitration : Prop :=
  (∀ s : State, exec .busIdle s = .next (if s.receives then { s with bus := { s.bus with stuck := false, footing := true } } else s)) ∧
  (∀ s : State, s.receives = true → s.bus.footing = true → s.bus.onWire = none → exec .frameStart s = .next
    { s with bus := { s.bus with
      frameStart := some s.tracker.count, answer := ⟨false, false, false⟩, reservation := none } }) ∧
  (∀ s : State, s.receives = false ∨ s.bus.footing = false ∨ s.bus.onWire.isSome = true → exec .frameStart s = .next s) ∧
  (∀ s : State, s.bus.onWire.isSome = true → exec .lostArbitration s = .next { s with bus := { s.bus with
    onWire := none
    queue := s.bus.queue.map (fun f => if f.phase = .onBus then { f with phase := .waiting } else f) } }) ∧
  (∀ s : State, s.bus.onWire = none → exec .lostArbitration s = .next s) ∧
  (∀ s : State, s.receives = true ↔ s.control.station ≠ .loading ∧ (s.control.station = .configFault → s.loader.rateGiven = true))

/-- START_OF_TRANSMISSION (R156, R166, R167): the first eligible frame, highest class first and then in order of admission, goes on
the bus with its payload built now; one whose build fails is withdrawn and the next is tried. What each kind of R167 builds, and
when it is withdrawn; the content of a REPORT, by code, is spelled in QueriesQueueReports. A HAND and an AMEND POSITION are built
from the record that holds the board id when they are built, be it another record of the same id (log entry 56, DESIGN CHOICE,
unsafe). The search after a withdrawal is spelled step by step. That no BUS_IDLE is asked for between two frames of a station with
its footing is log entry 52 (DESIGN CHOICE, safe). When the queue admits a frame of a class is R165. -/
def Obligations.StartOfTransmissionBuildsTheFirstEligibleFrame : Prop :=
  (∀ (s : State) (i : Nat) (f : TxFrame) (p : List Byte), s.bus.footing = true → s.bus.frameStart = none →
    s.firstEligible = some i → s.bus.queue[i]? = some f → s.payload f = some p →
    exec .startOfTransmission s = .next { s with bus := { s.bus with
      queue := s.bus.queue.modify i (fun f => { f with phase := .onBus })
      onWire := some ⟨f.cls, if f.isKind 1 then 0 else s.dir.own, f.body.kind, f.dst, p⟩
      frameStart := some s.tracker.count
      answer := ⟨false, false, false⟩
      reservation := none } }) ∧
  (∀ (s : State) (i : Nat) (f : TxFrame), s.bus.footing = true → s.bus.frameStart = none →
    s.firstEligible = some i → s.bus.queue[i]? = some f → s.payload f = none →
    exec .startOfTransmission s = .next (startFrame 15 { s with bus := { s.bus with queue := s.bus.queue.eraseIdx i } })) ∧
  (∀ s : State, s.bus.footing = false ∨ s.bus.frameStart.isSome = true ∨ s.firstEligible = none →
    exec .startOfTransmission s = .next s) ∧
  (∀ (s : State) (f : TxFrame),
    s.mayTransmit f = true ↔ s.joined = true ∨ (s.control.station = .claiming ∧ f.body.kind = 1)) ∧
  (∀ (s : State) (i : Nat), s.firstEligible = some i →
    ∃ f, s.bus.queue[i]? = some f ∧ f.cls ≤ 3 ∧ f.phase = .waiting ∧ s.mayTransmit f = true ∧
      ∀ (j : Nat) (g : TxFrame), s.bus.queue[j]? = some g → g.cls ≤ 3 → g.phase = .waiting → s.mayTransmit g = true →
        g.cls < f.cls ∨ (g.cls = f.cls ∧ i ≤ j)) ∧
  (∀ s : State, s.firstEligible = none ↔
    ∀ g ∈ s.bus.queue, ¬(g.cls ≤ 3 ∧ g.phase = .waiting ∧ s.mayTransmit g = true)) ∧
  (∀ (s : State) (f : TxFrame),
    (f.body = .status → s.payload f = some
      (byte1 (rolesByte s.cfg.roles) ++ byte1 s.control.mode.code ++ byte1 s.control.condition.code ++ byte1 s.alarmLevel
        ++ byte3 s.cfg.winStart ++ byte3 s.cfg.winEnd ++ byte2 s.shares.held ++ byte2 s.cfg.base
        ++ byte1 s.tracker.queue.length ++ byte1 (s.dir.incarnation.getD 0))) ∧
    (∀ v : Int, v = min (min (s.heater.shortfall : Int) 255) ((s.cfg.cap : Int) - s.shares.held) → f.body = .need →
      s.payload f = if s.shares.state = .seated ∧ s.shares.needTimer.isRunning = false ∧ 1 ≤ v then some (byte2 v.toNat)
        else none) ∧
    (∀ (requested : Nat) (v : Int), f.body = .lend requested →
      v = min ((s.shares.held : Int) - s.heater.cost - s.cfg.lendMargin) ((s.cfg.base : Int) - loanSum s.shares.lent) →
      s.payload f = if s.shares.state = .seated ∧ s.shares.needTimer.isRunning = false ∧ (s.entry f.dst).isSome = true ∧
          (hasLoan f.dst s.shares.lent = true ∨ s.shares.lent.length < 8) ∧ 1 ≤ v ∧ 1 ≤ requested then
        some (byte2 (min v requested).toNat) else none) ∧
    (∀ v : Int, f.body = .returnShares →
      v = min ((s.shares.held : Int) - s.heater.cost - s.cfg.lendMargin) (loanOf f.dst s.shares.borrowed) →
      s.payload f = if s.shares.state = .seated ∧ hasLoan f.dst s.shares.borrowed = true ∧ 1 ≤ v then some (byte2 v.toNat)
        else none) ∧
    (f.body = .recallShares → s.payload f =
      if s.shares.state = .seated ∧ hasLoan f.dst s.shares.lent = true ∧
          1 ≤ min s.heater.shortfall (loanOf f.dst s.shares.lent) then
        some (byte2 (min s.heater.shortfall (loanOf f.dst s.shares.lent))) else none) ∧
    (∀ board, f.body = .hand board → s.payload f = (s.board board).map (fun b => lineBytes b.line (s.pos b))) ∧
    (∀ board, f.body = .amendPosition board →
      s.payload f = (s.board board).map (fun b => byte2 board ++ [3] ++ byte3 (s.pos b))) ∧
    (f.body = .claim → s.payload f = some (byte6 s.uid.toNat ++ byte1 s.cfg.preferred ++
      (byte1 (rolesByte s.cfg.roles) ++ (byte3 s.cfg.winStart ++ byte3 s.cfg.winEnd)))) ∧
    (∀ incarnation, f.body = .join incarnation → s.payload f = some (byte6 s.uid.toNat ++ byte1 incarnation ++
      (byte1 (rolesByte s.cfg.roles) ++ (byte3 s.cfg.winStart ++ byte3 s.cfg.winEnd)))) ∧
    (∀ board station code, f.body = .amendMark board station code →
      s.payload f = some (byte2 board ++ [1] ++ byte1 station ++ byte1 code)) ∧
    (∀ board length, f.body = .amendLength board length → s.payload f = some (byte2 board ++ [2] ++ byte2 length)) ∧
    (∀ index action group scope value mark, f.body = .alarm index action group scope value mark →
      s.payload f = some (byte1 index ++ byte1 action ++ byte1 group ++ byte4 scope.toNat ++ byteS value ++ byte1 mark)) ∧
    (∀ index group, f.body = .clear index group → s.payload f = some (byte1 index ++ byte1 group)) ∧
    (∀ line pos count, f.body = .done line pos count →
      s.payload f = some (lineBytes line (leadingEdge s.cfg.countsPerMetre pos s.tracker.count count))) ∧
    (∀ code item, f.body = .report code item →
      s.payload f = some (byte1 code ++ byte1 item ++ reportContent code item s))) ∧
  (∀ s : State, startFrame 0 s = s ∧ ∀ n : Nat,
    (s.firstEligible = none → startFrame (n + 1) s = s) ∧
    (∀ (i : Nat) (f : TxFrame), s.firstEligible = some i → s.bus.queue[i]? = some f → s.payload f = none →
      startFrame (n + 1) s = startFrame n { s with bus := { s.bus with queue := s.bus.queue.eraseIdx i } }) ∧
    (∀ (i : Nat) (f : TxFrame) (p : List Byte), s.firstEligible = some i → s.bus.queue[i]? = some f → s.payload f = some p →
      startFrame (n + 1) s = { s with bus := { s.bus with
        queue := s.bus.queue.modify i (fun f => { f with phase := .onBus })
        onWire := some ⟨f.cls, if f.isKind 1 then 0 else s.dir.own, f.body.kind, f.dst, p⟩
        frameStart := some s.tracker.count
        answer := ⟨false, false, false⟩
        reservation := none } })) ∧
  (∀ (s : State) (cls : Nat), s.admits cls = true ↔
      (if cls = 3 then 1 else if cls = 2 then 3 else if cls = 1 then 5 else 7) ≤
        16 - (s.bus.queue.length + if s.bus.reservation = some .txPlace then 1 else 0))

/-- ACK_SLOT (R159, R161, R164): the answers and the reservation, and nothing else; VETO alone for a faulty frame; nothing for a
frame that the station transmits soundly, or one directed to another. The answer by kind to a sound frame directed to the station:
HAND (R12), ADMIT (R34), LEND (R75), RETURN (R78), RECALL (R80), ACKNOWLEDGE (R117), WATCH (R119), QUERY (R153), each with what it
reserves; no other kind but SIGNAL and RESTART is acknowledged. BUSY for a broadcast: RECIPE (R30) and a defended CLAIM (R178). A
bit that no table names is out of range in a HAND, a RECIPE and a WATCH (log entry 29, DEDUCED). When a frame is faulty, at a
receiver and at its transmitter, is spelled with the check over header and payload (R157, R159). That a second ACK_SLOT of one frame
decides again is log entry 52 (DESIGN CHOICE, safe). -/
def Obligations.TheAckSlotAnswers : Prop :=
  (∀ (f : RawFrame) (s : State), s.bus.frameStart.isSome = true → exec (.ackSlot f) s = .next
    { s with bus := { s.bus with answer := (answerTo f s).1, reservation := (answerTo f s).2 } }) ∧
  (∀ (f : RawFrame) (s : State), s.bus.frameStart = none → exec (.ackSlot f) s = .next s) ∧
  (∀ (f : RawFrame) (s : State), s.bus.onWire = none → faultyFrame f = true →
    answerTo f s = (⟨false, false, true⟩, none)) ∧
  (∀ (f : RawFrame) (s : State) (w : WireFrame), s.bus.onWire = some w →
    answerTo f s = (⟨false, false, faultyOwn w f⟩, none)) ∧
  (∀ (f : RawFrame) (s : State), s.bus.onWire = none → faultyFrame f = false → f.dst ≠ 0 → f.dst.toNat ≠ s.dir.own →
    answerTo f s = (⟨false, false, false⟩, none)) ∧
  (∀ (f : RawFrame) (s : State), s.bus.onWire = none → faultyFrame f = false → f.dst = 0 →
    (answerTo f s).1.ack = false ∧ (answerTo f s).1.veto = false ∧ (answerTo f s).2 = none) ∧
  (∀ (f : RawFrame) (s : State), s.Asked f 8 →
    (s.joined = false ∨ handInRange f.payload = false → answerTo f s = (⟨false, false, false⟩, none)) ∧
    (s.joined = true → handInRange f.payload = true →
      ((s.board (halfAt f.payload 0)).isSome = true → answerTo f s = (⟨true, false, false⟩, none)) ∧
      (s.board (halfAt f.payload 0) = none → 1 ≤ s.freePlaces →
        answerTo f s = (⟨true, false, false⟩, some .boardPlace)) ∧
      (s.board (halfAt f.payload 0) = none → s.freePlaces = 0 → answerTo f s = (⟨false, true, false⟩, none)))) ∧
  (∀ l : List Byte, handInRange l = true ↔
    l.length = 11 + 2 * byteAt l 10 ∧ halfAt l 0 ≠ 0 ∧ halfAt l 4 ≠ 0 ∧ byteAt l 9 < 8 ∧ byteAt l 10 ≤ 4 ∧
    (∀ i, i < byteAt l 10 → 1 ≤ byteAt l (11 + 2 * i) ∧ byteAt l (11 + 2 * i) ≤ 29 ∧
      ((1 ≤ byteAt l (12 + 2 * i) ∧ byteAt l (12 + 2 * i) ≤ 12) ∨
        (16 ≤ byteAt l (12 + 2 * i) ∧ byteAt l (12 + 2 * i) ≤ 63))) ∧
    (∀ i j, i < j → j < byteAt l 10 →
      ¬(byteAt l (11 + 2 * i) = byteAt l (11 + 2 * j) ∧ byteAt l (12 + 2 * i) = byteAt l (12 + 2 * j)))) ∧
  (∀ (f : RawFrame) (s : State), s.Asked f 19 →
    ((answerTo f s).1.ack = true ↔ s.joined = true ∧ s.cfg.roles.entry = true ∧ (f.src = 30 ∨ f.src = 31) ∧
      f.payload.length = 4 ∧ halfAt f.payload 1 ≠ 0 ∧ byteAt f.payload 3 ≠ 0 ∧
      (∃ sl ∈ s.recipes.slots, sl.state = .current ∧ sl.number = byteAt f.payload 0) ∧ s.tracker.admissions.length < 4) ∧
    ((answerTo f s).1.busy = true ↔ s.joined = true ∧ s.cfg.roles.entry = true ∧ (f.src = 30 ∨ f.src = 31) ∧
      f.payload.length = 4 ∧ halfAt f.payload 1 ≠ 0 ∧ byteAt f.payload 3 ≠ 0 ∧
      (∃ sl ∈ s.recipes.slots, sl.state = .current ∧ sl.number = byteAt f.payload 0) ∧ 4 ≤ s.tracker.admissions.length) ∧
    (answerTo f s).1.veto = false ∧ (answerTo f s).2 = none) ∧
  (∀ (f : RawFrame) (s : State), s.Asked f 5 →
    ((answerTo f s).1.ack = true ↔ s.joined = true ∧ 1 ≤ f.src.toNat ∧ f.src.toNat ≤ 29 ∧ f.payload.length = 2 ∧
      s.shares.state = .seated ∧ s.shares.needTimer.isRunning = true ∧
      (hasLoan f.src.toNat s.shares.borrowed = true ∨ s.shares.borrowed.length < 8) ∧
      s.shares.held + halfAt f.payload 0 ≤ s.cfg.cap ∧ halfAt f.payload 0 ≠ 0) ∧
    (answerTo f s).1.busy = false ∧ (answerTo f s).1.veto = false ∧
    (answerTo f s).2 = if (answerTo f s).1.ack && !hasLoan f.src.toNat s.shares.borrowed then some .borrowedPlace else none) ∧
  (∀ (f : RawFrame) (s : State) (kind : BitVec 5) (list : List Loan), s.Asked f kind →
    (kind = 6 ∧ list = s.shares.lent) ∨ (kind = 7 ∧ list = s.shares.borrowed) →
    ((answerTo f s).1.ack = true ↔ s.joined = true ∧ 1 ≤ f.src.toNat ∧ f.src.toNat ≤ 29 ∧ f.payload.length = 2 ∧
      ∃ r ∈ list, r.peer = f.src.toNat) ∧
    (answerTo f s).1.busy = false ∧ (answerTo f s).1.veto = false ∧ (answerTo f s).2 = none) ∧
  (∀ (f : RawFrame) (s : State), s.Asked f 20 →
    ((answerTo f s).1.ack = true ↔ s.joined = true ∧ (f.src = 30 ∨ f.src = 31) ∧ f.payload.length = 1) ∧
    (answerTo f s).1.busy = false ∧ (answerTo f s).1.veto = false ∧ (answerTo f s).2 = none) ∧
  (∀ (f : RawFrame) (s : State), s.Asked f 22 →
    ((answerTo f s).1.ack = true ↔ s.joined = true ∧ (f.src = 30 ∨ f.src = 31) ∧ f.payload.length = 12 ∧
      byteAt f.payload 0 ≤ 15 ∧ (∀ d, s.watch (byteAt f.payload 0) ≠ .fixed d) ∧
      (byteAt f.payload 9 = 0 ∨ (byteAt f.payload 9 ≤ 4 ∧ byteAt f.payload 1 < 30 ∧ byteAt f.payload 2 < 2 ∧
        byteAt f.payload 7 / 8 % 16 = 0 ∧ 1 ≤ byteAt f.payload 8 ∧ byteAt f.payload 8 ≤ 15 ∧ byteAt f.payload 10 ≤ 8 ∧
        (byteAt f.payload 11 = 0 ∨ (16 ≤ byteAt f.payload 11 ∧ byteAt f.payload 11 ≤ 63))))) ∧
    (answerTo f s).1.busy = false ∧ (answerTo f s).1.veto = false ∧ (answerTo f s).2 = none) ∧
  (∀ (f : RawFrame) (s : State), s.Asked f 23 →
    (¬(s.joined = true ∧ (f.src = 30 ∨ f.src = 31) ∧ f.payload.length = 2 ∧
        queryInRange (byteAt f.payload 0) (byteAt f.payload 1) = true) → answerTo f s = (⟨false, false, false⟩, none)) ∧
    (s.joined = true → (f.src = 30 ∨ f.src = 31) → f.payload.length = 2 →
      queryInRange (byteAt f.payload 0) (byteAt f.payload 1) = true →
      answerTo f s = if s.txUsed + 5 ≤ 16 then (⟨true, false, false⟩, some .txPlace) else (⟨false, true, false⟩, none))) ∧
  (∀ code item : Nat, queryInRange code item = true ↔
    code = 1 ∨ (code = 2 ∧ 1 ≤ item ∧ item ≤ 31) ∨ ((code = 3 ∨ code = 4 ∨ code = 5) ∧ item ≤ 7) ∨
      (code = 6 ∧ item ≤ 15) ∨ code = 7 ∨ code = 8 ∨ (code = 9 ∧ item ≤ 1) ∨ (code = 10 ∧ 1 ≤ item ∧ item ≤ 8)) ∧
  (∀ (f : RawFrame) (s : State) (kind : BitVec 5), s.Asked f kind →
    kind ∉ [(5 : BitVec 5), 6, 7, 8, 19, 20, 22, 23, 24, 25] → answerTo f s = (⟨false, false, false⟩, none)) ∧
  (∀ (f : RawFrame) (s : State), s.bus.onWire = none → faultyFrame f = false → f.dst = 0 → f.kind = 17 →
    ((answerTo f s).1.busy = true ↔ s.joined = true ∧ (f.src = 30 ∨ f.src = 31) ∧ f.payload.length = 28 ∧
      recipeInRange (byteAt f.payload 0) (byteAt f.payload 2) (byteAt f.payload 23) (byteAt f.payload 24) = true ∧
      (∀ sl ∈ s.recipes.slots,
        ¬(sl.state ≠ .free ∧ sl.number = byteAt f.payload 0 ∧ sl.version = byteAt f.payload 1)) ∧
      ((s.recipes.slots.find? (Slot.isCurrent (byteAt f.payload 0)) = none ∧
          (2 ≤ (s.recipes.slots.filter (Slot.isRetiring (byteAt f.payload 0))).length ∨
            ∀ sl ∈ s.recipes.slots, sl.state ≠ .free)) ∨
        ∃ cur, s.recipes.slots.find? (Slot.isCurrent (byteAt f.payload 0)) = some cur ∧
          (0 < cur.refs ∨ (s.cfg.roles.entry = true ∧ cur.isDefault = true)) ∧
          (1 ≤ (s.recipes.slots.filter (Slot.isRetiring (byteAt f.payload 0))).length ∨
            ∀ sl ∈ s.recipes.slots, sl.state ≠ .free)))) ∧
  (∀ number flags pulse pitch : Nat, recipeInRange number flags pulse pitch = true ↔
    number ≠ 0 ∧ flags < 8 ∧ 1 ≤ pulse ∧ pulse ≤ 50 ∧ pitch ≠ 0) ∧
  (∀ (f : RawFrame) (s : State), s.bus.onWire = none → faultyFrame f = false → f.dst = 0 → f.kind = 1 →
    ((answerTo f s).1.busy = true ↔ s.joined = true ∧ f.payload.length = 14 ∧ 1 ≤ byteAt f.payload 6 ∧
      byteAt f.payload 6 ≤ 29 ∧ byteAt f.payload 6 = s.dir.own ∧ uidAt f.payload 0 ≠ s.uid.toNat)) ∧
  (∀ (f : RawFrame) (s : State), s.bus.onWire = none → faultyFrame f = false → f.dst = 0 → f.kind ≠ 17 → f.kind ≠ 1 →
    answerTo f s = (⟨false, false, false⟩, none)) ∧
  (∀ f : RawFrame, faultyFrame f = true ↔ f.readable = false ∨ 40 < f.length.toNat ∨ f.payload.length ≠ f.length.toNat ∨
      f.check ≠ some (BitVec.ofNat 16 (frameCheck (3 - f.cls.toNat) f.src.toNat f.kind.toNat f.dst.toNat f.length.toNat f.payload))) ∧
  (∀ (w : WireFrame) (f : RawFrame), faultyOwn w f = true ↔
      f.check ≠ some (BitVec.ofNat 16 (frameCheck w.cls w.src w.kind w.dst w.payload.length w.payload))) ∧
  (∀ (cls src kind dst length : Nat) (payload : List Byte), frameCheck cls src kind dst length payload =
      crcBytes payload (crcBits 23 ((((3 - cls) * 32 + src) * 32 + kind) * 2048 + dst * 64 + length) 65535)) ∧
  (∀ (l : List Byte) (i : Nat), uidAt l i = 65536 * wordAt l i + halfAt l (i + 4))

/-- R151: the answer of a station to a RESTART directed to it, and the outcome of a frame that nobody acknowledges. -/
def Obligations.TheAnswerToRestart : Prop :=
  (∀ (f : RawFrame) (s : State), s.bus.frameStart.isSome = true → s.bus.onWire = none → faultyFrame f = false → f.kind = 25 →
    f.payload = [] → f.dst ≠ 0 → f.dst.toNat = s.dir.own → ∃ t, exec (.ackSlot f) s = .next t ∧
      (t.bus.answer.ack = true ↔ s.control.station = .joined ∧ (f.src = 30 ∨ f.src = 31) ∧ s.control.mode = .idle ∧
        s.tracker.queue = [] ∧ s.control.condition ≠ .tripped) ∧
      t.bus.answer.busy = false ∧ t.bus.answer.veto = false ∧ t.bus.reservation = none) ∧
  (∀ (f : RawFrame) (s : State), f.kind = 25 → (answerTo f s).1.busy = false) ∧
  (∀ (f : TxFrame) (s : State), f.dst ≠ 0 →
    ownCommits f ⟨false, false, false⟩ = false ∧ ownOutcome f ⟨false, false, false⟩ s = declineFrame f s)

/-- The answer of a station to a SIGNAL directed to it, and the new service word of the four operations (R150). Where the word sets
line 19 from clear, each enabled duct that is not OFF goes to PROVING (R128); where it changes, both pumps' requests are worked out
afresh (R89). The units follow the word in the order of log entry 5 (DESIGN CHOICE, unsafe): the nozzles (spelled in
PulseEndAndFlowLagExpiry), the forced demands that must fall, with their grants and pulses (R61, R63; log entry 50, DESIGN CHOICE,
unsafe), the pumps and the feeder (in StallAndFeedRunExpiry), and the ducts: a proving test is spelled, and what the ducts then
drive is spelled in ProveTimeoutAndRunOnExpiry, with the release of the causes (R128, R129). A station that has not acknowledged the
SIGNAL takes the common part alone (R163). -/
def Obligations.SignalChangesTheServiceWord : Prop :=
  (∀ (f : RawFrame) (s : State), s.bus.frameStart.isSome = true → s.bus.onWire = none → faultyFrame f = false → f.kind = 24 →
    f.payload.length = 5 → f.dst ≠ 0 → f.dst.toNat = s.dir.own → ∃ t, exec (.ackSlot f) s = .next t ∧
      (t.bus.answer.ack = true ↔ s.control.station = .joined ∧ (f.src = 30 ∨ f.src = 31) ∧ s.control.mode = .service ∧
        1 ≤ byteAt f.payload 0 ∧ byteAt f.payload 0 ≤ 4) ∧
      t.bus.answer.busy = false ∧ t.bus.answer.veto = false) ∧
  (∀ (f : TxFrame) (s : State), f.dst ≠ 0 →
    ownCommits f ⟨false, false, false⟩ = false ∧ ownOutcome f ⟨false, false, false⟩ s = declineFrame f s) ∧
  (∀ (src dst : Station) (value : BitVec 32) (s : State) (start : BitVec 32), s.Hears start → s.Accepts dst →
    ∀ p ∈ [(Instr.signalWrite src dst value, value), (Instr.signalSet src dst value, s.control.service ||| value),
        (Instr.signalClear src dst value, s.control.service &&& ~~~value),
        (Instr.signalInvert src dst value, s.control.service ^^^ value)],
      ∃ t, exec p.1 s = .next t ∧
        t.still = { s with
          control := { s.control with service := p.2 }
          pot := { s.pot with mainRequest := t.pot.mainRequest, chipRequest := t.pot.chipRequest }
          extraction := t.extraction }.still ∧
        t.extraction = (if p.2.getLsbD 19 = true ∧ s.control.service.getLsbD 19 = false then { s.extraction with
          ducts := s.extraction.ducts.mapIdx (fun n d =>
            if s.ductEnabled n = true ∧ d.state ≠ .off then
              { d with state := .proving, prove := 0
                       timer := if s.cfg.proveTimeout = 0 then .stopped else .running s.cfg.proveTimeout }
            else d) }
          else s.extraction) ∧
        (p.2 ≠ s.control.service → t.pot.mainRequest = t.mainRequest ∧ t.pot.chipRequest = t.chipRequest) ∧
        (p.2 = s.control.service → t = s.afterCommit false src.toNat) ∧
        t = dropReservation (setService p.2 (commitFrame false src.toNat s))) ∧
  (∀ (src dst : Station) (value : BitVec 32) (s : State) (start : BitVec 32), s.Hears start →
    s.bus.answer.ack = false ∨ dst.toNat ≠ s.dir.own →
    ∀ c ∈ [Instr.signalWrite src dst value, .signalSet src dst value, .signalClear src dst value, .signalInvert src dst value],
      exec c s = .next (s.afterCommit false src.toNat)) ∧
  (∀ (w : BitVec 32) (s u : State), (w = s.control.service → setService w s = s) ∧
    (w ≠ s.control.service →
      u = potUpdate (workRequests (forcedFalls (sprayUpdate { s with control := { s.control with service := w } }))) →
      setService w s = settle (if w.getLsbD 19 = true ∧ s.control.service.getLsbD 19 = false then provingTest u else u))) ∧
  (∀ s u : State, (s.control.mode ≠ .service → forcedFalls s = s) ∧
    (s.control.mode = .service →
      u = { s with heater := { s.heater with channels := s.heater.channels.mapIdx (fun n c =>
        if s.inUse n = true ∧ (if s.line n = true ∧ s.stopped = false ∧ s.channelOpen n = false then 256 else 0) < c.demand then
          { c with
            demand := 0
            grant := 0
            pulse := cutPulse (min 255 (s.heater.slot - (s.channelConfig n).phase)) c.pulse 0
            runOn := cutPulse (256 + s.heater.slot - (s.channelConfig n).phase) c.runOn 0 }
        else c) } } →
      forcedFalls s = { u with heater := { u.heater with cost := u.demandCost, shortfall := u.demandCost - s.shares.held } })) ∧
  (∀ s : State, provingTest s = driveDucts { s with extraction := { s.extraction with
      ducts := s.extraction.ducts.mapIdx (fun n d => if s.ductEnabled n = true ∧ d.state ≠ .off then
        { d with state := .proving, prove := 0
                 timer := if s.cfg.proveTimeout = 0 then .stopped else .running s.cfg.proveTimeout }
        else d) } })

/-- FRAME_OUTCOME and BUS_STUCK (R162, R169, R170): another's frame ends with its reservation; the station's own takes its outcome
from the three slots; a stuck bus abandons the frame, its attempt counts, and the bus-stuck count rises; an attempt counts, and the
sixteenth fails the frame, raises the failed-frame count and BUS_DELIVERY with the kind code, and has the effects of FAILED by kind
(R10, R23, R116, R176, R180); a DECLINED frame has those of DECLINED by kind (R10, R23, R78, R80). That FRAME_OUTCOME carries the
three slots, and slots that commit the frame end nothing here, is log entry 20 (the model's choice), that another's frame ends at
slots with none asserted also where it was a broadcast is log entry 53 (DESIGN CHOICE, safe), and that the claim listen timer stops
in CLAIM_FAIL is log entry 54 (DESIGN CHOICE, unsafe); events without a frame in progress are no events (log entry 22), a stretch
ends at BUS_IDLE alone (log entry 45), and a busy backoff of 0 has run out at once (log entry 16, DEDUCED). The FAILED and the
DECLINED effect of a HAND act on the record that then holds the board id, also one taken in anew, which is log entry 56 (DESIGN
CHOICE, unsafe). -/
def Obligations.FrameOutcomeAndBusStuck : Prop :=
  (∀ (x : Slots) (s : State), s.bus.frameStart.isSome = true → s.onBusFrame = none →
    x.veto = true ∨ x.busy = true ∨ x.ack = false → exec (.frameOutcome x) s = .next (endFrame s)) ∧
  (∀ (x : Slots) (s : State) (f : TxFrame), s.bus.frameStart.isSome = true → s.onBusFrame = some f → ownCommits f x = false →
    exec (.frameOutcome x) s = .next (settle (ownOutcome f x (endFrame s)))) ∧
  (∀ (x : Slots) (s : State), s.bus.frameStart = none → exec (.frameOutcome x) s = .next s) ∧
  (∀ s : State, s.receives = true → s.bus.stuck = false → s.onBusFrame = none → exec .busStuck s = .next { s with bus :=
    { s.bus with stuck := true, footing := false
                 stuckCount := if s.bus.stuckCount < 65535 then s.bus.stuckCount + 1 else 65535
                 onWire := none, frameStart := none, answer := ⟨false, false, false⟩, reservation := none } }) ∧
  (∀ (s : State) (f : TxFrame), s.receives = true → s.bus.stuck = false → s.onBusFrame = some f → ∃ t, exec .busStuck s = .next t ∧
    t = settle (countAttempt f .waiting { s with bus :=
      { s.bus with stuck := true, footing := false
                   stuckCount := if s.bus.stuckCount < 65535 then s.bus.stuckCount + 1 else 65535
                   onWire := none, frameStart := none, answer := ⟨false, false, false⟩, reservation := none } }) ∧
    t.bus.stuck = true ∧ t.bus.footing = false ∧
    t.bus.stuckCount = (if s.bus.stuckCount < 65535 then s.bus.stuckCount + 1 else 65535) ∧
    t.bus.onWire = none ∧ t.bus.frameStart = none ∧ t.bus.answer = ⟨false, false, false⟩ ∧ t.bus.reservation = none) ∧
  (∀ s : State, s.receives = false ∨ s.bus.stuck = true → exec .busStuck s = .next s) ∧
  (∀ (s : State) (f : TxFrame) (x : Slots),
    (x.veto = true → ownOutcome f x s = countAttempt f .waiting s) ∧
    (x.veto = false → x.busy = true → f.body ≠ .claim →
      ownOutcome f x s = countAttempt f (if s.cfg.busyBackoff = 0 then .waiting else .backoff s.cfg.busyBackoff) s) ∧
    (x.veto = false → x.busy = true → f.body = .claim → s.control.station = .claiming → ownOutcome f x s =
      { s with
        control := { s.control with station := .claimFail }
        dir := { s.dir with claimListen := .stopped }
        bus := { s.bus with queue := [], onWire := none } }) ∧
    (x.veto = false → x.busy = false → ownOutcome f x s = declineFrame f s)) ∧
  (∀ (s : State) (f : TxFrame) (p : TxPhase), f.attempts + 1 < 16 → countAttempt f p s = s.withTx
    (s.bus.queue.map (fun g => if g.phase = .onBus then { g with attempts := g.attempts + 1, phase := p } else g))) ∧
  (∀ (s u : State) (f : TxFrame) (p : TxPhase), 16 ≤ f.attempts + 1 →
    u = raiseHeld 26 f.body.kind { s with bus :=
      { s.bus with
        queue := s.bus.queue.filter (fun g => g.phase != .onBus)
        failed := if s.bus.failed < 65535 then s.bus.failed + 1 else 65535 } } →
    countAttempt f p s = match f.body with
      | .hand id => handoverCheck id u
      | .done _ _ _ => { u with tracker := { u.tracker with
          unreported := if u.tracker.unreported < 65535 then u.tracker.unreported + 1 else 65535 } }
      | .alarm i _ _ _ _ _ => updateRecord i (fun r => { r with announced := r.announced && r.delivered }) u
      | .claim => { u with dir := { u.dir with claimListen := .running u.cfg.presencePeriod } }
      | .join _ => { u with dir := { u.dir with joinOwed := true } }
      | _ => u) ∧
  (∀ (s : State) (f : TxFrame), 10 < s.alarms.causes.length → (s.cause 26).raised = false →
    ((raiseHeld 26 f.body.kind s).cause 26) = ⟨true, f.body.kind⟩ ∧
    (s.joined = true → s.alarmState 26 = .quiet → 26 < s.alarms.records.length →
      (raiseHeld 26 f.body.kind s).alarmState 26 = .active ∧
      ((raiseHeld 26 f.body.kind s).record 26).value = f.body.kind)) ∧
  (∀ (s u : State) (f : TxFrame), u = s.withTx (s.bus.queue.filter (fun g => g.phase != .onBus)) →
    (∀ id, f.body = .hand id → declineFrame f s = updateBoard id (fun b => { b with heldBack := true }) u) ∧
    (∀ line pos count, f.body = .done line pos count → declineFrame f s = { u with tracker := { u.tracker with
      unreported := if u.tracker.unreported < 65535 then u.tracker.unreported + 1 else 65535 } }) ∧
    (f.body = .returnShares →
      (declineFrame f s).shares = { s.shares with
        held := s.shares.held - loanOf f.dst s.shares.borrowed
        borrowed := s.shares.borrowed.filter (fun r => r.peer != f.dst) } ∧
      { declineFrame f s with shares := s.shares, heater := s.heater } = u) ∧
    (f.body = .recallShares →
      (declineFrame f s).shares = { s.shares with
        held := s.shares.held + loanOf f.dst s.shares.lent
        lent := s.shares.lent.filter (fun r => r.peer != f.dst) } ∧
      { declineFrame f s with shares := s.shares, heater := s.heater } = u) ∧
    (f.body.kind ∉ [6, 7, 8, 10] → declineFrame f s = u)) ∧
  (∀ (f : TxFrame) (x : Slots), ownCommits f x = true ↔ x.veto = false ∧ x.busy = false ∧ (x.ack = true ∨ f.dst = 0)) ∧
  (∀ s : State, s.onBusFrame = s.bus.queue.find? (fun f => f.phase == .onBus) ∧ endFrame s = { s with bus := { s.bus with
      onWire := none, frameStart := none, answer := ⟨false, false, false⟩, reservation := none } })

/-- What every commit does before the effects of its kind (R163, R169, R171, R174): the frame has ended, the contact timer starts
again, an isolated station may leave isolation and queue JOIN, an own commit releases BUS_DELIVERY, a learned source is touched and
one that is created loses its ORPHAN flag (R137), and nothing outside the bus, the directory, the groups and what follows an alarm
changes. That the commit of the own JOIN queues a second JOIN at an exit from isolation is log entry 13 (DEDUCED, unsafe); that
every frame with source 0 restarts the peer-contact timer, a JOIN too, is log entry 48 (DESIGN CHOICE, unsafe). That a commit is
taken whatever VETO or BUSY this station has asserted for the frame, here and in every statement on a commit, is log entry 51
(DESIGN CHOICE, safe). The common part is written out step by step, at the sender and at a hearer, with the sources that a station
learns from (R174), and the bytes that the payload of each longer kind has (13.3). A frame that commits is the own one exactly where
the frame on the wire agrees with it in kind, source, destination and payload (R160; log entry 4, DEDUCED, safe). -/
def Obligations.TheCommonPartOfACommit : Prop :=
  (∀ (own : Bool) (src : Nat) (s : State), (s.afterCommit own src).still = s.still ∧
    (s.afterCommit own src).bus.onWire = none ∧ (s.afterCommit own src).bus.frameStart = none ∧
    (s.afterCommit own src).bus.reservation = none ∧ (s.afterCommit own src).bus.answer = ⟨false, false, false⟩ ∧
    (s.afterCommit own src).shares = s.shares) ∧
  (∀ (src : Nat) (s : State), s.joined = true →
    (s.afterCommit true src).bus.ownContact = .running (3 * s.cfg.presencePeriod)) ∧
  (∀ (src : Nat) (s : State), s.joined = true → src = 0 ∨ src ≠ s.dir.own →
    (s.afterCommit false src).bus.peerContact = .running (3 * s.cfg.presencePeriod)) ∧
  (∀ (src : Nat) (s : State) (e : DirEntry), s.learnsFrom src = true → s.entry src = some e →
    (s.afterCommit false src).entry src = some { e with touched := true }) ∧
  (∀ (src : Nat) (s : State), s.learnsFrom src = true → s.entry src = none → src < s.dir.entries.length →
    (s.afterCommit false src).entry src = some ⟨none, if src = 30 ∨ src = 31 then 16 else 0, none, none, false, true, none⟩ ∧
    src ∉ (s.afterCommit false src).groups.orphans) ∧
  (∀ (src : Nat) (s : State),
    ((s.cause 26).raised = true → ((s.afterCommit true src).cause 26).raised = false ∧
      (s.alarmState 26 = .active ∨ s.alarmState 26 = .activeAcked → (s.afterCommit true src).alarmState 26 = .quiet)) ∧
    ((s.cause 26).raised = false → ((s.afterCommit true src).cause 26).raised = false ∧
      (s.afterCommit true src).record 26 = s.record 26)) ∧
  (∀ (own : Bool) (src : Nat) (s : State), s.isolated = true → (s.afterCommit own src).isolated = false →
    ((s.afterCommit own src).cause 27).raised = false ∧
    ((s.afterCommit own src).hasFrame (TxFrame.isKind 2) = true ∨ (s.afterCommit own src).dir.joinOwed = true)) ∧
  (∀ (src : Nat) (s : State), s.learnsFrom src = true ↔
      (s.control.station = .claiming ∨ s.control.station = .claimFail ∨ s.control.station = .joined) ∧
      1 ≤ src ∧ src ≤ 31 ∧ src ≠ s.dir.own) ∧
  (∀ s : State, s.isolated = true ↔ s.joined = true ∧ (s.bus.ownContact = .expired ∨ s.bus.peerContact = .expired)) ∧
  (∀ (own : Bool) (s u v : State),
      u = (if own = true then { s with bus := { s.bus with ownContact := .running (3 * s.cfg.presencePeriod) } }
        else { s with bus := { s.bus with peerContact := .running (3 * s.cfg.presencePeriod) } }) →
      v = releaseHeld 27 u →
      (s.joined = false → restartContact own s = s) ∧
      (s.joined = true → s.isolated = false ∨ u.isolated = true → restartContact own s = u) ∧
      (s.joined = true → s.isolated = true → u.isolated = false →
        restartContact own s = settle (if v.hasFrame (TxFrame.isKind 2) = true then v else queueJoin v))) ∧
  (∀ (src : Nat) (s u : State),
      u = restartContact true { s with bus := { s.bus with
        queue := s.bus.queue.filter (fun f => f.phase != .onBus)
        onWire := none, frameStart := none, answer := ⟨false, false, false⟩ } } →
      commitFrame true src s = if (u.cause 26).raised = true then settle (releaseHeld 26 u) else u) ∧
  (∀ (src : Nat) (s u v : State),
      u = { s with bus := { s.bus with
        queue := s.bus.queue.map (fun f => if f.phase = .onBus then { f with phase := .waiting } else f)
        onWire := none, frameStart := none, answer := ⟨false, false, false⟩ } } →
      v = (if s.joined = true ∧ src = s.dir.own ∧ src ≠ 0 then u else restartContact false u) →
      (v.learnsFrom src = false → commitFrame false src s = v) ∧
      (v.learnsFrom src = true → ∀ e, v.entry src = some e → commitFrame false src s =
        { v with dir := { v.dir with entries := v.dir.entries.set src (some { e with touched := true }) } }) ∧
      (v.learnsFrom src = true → v.entry src = none → commitFrame false src s = { v with
        dir := { v.dir with
          entries := v.dir.entries.set src (some ⟨none, if src = 30 ∨ src = 31 then 16 else 0, none, none, false, true, none⟩) }
        groups := { v.groups with orphans := v.groups.orphans.filter (fun r => r != src) } })) ∧
  (∀ s : State, dropReservation s = { s with bus := { s.bus with reservation := none } }) ∧
  (∀ (f : HandFields) (a : AlarmFields) (c : ClaimFields) (j : JoinFields) (x : StatusFields),
      handBytes f = byte2 f.board.toNat ++ [f.recipe, f.version] ++ byte2 f.length.toNat ++ byte3 f.pos.toNat ++ [f.flags]
        ++ byte1 f.marks.length ++ f.marks.flatMap (fun p => [p.1, p.2]) ∧
      alarmBytes a = [a.index, a.action, a.group] ++ byte4 a.scope.toNat ++ byte2 a.value.toNat ++ [a.mark] ∧
      claimBytes c = byte6 c.uid.toNat ++ [c.number, c.roles] ++ (byte3 c.winStart.toNat ++ byte3 c.winEnd.toNat) ∧
      joinBytes j = byte6 j.uid.toNat ++ [j.incarnation, j.roles] ++ (byte3 j.winStart.toNat ++ byte3 j.winEnd.toNat) ∧
      statusBytes x = [x.roles, x.mode, x.condition, x.level] ++ (byte3 x.winStart.toNat ++ byte3 x.winEnd.toNat)
        ++ byte2 x.held.toNat ++ byte2 x.base.toNat ++ [x.boards, x.incarnation]) ∧
  (∀ (s : State) (kind src dst : Nat) (payload : List Byte), s.ownsFrame kind src dst payload = true ↔
      ∃ w, s.bus.onWire = some w ∧ w.kind = kind ∧ w.src = src ∧ w.dst = dst ∧ w.payload = payload)

/-- DONE, REPORT and a frame of no kind have no effect beyond the common part, whoever sent them (R23, R154, R159). When the frame
is the own one is spelled in TheCommonPartOfACommit. -/
def Obligations.DoneReportAndNoKindHaveTheCommonPartAlone : Prop :=
  ∀ (src dst : Station) (s : State), s.bus.frameStart.isSome = true →
    (∀ f : HandFields, exec (.done src dst f) s =
      .next (s.afterCommit (s.ownsFrame 10 src.toNat dst.toNat (handBytes f)) src.toNat)) ∧
    (∀ (code item : Byte) (content : List Byte), exec (.report src dst code item content) s =
      .next (s.afterCommit (s.ownsFrame 13 src.toNat dst.toNat (code :: item :: content)) src.toNat)) ∧
    (∀ (kind : BitVec 5) (payload : List Byte), exec (.noKindFrame src dst kind payload) s =
      .next (s.afterCommit (s.ownsFrame kind.toNat src.toNat dst.toNat payload) src.toNat))

/-! ## Alarms and groups (07, 08) -/

/-- What a raise, a release and an ACKNOWLEDGE make of an alarm record (R110, R112, R118). Raise, release and occurrence are written
out with the cause that the station keeps (R110, R111). An entry to ACTIVE takes, in the order of R112, its value, the first-out
capture or count (R121; a count finds a held record but in states that no run reaches, log entry 31, DEDUCED, safe), the own
activity set with the mark codes that come into force (R132, R139), ALARM (R114; one that waits takes the announcement, log entry
26, DEDUCED, unsafe; a new one is queued or owed as AnothersClaimIsLearned spells `reannounce`) and the marks of R113, and then the
condition follows (spelled in TheLineWiresAreSensed). R112 orders the value, the first-out capture, the own set and ALARM alone: the
places of the marks and of the condition among them are log entry 5 (DESIGN CHOICE, unsafe). A return to QUIET takes the own set
away and handles CLEAR by R115 and R116. The action, group and mark code of each index are those of R105 and R111. -/
def Obligations.AlarmRecordsMove : Prop :=
  (∀ (s : State) (i : Nat) (v : Int), i < s.alarms.records.length →
    (enterActive i v s).alarmState i = .active ∧ ((enterActive i v s).record i).value = v ∧
    ((enterActive i v s).record i).matchCount = 0 ∧ (enterActive i v s).steady = s.steady) ∧
  (∀ (s : State) (i : Nat), s.alarmState i = .active →
    (releaseRecord i s).alarmState i = (if s.alarmLatches i then .latched else .quiet) ∧
    (acknowledgeOne i s).alarmState i = .activeAcked) ∧
  (∀ (s : State) (i : Nat), s.alarmState i = .activeAcked →
    (releaseRecord i s).alarmState i = .quiet ∧ acknowledgeOne i s = s) ∧
  (∀ (s : State) (i : Nat), s.alarmState i = .latched → releaseRecord i s = s ∧
    (acknowledgeOne i s).alarmState i = (if decide (16 ≤ i) && (s.cause i).raised then .active else .quiet)) ∧
  (∀ (s : State) (i : Nat), s.alarmState i = .quiet ∨ s.alarmState i = .pending →
    releaseRecord i s = s ∧ acknowledgeOne i s = s) ∧
  (∀ (s : State) (i : Nat), (releaseRecord i s).steady = s.steady ∧ (acknowledgeOne i s).steady = s.steady) ∧
  (∀ v : Int, recordValue v = if v.emod 65536 < 32768 then v.emod 65536 else v.emod 65536 - 65536) ∧
  (∀ (i : Nat) (v : Int) (s u : State),
    u = { s with alarms := { s.alarms with causes := s.alarms.causes.mapIdx (fun k c =>
      if k + 16 = i then (if c.raised then c else ⟨true, recordValue v⟩) else c) } } →
    raiseHeld i v s = if s.joined = true ∧ (u.cause i).raised = true ∧ s.alarmState i = .quiet then
      enterActive i (u.cause i).value u else u) ∧
  (∀ (i : Nat) (s : State),
    ((s.cause i).raised = false → releaseHeld i s = s) ∧
    ((s.cause i).raised = true → releaseHeld i s = releaseRecord i { s with alarms := { s.alarms with
      causes := s.alarms.causes.mapIdx (fun k c => if k + 16 = i then { c with raised := false } else c) } })) ∧
  (∀ (i : Nat) (v : Int) (s : State), occurrence i v s =
    if s.joined = true ∧ s.alarmState i = .quiet then releaseRecord i (enterActive i (recordValue v) s) else s) ∧
  (∀ (i : Nat) (s : State),
    (s.alarmState i = .active → releaseRecord i s =
      if s.alarmLatches i = true then updateRecord i (fun r => { r with state := .latched }) s else returnQuiet i s) ∧
    (s.alarmState i = .activeAcked → releaseRecord i s = returnQuiet i s)) ∧
  (∀ (s : State) (i : Nat), s.alarmLatches i = true ↔ (i < 16 ∧ (s.alarmAction i = .hold ∨ s.alarmAction i = .trip)) ∨
    i ∈ [17, 18, 19, 20, 22, 23, 24] ∨ (i = 25 ∧ s.cfg.lostLatching = true)) ∧
  (∀ (i : Nat) (v : Int) (s s1 s2 s3 s4 s5 : State),
    s1 = updateRecord i (fun r => { r with state := .active, matchCount := 0, value := v }) s →
    s2 = (if s.alarmAction i = .trip then firstOutEntry i v s1 else s1) →
    s3 = (if s.alarmGroup i ≠ 0 ∧ (s.group (s.alarmGroup i)).members.getLsbD s.dir.own = true then
      addActivity ⟨s.alarmGroup i, s.dir.own, i⟩ s2 else s2) →
    s4 = (if s.alarmAction i ≠ .note ∨ s.alarmGroup i ≠ 0 then announce i s3 else s3) →
    s5 = (if s.alarmMark i = 0 then s4 else markBoards (fun _ => true) (s.alarmMark i) s4) →
    enterActive i v s = recondition s5) ∧
  (∀ (i : Nat) (v : Int) (s : State),
    ((∃ j, j < 29 ∧ j ≠ i ∧ s.stands j = true ∧ s.alarmAction j = .trip) → firstOutEntry i v s =
      { s with alarms := { s.alarms with
        firstOut := s.alarms.firstOut.map (fun f => { f with later := min 255 (f.later + 1) }) } }) ∧
    ((∀ j, j < 29 → j ≠ i → s.stands j = true → s.alarmAction j ≠ .trip) → firstOutEntry i v s =
      { s with alarms := { s.alarms with firstOut := some ⟨i, v, (s.boardIds.head?).getD 0, 0⟩ } })) ∧
  (∀ (a : Activity) (s : State), addActivity a s =
    if a ∈ s.groups.activity then s else withActivity (s.groups.activity ++ [a]) s) ∧
  (∀ (p : Activity → Bool) (s : State), removeActivity p s = withActivity (s.groups.activity.filter (fun a => !p a)) s) ∧
  (∀ (l : List Activity) (s u : State), u = { s with groups := { s.groups with activity := l } } → withActivity l s =
    ((u.markCodes.filter (fun c => !s.markCodes.contains c)).eraseDups).foldl (fun s c => markBoards (fun _ => true) c s) u) ∧
  (∀ (s : State) (c : Nat), c ∈ s.markCodes ↔ ∃ g, 1 ≤ g ∧ g ≤ 8 ∧ (∃ a ∈ s.groups.activity, a.group = g) ∧
    bitOf (s.group g).actions.toNat 4 = true ∧ (s.group g).mark = c ∧ c ≠ 0) ∧
  (∀ (i : Nat) (s : State),
    (s.hasWaiting (TxFrame.isAlarmOf i) = true → announce i s = updateRecord i (fun r => { r with announced := true }) s) ∧
    (s.hasWaiting (TxFrame.isAlarmOf i) = false → announce i s = reannounce i s)) ∧
  (∀ (i : Nat) (s u : State),
    u = removeActivity (fun a => a.raiser == s.dir.own && a.index == i)
      (updateRecord i (fun r => { r with state := .quiet, matchCount := 0 }) s) →
    returnQuiet i s = recondition (clearAnnounced i u)) ∧
  (∀ (s : State) (i : Nat), s.alarmOnBus i = true ↔ ∃ f ∈ s.bus.queue, f.phase = .onBus ∧ f.isAlarmOf i = true) ∧
  (∀ (i : Nat) (s : State), (s.record i).announced = false →
    clearAnnounced i s = updateRecord i (fun r => { r with delivered := false }) s) ∧
  (∀ (i : Nat) (s : State) (q : List TxFrame), (s.record i).announced = true →
    q = s.bus.queue.filter (fun f => f.phase == .onBus || !f.isAlarmOf i) →
    (s.alarmOnBus i = true ∨ (s.record i).delivered = true → clearAnnounced i s =
      updateRecord i (fun r => { r with announced := false, delivered := false }) (queueClear i (s.withTx q))) ∧
    (s.alarmOnBus i = false → (s.record i).delivered = false → clearAnnounced i s =
      updateRecord i (fun r => { r with announced := false, delivered := false }) (s.withTx q))) ∧
  (∀ (i : Nat) (s : State), queueClear i s = if s.admits (s.record i).sentClass = true then
      s.withTx (s.bus.queue ++ [newFrame (s.record i).sentClass 0 (.clear i (s.record i).sentGroup)])
    else updateRecord i (fun r => { r with clearOwed := true }) s) ∧
  (∀ (s : State) (i : Nat), i < 16 →
      (s.watch i = .empty → s.alarmAction i = .note ∧ s.alarmGroup i = 0 ∧ s.alarmMark i = 0) ∧
      (∀ d : WatchDef, s.watch i = .fixed d ∨ s.watch i = .panel d →
        s.alarmAction i = d.action ∧ s.alarmGroup i = d.group ∧ s.alarmMark i = d.mark)) ∧
  (∀ s : State, (∀ i, 16 ≤ i → s.alarmGroup i = s.cfg.builtinGroups.getD (i - 16) 0 ∧ s.alarmMark i = 0) ∧
      (∀ i ∈ [16, 17, 18, 19, 20], s.alarmAction i = .hold) ∧ (∀ i ∈ [21, 22, 27], s.alarmAction i = .warn) ∧
      s.alarmAction 23 = .trip ∧ s.alarmAction 24 = s.cfg.failedLevel ∧ s.alarmAction 25 = s.cfg.lostLevel ∧
      s.alarmAction 26 = .note ∧ s.alarmAction 28 = .note) ∧
  (∀ (s : State) (i : Nat), (s.stands i = true ↔
      s.alarmState i = .active ∨ s.alarmState i = .activeAcked ∨ s.alarmState i = .latched) ∧
      (s.hasWaiting (TxFrame.isAlarmOf i) = true ↔ ∃ f ∈ s.bus.queue, f.phase ≠ .onBus ∧ f.isAlarmOf i = true))

/-- ALARM and CLEAR commit (R114, R115, R133, R134, R148): at the sender, whose standing alarm is then delivered, so that a commit
that ends its own cause (ISOLATED 27, BUS_DELIVERY 26) is followed by CLEAR; at a station of the scope; at one that the frame does
not reach, and with a source, an index or a group out of range; and the line first-out record captures. A CLEAR of a pair that is
not held has the common part alone. That both have no group effect with the own number, not sent, is log entry 28 (DEDUCED). An
ORPHAN flag goes when every set of its raiser is empty (R134, R137). -/
def Obligations.AlarmAndClearCommit : Prop :=
  (∀ (src : Station) (f : AlarmFields) (s : State), s.Sends 11 src.toNat 0 (alarmBytes f) → ∃ t, exec (.alarm src f) s = .next t ∧
    t.still = s.still ∧
    t = dropReservation (captureLine src.toNat f (commitFrame true src.toNat (alarmDelivered f.index.toNat s)))) ∧
  (∀ (i : Nat) (s : State),
    (s.stands i = true → alarmDelivered i s = updateRecord i (fun r => { r with delivered := true }) s) ∧
    (s.stands i = false → alarmDelivered i s = s)) ∧
  (∀ (src : Station) (f : AlarmFields) (s : State) (i : Nat), s.Sends 11 src.toNat 0 (alarmBytes f) → f.index.toNat = i →
    i = 26 ∨ (i = 27 ∧ s.isolated = true ∧ (s.afterCommit true src.toNat).isolated = false) →
    s.alarmState i = .active ∨ s.alarmState i = .activeAcked → (s.cause i).raised = true → (s.record i).announced = true →
    i < s.alarms.records.length → ∃ t, exec (.alarm src f) s = .next t ∧ t.alarmState i = .quiet ∧
      (newFrame (s.record i).sentClass 0 (.clear i (s.record i).sentGroup) ∈ t.bus.queue ∨ (t.record i).clearOwed = true)) ∧
  (∀ (src : Station) (f : AlarmFields) (s : State) (start : BitVec 32), s.Hears start → s.joined = true →
    1 ≤ src.toNat → src.toNat ≠ s.dir.own → 1 ≤ f.group.toNat → f.group.toNat ≤ 8 → f.index.toNat ≤ 28 →
    f.scope.getLsbD s.dir.own = true → ∃ t, exec (.alarm src f) s = .next t ∧ t.still = s.still ∧
      t = dropReservation (settle (recondition (addActivity ⟨f.group.toNat, src.toNat, f.index.toNat⟩
        (captureLine src.toNat f (commitFrame false src.toNat s)))))) ∧
  (∀ (src : Station) (f : AlarmFields) (s : State) (start : BitVec 32), s.Hears start →
    s.joined = false ∨ f.group = 0 ∨ f.scope.getLsbD s.dir.own = false → exec (.alarm src f) s =
      .next (dropReservation (captureLine src.toNat f (commitFrame false src.toNat s)))) ∧
  (∀ (src : Nat) (f : AlarmFields) (s : State), s.joined = true → s.control.lineState = .opened → f.action = 4 → 1 ≤ src →
    f.index.toNat ≤ 28 → captureLine src f s =
      { s with control := { s.control with lineState := .captured, lineValue := some (src, f.index.toNat) } }) ∧
  (∀ (src : Nat) (f : AlarmFields) (s : State), s.joined = false ∨ s.control.lineState ≠ .opened ∨ f.action ≠ 4 →
    captureLine src f s = s) ∧
  (∀ (src : Station) (index group : Byte) (s : State) (start : BitVec 32), s.Hears start → s.joined = true →
    src.toNat ≠ s.dir.own → (⟨group.toNat, src.toNat, index.toNat⟩ : Activity) ∈ (s.afterCommit false src.toNat).groups.activity →
    ∃ t, exec (.clear src index group) s = .next t ∧ t.still = s.still ∧
      t = dropReservation (settle (recondition (clearEmptyOrphans (· == src.toNat)
        (removeActivity (· == ⟨group.toNat, src.toNat, index.toNat⟩) (commitFrame false src.toNat s)))))) ∧
  (∀ (src : Station) (index group : Byte) (s : State), s.Sends 12 src.toNat 0 [index, group] →
    exec (.clear src index group) s = .next (s.afterCommit true src.toNat)) ∧
  (∀ (p : Nat → Bool) (s : State), clearEmptyOrphans p s = { s with groups := { s.groups with
      orphans := s.groups.orphans.filter (fun r => decide (p r = false ∨ ∃ a ∈ s.groups.activity, a.raiser = r)) } }) ∧
  (∀ (src : Station) (f : AlarmFields) (s : State) (start : BitVec 32), s.Hears start →
      src = 0 ∨ src.toNat = s.dir.own ∨ 28 < f.index.toNat ∨ 8 < f.group.toNat → exec (.alarm src f) s =
        .next (dropReservation (captureLine src.toNat f (commitFrame false src.toNat s)))) ∧
  (∀ (src : Nat) (f : AlarmFields) (s : State), src = 0 ∨ 28 < f.index.toNat → captureLine src f s = s) ∧
  (∀ (src : Station) (index group : Byte) (s : State) (start : BitVec 32), s.Hears start →
      s.joined = false ∨ src.toNat = s.dir.own ∨
        (⟨group.toNat, src.toNat, index.toNat⟩ : Activity) ∉ (s.afterCommit false src.toNat).groups.activity →
      exec (.clear src index group) s = .next (s.afterCommit false src.toNat))

/-- ACKNOWLEDGE and RELEASE of a panel (R118, R122, R135): the named alarms in rising index (log entry 5, DESIGN CHOICE, unsafe: the
manual gives no order) and then the local first-out record, also where the index names no alarm (log entry 43, the model's choice);
the named pairs but for those of the own number. From another source they have no effect, and a directed ACKNOWLEDGE that the
station has not acknowledged has none (R117, R163). A RELEASE with a group above 8 or a raiser above 31 has none, and one that
empties every set of a raiser clears its ORPHAN flag (R135, R137). -/
def Obligations.AcknowledgeAndReleaseCommit : Prop :=
  (∀ (src dst : Station) (index : Byte) (s : State) (start : BitVec 32), s.Hears start → s.joined = true →
    src.toNat = 30 ∨ src.toNat = 31 → dst = 0 ∨ s.Accepts dst → ∃ t, exec (.acknowledge src dst index) s = .next t ∧
      t.still = s.still ∧ t = dropReservation (settle (acknowledgeAlarms index.toNat (commitFrame false src.toNat s)))) ∧
  (∀ (index : Nat) (s : State), acknowledgeAlarms index s =
    let s1 := (if index = 255 then List.range 29 else if index ≤ 28 then [index] else []).foldl
      (fun s i => acknowledgeOne i s) s
    if s1.derivedCondition = .tripped then s1 else { s1 with alarms := { s1.alarms with firstOut := none } }) ∧
  (∀ (src : Station) (group raiser : Byte) (s : State) (start : BitVec 32), s.Hears start → s.joined = true →
    src.toNat = 30 ∨ src.toNat = 31 → group.toNat ≤ 8 → raiser.toNat ≤ 31 → ∃ t, exec (.release src group raiser) s = .next t ∧
      t.still = s.still ∧ t = dropReservation (settle (recondition (clearEmptyOrphans (fun _ => true)
        (removeActivity (released group.toNat raiser.toNat s.dir.own) (commitFrame false src.toNat s)))))) ∧
  (∀ (group raiser own : Nat) (a : Activity), released group raiser own a = true ↔
    (group = 0 ∨ a.group = group) ∧ (raiser = 0 ∨ a.raiser = raiser) ∧ a.raiser ≠ own) ∧
  (∀ (src dst : Station) (index group raiser : Byte) (s : State) (start : BitVec 32), s.Hears start →
    s.joined = false ∨ (src.toNat ≠ 30 ∧ src.toNat ≠ 31) →
    exec (.acknowledge src dst index) s = .next (s.afterCommit false src.toNat) ∧
    exec (.release src group raiser) s = .next (s.afterCommit false src.toNat)) ∧
  (∀ (src dst : Station) (index : Byte) (s : State) (start : BitVec 32), s.Hears start → dst ≠ 0 →
    s.bus.answer.ack = false ∨ dst.toNat ≠ s.dir.own →
    exec (.acknowledge src dst index) s = .next (s.afterCommit false src.toNat)) ∧
  (∀ (p : Nat → Bool) (s : State), clearEmptyOrphans p s = { s with groups := { s.groups with
      orphans := s.groups.orphans.filter (fun r => decide (p r = false ∨ ∃ a ∈ s.groups.activity, a.raiser = r)) } }) ∧
  (∀ (src : Station) (group raiser : Byte) (s : State) (start : BitVec 32), s.Hears start →
      8 < group.toNat ∨ 31 < raiser.toNat → exec (.release src group raiser) s = .next (s.afterCommit false src.toNat))

/-- WATCH commits at the station that acknowledged it (R120): the entry is installed or made EMPTY, no other entry changes, and the
holders of the chain that held the entry and of the one that holds it then are QUIET; one that was not QUIET has been withdrawn with
the effects of R112 and R115 and starts afresh, with nothing owed (that a CLEAR which could not be queued is among it is log entry
44, DESIGN CHOICE, unsafe). The alarms of the other chains stay. The fields that a WATCH gives an entry (13.3, R105), their ranges,
and the chains with their holders (R107) are spelled. -/
def Obligations.WatchInstallsOrEmptiesAnEntry : Prop :=
  (∀ (src dst : Station) (index : Byte) (f : WatchFields) (d : WatchDef) (s : State) (start : BitVec 32), s.Hears start →
    s.Accepts dst → watchDefOf f = some d → ∃ t, exec (.watchInstall src dst index f) s = .next t ∧
      t.still = { s with alarms := { s.alarms with entries := s.alarms.entries.set index.toNat (.panel d) } }.still ∧
      t = dropReservation (settle (recondition (installWatch index.toNat (.panel d) (commitFrame false src.toNat s)))) ∧
      (index.toNat < 16 → t.alarmState (holderOf s.alarms.entries index.toNat) = .quiet ∧
        t.alarmState (holderOf t.alarms.entries index.toNat) = .quiet) ∧
      ∀ k, k < 16 → k ≠ holderOf s.alarms.entries index.toNat → k ≠ holderOf t.alarms.entries index.toNat →
        t.record k = s.record k) ∧
  (∀ (src dst : Station) (index : Byte) (s : State) (start : BitVec 32), s.Hears start → s.Accepts dst →
    ∃ t, exec (.watchEmpty src dst index) s = .next t ∧
      t.still = { s with alarms := { s.alarms with entries := s.alarms.entries.set index.toNat .empty } }.still ∧
      t = dropReservation (settle (recondition (installWatch index.toNat .empty (commitFrame false src.toNat s)))) ∧
      (index.toNat < 16 → t.alarmState (holderOf s.alarms.entries index.toNat) = .quiet ∧
        t.alarmState (holderOf t.alarms.entries index.toNat) = .quiet) ∧
      ∀ k, k < 16 → k ≠ holderOf s.alarms.entries index.toNat → k ≠ holderOf t.alarms.entries index.toNat →
        t.record k = s.record k) ∧
  (∀ (i : Nat) (e : WatchEntry) (s u : State) (before after : Nat), before = holderOf s.alarms.entries i →
    after = holderOf (s.alarms.entries.set i e) i →
    u = (if before = after then withdrawAlarm before s else withdrawAlarm after (withdrawAlarm before s)) →
    installWatch i e s = { u with alarms := { u.alarms with entries := s.alarms.entries.set i e } }) ∧
  (∀ (h : Nat) (s : State), s.alarmState h = .quiet → withdrawAlarm h s = s) ∧
  (∀ (h : Nat) (s : State) (q : List TxFrame), s.alarmState h ≠ .quiet → h < s.alarms.records.length →
    q = s.bus.queue.filter (fun f => f.phase == .onBus || !f.isAlarmOf h) →
    (withdrawAlarm h s).alarmState h = .quiet ∧ ((withdrawAlarm h s).record h).matchCount = 0 ∧
    ((withdrawAlarm h s).record h).announced = false ∧ ((withdrawAlarm h s).record h).delivered = false ∧
    ((withdrawAlarm h s).record h).announceOwed = false ∧ ((withdrawAlarm h s).record h).clearOwed = false ∧
    (∀ a ∈ (withdrawAlarm h s).groups.activity, ¬(a.raiser = s.dir.own ∧ a.index = h)) ∧
    ((s.record h).announced = true → ∀ f ∈ (withdrawAlarm h s).bus.queue, f.isAlarmOf h = true → f.phase = .onBus) ∧
    ((s.record h).announced = true → (s.record h).delivered = true ∨ s.alarmOnBus h = true →
      (s.withTx q).admits (s.record h).sentClass = true →
      newFrame (s.record h).sentClass 0 (.clear h (s.record h).sentGroup) ∈ (withdrawAlarm h s).bus.queue)) ∧
  (∀ (src dst : Station) (index : Byte) (f : WatchFields) (s : State) (start : BitVec 32), s.Hears start →
    s.bus.answer.ack = false ∨ dst.toNat ≠ s.dir.own →
    exec (.watchInstall src dst index f) s = .next (s.afterCommit false src.toNat) ∧
    exec (.watchEmpty src dst index) s = .next (s.afterCommit false src.toNat)) ∧
  (∀ (entries : List WatchEntry) (i : Nat), chained entries i = true ↔
      i < 15 ∧ ∃ d : WatchDef, (entries.getD i .empty = .fixed d ∨ entries.getD i .empty = .panel d) ∧ d.chain = true) ∧
  (∀ (entries : List WatchEntry) (i : Nat), (chained entries i = false → holderOf entries i = i) ∧
      (chained entries i = true → holderOf entries i = holderOf entries (i + 1))) ∧
  (∀ f : WatchFields, (watchDefOf f).isSome = true ↔
      f.quantity.toNat < 30 ∧ f.compare.toNat < 2 ∧ f.chainMode.toNat / 8 % 16 = 0 ∧ 1 ≤ f.persistence.toNat ∧
      f.persistence.toNat ≤ 15 ∧ 1 ≤ f.action.toNat ∧ f.action.toNat ≤ 4 ∧ f.group.toNat ≤ 8 ∧
      (f.mark.toNat = 0 ∨ (16 ≤ f.mark.toNat ∧ f.mark.toNat ≤ 63))) ∧
  (∀ (f : WatchFields) (d : WatchDef), watchDefOf f = some d →
      d.quantity = f.quantity.toNat ∧ d.above = (f.compare.toNat == 0) ∧ d.threshold = signed16 f.threshold.toNat ∧
      d.margin = f.margin.toNat ∧ d.inIdle = bitOf f.chainMode.toNat 0 ∧ d.inRun = bitOf f.chainMode.toNat 1 ∧
      d.inService = bitOf f.chainMode.toNat 2 ∧ d.chain = bitOf f.chainMode.toNat 7 ∧ d.persistence = f.persistence.toNat ∧
      actionCode d.action = f.action.toNat ∧ d.group = f.group.toNat ∧ d.mark = f.mark.toNat)

/-! ## Modes, restart, queries (09) -/

/-- MODE from a panel (R142): the mode is taken, the service word is cleared on leaving SERVICE, and both pumps' requests are worked
out afresh (R89), and the causes of the extraction request are tested in the new mode (R125, R128; the test is spelled in
ProveTimeoutAndRunOnExpiry); the present mode, a value that is no mode, and a MODE at a station that is not JOINED or from another
source change nothing. The units follow R143, in the order of log entry 5 (DESIGN CHOICE, unsafe), as R143's table gives none: the
nozzles, the heaters (every demand falls to 0 where the mode enters or leaves SERVICE, R61 and R63, and the next regulation has no
freeze case, log entry 32, DEDUCED, unsafe), the pumps, the feeder, the extraction request and STATUS. -/
def Obligations.ModeIsTaken : Prop :=
  (∀ (src : Station) (value : Byte) (m : Mode) (s : State) (start : BitVec 32), s.Hears start → s.joined = true →
    src.toNat = 30 ∨ src.toNat = 31 → Mode.ofCode value.toNat = some m → m ≠ s.control.mode →
    ∃ t, exec (.mode src value) s = .next t ∧
      t.still = { s with
        control := { s.control with
          mode := m, service := if s.control.mode = Mode.service then 0 else s.control.service }
        heater := t.heater
        pot := { s.pot with mainRequest := t.pot.mainRequest, chipRequest := t.pot.chipRequest }
        extraction := t.extraction }.still ∧
      t.extraction = (testRequest { s with control := { s.control with mode := m } }).extraction ∧
      t.pot.mainRequest = t.mainRequest ∧ t.pot.chipRequest = t.chipRequest ∧
      t = dropReservation (settle (setMode m (commitFrame false src.toNat s)))) ∧
  (∀ (m : Mode) (s u v : State),
    u = sprayUpdate { s with control := { s.control with
      mode := m, service := if s.control.mode = .service then 0 else s.control.service } } →
    v = (if s.control.mode = .service ∨ m = .service then serviceBoundary u else u) →
    setMode m s = queueStatus (testRequest (potUpdate (workRequests v)))) ∧
  (∀ s u : State,
    u = { s with heater := { s.heater with channels := s.heater.channels.mapIdx (fun n c =>
      if s.inUse n = true then
        { c with
          demand := 0
          grant := 0
          pulse := cutPulse (min 255 (s.heater.slot - (s.channelConfig n).phase)) c.pulse 0
          runOn := cutPulse (256 + s.heater.slot - (s.channelConfig n).phase) c.runOn 0
          regulated := false }
      else c) } } →
    serviceBoundary s = { u with heater := { u.heater with cost := u.demandCost, shortfall := u.demandCost - s.shares.held } }) ∧
  (∀ (src : Station) (value : Byte) (s : State) (start : BitVec 32), s.Hears start →
    Mode.ofCode value.toNat = none ∨ Mode.ofCode value.toNat = some s.control.mode ∨ s.joined = false ∨
      (src.toNat ≠ 30 ∧ src.toNat ≠ 31) →
    exec (.mode src value) s = .next (s.afterCommit false src.toNat)) ∧
  (∀ n : Nat, Mode.ofCode 0 = some .idle ∧ Mode.ofCode 1 = some .run ∧ Mode.ofCode 2 = some .service ∧
      (3 ≤ n → Mode.ofCode n = none))

/-- RESTART taken (R152): what it keeps and what it clears. The transmit queue holds the JOIN of the raised incarnation and behind
it STATUS and the frames of alarms alone (R180); every one-shot is CLOSED, the pumps are LOCKED and the feeder is off, no need is
outstanding, a new heater period has begun, no watch alarm stands, no activity of another raiser is held, and the first-out records
are kept where no new TRIP alarm arises (R123, R148, R155). Not taken where a board has entered or a trip has come (R152). The
model's choices: the new period counts as the first with a shortfall, if it has one (log entry 39), and the table keeps LEVEL
flagged as it was (log entry 40). The state after is written out: the reset values of every block (R25, R27, R50, R66, R85, R101,
R123, R130, R140, R155, R172, R183) before the new period start (log entry 39, DESIGN CHOICE, unsafe), the own JOIN, the neighbour
worked out again (R25), the causes still raised taken to ACTIVE (R123), the condition, the period start (R52) and the extraction
test (R125, R130), in the order of log entry 5 (DESIGN CHOICE, unsafe). At the commit it is tested again that the queue is empty and
the condition not TRIPPED; the mode, IDLE at the ACK slot, cannot have changed (R152). -/
def Obligations.RestartIsTaken : Prop :=
  (∀ (src dst : Station) (s : State) (start : BitVec 32), s.Hears start → s.Accepts dst →
    (s.afterCommit false src.toNat).restartable = true → ∃ t, exec (.restart src dst) s = .next t ∧
      t = dropReservation (restartStation (commitFrame false src.toNat s)) ∧
      t.loader = s.loader ∧ t.control.station = s.control.station ∧ t.control.mode = .idle ∧ t.control.service = 0 ∧
      t.dir.own = s.dir.own ∧ t.dir.incarnation = s.dir.incarnation.map (fun n => (n + 1) % 256) ∧
      t.dir.entries = (s.afterCommit false src.toNat).dir.entries ∧
      t.tracker.queue = [] ∧ t.tracker.admissions = [] ∧ t.tracker.underEye = none ∧ t.tracker.count = s.tracker.count ∧
      t.tracker.nextId = s.tracker.nextId ∧ t.tracker.unreported = s.tracker.unreported ∧ t.recipes = .reset ∧
      t.spray.flowCount = s.spray.flowCount ∧ t.shares.state = .unseated ∧ t.shares.held = 0 ∧ t.shares.lent = [] ∧
      t.shares.borrowed = [] ∧ t.pot.established = false ∧ t.alarms.table = s.alarms.table ∧
      t.alarms.entries = s.alarms.entries.map keepFixed ∧ t.groups.orphans = [] ∧ t.bus.failed = s.bus.failed ∧
      t.bus.stuckCount = s.bus.stuckCount ∧
      (∃ rest, t.bus.queue = newFrame 3 0 (.join (t.dir.incarnation.getD 0)) :: rest ∧
        ∀ f ∈ rest, f.body.kind = 3 ∨ f.body.kind = 11 ∨ f.body.kind = 12) ∧
      t.bus.onWire = none ∧ t.bus.reservation = none ∧ t.dir.joinOwed = false ∧
      t.spray.oneShots = List.replicate 8 none ∧ t.spray.counting = none ∧
      t.pot.main = ⟨.locked, 0, 0, .stopped⟩ ∧ t.pot.chip = ⟨.locked, 0, 0, .stopped⟩ ∧ t.pot.feeding = false ∧
      t.shares.needAmount = 0 ∧ t.shares.needTimer = .stopped ∧
      t.shares.shortPeriods = (if t.heater.shortfall = 0 then 0 else 1) ∧
      t.heater.slot = 0 ∧ t.heater.periodTimer = .running (s.cfg.heaterPeriod * 100) ∧
      (∀ i, i < 16 → t.alarmState i = .quiet) ∧ (∀ a ∈ t.groups.activity, a.raiser = s.dir.own) ∧
      (s.Derived → (s.cause 23).raised = false → t.alarms.firstOut = s.alarms.firstOut ∧
        t.control.lineState = s.control.lineState ∧ t.control.lineValue = s.control.lineValue)) ∧
  (∀ (src dst : Station) (s : State) (start : BitVec 32), s.Hears start →
    s.bus.answer.ack = false ∨ dst.toNat ≠ s.dir.own ∨ (s.afterCommit false src.toNat).restartable = false →
    exec (.restart src dst) s = .next (s.afterCommit false src.toNat)) ∧
  (∀ s u : State,
    u = { s with
      control := { s.control with mode := .idle, service := 0 }
      dir := { s.dir with incarnation := s.dir.incarnation.map (fun n => (n + 1) % 256), claimListen := .stopped, joinOwed := false }
      bus := { s.bus with queue := [], onWire := none, reservation := none }
      tracker := { s.tracker with
        queue := [], admissions := [], underEye := none
        stall := if s.control.permitSensed = true ∧ s.cfg.stallTime ≠ 0 then .running s.cfg.stallTime else .stopped }
      recipes := ⟨List.replicate 8 .blank, none, .stopped⟩
      spray := { s.spray with oneShots := List.replicate 8 none, counting := none }
      heater := { s.heater with channels := s.heater.channels.map (fun c =>
        { c with integral := 0, regulated := false, pulse := 0, runOn := 0 }) }
      shares := ⟨.unseated, 0, [], [], 0, .stopped, 0⟩
      pot := ⟨.blank, .blank, none, none, 0, false, false, .stopped⟩
      extraction := ⟨false, .stopped, List.replicate 2 .blank⟩
      alarms := { s.alarms with
        entries := s.alarms.entries.map keepFixed
        records := List.replicate 29 .blank
        causes := s.alarms.causes.mapIdx (fun k c => if k + 16 = 24 ∨ k + 16 = 25 ∨ k + 16 = 28 then { c with raised := false }
          else c) }
      groups := ⟨[], []⟩ } →
    restartStation s = settle (testRequest (budgetShort (queueReturn (queueNeed (heaterPeriod (recondition
      ((List.range' 16 13).foldl (fun s i => takeCause i s) (updateNeighbour [] (queueJoin u)))))))))) ∧
  (∀ s : State, queueJoin s = if s.admits 3 = true then
      s.withTx (s.bus.queue ++ [newFrame 3 0 (.join (s.dir.incarnation.getD 0))])
    else { s with dir := { s.dir with joinOwed := true } }) ∧
  (∀ (i : Nat) (s : State), takeCause i s = if s.joined = true ∧ (s.cause i).raised = true ∧ s.alarmState i = .quiet then
    enterActive i (s.cause i).value s else s) ∧
  (∀ e : WatchEntry, keepFixed e = match e with
    | .fixed d => .fixed d
    | _ => .empty) ∧
  (∀ s : State, s.restartable = true ↔ s.tracker.queue = [] ∧ s.control.condition ≠ .tripped)

/-- QUERY of every code queues one REPORT in class 1, in the reserved place, to the panel that asked (R153, R154), and what each
of the ten contents is: its fields in the order of R190, in the bytes and the enumeration codes of R189, each most significant
first (R157, R189). What DIRECTORY reports for the station's own number, its own values with no summary, is log entry 18 (DEDUCED).
StartOfTransmissionBuildsTheFirstEligibleFrame says that a REPORT carries the code, the item and this content. -/
def Obligations.QueriesQueueReports : Prop :=
  (∀ (src dst : Station) (item : Byte) (s : State) (start : BitVec 32), s.Hears start → s.Accepts dst →
    s.bus.reservation = some .txPlace →
    ∀ p ∈ [(Instr.queryStation src dst item, 1), (Instr.queryDirectory src dst item, 2), (Instr.queryBoards src dst item, 3),
        (Instr.queryBoard src dst item, 4), (Instr.queryRecipe src dst item, 5), (Instr.queryWatch src dst item, 6),
        (Instr.queryAlarms src dst item, 7), (Instr.queryFirstout src dst item, 8), (Instr.queryLoans src dst item, 9),
        (Instr.queryGroup src dst item, 10)],
      ∃ t, exec p.1 s = .next t ∧ t.still = s.still ∧ t.bus.reservation = none ∧
        t.bus.queue = (s.afterCommit false src.toNat).bus.queue ++ [⟨1, src.toNat, .report p.2 item.toNat, 0, .waiting⟩]) ∧
  (∀ (src dst : Station) (item : Byte) (s : State) (start : BitVec 32), s.Hears start →
    s.bus.answer.ack = false ∨ dst.toNat ≠ s.dir.own →
    ∀ c ∈ [Instr.queryStation src dst item, .queryDirectory src dst item, .queryBoards src dst item, .queryBoard src dst item,
        .queryRecipe src dst item, .queryWatch src dst item, .queryAlarms src dst item, .queryFirstout src dst item,
        .queryLoans src dst item, .queryGroup src dst item],
      exec c s = .next (s.afterCommit false src.toNat)) ∧
  (∀ (item : Nat) (s : State), reportContent 1 item s =
    byte1 (rolesByte s.cfg.roles) ++ byte1 s.control.mode.code ++ byte1 s.control.condition.code ++ byte1 s.alarmLevel
      ++ byte2 s.shares.held ++ byte2 s.cfg.base ++ byte2 (loanSum s.shares.lent) ++ byte2 (loanSum s.shares.borrowed)
      ++ byte1 (s.dir.incarnation.getD 0) ++ byte1 s.tracker.queue.length ++ byte4 s.control.service.toNat
      ++ byte2 s.tracker.unreported ++ byte2 s.bus.stuckCount ++ byte2 s.bus.failed) ∧
  (∀ (n : Nat) (s : State),
    (n = s.dir.own → reportContent 2 n s = entryReport n ⟨some s.uid, BitVec.ofNat 8 (rolesByte s.cfg.roles),
      some (s.cfg.winStart, s.cfg.winEnd), s.dir.incarnation, false, false, none⟩) ∧
    (n ≠ s.dir.own → s.entry n = none → reportContent 2 n s = []) ∧
    (∀ e : DirEntry, n ≠ s.dir.own → s.entry n = some e → reportContent 2 n s = entryReport n e)) ∧
  (∀ (n : Nat) (e : DirEntry) (w : Nat × Nat) (m : Summary), w = e.window.getD (0, 0) →
    m = e.summary.getD ⟨0, 0, 0, 0, 0, 0⟩ → entryReport n e =
      byte1 n ++ byte1 (flag e.uid.isSome 0 + flag e.window.isSome 1 + flag e.incarnation.isSome 2 + flag e.summary.isSome 3)
        ++ byte1 (flag e.quiet 0 + flag e.touched 7) ++ byte6 (e.uid.getD 0).toNat ++ [e.roles &&& 31]
        ++ byte3 w.1 ++ byte3 w.2 ++ byte1 (e.incarnation.getD 0) ++ byte1 m.mode ++ byte1 m.condition ++ byte1 m.level
        ++ byte2 m.held ++ byte2 m.base ++ byte1 m.boards) ∧
  (∀ (p : Nat) (s : State), reportContent 3 p s = byte1 s.tracker.queue.length
    ++ ((s.tracker.queue.drop p).take 7).flatMap (fun b => byte2 b.line.id ++ byte3 (s.pos b))) ∧
  (∀ (p : Nat) (s : State), (s.tracker.queue[p]? = none → reportContent 4 p s = []) ∧
    (∀ b : Board, s.tracker.queue[p]? = some b → reportContent 4 p s = lineBytes b.line (s.pos b) ++ (byte1 (b.handed.getD 0)
      ++ byte1 (flag b.confirmed 0 + flag b.seenMissing 1 + flag b.noRecipeNoted 2 + flag b.notFluxed 3 + flag b.waveContact 4)
      ++ byte1 (b.slot.getD 255) ++ byte1 b.phase.code ++ byte2 b.nextDot ++ byte2 b.dotsFired ++ byte2 b.dotsSkipped
      ++ byte2 b.flowPulses))) ∧
  (∀ (r : LineRecord) (pos : Nat), lineBytes r pos = byte2 r.id ++ byte1 r.recipe ++ byte1 r.version
    ++ byte2 r.length ++ byte3 pos ++ byte1 (flag r.unannounced 0 + flag r.lengthFinal 1 + flag r.markOverflow 2)
    ++ byte1 r.marks.length ++ r.marks.flatMap (fun m => byte1 m.station ++ byte1 m.code)) ∧
  (∀ (i : Nat) (s : State) (sl : Slot), sl = s.recipes.slots.getD i .blank →
    reportContent 5 i s = byte1 sl.state.code ++ byte1 sl.refs ++ (byte1 sl.number ++ byte1 sl.version
      ++ byte1 (flag sl.isDefault 0 + flag sl.body.mainWave 1 + flag sl.body.chipWave 2)
      ++ ((List.range 8).flatMap (fun i => byteS (sl.body.zones.getD i 0))) ++ byteS sl.body.pot
      ++ byte1 sl.body.mainSpeed ++ byte1 sl.body.chipSpeed ++ byte1 sl.body.pulse ++ byte1 sl.body.pitch
      ++ byte1 sl.body.margin ++ [sl.body.mask] ++ byte1 sl.body.flow)) ∧
  (∀ (i : Nat) (s : State), (s.watch i = .empty → reportContent 6 i s = byte1 0) ∧
    (∀ d : WatchDef, s.watch i = .fixed d → reportContent 6 i s = byte1 1 ++ watchBytes d) ∧
    (∀ d : WatchDef, s.watch i = .panel d → reportContent 6 i s = byte1 2 ++ watchBytes d)) ∧
  (∀ d : WatchDef, watchBytes d = byte1 d.quantity ++ byte1 (if d.above = true then 0 else 1)
    ++ byteS d.threshold ++ byte2 d.margin
    ++ byte1 (flag d.inIdle 0 + flag d.inRun 1 + flag d.inService 2 + flag d.chain 7)
    ++ byte1 d.persistence ++ byte1 (actionCode d.action) ++ byte1 d.group ++ byte1 d.mark) ∧
  (∀ (item : Nat) (s : State), reportContent 7 item s = (List.range 29).flatMap (fun i =>
    byte1 ((s.record i).state.code + flag (s.record i).announced 3 + flag (s.record i).announceOwed 4
      + flag (s.record i).clearOwed 5))) ∧
  (∀ (item : Nat) (s : State) (held line : List Byte),
    (∀ f : FirstOut, s.alarms.firstOut = some f →
      held = byte1 1 ++ byte1 f.index ++ byteS f.value ++ byte2 f.board ++ byte1 f.later) →
    (s.alarms.firstOut = none → held = [0, 0, 0, 0, 0, 0, 0]) →
    (∀ v : Nat × Nat, s.control.lineValue = some v → line = byte1 v.1 ++ byte1 v.2) →
    (s.control.lineValue = none → line = [0, 0]) →
    reportContent 8 item s = held ++ byte1 s.control.lineState.code ++ line) ∧
  (∀ (item : Nat) (s : State) (l : List Loan), l = (if item = 0 then s.shares.lent else s.shares.borrowed) →
    reportContent 9 item s = byte1 l.length ++ l.flatMap (fun r => byte1 r.peer ++ byte2 r.amount)) ∧
  (∀ (g : Nat) (s : State), reportContent 10 g s =
    byte1 (flag (decide (∃ a ∈ s.groups.activity, a.group = g)) 0) ++ [(s.group g).actions] ++ byte1 (s.group g).mark
      ++ byte4 ((List.range 32).map (fun r => flag (decide (∃ a ∈ s.groups.activity, a.group = g ∧ a.raiser = r)) r)).sum
      ++ byte4 ((List.range 32).map (fun r => flag (decide (r ∈ s.groups.orphans)) r)).sum) ∧
  (∀ s : State, s.alarmLevel = if s.anyStands .trip = true then 4 else if s.anyStands .hold = true then 3
    else if s.anyStands .warn = true then 2 else if s.anyStands .note = true then 1 else 0) ∧
  (∀ r : Roles, rolesByte r = flag r.entry 0 + flag r.flux 1 + flag r.heat 2 + flag r.pot 3) ∧
  (∀ l : List Loan, loanSum l = (l.map (fun r => r.amount)).sum) ∧
  (∀ n : Nat, byte1 n = [BitVec.ofNat 8 n] ∧ byte2 n = [BitVec.ofNat 8 (n / 256), BitVec.ofNat 8 n] ∧
    byte3 n = [BitVec.ofNat 8 (n / 65536), BitVec.ofNat 8 (n / 256), BitVec.ofNat 8 n] ∧
    byte4 n = byte2 (n / 65536) ++ byte2 n ∧ byte6 n = byte2 (n / 4294967296) ++ byte4 n) ∧
  (∀ v : Int, byteS v = byte2 (v.emod 65536).toNat) ∧
  (∀ i : Nat, flag true i = 2 ^ i ∧ flag false i = 0) ∧
  Mode.idle.code = 0 ∧ Mode.run.code = 1 ∧ Mode.service.code = 2 ∧
  Condition.normal.code = 0 ∧ Condition.hold.code = 1 ∧ Condition.lineStop.code = 2 ∧ Condition.tripped.code = 3 ∧
  actionCode .note = 1 ∧ actionCode .warn = 2 ∧ actionCode .hold = 3 ∧ actionCode .trip = 4 ∧
  AlarmState.quiet.code = 0 ∧ AlarmState.pending.code = 1 ∧ AlarmState.active.code = 2 ∧ AlarmState.activeAcked.code = 3 ∧
  AlarmState.latched.code = 4 ∧
  SprayPhase.waiting.code = 0 ∧ SprayPhase.spraying.code = 1 ∧ SprayPhase.ended.code = 2 ∧ SprayPhase.checked.code = 3 ∧
  SlotState.free.code = 0 ∧ SlotState.current.code = 1 ∧ SlotState.retiring.code = 2 ∧
  LineState.armed.code = 0 ∧ LineState.opened.code = 1 ∧ LineState.captured.code = 2

/-! ## The directory (11) -/

/-- The own CLAIM commits (R69, R171, R176, R182): JOINED with the claimed number, seated, and its timers started. The state after
is written out step by step: the number and the timers (R173, R176, R182), the seat (R69), the neighbour (R176), the line first-out
record that opens on an active trip line (R148), the causes then raised (R110), the condition (R144), the alarms announced (R136),
the first period start (R52) and the first extraction test (R125), in the order of log entry 5 (DESIGN CHOICE, unsafe). An alarm
needs announcing where its action is not NOTE or it names a group (R108). -/
def Obligations.TheOwnClaimJoins : Prop :=
  (∀ (f : ClaimFields) (s : State), s.Sends 1 0 0 (claimBytes f) → ∃ t, exec (.claim f) s = .next t ∧
    t = dropReservation (becomeJoined f.number.toNat (commitFrame true 0 s)) ∧
    t.control.station = .joined ∧ t.control.mode = .idle ∧
    t.dir.own = (if 1 ≤ f.number.toNat ∧ f.number.toNat ≤ 29 then f.number.toNat else 0) ∧ t.dir.incarnation = some 0 ∧
    t.dir.presence = .running s.cfg.presencePeriod ∧ t.dir.claimListen = .stopped ∧
    t.entry t.dir.own = none ∧
    t.bus.ownContact = .running (3 * s.cfg.presencePeriod) ∧ t.bus.peerContact = .running (3 * s.cfg.presencePeriod) ∧
    t.shares.state = .seated ∧ t.shares.held = s.cfg.base ∧ t.shares.lent = [] ∧ t.shares.borrowed = [] ∧
    t.heater.slot = 0 ∧ t.heater.periodTimer = .running (s.cfg.heaterPeriod * 100) ∧
    t.loader = s.loader ∧ t.tracker.count = s.tracker.count) ∧
  (∀ (n : Nat) (s u v w : State),
    u = { s with
      control := { s.control with station := .joined, mode := .idle }
      dir := { s.dir with
        entries := s.dir.entries.set (if 1 ≤ n ∧ n ≤ 29 then n else 0) none
        own := if 1 ≤ n ∧ n ≤ 29 then n else 0
        incarnation := some 0, claimListen := .stopped, presence := .running s.cfg.presencePeriod }
      bus := { s.bus with
        ownContact := .running (3 * s.cfg.presencePeriod), peerContact := .running (3 * s.cfg.presencePeriod) } } →
    v = updateNeighbour [] (setHeld s.cfg.base { u with shares := { u.shares with
      state := .seated, lent := [], borrowed := [], needAmount := 0, needTimer := .stopped } }) →
    w = recondition ((List.range' 16 13).foldl (fun s i => takeCause i s)
      (if v.control.tripSensed = true ∧ v.control.lineState = .armed then
        { v with control := { v.control with lineState := .opened, lineValue := none } } else v)) →
    becomeJoined n s = settle (testRequest (budgetShort (queueReturn (queueNeed (heaterPeriod
      (((List.range 29).filter (fun i => w.stands i && w.needsAnnouncing i)).foldl (fun x i => reannounce i x) w))))))) ∧
  (∀ (i : Nat) (s : State), takeCause i s = if s.joined = true ∧ (s.cause i).raised = true ∧ s.alarmState i = .quiet then
    enterActive i (s.cause i).value s else s) ∧
  (∀ (s : State) (i : Nat), s.needsAnnouncing i = true ↔ s.alarmAction i ≠ .note ∨ s.alarmGroup i ≠ 0)

/-- Another's CLAIM of number k commits (R177, R179): the entry of k is written, with the roles byte as it comes (log entry 29, the
model's choice); a claimant of k with another uid goes to CLAIM_FAIL and its transmit queue is emptied. A number outside 1..29 has
the common part alone (R178). At a JOINED station the activity and the ORPHAN flag of k go with its loans, and the own standing
alarms whose member mask holds k are announced again, unless their ALARM waits (R81, R136). A CLAIM of the own number makes a JOINED
station announce all its standing alarms again (R136; log entries 19 and 28). The rising index, and loans before activity before the
neighbour, are log entry 5 (DESIGN CHOICE, unsafe). The neighbour is spelled in AgingSweepAgesEveryEntry (R7), and what is needing
announcement in TheOwnClaimJoins (R108). The loans of k go as reclaim and surrender spell (R81). A station learns in CLAIMING,
CLAIM_FAIL and JOINED (R174). At a station that is not JOINED the whole state is the entry, the neighbour and CLAIM_FAIL (log entry
54 for its timer, DESIGN CHOICE, unsafe). -/
def Obligations.AnothersClaimIsLearned : Prop :=
  (∀ (f : ClaimFields) (s : State) (start : BitVec 32), s.Hears start → s.learns = true →
    1 ≤ f.number.toNat → f.number.toNat ≤ 29 → f.number.toNat ≠ s.dir.own → f.number.toNat < s.dir.entries.length →
    ∃ t e, exec (.claim f) s = .next t ∧ t.entry f.number.toNat = some e ∧ e.uid = some f.uid ∧ e.roles = f.roles ∧
      e.window = some (f.winStart.toNat, f.winEnd.toNat) ∧ e.incarnation = some 0 ∧ e.quiet = false ∧ e.touched = true ∧
      t.loader = s.loader ∧ t.tracker.count = s.tracker.count ∧ t.tracker.neighbour = t.findNeighbour ∧
      (s.control.station = .claiming → f.number.toNat = s.cfg.preferred → f.uid ≠ s.uid →
        t.control.station = .claimFail ∧ t.bus.queue = [] ∧ t.faultOutput = true) ∧
      (s.joined = true → (∀ a ∈ t.groups.activity, a.raiser ≠ f.number.toNat) ∧ f.number.toNat ∉ t.groups.orphans ∧
        t = dropReservation (settle (updateNeighbour [] (peerJoined f.number.toNat
          (writeClaim f.number.toNat f (commitFrame false 0 s))))))) ∧
  (∀ (k : Nat) (s u : State),
    u = recondition (clearOrphan k (removeActivity (fun a => a.raiser == k)
      (if s.shares.state = .unseated then s else surrender k (reclaim k s)))) →
    peerJoined k s = ((List.range 29).filter (fun i => u.stands i && (u.alarmGroup i != 0 &&
      (u.group (u.alarmGroup i)).members.getLsbD k))).foldl (fun x i => reannounce i x) u) ∧
  (∀ (i cls : Nat) (s : State), cls = (if s.alarmAction i = .trip then 3 else 2) →
    (s.hasWaiting (TxFrame.isAlarmOf i) = true → reannounce i s = s) ∧
    (s.hasWaiting (TxFrame.isAlarmOf i) = false → reannounce i s =
      if s.admits cls = true then
        updateRecord i (fun x => { x with announced := true, sentClass := cls, sentGroup := s.alarmGroup i })
          (s.withTx (s.bus.queue ++ [newFrame cls 0 (.alarm i (actionCode (s.alarmAction i)) (s.alarmGroup i)
            (if s.alarmGroup i = 0 then 0 else (s.group (s.alarmGroup i)).members) (s.record i).value (s.alarmMark i))]))
      else updateRecord i (fun x => { x with announceOwed := true }) s)) ∧
  (∀ (f : ClaimFields) (s : State) (start : BitVec 32), s.Hears start →
    f.number.toNat < 1 ∨ 29 < f.number.toNat ∨ s.learns = false → exec (.claim f) s = .next (s.afterCommit false 0)) ∧
  (∀ (f : ClaimFields) (s u : State) (start : BitVec 32), s.Hears start → s.joined = true → 1 ≤ f.number.toNat →
    f.number.toNat ≤ 29 → f.number.toNat = s.dir.own → u = commitFrame false 0 s →
    exec (.claim f) s = .next (dropReservation (settle
      (((List.range 29).filter (fun i => u.stands i && u.needsAnnouncing i)).foldl (fun x i => reannounce i x) u)))) ∧
  (∀ (k : Nat) (s : State),
      reclaim k s = setHeld (s.shares.held + loanOf k s.shares.lent) (s.withLent (dropLoan k s.shares.lent)) ∧
      surrender k s = setHeld (s.shares.held - loanOf k s.shares.borrowed) (s.withBorrowed (dropLoan k s.shares.borrowed))) ∧
  (∀ (k : Nat) (s : State), clearOrphan k s =
      { s with groups := { s.groups with orphans := s.groups.orphans.filter (fun r => r != k) } }) ∧
  (∀ (k : Nat) (f : ClaimFields) (s : State) (e : DirEntry),
      e = (s.entry k).getD ⟨none, if k = 30 ∨ k = 31 then 16 else 0, none, none, false, true, none⟩ →
      writeClaim k f s = { s with dir := { s.dir with entries := s.dir.entries.set k (some
        { e with uid := some f.uid, roles := f.roles, window := some (f.winStart.toNat, f.winEnd.toNat)
                 incarnation := some 0, quiet := false, touched := true }) } }) ∧
  (∀ (f : ClaimFields) (s u : State) (start : BitVec 32), s.Hears start → s.learns = true → s.joined = false →
      1 ≤ f.number.toNat → f.number.toNat ≤ 29 → f.number.toNat ≠ s.dir.own →
      u = updateNeighbour [] (writeClaim f.number.toNat f (commitFrame false 0 s)) →
      exec (.claim f) s = .next (dropReservation
        (if u.control.station = .claiming ∧ f.number.toNat = u.cfg.preferred ∧ f.uid ≠ u.uid then { u with
          control := { u.control with station := .claimFail }
          dir := { u.dir with claimListen := .stopped }
          bus := { u.bus with queue := [], onWire := none } } else u))) ∧
  (∀ s : State, s.learns = true ↔
      s.control.station = .claiming ∨ s.control.station = .claimFail ∨ s.control.station = .joined)

/-- JOIN and STATUS commit (R69, R174, R180, R181): the own JOIN seats the share unit; another's writes the source's entry, and at a
JOINED station drops the loans that name it, empties its activity sets and its ORPHAN flag and announces the standing alarms that
name a group of it, as AnothersClaimIsLearned spells (R81, R136; log entry 5); STATUS writes its fields, the incarnation also in an
entry created again (log entry 42, the model's choice). The roles of the entry are those of the frame, but a panel entry keeps PANEL
(R174, R181). The bytes of a STATUS and the roles byte of a JOIN are stored as they come, codes of no table too, which is log entry
29 (DEDUCED, unsafe). A JOIN of the own number that the station has not sent makes it announce its standing alarms again (R136; log
entries 19 and 28), in rising index (log entry 5). A JOIN with source 0 has the common part alone (R181; its peer-contact timer is
log entry 48, DESIGN CHOICE, unsafe), as have a JOIN and a STATUS of a source that the station does not learn from (R174). The
neighbour is spelled in AgingSweepAgesEveryEntry (R7). -/
def Obligations.JoinAndStatusCommit : Prop :=
  (∀ (src : Station) (f : JoinFields) (s : State), s.Sends 2 src.toNat 0 (joinBytes f) → ∃ t, exec (.join src f) s = .next t ∧
    t.shares = { s.shares with
      state := .seated, held := s.cfg.base, lent := [], borrowed := [], needAmount := 0, needTimer := .stopped } ∧
    t = dropReservation (settle (ownJoin (commitFrame true src.toNat s))) ∧
    t.still = { s with shares := t.shares, heater := t.heater }.still) ∧
  (∀ (src : Station) (f : JoinFields) (s : State) (start : BitVec 32), s.Hears start → s.learnsFrom src.toNat = true →
    src.toNat < s.dir.entries.length → ∃ t e, exec (.join src f) s = .next t ∧ t.entry src.toNat = some e ∧
      e.uid = some f.uid ∧ (src.toNat ≠ 30 ∧ src.toNat ≠ 31 → e.roles = f.roles) ∧
      (src.toNat = 30 ∨ src.toNat = 31 → e.roles = match s.entry src.toNat with
        | some x => x.roles
        | none => 16) ∧
      e.incarnation = some f.incarnation.toNat ∧ e.touched = true ∧
      e.window = some (f.winStart.toNat, f.winEnd.toNat) ∧
      t.shares = (if s.joined = true ∧ s.shares.state ≠ .unseated then { s.shares with
          held := s.shares.held + loanOf src.toNat s.shares.lent - loanOf src.toNat s.shares.borrowed
          lent := dropLoan src.toNat s.shares.lent, borrowed := dropLoan src.toNat s.shares.borrowed }
        else s.shares) ∧
      (s.joined = true → (∀ a ∈ t.groups.activity, a.raiser ≠ src.toNat) ∧ src.toNat ∉ t.groups.orphans ∧
        t = dropReservation (settle (updateNeighbour [] (peerJoined src.toNat
          (writeJoin src.toNat f (commitFrame false src.toNat s)))))) ∧
      t.far = { s with shares := t.shares, heater := t.heater }.far ∧ t.tracker.neighbour = t.findNeighbour) ∧
  (∀ (src : Station) (f : JoinFields) (s u : State) (start : BitVec 32), s.Hears start → s.joined = true → src ≠ 0 →
    src.toNat = s.dir.own → u = commitFrame false src.toNat s →
    exec (.join src f) s = .next (dropReservation (settle
      (((List.range 29).filter (fun i => u.stands i && u.needsAnnouncing i)).foldl (fun x i => reannounce i x) u)))) ∧
  (∀ (src : Station) (f : StatusFields) (s : State) (start : BitVec 32), s.Hears start → s.learnsFrom src.toNat = true →
    src.toNat < s.dir.entries.length → ∃ t e, exec (.status src f) s = .next t ∧ t.entry src.toNat = some e ∧
      (src.toNat ≠ 30 ∧ src.toNat ≠ 31 → e.roles = f.roles) ∧
      (src.toNat = 30 ∨ src.toNat = 31 → e.roles = match s.entry src.toNat with
        | some x => x.roles
        | none => 16) ∧
      e.incarnation = some f.incarnation.toNat ∧ e.touched = true ∧ e.window = some (f.winStart.toNat, f.winEnd.toNat) ∧
      e.summary = some ⟨f.mode.toNat, f.condition.toNat, f.level.toNat, f.held.toNat, f.base.toNat, f.boards.toNat⟩ ∧
      t.far = s.far ∧ t.tracker.neighbour = t.findNeighbour) ∧
  (∀ (src : Station) (f : StatusFields) (s : State), s.Sends 3 src.toNat 0 (statusBytes f) →
    exec (.status src f) s = .next (s.afterCommit true src.toNat)) ∧
  (∀ s u : State,
    u = setHeld s.cfg.base { s with shares := { s.shares with
      state := .seated, lent := [], borrowed := [], needAmount := 0, needTimer := .stopped } } →
    ownJoin s = ((List.range 29).filter (fun i => u.stands i && u.needsAnnouncing i)).foldl (fun x i => reannounce i x) u) ∧
  (∀ (src : Nat) (f : JoinFields) (s : State) (e : DirEntry), s.entry src = some e →
      writeJoin src f s = { s with dir := { s.dir with entries := s.dir.entries.set src (some
        { e with uid := some f.uid, roles := if src = 30 ∨ src = 31 then e.roles else f.roles
                 window := some (f.winStart.toNat, f.winEnd.toNat), incarnation := some f.incarnation.toNat }) } }) ∧
  (∀ (src : Nat) (f : StatusFields) (s : State) (e : DirEntry), s.entry src = some e → s.learnsFrom src = true →
      writeStatus src f s = updateNeighbour [] { s with dir := { s.dir with entries := s.dir.entries.set src (some
        { e with
          roles := if src = 30 ∨ src = 31 then e.roles else f.roles
          window := some (f.winStart.toNat, f.winEnd.toNat), incarnation := some f.incarnation.toNat
          summary := some ⟨f.mode.toNat, f.condition.toNat, f.level.toNat, f.held.toNat, f.base.toNat, f.boards.toNat⟩ }) } }) ∧
  (∀ (src : Station) (f : JoinFields) (s : State) (start : BitVec 32), s.Hears start → s.learnsFrom src.toNat = true →
      s.joined = false → exec (.join src f) s =
        .next (dropReservation (updateNeighbour [] (writeJoin src.toNat f (commitFrame false src.toNat s))))) ∧
  (∀ (src : Station) (f : JoinFields) (s : State) (start : BitVec 32), s.Hears start → s.learnsFrom src.toNat = false →
      src = 0 ∨ src.toNat ≠ s.dir.own ∨ s.joined = false → exec (.join src f) s = .next (s.afterCommit false src.toNat)) ∧
  (∀ (src : Station) (f : StatusFields) (s : State) (start : BitVec 32), s.Hears start →
      (s.learnsFrom src.toNat = false → exec (.status src f) s = .next (s.afterCommit false src.toNat)) ∧
      (s.learnsFrom src.toNat = true →
        exec (.status src f) s = .next (dropReservation (settle (writeStatus src.toNat f (commitFrame false src.toNat s))))))

/-! ## Invariants -/

/-- The transmit queue and the place reserved in it never take more than the 16 places (R165). -/
def Obligations.TheTransmitQueueNeverOverflows : Prop := Keeping State.TxFits

/-- The trip line stays sensed as it stands and the condition stays the derived one (R144, R145); TheLineWiresAreSensed spells the
table that derives it. -/
def Obligations.TheConditionStaysDerived : Prop := Keeping State.Derived

/-- The summed cost of the granted duties never exceeds the held shares (R58). -/
def Obligations.TheGrantsStayWithinTheHeldShares : Prop := Keeping State.GrantsFit

/-- A station that is not JOINED stays at rest, its share unit UNSEATED and every output off, and sends nothing but its CLAIM
(R24, R64, R69, R141, R156). That an UNSEATED unit holds no share and no loan is kept by TheSharesStayBalanced. -/
def Obligations.AStationThatIsNotJoinedStaysAtRest : Prop := Keeping State.OffLine

/-- The board queue stays within 8 records, without a repeated id, in the order of position (R3). -/
def Obligations.TheBoardQueueStaysOrdered : Prop := Keeping (fun s => s.OffLine ∧ s.BoardsOrdered)

/-- Held shares stay base minus the lent sum plus the borrowed sum, and the lent sum stays within base (R67, R69). -/
def Obligations.TheSharesStayBalanced : Prop := Keeping (fun s => s.OffLine ∧ s.LendCovered ∧ s.SharesBalance)

/-- Every invariant holds right after reset. The reset values that the manual does not give are those of log entry 9 (DESIGN
CHOICE, unsafe). -/
def Obligations.ResetHasEveryInvariant : Prop :=
  State.reset.TxFits ∧ State.reset.Derived ∧ State.reset.GrantsFit ∧ State.reset.OffLine ∧ State.reset.BoardsOrdered ∧
    State.reset.LendCovered ∧ State.reset.SharesBalance
end

