-- ==== Sys2Proof/Laws/State.lean ====
section
/-! SUPPORT. One lemma per field of the state for every named update: the field it sets, and that it leaves the others. -/

namespace Sys2Proof.Machine

open Sys2Proof

@[simp] theorem State.withTx_uid (q : List TxFrame) (s : State) : (s.withTx q).uid = s.uid := rfl
@[simp] theorem State.withTx_loader (q : List TxFrame) (s : State) : (s.withTx q).loader = s.loader := rfl
@[simp] theorem State.withTx_control (q : List TxFrame) (s : State) : (s.withTx q).control = s.control := rfl
@[simp] theorem State.withTx_dir (q : List TxFrame) (s : State) : (s.withTx q).dir = s.dir := rfl
@[simp] theorem State.withTx_bus (q : List TxFrame) (s : State) : (s.withTx q).bus = { s.bus with queue := q } := rfl
@[simp] theorem State.withTx_tracker (q : List TxFrame) (s : State) : (s.withTx q).tracker = s.tracker := rfl
@[simp] theorem State.withTx_recipes (q : List TxFrame) (s : State) : (s.withTx q).recipes = s.recipes := rfl
@[simp] theorem State.withTx_spray (q : List TxFrame) (s : State) : (s.withTx q).spray = s.spray := rfl
@[simp] theorem State.withTx_heater (q : List TxFrame) (s : State) : (s.withTx q).heater = s.heater := rfl
@[simp] theorem State.withTx_shares (q : List TxFrame) (s : State) : (s.withTx q).shares = s.shares := rfl
@[simp] theorem State.withTx_pot (q : List TxFrame) (s : State) : (s.withTx q).pot = s.pot := rfl
@[simp] theorem State.withTx_extraction (q : List TxFrame) (s : State) : (s.withTx q).extraction = s.extraction := rfl
@[simp] theorem State.withTx_alarms (q : List TxFrame) (s : State) : (s.withTx q).alarms = s.alarms := rfl
@[simp] theorem State.withTx_groups (q : List TxFrame) (s : State) : (s.withTx q).groups = s.groups := rfl
@[simp] theorem State.withTx_free (q : List TxFrame) (s : State) : (s.withTx q).free = s.free := rfl
@[simp] theorem State.withTx_pending (q : List TxFrame) (s : State) : (s.withTx q).pending = s.pending := rfl

@[simp] theorem State.push_uid (f : TxFrame) (s : State) : (s.push f).uid = s.uid := rfl
@[simp] theorem State.push_loader (f : TxFrame) (s : State) : (s.push f).loader = s.loader := rfl
@[simp] theorem State.push_control (f : TxFrame) (s : State) : (s.push f).control = s.control := rfl
@[simp] theorem State.push_dir (f : TxFrame) (s : State) : (s.push f).dir = s.dir := rfl
@[simp] theorem State.push_bus (f : TxFrame) (s : State) : (s.push f).bus = { s.bus with queue := s.bus.queue ++ [f] } := rfl
@[simp] theorem State.push_tracker (f : TxFrame) (s : State) : (s.push f).tracker = s.tracker := rfl
@[simp] theorem State.push_recipes (f : TxFrame) (s : State) : (s.push f).recipes = s.recipes := rfl
@[simp] theorem State.push_spray (f : TxFrame) (s : State) : (s.push f).spray = s.spray := rfl
@[simp] theorem State.push_heater (f : TxFrame) (s : State) : (s.push f).heater = s.heater := rfl
@[simp] theorem State.push_shares (f : TxFrame) (s : State) : (s.push f).shares = s.shares := rfl
@[simp] theorem State.push_pot (f : TxFrame) (s : State) : (s.push f).pot = s.pot := rfl
@[simp] theorem State.push_extraction (f : TxFrame) (s : State) : (s.push f).extraction = s.extraction := rfl
@[simp] theorem State.push_alarms (f : TxFrame) (s : State) : (s.push f).alarms = s.alarms := rfl
@[simp] theorem State.push_groups (f : TxFrame) (s : State) : (s.push f).groups = s.groups := rfl
@[simp] theorem State.push_free (f : TxFrame) (s : State) : (s.push f).free = s.free := rfl
@[simp] theorem State.push_pending (f : TxFrame) (s : State) : (s.push f).pending = s.pending := rfl

@[simp] theorem withdrawFrames_uid (p : TxFrame → Bool) (s : State) : (withdrawFrames p s).uid = s.uid := rfl
@[simp] theorem withdrawFrames_loader (p : TxFrame → Bool) (s : State) : (withdrawFrames p s).loader = s.loader := rfl
@[simp] theorem withdrawFrames_control (p : TxFrame → Bool) (s : State) : (withdrawFrames p s).control = s.control := rfl
@[simp] theorem withdrawFrames_dir (p : TxFrame → Bool) (s : State) : (withdrawFrames p s).dir = s.dir := rfl
@[simp] theorem withdrawFrames_bus (p : TxFrame → Bool) (s : State) : (withdrawFrames p s).bus = { s.bus with queue := s.bus.queue.filter (fun f => f.phase == .onBus || !p f) } := rfl
@[simp] theorem withdrawFrames_tracker (p : TxFrame → Bool) (s : State) : (withdrawFrames p s).tracker = s.tracker := rfl
@[simp] theorem withdrawFrames_recipes (p : TxFrame → Bool) (s : State) : (withdrawFrames p s).recipes = s.recipes := rfl
@[simp] theorem withdrawFrames_spray (p : TxFrame → Bool) (s : State) : (withdrawFrames p s).spray = s.spray := rfl
@[simp] theorem withdrawFrames_heater (p : TxFrame → Bool) (s : State) : (withdrawFrames p s).heater = s.heater := rfl
@[simp] theorem withdrawFrames_shares (p : TxFrame → Bool) (s : State) : (withdrawFrames p s).shares = s.shares := rfl
@[simp] theorem withdrawFrames_pot (p : TxFrame → Bool) (s : State) : (withdrawFrames p s).pot = s.pot := rfl
@[simp] theorem withdrawFrames_extraction (p : TxFrame → Bool) (s : State) : (withdrawFrames p s).extraction = s.extraction := rfl
@[simp] theorem withdrawFrames_alarms (p : TxFrame → Bool) (s : State) : (withdrawFrames p s).alarms = s.alarms := rfl
@[simp] theorem withdrawFrames_groups (p : TxFrame → Bool) (s : State) : (withdrawFrames p s).groups = s.groups := rfl
@[simp] theorem withdrawFrames_free (p : TxFrame → Bool) (s : State) : (withdrawFrames p s).free = s.free := rfl
@[simp] theorem withdrawFrames_pending (p : TxFrame → Bool) (s : State) : (withdrawFrames p s).pending = s.pending := rfl

@[simp] theorem State.withQueue_uid (q : List Board) (s : State) : (s.withQueue q).uid = s.uid := rfl
@[simp] theorem State.withQueue_loader (q : List Board) (s : State) : (s.withQueue q).loader = s.loader := rfl
@[simp] theorem State.withQueue_control (q : List Board) (s : State) : (s.withQueue q).control = s.control := rfl
@[simp] theorem State.withQueue_dir (q : List Board) (s : State) : (s.withQueue q).dir = s.dir := rfl
@[simp] theorem State.withQueue_bus (q : List Board) (s : State) : (s.withQueue q).bus = s.bus := rfl
@[simp] theorem State.withQueue_tracker (q : List Board) (s : State) : (s.withQueue q).tracker = { s.tracker with queue := q } := rfl
@[simp] theorem State.withQueue_recipes (q : List Board) (s : State) : (s.withQueue q).recipes = s.recipes := rfl
@[simp] theorem State.withQueue_spray (q : List Board) (s : State) : (s.withQueue q).spray = s.spray := rfl
@[simp] theorem State.withQueue_heater (q : List Board) (s : State) : (s.withQueue q).heater = s.heater := rfl
@[simp] theorem State.withQueue_shares (q : List Board) (s : State) : (s.withQueue q).shares = s.shares := rfl
@[simp] theorem State.withQueue_pot (q : List Board) (s : State) : (s.withQueue q).pot = s.pot := rfl
@[simp] theorem State.withQueue_extraction (q : List Board) (s : State) : (s.withQueue q).extraction = s.extraction := rfl
@[simp] theorem State.withQueue_alarms (q : List Board) (s : State) : (s.withQueue q).alarms = s.alarms := rfl
@[simp] theorem State.withQueue_groups (q : List Board) (s : State) : (s.withQueue q).groups = s.groups := rfl
@[simp] theorem State.withQueue_free (q : List Board) (s : State) : (s.withQueue q).free = s.free := rfl
@[simp] theorem State.withQueue_pending (q : List Board) (s : State) : (s.withQueue q).pending = s.pending := rfl

@[simp] theorem updateBoard_uid (id : Nat) (f : Board → Board) (s : State) : (updateBoard id f s).uid = s.uid := rfl
@[simp] theorem updateBoard_loader (id : Nat) (f : Board → Board) (s : State) : (updateBoard id f s).loader = s.loader := rfl
@[simp] theorem updateBoard_control (id : Nat) (f : Board → Board) (s : State) : (updateBoard id f s).control = s.control := rfl
@[simp] theorem updateBoard_dir (id : Nat) (f : Board → Board) (s : State) : (updateBoard id f s).dir = s.dir := rfl
@[simp] theorem updateBoard_bus (id : Nat) (f : Board → Board) (s : State) : (updateBoard id f s).bus = s.bus := rfl
@[simp] theorem updateBoard_tracker (id : Nat) (f : Board → Board) (s : State) : (updateBoard id f s).tracker = { s.tracker with queue := s.tracker.queue.map (fun b => if b.line.id == id then f b else b) } := rfl
@[simp] theorem updateBoard_recipes (id : Nat) (f : Board → Board) (s : State) : (updateBoard id f s).recipes = s.recipes := rfl
@[simp] theorem updateBoard_spray (id : Nat) (f : Board → Board) (s : State) : (updateBoard id f s).spray = s.spray := rfl
@[simp] theorem updateBoard_heater (id : Nat) (f : Board → Board) (s : State) : (updateBoard id f s).heater = s.heater := rfl
@[simp] theorem updateBoard_shares (id : Nat) (f : Board → Board) (s : State) : (updateBoard id f s).shares = s.shares := rfl
@[simp] theorem updateBoard_pot (id : Nat) (f : Board → Board) (s : State) : (updateBoard id f s).pot = s.pot := rfl
@[simp] theorem updateBoard_extraction (id : Nat) (f : Board → Board) (s : State) : (updateBoard id f s).extraction = s.extraction := rfl
@[simp] theorem updateBoard_alarms (id : Nat) (f : Board → Board) (s : State) : (updateBoard id f s).alarms = s.alarms := rfl
@[simp] theorem updateBoard_groups (id : Nat) (f : Board → Board) (s : State) : (updateBoard id f s).groups = s.groups := rfl
@[simp] theorem updateBoard_free (id : Nat) (f : Board → Board) (s : State) : (updateBoard id f s).free = s.free := rfl
@[simp] theorem updateBoard_pending (id : Nat) (f : Board → Board) (s : State) : (updateBoard id f s).pending = s.pending := rfl

@[simp] theorem updateLine_uid (id : Nat) (f : LineRecord → LineRecord) (s : State) : (updateLine id f s).uid = s.uid := rfl
@[simp] theorem updateLine_loader (id : Nat) (f : LineRecord → LineRecord) (s : State) : (updateLine id f s).loader = s.loader := rfl
@[simp] theorem updateLine_control (id : Nat) (f : LineRecord → LineRecord) (s : State) : (updateLine id f s).control = s.control := rfl
@[simp] theorem updateLine_dir (id : Nat) (f : LineRecord → LineRecord) (s : State) : (updateLine id f s).dir = s.dir := rfl
@[simp] theorem updateLine_bus (id : Nat) (f : LineRecord → LineRecord) (s : State) : (updateLine id f s).bus = s.bus := rfl
@[simp] theorem updateLine_tracker (id : Nat) (f : LineRecord → LineRecord) (s : State) : (updateLine id f s).tracker = { s.tracker with queue := s.tracker.queue.map (fun b => if b.line.id == id then { b with line := f b.line } else b) } := rfl
@[simp] theorem updateLine_recipes (id : Nat) (f : LineRecord → LineRecord) (s : State) : (updateLine id f s).recipes = s.recipes := rfl
@[simp] theorem updateLine_spray (id : Nat) (f : LineRecord → LineRecord) (s : State) : (updateLine id f s).spray = s.spray := rfl
@[simp] theorem updateLine_heater (id : Nat) (f : LineRecord → LineRecord) (s : State) : (updateLine id f s).heater = s.heater := rfl
@[simp] theorem updateLine_shares (id : Nat) (f : LineRecord → LineRecord) (s : State) : (updateLine id f s).shares = s.shares := rfl
@[simp] theorem updateLine_pot (id : Nat) (f : LineRecord → LineRecord) (s : State) : (updateLine id f s).pot = s.pot := rfl
@[simp] theorem updateLine_extraction (id : Nat) (f : LineRecord → LineRecord) (s : State) : (updateLine id f s).extraction = s.extraction := rfl
@[simp] theorem updateLine_alarms (id : Nat) (f : LineRecord → LineRecord) (s : State) : (updateLine id f s).alarms = s.alarms := rfl
@[simp] theorem updateLine_groups (id : Nat) (f : LineRecord → LineRecord) (s : State) : (updateLine id f s).groups = s.groups := rfl
@[simp] theorem updateLine_free (id : Nat) (f : LineRecord → LineRecord) (s : State) : (updateLine id f s).free = s.free := rfl
@[simp] theorem updateLine_pending (id : Nat) (f : LineRecord → LineRecord) (s : State) : (updateLine id f s).pending = s.pending := rfl

@[simp] theorem State.withShots_uid (l : List (Option Owner)) (s : State) : (s.withShots l).uid = s.uid := rfl
@[simp] theorem State.withShots_loader (l : List (Option Owner)) (s : State) : (s.withShots l).loader = s.loader := rfl
@[simp] theorem State.withShots_control (l : List (Option Owner)) (s : State) : (s.withShots l).control = s.control := rfl
@[simp] theorem State.withShots_dir (l : List (Option Owner)) (s : State) : (s.withShots l).dir = s.dir := rfl
@[simp] theorem State.withShots_bus (l : List (Option Owner)) (s : State) : (s.withShots l).bus = s.bus := rfl
@[simp] theorem State.withShots_tracker (l : List (Option Owner)) (s : State) : (s.withShots l).tracker = s.tracker := rfl
@[simp] theorem State.withShots_recipes (l : List (Option Owner)) (s : State) : (s.withShots l).recipes = s.recipes := rfl
@[simp] theorem State.withShots_spray (l : List (Option Owner)) (s : State) : (s.withShots l).spray = { s.spray with oneShots := l } := rfl
@[simp] theorem State.withShots_heater (l : List (Option Owner)) (s : State) : (s.withShots l).heater = s.heater := rfl
@[simp] theorem State.withShots_shares (l : List (Option Owner)) (s : State) : (s.withShots l).shares = s.shares := rfl
@[simp] theorem State.withShots_pot (l : List (Option Owner)) (s : State) : (s.withShots l).pot = s.pot := rfl
@[simp] theorem State.withShots_extraction (l : List (Option Owner)) (s : State) : (s.withShots l).extraction = s.extraction := rfl
@[simp] theorem State.withShots_alarms (l : List (Option Owner)) (s : State) : (s.withShots l).alarms = s.alarms := rfl
@[simp] theorem State.withShots_groups (l : List (Option Owner)) (s : State) : (s.withShots l).groups = s.groups := rfl
@[simp] theorem State.withShots_free (l : List (Option Owner)) (s : State) : (s.withShots l).free = s.free := rfl
@[simp] theorem State.withShots_pending (l : List (Option Owner)) (s : State) : (s.withShots l).pending = s.pending := rfl

@[simp] theorem State.withChannels_uid (l : List Channel) (s : State) : (s.withChannels l).uid = s.uid := rfl
@[simp] theorem State.withChannels_loader (l : List Channel) (s : State) : (s.withChannels l).loader = s.loader := rfl
@[simp] theorem State.withChannels_control (l : List Channel) (s : State) : (s.withChannels l).control = s.control := rfl
@[simp] theorem State.withChannels_dir (l : List Channel) (s : State) : (s.withChannels l).dir = s.dir := rfl
@[simp] theorem State.withChannels_bus (l : List Channel) (s : State) : (s.withChannels l).bus = s.bus := rfl
@[simp] theorem State.withChannels_tracker (l : List Channel) (s : State) : (s.withChannels l).tracker = s.tracker := rfl
@[simp] theorem State.withChannels_recipes (l : List Channel) (s : State) : (s.withChannels l).recipes = s.recipes := rfl
@[simp] theorem State.withChannels_spray (l : List Channel) (s : State) : (s.withChannels l).spray = s.spray := rfl
@[simp] theorem State.withChannels_heater (l : List Channel) (s : State) : (s.withChannels l).heater = { s.heater with channels := l } := rfl
@[simp] theorem State.withChannels_shares (l : List Channel) (s : State) : (s.withChannels l).shares = s.shares := rfl
@[simp] theorem State.withChannels_pot (l : List Channel) (s : State) : (s.withChannels l).pot = s.pot := rfl
@[simp] theorem State.withChannels_extraction (l : List Channel) (s : State) : (s.withChannels l).extraction = s.extraction := rfl
@[simp] theorem State.withChannels_alarms (l : List Channel) (s : State) : (s.withChannels l).alarms = s.alarms := rfl
@[simp] theorem State.withChannels_groups (l : List Channel) (s : State) : (s.withChannels l).groups = s.groups := rfl
@[simp] theorem State.withChannels_free (l : List Channel) (s : State) : (s.withChannels l).free = s.free := rfl
@[simp] theorem State.withChannels_pending (l : List Channel) (s : State) : (s.withChannels l).pending = s.pending := rfl

@[simp] theorem mapInUse_uid (f : Nat → Channel → Channel) (s : State) : (mapInUse f s).uid = s.uid := rfl
@[simp] theorem mapInUse_loader (f : Nat → Channel → Channel) (s : State) : (mapInUse f s).loader = s.loader := rfl
@[simp] theorem mapInUse_control (f : Nat → Channel → Channel) (s : State) : (mapInUse f s).control = s.control := rfl
@[simp] theorem mapInUse_dir (f : Nat → Channel → Channel) (s : State) : (mapInUse f s).dir = s.dir := rfl
@[simp] theorem mapInUse_bus (f : Nat → Channel → Channel) (s : State) : (mapInUse f s).bus = s.bus := rfl
@[simp] theorem mapInUse_tracker (f : Nat → Channel → Channel) (s : State) : (mapInUse f s).tracker = s.tracker := rfl
@[simp] theorem mapInUse_recipes (f : Nat → Channel → Channel) (s : State) : (mapInUse f s).recipes = s.recipes := rfl
@[simp] theorem mapInUse_spray (f : Nat → Channel → Channel) (s : State) : (mapInUse f s).spray = s.spray := rfl
@[simp] theorem mapInUse_heater (f : Nat → Channel → Channel) (s : State) : (mapInUse f s).heater = { s.heater with channels := s.heater.channels.mapIdx (fun n c => if s.inUse n then f n c else c) } := rfl
@[simp] theorem mapInUse_shares (f : Nat → Channel → Channel) (s : State) : (mapInUse f s).shares = s.shares := rfl
@[simp] theorem mapInUse_pot (f : Nat → Channel → Channel) (s : State) : (mapInUse f s).pot = s.pot := rfl
@[simp] theorem mapInUse_extraction (f : Nat → Channel → Channel) (s : State) : (mapInUse f s).extraction = s.extraction := rfl
@[simp] theorem mapInUse_alarms (f : Nat → Channel → Channel) (s : State) : (mapInUse f s).alarms = s.alarms := rfl
@[simp] theorem mapInUse_groups (f : Nat → Channel → Channel) (s : State) : (mapInUse f s).groups = s.groups := rfl
@[simp] theorem mapInUse_free (f : Nat → Channel → Channel) (s : State) : (mapInUse f s).free = s.free := rfl
@[simp] theorem mapInUse_pending (f : Nat → Channel → Channel) (s : State) : (mapInUse f s).pending = s.pending := rfl

@[simp] theorem recost_uid (s : State) : (recost s).uid = s.uid := rfl
@[simp] theorem recost_loader (s : State) : (recost s).loader = s.loader := rfl
@[simp] theorem recost_control (s : State) : (recost s).control = s.control := rfl
@[simp] theorem recost_dir (s : State) : (recost s).dir = s.dir := rfl
@[simp] theorem recost_bus (s : State) : (recost s).bus = s.bus := rfl
@[simp] theorem recost_tracker (s : State) : (recost s).tracker = s.tracker := rfl
@[simp] theorem recost_recipes (s : State) : (recost s).recipes = s.recipes := rfl
@[simp] theorem recost_spray (s : State) : (recost s).spray = s.spray := rfl
@[simp] theorem recost_heater (s : State) : (recost s).heater = { s.heater with cost := s.demandCost, shortfall := s.demandCost - s.shares.held } := rfl
@[simp] theorem recost_shares (s : State) : (recost s).shares = s.shares := rfl
@[simp] theorem recost_pot (s : State) : (recost s).pot = s.pot := rfl
@[simp] theorem recost_extraction (s : State) : (recost s).extraction = s.extraction := rfl
@[simp] theorem recost_alarms (s : State) : (recost s).alarms = s.alarms := rfl
@[simp] theorem recost_groups (s : State) : (recost s).groups = s.groups := rfl
@[simp] theorem recost_free (s : State) : (recost s).free = s.free := rfl
@[simp] theorem recost_pending (s : State) : (recost s).pending = s.pending := rfl

@[simp] theorem State.withSlots_uid (l : List Slot) (s : State) : (s.withSlots l).uid = s.uid := rfl
@[simp] theorem State.withSlots_loader (l : List Slot) (s : State) : (s.withSlots l).loader = s.loader := rfl
@[simp] theorem State.withSlots_control (l : List Slot) (s : State) : (s.withSlots l).control = s.control := rfl
@[simp] theorem State.withSlots_dir (l : List Slot) (s : State) : (s.withSlots l).dir = s.dir := rfl
@[simp] theorem State.withSlots_bus (l : List Slot) (s : State) : (s.withSlots l).bus = s.bus := rfl
@[simp] theorem State.withSlots_tracker (l : List Slot) (s : State) : (s.withSlots l).tracker = s.tracker := rfl
@[simp] theorem State.withSlots_recipes (l : List Slot) (s : State) : (s.withSlots l).recipes = { s.recipes with slots := l } := rfl
@[simp] theorem State.withSlots_spray (l : List Slot) (s : State) : (s.withSlots l).spray = s.spray := rfl
@[simp] theorem State.withSlots_heater (l : List Slot) (s : State) : (s.withSlots l).heater = s.heater := rfl
@[simp] theorem State.withSlots_shares (l : List Slot) (s : State) : (s.withSlots l).shares = s.shares := rfl
@[simp] theorem State.withSlots_pot (l : List Slot) (s : State) : (s.withSlots l).pot = s.pot := rfl
@[simp] theorem State.withSlots_extraction (l : List Slot) (s : State) : (s.withSlots l).extraction = s.extraction := rfl
@[simp] theorem State.withSlots_alarms (l : List Slot) (s : State) : (s.withSlots l).alarms = s.alarms := rfl
@[simp] theorem State.withSlots_groups (l : List Slot) (s : State) : (s.withSlots l).groups = s.groups := rfl
@[simp] theorem State.withSlots_free (l : List Slot) (s : State) : (s.withSlots l).free = s.free := rfl
@[simp] theorem State.withSlots_pending (l : List Slot) (s : State) : (s.withSlots l).pending = s.pending := rfl

@[simp] theorem State.withLent_uid (l : List Loan) (s : State) : (s.withLent l).uid = s.uid := rfl
@[simp] theorem State.withLent_loader (l : List Loan) (s : State) : (s.withLent l).loader = s.loader := rfl
@[simp] theorem State.withLent_control (l : List Loan) (s : State) : (s.withLent l).control = s.control := rfl
@[simp] theorem State.withLent_dir (l : List Loan) (s : State) : (s.withLent l).dir = s.dir := rfl
@[simp] theorem State.withLent_bus (l : List Loan) (s : State) : (s.withLent l).bus = s.bus := rfl
@[simp] theorem State.withLent_tracker (l : List Loan) (s : State) : (s.withLent l).tracker = s.tracker := rfl
@[simp] theorem State.withLent_recipes (l : List Loan) (s : State) : (s.withLent l).recipes = s.recipes := rfl
@[simp] theorem State.withLent_spray (l : List Loan) (s : State) : (s.withLent l).spray = s.spray := rfl
@[simp] theorem State.withLent_heater (l : List Loan) (s : State) : (s.withLent l).heater = s.heater := rfl
@[simp] theorem State.withLent_shares (l : List Loan) (s : State) : (s.withLent l).shares = { s.shares with lent := l } := rfl
@[simp] theorem State.withLent_pot (l : List Loan) (s : State) : (s.withLent l).pot = s.pot := rfl
@[simp] theorem State.withLent_extraction (l : List Loan) (s : State) : (s.withLent l).extraction = s.extraction := rfl
@[simp] theorem State.withLent_alarms (l : List Loan) (s : State) : (s.withLent l).alarms = s.alarms := rfl
@[simp] theorem State.withLent_groups (l : List Loan) (s : State) : (s.withLent l).groups = s.groups := rfl
@[simp] theorem State.withLent_free (l : List Loan) (s : State) : (s.withLent l).free = s.free := rfl
@[simp] theorem State.withLent_pending (l : List Loan) (s : State) : (s.withLent l).pending = s.pending := rfl

@[simp] theorem State.withBorrowed_uid (l : List Loan) (s : State) : (s.withBorrowed l).uid = s.uid := rfl
@[simp] theorem State.withBorrowed_loader (l : List Loan) (s : State) : (s.withBorrowed l).loader = s.loader := rfl
@[simp] theorem State.withBorrowed_control (l : List Loan) (s : State) : (s.withBorrowed l).control = s.control := rfl
@[simp] theorem State.withBorrowed_dir (l : List Loan) (s : State) : (s.withBorrowed l).dir = s.dir := rfl
@[simp] theorem State.withBorrowed_bus (l : List Loan) (s : State) : (s.withBorrowed l).bus = s.bus := rfl
@[simp] theorem State.withBorrowed_tracker (l : List Loan) (s : State) : (s.withBorrowed l).tracker = s.tracker := rfl
@[simp] theorem State.withBorrowed_recipes (l : List Loan) (s : State) : (s.withBorrowed l).recipes = s.recipes := rfl
@[simp] theorem State.withBorrowed_spray (l : List Loan) (s : State) : (s.withBorrowed l).spray = s.spray := rfl
@[simp] theorem State.withBorrowed_heater (l : List Loan) (s : State) : (s.withBorrowed l).heater = s.heater := rfl
@[simp] theorem State.withBorrowed_shares (l : List Loan) (s : State) : (s.withBorrowed l).shares = { s.shares with borrowed := l } := rfl
@[simp] theorem State.withBorrowed_pot (l : List Loan) (s : State) : (s.withBorrowed l).pot = s.pot := rfl
@[simp] theorem State.withBorrowed_extraction (l : List Loan) (s : State) : (s.withBorrowed l).extraction = s.extraction := rfl
@[simp] theorem State.withBorrowed_alarms (l : List Loan) (s : State) : (s.withBorrowed l).alarms = s.alarms := rfl
@[simp] theorem State.withBorrowed_groups (l : List Loan) (s : State) : (s.withBorrowed l).groups = s.groups := rfl
@[simp] theorem State.withBorrowed_free (l : List Loan) (s : State) : (s.withBorrowed l).free = s.free := rfl
@[simp] theorem State.withBorrowed_pending (l : List Loan) (s : State) : (s.withBorrowed l).pending = s.pending := rfl

@[simp] theorem endNeed_uid (s : State) : (endNeed s).uid = s.uid := rfl
@[simp] theorem endNeed_loader (s : State) : (endNeed s).loader = s.loader := rfl
@[simp] theorem endNeed_control (s : State) : (endNeed s).control = s.control := rfl
@[simp] theorem endNeed_dir (s : State) : (endNeed s).dir = s.dir := rfl
@[simp] theorem endNeed_bus (s : State) : (endNeed s).bus = s.bus := rfl
@[simp] theorem endNeed_tracker (s : State) : (endNeed s).tracker = s.tracker := rfl
@[simp] theorem endNeed_recipes (s : State) : (endNeed s).recipes = s.recipes := rfl
@[simp] theorem endNeed_spray (s : State) : (endNeed s).spray = s.spray := rfl
@[simp] theorem endNeed_heater (s : State) : (endNeed s).heater = s.heater := rfl
@[simp] theorem endNeed_shares (s : State) : (endNeed s).shares = { s.shares with needAmount := 0, needTimer := .stopped } := rfl
@[simp] theorem endNeed_pot (s : State) : (endNeed s).pot = s.pot := rfl
@[simp] theorem endNeed_extraction (s : State) : (endNeed s).extraction = s.extraction := rfl
@[simp] theorem endNeed_alarms (s : State) : (endNeed s).alarms = s.alarms := rfl
@[simp] theorem endNeed_groups (s : State) : (endNeed s).groups = s.groups := rfl
@[simp] theorem endNeed_free (s : State) : (endNeed s).free = s.free := rfl
@[simp] theorem endNeed_pending (s : State) : (endNeed s).pending = s.pending := rfl

@[simp] theorem updateRecord_uid (i : Nat) (f : AlarmRecord → AlarmRecord) (s : State) : (updateRecord i f s).uid = s.uid := rfl
@[simp] theorem updateRecord_loader (i : Nat) (f : AlarmRecord → AlarmRecord) (s : State) : (updateRecord i f s).loader = s.loader := rfl
@[simp] theorem updateRecord_control (i : Nat) (f : AlarmRecord → AlarmRecord) (s : State) : (updateRecord i f s).control = s.control := rfl
@[simp] theorem updateRecord_dir (i : Nat) (f : AlarmRecord → AlarmRecord) (s : State) : (updateRecord i f s).dir = s.dir := rfl
@[simp] theorem updateRecord_bus (i : Nat) (f : AlarmRecord → AlarmRecord) (s : State) : (updateRecord i f s).bus = s.bus := rfl
@[simp] theorem updateRecord_tracker (i : Nat) (f : AlarmRecord → AlarmRecord) (s : State) : (updateRecord i f s).tracker = s.tracker := rfl
@[simp] theorem updateRecord_recipes (i : Nat) (f : AlarmRecord → AlarmRecord) (s : State) : (updateRecord i f s).recipes = s.recipes := rfl
@[simp] theorem updateRecord_spray (i : Nat) (f : AlarmRecord → AlarmRecord) (s : State) : (updateRecord i f s).spray = s.spray := rfl
@[simp] theorem updateRecord_heater (i : Nat) (f : AlarmRecord → AlarmRecord) (s : State) : (updateRecord i f s).heater = s.heater := rfl
@[simp] theorem updateRecord_shares (i : Nat) (f : AlarmRecord → AlarmRecord) (s : State) : (updateRecord i f s).shares = s.shares := rfl
@[simp] theorem updateRecord_pot (i : Nat) (f : AlarmRecord → AlarmRecord) (s : State) : (updateRecord i f s).pot = s.pot := rfl
@[simp] theorem updateRecord_extraction (i : Nat) (f : AlarmRecord → AlarmRecord) (s : State) : (updateRecord i f s).extraction = s.extraction := rfl
@[simp] theorem updateRecord_alarms (i : Nat) (f : AlarmRecord → AlarmRecord) (s : State) : (updateRecord i f s).alarms = { s.alarms with records := s.alarms.records.modify i f } := rfl
@[simp] theorem updateRecord_groups (i : Nat) (f : AlarmRecord → AlarmRecord) (s : State) : (updateRecord i f s).groups = s.groups := rfl
@[simp] theorem updateRecord_free (i : Nat) (f : AlarmRecord → AlarmRecord) (s : State) : (updateRecord i f s).free = s.free := rfl
@[simp] theorem updateRecord_pending (i : Nat) (f : AlarmRecord → AlarmRecord) (s : State) : (updateRecord i f s).pending = s.pending := rfl

@[simp] theorem updateCause_uid (i : Nat) (f : Cause → Cause) (s : State) : (updateCause i f s).uid = s.uid := rfl
@[simp] theorem updateCause_loader (i : Nat) (f : Cause → Cause) (s : State) : (updateCause i f s).loader = s.loader := rfl
@[simp] theorem updateCause_control (i : Nat) (f : Cause → Cause) (s : State) : (updateCause i f s).control = s.control := rfl
@[simp] theorem updateCause_dir (i : Nat) (f : Cause → Cause) (s : State) : (updateCause i f s).dir = s.dir := rfl
@[simp] theorem updateCause_bus (i : Nat) (f : Cause → Cause) (s : State) : (updateCause i f s).bus = s.bus := rfl
@[simp] theorem updateCause_tracker (i : Nat) (f : Cause → Cause) (s : State) : (updateCause i f s).tracker = s.tracker := rfl
@[simp] theorem updateCause_recipes (i : Nat) (f : Cause → Cause) (s : State) : (updateCause i f s).recipes = s.recipes := rfl
@[simp] theorem updateCause_spray (i : Nat) (f : Cause → Cause) (s : State) : (updateCause i f s).spray = s.spray := rfl
@[simp] theorem updateCause_heater (i : Nat) (f : Cause → Cause) (s : State) : (updateCause i f s).heater = s.heater := rfl
@[simp] theorem updateCause_shares (i : Nat) (f : Cause → Cause) (s : State) : (updateCause i f s).shares = s.shares := rfl
@[simp] theorem updateCause_pot (i : Nat) (f : Cause → Cause) (s : State) : (updateCause i f s).pot = s.pot := rfl
@[simp] theorem updateCause_extraction (i : Nat) (f : Cause → Cause) (s : State) : (updateCause i f s).extraction = s.extraction := rfl
@[simp] theorem updateCause_alarms (i : Nat) (f : Cause → Cause) (s : State) : (updateCause i f s).alarms = { s.alarms with causes := s.alarms.causes.mapIdx (fun k c => if k + 16 = i then f c else c) } := rfl
@[simp] theorem updateCause_groups (i : Nat) (f : Cause → Cause) (s : State) : (updateCause i f s).groups = s.groups := rfl
@[simp] theorem updateCause_free (i : Nat) (f : Cause → Cause) (s : State) : (updateCause i f s).free = s.free := rfl
@[simp] theorem updateCause_pending (i : Nat) (f : Cause → Cause) (s : State) : (updateCause i f s).pending = s.pending := rfl

@[simp] theorem clearOrphan_uid (r : Nat) (s : State) : (clearOrphan r s).uid = s.uid := rfl
@[simp] theorem clearOrphan_loader (r : Nat) (s : State) : (clearOrphan r s).loader = s.loader := rfl
@[simp] theorem clearOrphan_control (r : Nat) (s : State) : (clearOrphan r s).control = s.control := rfl
@[simp] theorem clearOrphan_dir (r : Nat) (s : State) : (clearOrphan r s).dir = s.dir := rfl
@[simp] theorem clearOrphan_bus (r : Nat) (s : State) : (clearOrphan r s).bus = s.bus := rfl
@[simp] theorem clearOrphan_tracker (r : Nat) (s : State) : (clearOrphan r s).tracker = s.tracker := rfl
@[simp] theorem clearOrphan_recipes (r : Nat) (s : State) : (clearOrphan r s).recipes = s.recipes := rfl
@[simp] theorem clearOrphan_spray (r : Nat) (s : State) : (clearOrphan r s).spray = s.spray := rfl
@[simp] theorem clearOrphan_heater (r : Nat) (s : State) : (clearOrphan r s).heater = s.heater := rfl
@[simp] theorem clearOrphan_shares (r : Nat) (s : State) : (clearOrphan r s).shares = s.shares := rfl
@[simp] theorem clearOrphan_pot (r : Nat) (s : State) : (clearOrphan r s).pot = s.pot := rfl
@[simp] theorem clearOrphan_extraction (r : Nat) (s : State) : (clearOrphan r s).extraction = s.extraction := rfl
@[simp] theorem clearOrphan_alarms (r : Nat) (s : State) : (clearOrphan r s).alarms = s.alarms := rfl
@[simp] theorem clearOrphan_groups (r : Nat) (s : State) : (clearOrphan r s).groups = { s.groups with orphans := s.groups.orphans.filter (· != r) } := rfl
@[simp] theorem clearOrphan_free (r : Nat) (s : State) : (clearOrphan r s).free = s.free := rfl
@[simp] theorem clearOrphan_pending (r : Nat) (s : State) : (clearOrphan r s).pending = s.pending := rfl

@[simp] theorem setEntry_uid (n : Nat) (e : Option DirEntry) (s : State) : (setEntry n e s).uid = s.uid := rfl
@[simp] theorem setEntry_loader (n : Nat) (e : Option DirEntry) (s : State) : (setEntry n e s).loader = s.loader := rfl
@[simp] theorem setEntry_control (n : Nat) (e : Option DirEntry) (s : State) : (setEntry n e s).control = s.control := rfl
@[simp] theorem setEntry_dir (n : Nat) (e : Option DirEntry) (s : State) : (setEntry n e s).dir = { s.dir with entries := s.dir.entries.set n e } := rfl
@[simp] theorem setEntry_bus (n : Nat) (e : Option DirEntry) (s : State) : (setEntry n e s).bus = s.bus := rfl
@[simp] theorem setEntry_tracker (n : Nat) (e : Option DirEntry) (s : State) : (setEntry n e s).tracker = s.tracker := rfl
@[simp] theorem setEntry_recipes (n : Nat) (e : Option DirEntry) (s : State) : (setEntry n e s).recipes = s.recipes := rfl
@[simp] theorem setEntry_spray (n : Nat) (e : Option DirEntry) (s : State) : (setEntry n e s).spray = s.spray := rfl
@[simp] theorem setEntry_heater (n : Nat) (e : Option DirEntry) (s : State) : (setEntry n e s).heater = s.heater := rfl
@[simp] theorem setEntry_shares (n : Nat) (e : Option DirEntry) (s : State) : (setEntry n e s).shares = s.shares := rfl
@[simp] theorem setEntry_pot (n : Nat) (e : Option DirEntry) (s : State) : (setEntry n e s).pot = s.pot := rfl
@[simp] theorem setEntry_extraction (n : Nat) (e : Option DirEntry) (s : State) : (setEntry n e s).extraction = s.extraction := rfl
@[simp] theorem setEntry_alarms (n : Nat) (e : Option DirEntry) (s : State) : (setEntry n e s).alarms = s.alarms := rfl
@[simp] theorem setEntry_groups (n : Nat) (e : Option DirEntry) (s : State) : (setEntry n e s).groups = s.groups := rfl
@[simp] theorem setEntry_free (n : Nat) (e : Option DirEntry) (s : State) : (setEntry n e s).free = s.free := rfl
@[simp] theorem setEntry_pending (n : Nat) (e : Option DirEntry) (s : State) : (setEntry n e s).pending = s.pending := rfl

@[simp] theorem State.withStall_uid (t : Timer) (s : State) : (s.withStall t).uid = s.uid := rfl
@[simp] theorem State.withStall_loader (t : Timer) (s : State) : (s.withStall t).loader = s.loader := rfl
@[simp] theorem State.withStall_control (t : Timer) (s : State) : (s.withStall t).control = s.control := rfl
@[simp] theorem State.withStall_dir (t : Timer) (s : State) : (s.withStall t).dir = s.dir := rfl
@[simp] theorem State.withStall_bus (t : Timer) (s : State) : (s.withStall t).bus = s.bus := rfl
@[simp] theorem State.withStall_tracker (t : Timer) (s : State) : (s.withStall t).tracker = { s.tracker with stall := t } := rfl
@[simp] theorem State.withStall_recipes (t : Timer) (s : State) : (s.withStall t).recipes = s.recipes := rfl
@[simp] theorem State.withStall_spray (t : Timer) (s : State) : (s.withStall t).spray = s.spray := rfl
@[simp] theorem State.withStall_heater (t : Timer) (s : State) : (s.withStall t).heater = s.heater := rfl
@[simp] theorem State.withStall_shares (t : Timer) (s : State) : (s.withStall t).shares = s.shares := rfl
@[simp] theorem State.withStall_pot (t : Timer) (s : State) : (s.withStall t).pot = s.pot := rfl
@[simp] theorem State.withStall_extraction (t : Timer) (s : State) : (s.withStall t).extraction = s.extraction := rfl
@[simp] theorem State.withStall_alarms (t : Timer) (s : State) : (s.withStall t).alarms = s.alarms := rfl
@[simp] theorem State.withStall_groups (t : Timer) (s : State) : (s.withStall t).groups = s.groups := rfl
@[simp] theorem State.withStall_free (t : Timer) (s : State) : (s.withStall t).free = s.free := rfl
@[simp] theorem State.withStall_pending (t : Timer) (s : State) : (s.withStall t).pending = s.pending := rfl

@[simp] theorem State.withUnderEye_uid (id : Option Nat) (s : State) : (s.withUnderEye id).uid = s.uid := rfl
@[simp] theorem State.withUnderEye_loader (id : Option Nat) (s : State) : (s.withUnderEye id).loader = s.loader := rfl
@[simp] theorem State.withUnderEye_control (id : Option Nat) (s : State) : (s.withUnderEye id).control = s.control := rfl
@[simp] theorem State.withUnderEye_dir (id : Option Nat) (s : State) : (s.withUnderEye id).dir = s.dir := rfl
@[simp] theorem State.withUnderEye_bus (id : Option Nat) (s : State) : (s.withUnderEye id).bus = s.bus := rfl
@[simp] theorem State.withUnderEye_tracker (id : Option Nat) (s : State) : (s.withUnderEye id).tracker = { s.tracker with underEye := id } := rfl
@[simp] theorem State.withUnderEye_recipes (id : Option Nat) (s : State) : (s.withUnderEye id).recipes = s.recipes := rfl
@[simp] theorem State.withUnderEye_spray (id : Option Nat) (s : State) : (s.withUnderEye id).spray = s.spray := rfl
@[simp] theorem State.withUnderEye_heater (id : Option Nat) (s : State) : (s.withUnderEye id).heater = s.heater := rfl
@[simp] theorem State.withUnderEye_shares (id : Option Nat) (s : State) : (s.withUnderEye id).shares = s.shares := rfl
@[simp] theorem State.withUnderEye_pot (id : Option Nat) (s : State) : (s.withUnderEye id).pot = s.pot := rfl
@[simp] theorem State.withUnderEye_extraction (id : Option Nat) (s : State) : (s.withUnderEye id).extraction = s.extraction := rfl
@[simp] theorem State.withUnderEye_alarms (id : Option Nat) (s : State) : (s.withUnderEye id).alarms = s.alarms := rfl
@[simp] theorem State.withUnderEye_groups (id : Option Nat) (s : State) : (s.withUnderEye id).groups = s.groups := rfl
@[simp] theorem State.withUnderEye_free (id : Option Nat) (s : State) : (s.withUnderEye id).free = s.free := rfl
@[simp] theorem State.withUnderEye_pending (id : Option Nat) (s : State) : (s.withUnderEye id).pending = s.pending := rfl

@[simp] theorem countUnreported_uid (s : State) : (countUnreported s).uid = s.uid := rfl
@[simp] theorem countUnreported_loader (s : State) : (countUnreported s).loader = s.loader := rfl
@[simp] theorem countUnreported_control (s : State) : (countUnreported s).control = s.control := rfl
@[simp] theorem countUnreported_dir (s : State) : (countUnreported s).dir = s.dir := rfl
@[simp] theorem countUnreported_bus (s : State) : (countUnreported s).bus = s.bus := rfl
@[simp] theorem countUnreported_tracker (s : State) : (countUnreported s).tracker = { s.tracker with unreported := bump s.tracker.unreported } := rfl
@[simp] theorem countUnreported_recipes (s : State) : (countUnreported s).recipes = s.recipes := rfl
@[simp] theorem countUnreported_spray (s : State) : (countUnreported s).spray = s.spray := rfl
@[simp] theorem countUnreported_heater (s : State) : (countUnreported s).heater = s.heater := rfl
@[simp] theorem countUnreported_shares (s : State) : (countUnreported s).shares = s.shares := rfl
@[simp] theorem countUnreported_pot (s : State) : (countUnreported s).pot = s.pot := rfl
@[simp] theorem countUnreported_extraction (s : State) : (countUnreported s).extraction = s.extraction := rfl
@[simp] theorem countUnreported_alarms (s : State) : (countUnreported s).alarms = s.alarms := rfl
@[simp] theorem countUnreported_groups (s : State) : (countUnreported s).groups = s.groups := rfl
@[simp] theorem countUnreported_free (s : State) : (countUnreported s).free = s.free := rfl
@[simp] theorem countUnreported_pending (s : State) : (countUnreported s).pending = s.pending := rfl

@[simp] theorem endHoldOver_uid (s : State) : (endHoldOver s).uid = s.uid := rfl
@[simp] theorem endHoldOver_loader (s : State) : (endHoldOver s).loader = s.loader := rfl
@[simp] theorem endHoldOver_control (s : State) : (endHoldOver s).control = s.control := rfl
@[simp] theorem endHoldOver_dir (s : State) : (endHoldOver s).dir = s.dir := rfl
@[simp] theorem endHoldOver_bus (s : State) : (endHoldOver s).bus = s.bus := rfl
@[simp] theorem endHoldOver_tracker (s : State) : (endHoldOver s).tracker = s.tracker := rfl
@[simp] theorem endHoldOver_recipes (s : State) : (endHoldOver s).recipes = { s.recipes with holdOver := none, holdTimer := .stopped } := rfl
@[simp] theorem endHoldOver_spray (s : State) : (endHoldOver s).spray = s.spray := rfl
@[simp] theorem endHoldOver_heater (s : State) : (endHoldOver s).heater = s.heater := rfl
@[simp] theorem endHoldOver_shares (s : State) : (endHoldOver s).shares = s.shares := rfl
@[simp] theorem endHoldOver_pot (s : State) : (endHoldOver s).pot = s.pot := rfl
@[simp] theorem endHoldOver_extraction (s : State) : (endHoldOver s).extraction = s.extraction := rfl
@[simp] theorem endHoldOver_alarms (s : State) : (endHoldOver s).alarms = s.alarms := rfl
@[simp] theorem endHoldOver_groups (s : State) : (endHoldOver s).groups = s.groups := rfl
@[simp] theorem endHoldOver_free (s : State) : (endHoldOver s).free = s.free := rfl
@[simp] theorem endHoldOver_pending (s : State) : (endHoldOver s).pending = s.pending := rfl

@[simp] theorem mapDucts_uid (f : Nat → Duct → Duct) (s : State) : (mapDucts f s).uid = s.uid := rfl
@[simp] theorem mapDucts_loader (f : Nat → Duct → Duct) (s : State) : (mapDucts f s).loader = s.loader := rfl
@[simp] theorem mapDucts_control (f : Nat → Duct → Duct) (s : State) : (mapDucts f s).control = s.control := rfl
@[simp] theorem mapDucts_dir (f : Nat → Duct → Duct) (s : State) : (mapDucts f s).dir = s.dir := rfl
@[simp] theorem mapDucts_bus (f : Nat → Duct → Duct) (s : State) : (mapDucts f s).bus = s.bus := rfl
@[simp] theorem mapDucts_tracker (f : Nat → Duct → Duct) (s : State) : (mapDucts f s).tracker = s.tracker := rfl
@[simp] theorem mapDucts_recipes (f : Nat → Duct → Duct) (s : State) : (mapDucts f s).recipes = s.recipes := rfl
@[simp] theorem mapDucts_spray (f : Nat → Duct → Duct) (s : State) : (mapDucts f s).spray = s.spray := rfl
@[simp] theorem mapDucts_heater (f : Nat → Duct → Duct) (s : State) : (mapDucts f s).heater = s.heater := rfl
@[simp] theorem mapDucts_shares (f : Nat → Duct → Duct) (s : State) : (mapDucts f s).shares = s.shares := rfl
@[simp] theorem mapDucts_pot (f : Nat → Duct → Duct) (s : State) : (mapDucts f s).pot = s.pot := rfl
@[simp] theorem mapDucts_extraction (f : Nat → Duct → Duct) (s : State) : (mapDucts f s).extraction = { s.extraction with ducts := s.extraction.ducts.mapIdx (fun n d => if s.ductEnabled n then f n d else d) } := rfl
@[simp] theorem mapDucts_alarms (f : Nat → Duct → Duct) (s : State) : (mapDucts f s).alarms = s.alarms := rfl
@[simp] theorem mapDucts_groups (f : Nat → Duct → Duct) (s : State) : (mapDucts f s).groups = s.groups := rfl
@[simp] theorem mapDucts_free (f : Nat → Duct → Duct) (s : State) : (mapDucts f s).free = s.free := rfl
@[simp] theorem mapDucts_pending (f : Nat → Duct → Duct) (s : State) : (mapDucts f s).pending = s.pending := rfl

@[simp] theorem workRequests_uid (s : State) : (workRequests s).uid = s.uid := rfl
@[simp] theorem workRequests_loader (s : State) : (workRequests s).loader = s.loader := rfl
@[simp] theorem workRequests_control (s : State) : (workRequests s).control = s.control := rfl
@[simp] theorem workRequests_dir (s : State) : (workRequests s).dir = s.dir := rfl
@[simp] theorem workRequests_bus (s : State) : (workRequests s).bus = s.bus := rfl
@[simp] theorem workRequests_tracker (s : State) : (workRequests s).tracker = s.tracker := rfl
@[simp] theorem workRequests_recipes (s : State) : (workRequests s).recipes = s.recipes := rfl
@[simp] theorem workRequests_spray (s : State) : (workRequests s).spray = s.spray := rfl
@[simp] theorem workRequests_heater (s : State) : (workRequests s).heater = s.heater := rfl
@[simp] theorem workRequests_shares (s : State) : (workRequests s).shares = s.shares := rfl
@[simp] theorem workRequests_pot (s : State) : (workRequests s).pot = { s.pot with mainRequest := s.mainRequest, chipRequest := s.chipRequest } := rfl
@[simp] theorem workRequests_extraction (s : State) : (workRequests s).extraction = s.extraction := rfl
@[simp] theorem workRequests_alarms (s : State) : (workRequests s).alarms = s.alarms := rfl
@[simp] theorem workRequests_groups (s : State) : (workRequests s).groups = s.groups := rfl
@[simp] theorem workRequests_free (s : State) : (workRequests s).free = s.free := rfl
@[simp] theorem workRequests_pending (s : State) : (workRequests s).pending = s.pending := rfl

@[simp] theorem closeFrame_uid (s : State) : (closeFrame s).uid = s.uid := rfl
@[simp] theorem closeFrame_loader (s : State) : (closeFrame s).loader = s.loader := rfl
@[simp] theorem closeFrame_control (s : State) : (closeFrame s).control = s.control := rfl
@[simp] theorem closeFrame_dir (s : State) : (closeFrame s).dir = s.dir := rfl
@[simp] theorem closeFrame_bus (s : State) : (closeFrame s).bus = { s.bus with onWire := none, frameStart := none, answer := ⟨false, false, false⟩ } := rfl
@[simp] theorem closeFrame_tracker (s : State) : (closeFrame s).tracker = s.tracker := rfl
@[simp] theorem closeFrame_recipes (s : State) : (closeFrame s).recipes = s.recipes := rfl
@[simp] theorem closeFrame_spray (s : State) : (closeFrame s).spray = s.spray := rfl
@[simp] theorem closeFrame_heater (s : State) : (closeFrame s).heater = s.heater := rfl
@[simp] theorem closeFrame_shares (s : State) : (closeFrame s).shares = s.shares := rfl
@[simp] theorem closeFrame_pot (s : State) : (closeFrame s).pot = s.pot := rfl
@[simp] theorem closeFrame_extraction (s : State) : (closeFrame s).extraction = s.extraction := rfl
@[simp] theorem closeFrame_alarms (s : State) : (closeFrame s).alarms = s.alarms := rfl
@[simp] theorem closeFrame_groups (s : State) : (closeFrame s).groups = s.groups := rfl
@[simp] theorem closeFrame_free (s : State) : (closeFrame s).free = s.free := rfl
@[simp] theorem closeFrame_pending (s : State) : (closeFrame s).pending = s.pending := rfl

@[simp] theorem dropReservation_uid (s : State) : (dropReservation s).uid = s.uid := rfl
@[simp] theorem dropReservation_loader (s : State) : (dropReservation s).loader = s.loader := rfl
@[simp] theorem dropReservation_control (s : State) : (dropReservation s).control = s.control := rfl
@[simp] theorem dropReservation_dir (s : State) : (dropReservation s).dir = s.dir := rfl
@[simp] theorem dropReservation_bus (s : State) : (dropReservation s).bus = { s.bus with reservation := none } := rfl
@[simp] theorem dropReservation_tracker (s : State) : (dropReservation s).tracker = s.tracker := rfl
@[simp] theorem dropReservation_recipes (s : State) : (dropReservation s).recipes = s.recipes := rfl
@[simp] theorem dropReservation_spray (s : State) : (dropReservation s).spray = s.spray := rfl
@[simp] theorem dropReservation_heater (s : State) : (dropReservation s).heater = s.heater := rfl
@[simp] theorem dropReservation_shares (s : State) : (dropReservation s).shares = s.shares := rfl
@[simp] theorem dropReservation_pot (s : State) : (dropReservation s).pot = s.pot := rfl
@[simp] theorem dropReservation_extraction (s : State) : (dropReservation s).extraction = s.extraction := rfl
@[simp] theorem dropReservation_alarms (s : State) : (dropReservation s).alarms = s.alarms := rfl
@[simp] theorem dropReservation_groups (s : State) : (dropReservation s).groups = s.groups := rfl
@[simp] theorem dropReservation_free (s : State) : (dropReservation s).free = s.free := rfl
@[simp] theorem dropReservation_pending (s : State) : (dropReservation s).pending = s.pending := rfl

@[simp] theorem endFrame_uid (s : State) : (endFrame s).uid = s.uid := rfl
@[simp] theorem endFrame_loader (s : State) : (endFrame s).loader = s.loader := rfl
@[simp] theorem endFrame_control (s : State) : (endFrame s).control = s.control := rfl
@[simp] theorem endFrame_dir (s : State) : (endFrame s).dir = s.dir := rfl
@[simp] theorem endFrame_bus (s : State) : (endFrame s).bus = { s.bus with onWire := none, frameStart := none, answer := ⟨false, false, false⟩, reservation := none } := rfl
@[simp] theorem endFrame_tracker (s : State) : (endFrame s).tracker = s.tracker := rfl
@[simp] theorem endFrame_recipes (s : State) : (endFrame s).recipes = s.recipes := rfl
@[simp] theorem endFrame_spray (s : State) : (endFrame s).spray = s.spray := rfl
@[simp] theorem endFrame_heater (s : State) : (endFrame s).heater = s.heater := rfl
@[simp] theorem endFrame_shares (s : State) : (endFrame s).shares = s.shares := rfl
@[simp] theorem endFrame_pot (s : State) : (endFrame s).pot = s.pot := rfl
@[simp] theorem endFrame_extraction (s : State) : (endFrame s).extraction = s.extraction := rfl
@[simp] theorem endFrame_alarms (s : State) : (endFrame s).alarms = s.alarms := rfl
@[simp] theorem endFrame_groups (s : State) : (endFrame s).groups = s.groups := rfl
@[simp] theorem endFrame_free (s : State) : (endFrame s).free = s.free := rfl
@[simp] theorem endFrame_pending (s : State) : (endFrame s).pending = s.pending := rfl

@[simp] theorem State.withPending_uid (l : List Instr) (s : State) : (s.withPending l).uid = s.uid := rfl
@[simp] theorem State.withPending_loader (l : List Instr) (s : State) : (s.withPending l).loader = s.loader := rfl
@[simp] theorem State.withPending_control (l : List Instr) (s : State) : (s.withPending l).control = s.control := rfl
@[simp] theorem State.withPending_dir (l : List Instr) (s : State) : (s.withPending l).dir = s.dir := rfl
@[simp] theorem State.withPending_bus (l : List Instr) (s : State) : (s.withPending l).bus = s.bus := rfl
@[simp] theorem State.withPending_tracker (l : List Instr) (s : State) : (s.withPending l).tracker = s.tracker := rfl
@[simp] theorem State.withPending_recipes (l : List Instr) (s : State) : (s.withPending l).recipes = s.recipes := rfl
@[simp] theorem State.withPending_spray (l : List Instr) (s : State) : (s.withPending l).spray = s.spray := rfl
@[simp] theorem State.withPending_heater (l : List Instr) (s : State) : (s.withPending l).heater = s.heater := rfl
@[simp] theorem State.withPending_shares (l : List Instr) (s : State) : (s.withPending l).shares = s.shares := rfl
@[simp] theorem State.withPending_pot (l : List Instr) (s : State) : (s.withPending l).pot = s.pot := rfl
@[simp] theorem State.withPending_extraction (l : List Instr) (s : State) : (s.withPending l).extraction = s.extraction := rfl
@[simp] theorem State.withPending_alarms (l : List Instr) (s : State) : (s.withPending l).alarms = s.alarms := rfl
@[simp] theorem State.withPending_groups (l : List Instr) (s : State) : (s.withPending l).groups = s.groups := rfl
@[simp] theorem State.withPending_free (l : List Instr) (s : State) : (s.withPending l).free = s.free := rfl
@[simp] theorem State.withPending_pending (l : List Instr) (s : State) : (s.withPending l).pending = l := rfl

end Sys2Proof.Machine
end

