-- ==== Sys2Proof/Laws/Moves.lean ====
section
/-! SUPPORT. What every shared operation of a cascade can do, said once: `Moves s t`. -/

namespace Sys2Proof.Machine

open Sys2Proof

/-- `t` may follow `s` in the same event: the steady part is the same, the transmit queue still fits, the grants still fit,
and a station that is not JOINED stays at rest. -/
structure Moves (s t : State) : Prop where
  steady : t.steady = s.steady
  places : s.TxFits → t.TxFits
  grants : s.GrantsFit → t.GrantsFit
  rest   : s.joined = false → s.AtRest → t.AtRest

theorem Moves.refl (s : State) : Moves s s := ⟨rfl, id, id, fun _ h => h⟩

theorem State.joined_of_steady {s t : State} (h : t.steady = s.steady) : t.joined = s.joined := by
  have : t.steady.joined = s.steady.joined := by rw [h]
  exact this

theorem State.cfg_of_steady {s t : State} (h : t.steady = s.steady) : t.cfg = s.cfg := by
  have : t.steady.cfg = s.steady.cfg := by rw [h]
  exact this

/-- What the steady part shows is the same after. -/
theorem Moves.read {s t : State} (h : Moves s t) {α : Type} (g : State → α) (hg : ∀ x : State, g x.steady = g x) :
    g t = g s := by
  rw [← hg t, ← hg s, h.steady]

theorem Moves.joined {s t : State} (h : Moves s t) : t.joined = s.joined := State.joined_of_steady h.steady

theorem Moves.cfg {s t : State} (h : Moves s t) : t.cfg = s.cfg := State.cfg_of_steady h.steady

theorem Moves.trans {s t u : State} (h : Moves s t) (k : Moves t u) : Moves s u :=
  ⟨k.steady.trans h.steady, fun x => k.places (h.places x), fun x => k.grants (h.grants x),
    fun j r => k.rest (h.joined.trans j) (h.rest j r)⟩

theorem Moves.ite {s t u : State} (c : Prop) [Decidable c] (h : Moves s t) (k : Moves s u) : Moves s (if c then t else u) := by
  by_cases hc : c
  · rw [if_pos hc]; exact h
  · rw [if_neg hc]; exact k

theorem Moves.foldl {α : Type} {f : State → α → State} (h : ∀ s a, Moves s (f s a)) (l : List α) (s : State) :
    Moves s (l.foldl f s) := by
  induction l generalizing s with
  | nil => exact Moves.refl s
  | cons a l ih => exact (h s a).trans (ih _)

/-! ## The transmit queue -/

theorem txFits_iff (s : State) : s.TxFits ↔ s.txUsed ≤ 16 := Iff.rfl

/-- A frame that is admitted finds a free place (R165). -/
theorem admits_room {s : State} {cls : Nat} (h : s.admits cls = true) : s.txUsed + 1 ≤ 16 := by
  unfold State.admits State.txFree at h
  have h1 : classThreshold cls ≤ 16 - s.txUsed := of_decide_eq_true h
  have h2 : 1 ≤ classThreshold cls := by
    unfold classThreshold
    split
    · omega
    · split
      · omega
      · split <;> omega
  omega

theorem txUsed_push (s : State) (f : TxFrame) : (s.push f).txUsed = s.txUsed + 1 := by
  simp [State.txUsed, List.length_append]
  omega

theorem moves_withTx {s : State} {q : List TxFrame} (h : s.TxFits → (s.withTx q).TxFits) : Moves s (s.withTx q) :=
  ⟨rfl, h, id, fun _ r => r⟩

theorem moves_push {s : State} {f : TxFrame} {cls : Nat} (h : s.admits cls = true) : Moves s (s.push f) :=
  moves_withTx (fun _ => by have := admits_room h; show (s.push f).txUsed ≤ 16; rw [txUsed_push]; exact this)

theorem moves_withTx_le {s : State} {q : List TxFrame} (h : q.length ≤ s.bus.queue.length) : Moves s (s.withTx q) :=
  moves_withTx (fun k => by
    have k' : s.bus.queue.length + _ ≤ 16 := k
    show q.length + _ ≤ 16
    exact Nat.le_trans (Nat.add_le_add_right h _) k')

theorem moves_withdrawFrames (p : TxFrame → Bool) (s : State) : Moves s (withdrawFrames p s) :=
  moves_withTx_le (List.length_filter_le _ _)

theorem moves_queueOrDrop (f : TxFrame) (s : State) : Moves s (queueOrDrop f s) := by
  unfold queueOrDrop
  split
  · exact moves_push ‹_›
  · exact Moves.refl s

theorem moves_queueStatus (s : State) : Moves s (queueStatus s) := Moves.ite _ (Moves.refl s) (moves_queueOrDrop _ s)

/-! ## Boards and marks -/

/-- A record may change where the steady part does not see it. -/
theorem moves_updateBoard {id : Nat} {f : Board → Board} (h : ∀ b, boardKeep (f b) = boardKeep b) (s : State) :
    Moves s (updateBoard id f s) := by
  refine ⟨?_, fun x => x, fun x => x, ?_⟩
  · have : (s.tracker.queue.map (fun b => if b.line.id == id then f b else b)).map boardKeep
        = s.tracker.queue.map boardKeep := by
      rw [List.map_map]
      apply List.map_congr_left
      intro b _
      simp only [Function.comp]
      split
      · exact h b
      · rfl
    simp only [State.steady, updateBoard_uid, updateBoard_loader, updateBoard_control, updateBoard_dir, updateBoard_bus,
      updateBoard_tracker, updateBoard_recipes, updateBoard_spray, updateBoard_heater, updateBoard_shares, updateBoard_pot,
      updateBoard_extraction, updateBoard_alarms, updateBoard_groups, updateBoard_free, updateBoard_pending, this]
  · intro _ r
    have hq : s.tracker.queue = [] := r.2.2.2.1
    refine ⟨r.1, r.2.1, r.2.2.1, ?_, r.2.2.2.2⟩
    show List.map _ s.tracker.queue = []
    rw [hq]; rfl

theorem moves_updateLine {id : Nat} {f : LineRecord → LineRecord}
    (h : ∀ r, { f r with marks := [], markOverflow := false } = { r with marks := [], markOverflow := false }) (s : State) :
    Moves s (updateLine id f s) :=
  moves_updateBoard (fun b => by simp only [boardKeep]; rw [h]) s

theorem addPair_keep (m : Mark) (r : LineRecord) :
    { addPair m r with marks := [], markOverflow := false } = { r with marks := [], markOverflow := false } := by
  unfold addPair
  split
  · rfl
  · split <;> rfl

/-- Adding a mark changes marks and the transmit queue only (R19). -/
theorem moves_addMark (id code : Nat) (s : State) : Moves s (addMark id code s) := by
  unfold addMark
  split
  · exact Moves.refl s
  · exact Moves.ite _ (Moves.refl s) ((moves_updateLine (addPair_keep _) s).trans (moves_queueOrDrop _ _))

theorem moves_markBoards (p : Board → Bool) (code : Nat) (s : State) : Moves s (markBoards p code s) :=
  Moves.foldl (fun s id => moves_addMark id code s) _ s

/-! ## The spray unit -/

theorem moves_withShots {s : State} {l : List (Option Owner)}
    (h : s.joined = false → (∀ o ∈ s.spray.oneShots, o = none) → ∀ o ∈ l, o = none) : Moves s (s.withShots l) :=
  ⟨rfl, fun x => x, fun x => x, fun j r =>
    ⟨r.1, r.2.1, r.2.2.1, r.2.2.2.1, h j r.2.2.2.2.1, r.2.2.2.2.2⟩⟩

theorem moves_mapShots {f : Option Owner → Option Owner} (h : f none = none) (s : State) :
    Moves s (s.withShots (s.spray.oneShots.map f)) :=
  moves_withShots (fun _ k o ho => by
    obtain ⟨x, hx, rfl⟩ := List.mem_map.1 ho
    rw [k x hx]; exact h)

theorem moves_closeShots (o : Owner) (s : State) : Moves s (closeShots o s) := moves_mapShots rfl s

theorem moves_disownShots (id : Nat) (s : State) : Moves s (disownShots id s) := moves_mapShots rfl s

theorem moves_dropCounting (id : Nat) (s : State) : Moves s (dropCounting id s) := by
  unfold dropCounting
  exact Moves.ite _ ⟨rfl, fun x => x, fun x => x, fun _ r => r⟩ (Moves.refl s)

theorem moves_flowCheck (id : Nat) (s : State) : Moves s (flowCheck id s) := by
  unfold flowCheck
  split
  · exact Moves.refl s
  · exact Moves.ite _ (((moves_updateBoard (fun b => by rfl) s).trans (moves_dropCounting id _)).trans
      (Moves.foldl (fun s c => moves_addMark id c s) _ _)) (Moves.refl s)

theorem moves_flowCheckAll (s : State) : Moves s (flowCheckAll s) := Moves.foldl (fun s id => moves_flowCheck id s) _ s

theorem moves_restartLag (id : Nat) (s : State) : Moves s (restartLag id s) := moves_updateBoard (fun _ => by rfl) s

theorem moves_markNotFluxed (id : Nat) (s : State) : Moves s (markNotFluxed id s) := by
  unfold markNotFluxed
  split
  · exact Moves.refl s
  · exact Moves.ite _ (Moves.refl s) ((moves_addMark id 1 s).trans (moves_updateBoard (fun _ => by rfl) _))

theorem moves_closeBoardShots (s : State) : Moves s (closeBoardShots s) := moves_mapShots rfl s

theorem moves_truncateShots (s : State) : Moves s (truncateShots s) :=
  (moves_closeBoardShots s).trans
    (Moves.foldl (fun s id => (moves_restartLag id s).trans (moves_markNotFluxed id _)) _ _)

theorem valvesShut_of_offline {s : State} (h : s.joined = false) : s.valvesShut = true := by simp [State.valvesShut, h]

theorem moves_serviceShots (s : State) : Moves s (serviceShots s) :=
  moves_withShots (fun j h o ho => by
    obtain ⟨n, hn, rfl⟩ := List.mem_mapIdx.1 ho
    have hx := h _ (List.getElem_mem hn)
    rw [hx]
    simp [State.serviceOpens, valvesShut_of_offline j])

theorem moves_sprayUpdate (s : State) : Moves s (sprayUpdate s) :=
  ((Moves.ite _ (moves_truncateShots s) (Moves.refl s)).trans (moves_serviceShots _)).trans (moves_flowCheckAll _)

/-! ## The pot unit -/

theorem lockCondition_of_offline {s : State} (h : s.joined = false) : s.lockCondition = true := by
  simp [State.lockCondition, h]

theorem nextPump_locked (allowed : Bool) (r : Option Nat) (settle : Nat) (p : Pump) :
    nextPump true allowed r settle p = Pump.blank := rfl

theorem moves_leftUp (a b : Pump) (s : State) : Moves s (leftUp a b s) :=
  Moves.ite _ (moves_markBoards _ 6 s) (Moves.refl s)

theorem moves_setMain {s : State} {p : Pump} (h : s.joined = false → p = .blank) : Moves s (setMain p s) :=
  Moves.trans (t := { s with pot := { s.pot with main := p } })
    ⟨rfl, fun x => x, fun x => x, fun j r => by
      obtain ⟨a, b, c, d, e, f, g, i, _, l⟩ := r
      exact ⟨a, b, c, d, e, f, g, i, h j, l⟩⟩ (moves_leftUp _ _ _)

theorem moves_setChip {s : State} {p : Pump} (h : s.joined = false → p = .blank) : Moves s (setChip p s) :=
  Moves.trans (t := { s with pot := { s.pot with chip := p } })
    ⟨rfl, fun x => x, fun x => x, fun j r => by
      obtain ⟨a, b, c, d, e, f, g, i, m, _, l⟩ := r
      exact ⟨a, b, c, d, e, f, g, i, m, h j, l⟩⟩ (moves_leftUp _ _ _)

theorem moves_feeder {s : State} {b : Bool} {t : Timer} (h : s.joined = false → s.pot.feeding = false → b = false) :
    Moves s { s with pot := { s.pot with feeding := b, feedTimer := t } } :=
  ⟨rfl, fun x => x, fun x => x, fun j r => by
    obtain ⟨a, b, c, d, e, f, g, i, m, n, k, l⟩ := r
    exact ⟨a, b, c, d, e, f, g, i, m, n, h j k, l⟩⟩

theorem moves_feederUpdate (s : State) : Moves s (feederUpdate s) := by
  unfold feederUpdate
  split
  · exact Moves.ite _ (moves_feeder (fun _ _ => rfl)) (Moves.refl s)
  · split
    · rename_i hs
      refine moves_feeder (fun j _ => ?_)
      simp [State.feederStarts, State.feederAllowed, j] at hs
    · exact Moves.refl s

theorem moves_potUpdate (s : State) : Moves s (potUpdate s) := by
  unfold potUpdate
  have h1 : Moves s (setMain (nextPump s.lockCondition s.raiseAllowed s.pot.mainRequest s.cfg.settleTime s.pot.main) s) :=
    moves_setMain (fun j => by rw [lockCondition_of_offline j]; rfl)
  refine (h1.trans (moves_setChip (fun j => ?_))).trans (moves_feederUpdate _)
  rw [lockCondition_of_offline (h1.joined.symm.trans j)]; rfl

/-! ## The heater unit -/

theorem dutyCost_mono {r a b : Nat} (h : a ≤ b) : dutyCost r a ≤ dutyCost r b :=
  Nat.div_le_div_right (Nat.add_le_add_right (Nat.mul_le_mul_left r h) 255)

theorem sum_map_le {l : List Nat} {f g : Nat → Nat} (h : ∀ n ∈ l, f n ≤ g n) : (l.map f).sum ≤ (l.map g).sum := by
  induction l with
  | nil => exact Nat.le_refl 0
  | cons a l ih =>
    simp only [List.map_cons, List.sum_cons]
    exact Nat.add_le_add (h a (List.mem_cons_self ..)) (ih (fun n hn => h n (List.mem_cons_of_mem a hn)))

/-- Channels whose grants have not risen still fit in the same held shares. -/
theorem grantsFit_of_le {s t : State} (hj : t.joined = s.joined) (hc : t.cfg = s.cfg) (hh : s.shares.held ≤ t.shares.held)
    (h : ∀ n, s.inUse n = true → (t.channel n).grant ≤ (s.channel n).grant) : s.GrantsFit → t.GrantsFit := by
  intro k
  have hcc : ∀ n, t.channelConfig n = s.channelConfig n := fun n => by simp only [State.channelConfig, hc]
  have hu : ∀ n, t.inUse n = s.inUse n := fun n => by simp only [State.inUse, hj, hcc]
  refine Nat.le_trans (sum_map_le (g := fun n =>
    if s.inUse n then dutyCost (s.channelConfig n).rated (s.channel n).grant else 0) ?_) (Nat.le_trans k hh)
  intro n _
  simp only [hu, hcc]
  split
  · exact dutyCost_mono (h n ‹_›)
  · exact Nat.le_refl 0

theorem channel_mapIdx (s : State) (f : Nat → Channel → Channel) (n : Nat) :
    (s.withChannels (s.heater.channels.mapIdx f)).channel n
      = if n < s.heater.channels.length then f n (s.channel n) else .blank := by
  simp only [State.channel, State.withChannels_heater, List.getD_eq_getElem?_getD, List.getElem?_mapIdx]
  split
  · rename_i h; simp [List.getElem?_eq_getElem h]
  · rename_i h; simp [List.getElem?_eq_none (Nat.le_of_not_lt h)]

theorem recost_idem_steady (s : State) : (recost s).steady = s.steady := rfl

theorem moves_recost (s : State) : Moves s (recost s) := ⟨rfl, fun x => x, fun x => x, fun _ r => r⟩

/-- Channels may be changed where the setpoint, the integral and the freeze history stay and no grant rises. -/
theorem moves_mapInUse {f : Nat → Channel → Channel} (hk : ∀ n c, channelKeep (f n c) = channelKeep c)
    (hg : ∀ n c, (f n c).grant ≤ c.grant) (s : State) : Moves s (mapInUse f s) := by
  refine ⟨?_, fun x => x, ?_, ?_⟩
  · have : (s.heater.channels.mapIdx (fun n c => if s.inUse n then f n c else c)).map channelKeep
        = s.heater.channels.map channelKeep := by
      apply List.ext_getElem
      · simp
      · intro i h1 h2
        simp only [List.getElem_map, List.getElem_mapIdx]
        split
        · exact hk _ _
        · rfl
    simp only [State.steady, mapInUse_uid, mapInUse_loader, mapInUse_control, mapInUse_dir, mapInUse_bus, mapInUse_tracker,
      mapInUse_recipes, mapInUse_spray, mapInUse_heater, mapInUse_shares, mapInUse_pot, mapInUse_extraction, mapInUse_alarms,
      mapInUse_groups, mapInUse_free, mapInUse_pending, this]
  · refine grantsFit_of_le rfl rfl (Nat.le_refl _) (fun n hu => ?_)
    show ((s.withChannels _).channel n).grant ≤ _
    rw [channel_mapIdx]
    simp only [hu, if_true]
    split
    · exact hg _ _
    · exact Nat.zero_le _
  · intro j r
    obtain ⟨a, b, c, d, e, hch, l⟩ := r
    refine ⟨a, b, c, d, e, ?_, l⟩
    intro x hx
    obtain ⟨n, hn, rfl⟩ := List.mem_mapIdx.1 hx
    have : s.inUse n = false := by simp [State.inUse, j]
    simp only [this]
    exact hch _ (List.getElem_mem hn)

theorem lowerGrant_keep (p slot g : Nat) (c : Channel) : channelKeep (lowerGrant p slot g c) = channelKeep c := rfl

theorem zeroDemand_keep (p slot : Nat) (c : Channel) : channelKeep (zeroDemand p slot c) = channelKeep c := rfl

theorem zeroDemand_grant (p slot : Nat) (c : Channel) : (zeroDemand p slot c).grant = 0 := Nat.min_zero c.grant

theorem moves_forcedFalls (s : State) : Moves s (forcedFalls s) := by
  unfold forcedFalls
  refine Moves.ite _ ((moves_mapInUse (fun n c => ?_) (fun n c => ?_) s).trans (moves_recost _)) (Moves.refl s)
  · split <;> rfl
  · split
    · rw [zeroDemand_grant]; exact Nat.zero_le _
    · exact Nat.le_refl _

/-! ## State control -/

theorem moves_control {s : State} {c : Control} (h1 : c.station = s.control.station) (h2 : c.mode = s.control.mode)
    (h3 : c.service = s.control.service) (h4 : c.tripOthers = s.control.tripOthers)
    (h5 : c.permitOthers = s.control.permitOthers) (h6 : s.joined = false → s.control.condition = .normal → c.condition = .normal) :
    Moves s { s with control := c } := by
  have hc : { s with control := c }.joined = s.joined := by simp only [State.joined, h1]
  refine ⟨?_, fun x => x, fun x => ?_, fun j r => ?_⟩
  · simp only [State.steady, h1, h2, h3, h4, h5]
  · exact grantsFit_of_le hc rfl (Nat.le_refl _) (fun _ _ => Nat.le_refl _) x
  · obtain ⟨a, b, d, l⟩ := r
    exact ⟨h2.trans a, h6 j b, h3.trans d, l⟩

theorem lineSensed_keeps (b : Bool) (c : Control) :
    (lineSensed b c).station = c.station ∧ (lineSensed b c).mode = c.mode ∧ (lineSensed b c).service = c.service
      ∧ (lineSensed b c).tripOthers = c.tripOthers ∧ (lineSensed b c).permitOthers = c.permitOthers
      ∧ (lineSensed b c).condition = c.condition ∧ (lineSensed b c).tripSensed = c.tripSensed
      ∧ (lineSensed b c).permitSensed = c.permitSensed := by
  unfold lineSensed
  split
  · split <;> simp
  · simp

theorem moves_senseTrip (s : State) : Moves s (senseTrip s) := by
  unfold senseTrip
  refine Moves.ite _ (Moves.refl s) ?_
  by_cases hj : s.joined = true
  · simp only [hj, if_true]
    obtain ⟨a, b, c, d, e, f, _⟩ := lineSensed_keeps s.tripLevel { s.control with tripSensed := s.tripLevel }
    exact moves_control a b c d e (fun _ h => f.trans h)
  · simp only [hj]
    exact moves_control rfl rfl rfl rfl rfl (fun _ h => h)

theorem moves_conditionMarks (c : Condition) (s : State) : Moves s (conditionMarks c s) := by
  unfold conditionMarks
  split
  · exact moves_markBoards _ 11 s
  · exact moves_markBoards _ 11 s
  · exact (Moves.ite _ (moves_markBoards _ 12 s) (Moves.refl s)).trans
      (Moves.ite _ (moves_markBoards _ 12 _) (Moves.refl _))
  · exact Moves.refl s

theorem moves_setCondition {c : Condition} {s : State} (h : s.joined = false → c = .normal) :
    Moves s (setCondition c s) :=
  (((((moves_control (c := { s.control with condition := c }) rfl rfl rfl rfl rfl (fun j _ => h j)).trans (moves_sprayUpdate _)).trans
    (moves_forcedFalls _)).trans (moves_potUpdate _)).trans (moves_conditionMarks c _)).trans (moves_queueStatus _)

/-- Deriving the condition again touches only what a change of condition reaches (R144). -/
theorem moves_recondition (s : State) : Moves s (recondition s) := by
  unfold recondition
  exact (moves_senseTrip s).trans (Moves.ite _ ((moves_sprayUpdate _).trans (moves_potUpdate _))
    (moves_setCondition (fun j => by simp [State.derivedCondition, j])))

end Sys2Proof.Machine
end

