-- ==== Sys2Proof/Laws/Core.lean ====
section
/-! SUPPORT. The condition follows the alarms, the groups and the trip line (R144, R145): which operations leave them as they
are, and that deriving the condition again makes it the derived one. -/

namespace Sys2Proof.Machine

open Sys2Proof

/-- What the derivation of the condition reads, and the condition. -/
def State.causes (s : State) : Loader × Control × List WatchEntry × List AlarmState × List Activity :=
  (s.loader, s.control, s.alarms.entries, s.alarms.records.map (·.state), s.groups.activity)

theorem alarmState_map (s : State) (i : Nat) : s.alarmState i = (s.alarms.records.map (·.state)).getD i .quiet := by
  unfold State.alarmState State.record
  rw [List.getD_eq_getElem?_getD, List.getD_eq_getElem?_getD, List.getElem?_map]
  cases s.alarms.records[i]? <;> rfl

/-- States that agree in what the derivation reads derive the same. -/
theorem derives_of_causes {s t : State} (h : t.causes = s.causes) :
    t.tripLevel = s.tripLevel ∧ t.derivedCondition = s.derivedCondition ∧ t.control = s.control
      ∧ (∀ i, t.alarmState i = s.alarmState i) ∧ (∀ i, t.stands i = s.stands i) ∧ (∀ a, t.anyStands a = s.anyStands a)
      ∧ (∀ b, t.inForce b = s.inForce b) := by
  simp only [State.causes, Prod.mk.injEq] at h
  obtain ⟨hl, hc, he, hr, hg⟩ := h
  have hcfg : t.cfg = s.cfg := by simp only [State.cfg, hl]
  have hw : ∀ i, t.watch i = s.watch i := fun i => by simp only [State.watch, he]
  have ha : ∀ i, t.alarmAction i = s.alarmAction i := fun i => by simp only [State.alarmAction, hw, hcfg]
  have hst : ∀ i, t.alarmState i = s.alarmState i := fun i => by simp only [alarmState_map, hr]
  have hs : ∀ i, t.stands i = s.stands i := fun i => by simp only [State.stands, hst]
  have han : ∀ a, t.anyStands a = s.anyStands a := fun a => by simp only [State.anyStands, hs, ha]
  have hgr : ∀ g, t.group g = s.group g := fun g => by simp only [State.group, hcfg]
  have hga : ∀ g, t.groupActions g = s.groupActions g := fun g => by unfold State.groupActions; rw [hgr]
  have hf : ∀ b, t.inForce b = s.inForce b := fun b => by simp only [State.inForce, State.groupInForce, hg, hga]
  have hj : t.joined = s.joined := by simp only [State.joined, hc]
  refine ⟨?_, ?_, hc, hst, hs, han, hf⟩
  · simp only [State.tripLevel, State.tripPull, hj, han, hc]
  · unfold State.derivedCondition State.holdConveyor
    rw [hj, han, han, hf, hc]

theorem derived_of_causes {s t : State} (h : t.causes = s.causes) (d : s.Derived) : t.Derived := by
  obtain ⟨h1, h2, h3, _⟩ := derives_of_causes h
  exact ⟨by rw [h1, h3]; exact d.1, by rw [h2, h3]; exact d.2⟩

/-! ## Operations that touch no alarm, no group, no part of state control and no entry of the directory -/

/-- What marks, nozzles, pumps, demands and queued frames leave as it is. -/
def State.calm (s : State) : Loader × Control × Directory × List Admission × Alarms × Groups :=
  (s.loader, s.control, s.dir, s.tracker.admissions, s.alarms, s.groups)

theorem causes_of_calm {s t : State} (h : t.calm = s.calm) : t.causes = s.causes := by
  simp only [State.calm, Prod.mk.injEq] at h
  obtain ⟨h1, h2, _, _, h3, h4⟩ := h
  simp only [State.causes, h1, h2, h3, h4]

theorem calm_foldl {α : Type} {f : State → α → State} (h : ∀ s a, (f s a).calm = s.calm) (l : List α) (s : State) :
    (l.foldl f s).calm = s.calm := by
  induction l generalizing s with
  | nil => rfl
  | cons a l ih => exact (ih _).trans (h s a)

theorem calm_ite {s t u : State} (c : Prop) [Decidable c] (h : t.calm = s.calm) (k : u.calm = s.calm) :
    (if c then t else u).calm = s.calm := by
  by_cases hc : c
  · rw [if_pos hc]; exact h
  · rw [if_neg hc]; exact k

theorem calm_withTx (s : State) (q : List TxFrame) : (s.withTx q).calm = s.calm := rfl

theorem calm_queueOrDrop (f : TxFrame) (s : State) : (queueOrDrop f s).calm = s.calm := calm_ite _ rfl rfl

theorem calm_queueStatus (s : State) : (queueStatus s).calm = s.calm := calm_ite _ rfl (calm_queueOrDrop _ s)

theorem calm_addMark (id code : Nat) (s : State) : (addMark id code s).calm = s.calm := by
  unfold addMark
  split
  · rfl
  · exact calm_ite _ rfl ((calm_queueOrDrop _ _).trans rfl)

theorem calm_markBoards (p : Board → Bool) (code : Nat) (s : State) : (markBoards p code s).calm = s.calm :=
  calm_foldl (fun s id => calm_addMark id code s) _ s

theorem calm_closeShots (o : Owner) (s : State) : (closeShots o s).calm = s.calm := rfl

theorem calm_disownShots (id : Nat) (s : State) : (disownShots id s).calm = s.calm := rfl

theorem calm_dropCounting (id : Nat) (s : State) : (dropCounting id s).calm = s.calm := calm_ite _ rfl rfl

theorem calm_flowCheck (id : Nat) (s : State) : (flowCheck id s).calm = s.calm := by
  unfold flowCheck
  split
  · rfl
  · exact calm_ite _ ((calm_foldl (fun s c => calm_addMark id c s) _ _).trans (calm_dropCounting id _)) rfl

theorem calm_markNotFluxed (id : Nat) (s : State) : (markNotFluxed id s).calm = s.calm := by
  unfold markNotFluxed
  split
  · rfl
  · exact calm_ite _ rfl (calm_addMark id 1 s)

theorem calm_truncateShots (s : State) : (truncateShots s).calm = s.calm :=
  calm_foldl (f := fun s id => markNotFluxed id (restartLag id s)) (fun _ id => calm_markNotFluxed id _) _
    (closeBoardShots s)

theorem calm_sprayUpdate (s : State) : (sprayUpdate s).calm = s.calm :=
  (calm_foldl (fun s id => calm_flowCheck id s) _ _).trans (calm_ite _ (calm_truncateShots s) rfl)

theorem calm_leftUp (a b : Pump) (s : State) : (leftUp a b s).calm = s.calm :=
  calm_ite _ (calm_markBoards _ 6 s) rfl

theorem calm_feederUpdate (s : State) : (feederUpdate s).calm = s.calm :=
  calm_ite _ (calm_ite _ rfl rfl) (calm_ite _ rfl rfl)

theorem calm_potUpdate (s : State) : (potUpdate s).calm = s.calm :=
  (calm_feederUpdate _).trans ((calm_leftUp _ _ _).trans (calm_leftUp _ _ _))

theorem calm_forcedFalls (s : State) : (forcedFalls s).calm = s.calm := calm_ite _ rfl rfl

theorem calm_conditionMarks (c : Condition) (s : State) : (conditionMarks c s).calm = s.calm := by
  unfold conditionMarks
  split
  · exact calm_markBoards _ 11 s
  · exact calm_markBoards _ 11 s
  · exact (calm_ite _ (calm_markBoards _ 12 _) rfl).trans (calm_ite _ (calm_markBoards _ 12 s) rfl)
  · rfl

theorem calm_setCondition (c : Condition) (s : State) :
    (setCondition c s).calm = { s with control := { s.control with condition := c } }.calm :=
  (calm_queueStatus _).trans ((calm_conditionMarks c _).trans ((calm_potUpdate _).trans
    ((calm_forcedFalls _).trans (calm_sprayUpdate _))))

/-! ## The condition is the derived one -/

/-- The trip line is sensed as it stands, and nothing else of what the derivation reads changes (R145). -/
theorem senseTrip_spec (s : State) :
    (senseTrip s).control.tripSensed = s.tripLevel ∧ (senseTrip s).tripLevel = s.tripLevel
      ∧ (senseTrip s).control.condition = s.control.condition ∧ (senseTrip s).alarms = s.alarms
      ∧ (senseTrip s).groups = s.groups ∧ (senseTrip s).loader = s.loader := by
  unfold senseTrip
  by_cases h : s.tripLevel = s.control.tripSensed
  · simp [h]
  · by_cases hj : s.joined = true
    · obtain ⟨a, _, _, d, _, f, g, _⟩ := lineSensed_keeps s.tripLevel { s.control with tripSensed := s.tripLevel }
      simp only [h, hj, if_false, if_true]
      refine ⟨g, ?_, f, trivial, trivial, trivial⟩
      show (State.joined _ && State.anyStands _ .trip || _) = (s.joined && s.anyStands .trip || _)
      simp only [State.joined, d, a]
      rfl
    · simp only [h, hj, if_false]
      exact ⟨rfl, rfl, rfl, trivial, trivial, trivial⟩

/-- Whatever has changed before, deriving the condition again leaves it the derived one (R144, R145). -/
theorem derived_recondition (s : State) : (recondition s).Derived := by
  unfold recondition
  have hs := senseTrip_spec s
  have ht : (senseTrip s).control.tripSensed = (senseTrip s).tripLevel := hs.1.trans hs.2.1.symm
  by_cases hc : (senseTrip s).derivedCondition = (senseTrip s).control.condition
  · simp only [hc, if_true]
    exact derived_of_causes (causes_of_calm ((calm_potUpdate _).trans (calm_sprayUpdate _))) ⟨ht, hc.symm⟩
  · simp only [hc, if_false]
    refine derived_of_causes (causes_of_calm (calm_setCondition _ _)) ⟨?_, ?_⟩
    · exact ht
    · show _ = State.derivedCondition _
      rfl

end Sys2Proof.Machine
end

