-- ==== Sys2Proof/Laws/Alarms.lean ====
section
/-! SUPPORT. What raising, releasing, acknowledging and announcing can do: `Follows s t`. -/

namespace Sys2Proof.Machine

open Sys2Proof

/-- `t` may follow `s` in the same event, and the condition is still the derived one. -/
structure Follows (s t : State) : Prop extends Moves s t where
  derived : s.Derived → t.Derived

theorem Follows.refl (s : State) : Follows s s := ⟨Moves.refl s, id⟩

theorem Follows.trans {s t u : State} (h : Follows s t) (k : Follows t u) : Follows s u :=
  ⟨h.toMoves.trans k.toMoves, fun x => k.derived (h.derived x)⟩

theorem Follows.ite {s t u : State} (c : Prop) [Decidable c] (h : Follows s t) (k : Follows s u) :
    Follows s (if c then t else u) := by
  by_cases hc : c
  · rw [if_pos hc]; exact h
  · rw [if_neg hc]; exact k

theorem Follows.foldl {α : Type} {f : State → α → State} (h : ∀ s a, Follows s (f s a)) (l : List α) (s : State) :
    Follows s (l.foldl f s) := by
  induction l generalizing s with
  | nil => exact Follows.refl s
  | cons a l ih => exact (h s a).trans (ih _)

/-- An operation that leaves what the derivation reads. -/
theorem Follows.of_causes {s t : State} (h : Moves s t) (k : t.causes = s.causes) : Follows s t :=
  ⟨h, derived_of_causes k⟩

/-- Whatever led to `t`, deriving the condition again makes it the derived one. -/
theorem Follows.recondition {s t : State} (h : Moves s t) : Follows s (recondition t) :=
  ⟨h.trans (moves_recondition t), fun _ => derived_recondition t⟩

/-- An operation that leaves alarms, groups and state control as they are. -/
theorem Follows.of_calm {s t : State} (h : Moves s t) (k : t.calm = s.calm) : Follows s t := .of_causes h (causes_of_calm k)

theorem follows_recondition (s : State) : Follows s (recondition s) := Follows.recondition (Moves.refl s)

theorem follows_addMark (id code : Nat) (s : State) : Follows s (addMark id code s) :=
  .of_calm (moves_addMark id code s) (calm_addMark id code s)

theorem follows_markBoards (p : Board → Bool) (code : Nat) (s : State) : Follows s (markBoards p code s) :=
  .of_calm (moves_markBoards p code s) (calm_markBoards p code s)

theorem follows_queueOrDrop (f : TxFrame) (s : State) : Follows s (queueOrDrop f s) :=
  .of_calm (moves_queueOrDrop f s) (calm_queueOrDrop f s)

theorem follows_queueStatus (s : State) : Follows s (queueStatus s) :=
  .of_calm (moves_queueStatus s) (calm_queueStatus s)

theorem follows_sprayUpdate (s : State) : Follows s (sprayUpdate s) :=
  .of_calm (moves_sprayUpdate s) (calm_sprayUpdate s)

theorem follows_potUpdate (s : State) : Follows s (potUpdate s) := .of_calm (moves_potUpdate s) (calm_potUpdate s)

theorem follows_forcedFalls (s : State) : Follows s (forcedFalls s) :=
  .of_calm (moves_forcedFalls s) (calm_forcedFalls s)

/-! ## Records, causes and activity -/

/-- The record keeps to the rule that a station that is not JOINED has QUIET records only. -/
theorem moves_updateRecord {i : Nat} {f : AlarmRecord → AlarmRecord} {s : State}
    (h : s.joined = false → (s.record i).state = .quiet → (f (s.record i)).state = .quiet) :
    Moves s (updateRecord i f s) := by
  refine ⟨rfl, fun x => x, fun x => x, fun j r => ?_⟩
  obtain ⟨a1, a2, a3, a4, a5, a6, a7, a8, a9, a10, a11, a12, hr, a13⟩ := r
  refine ⟨a1, a2, a3, a4, a5, a6, a7, a8, a9, a10, a11, a12, ?_, a13⟩
  intro r hmem
  have hmem' : r ∈ s.alarms.records.modify i f := hmem
  obtain ⟨k, hk, rfl⟩ := List.mem_iff_getElem.1 hmem'
  rw [List.getElem_modify]
  have hk' : k < s.alarms.records.length := by simpa using hk
  split
  · rename_i e
    subst e
    have hget : s.record i = s.alarms.records[i] := by
      unfold State.record; rw [List.getD_eq_getElem?_getD, List.getElem?_eq_getElem hk']; rfl
    have hq : (s.record i).state = .quiet := by rw [hget]; exact hr _ (List.getElem_mem hk')
    have := h j hq
    rw [hget] at this
    exact this
  · exact hr _ (List.getElem_mem hk')

theorem causes_updateRecord {i : Nat} {f : AlarmRecord → AlarmRecord} {s : State}
    (h : (f (s.record i)).state = (s.record i).state) : (updateRecord i f s).causes = s.causes := by
  have : (s.alarms.records.modify i f).map (·.state) = s.alarms.records.map (·.state) := by
    apply List.ext_getElem
    · simp
    · intro k h1 h2
      have hk : k < s.alarms.records.length := by simpa using h2
      simp only [List.getElem_map, List.getElem_modify]
      split
      · rename_i e
        subst e
        have hget : s.record i = s.alarms.records[i] := by
          unfold State.record; rw [List.getD_eq_getElem?_getD, List.getElem?_eq_getElem hk]; rfl
        rw [hget] at h
        exact h
      · rfl
  simp only [State.causes, updateRecord_loader, updateRecord_control, updateRecord_alarms, updateRecord_groups, this]

/-- A change of a record that leaves its state. -/
theorem follows_updateRecord {i : Nat} {f : AlarmRecord → AlarmRecord} (h : ∀ r, (f r).state = r.state) (s : State) :
    Follows s (updateRecord i f s) :=
  .of_causes (moves_updateRecord (fun _ k => (h _).trans k)) (causes_updateRecord (h _))

/-- Where a changed record stands exactly as it stood before, the condition is derived as before. -/
theorem follows_updateRecord_stands {i : Nat} {f : AlarmRecord → AlarmRecord} {s : State}
    (h : s.joined = false → (s.record i).state = .quiet → (f (s.record i)).state = .quiet)
    (hs : (f (s.record i)).state.stands = (s.record i).state.stands) : Follows s (updateRecord i f s) := by
  refine ⟨moves_updateRecord h, fun d => ?_⟩
  have hst : ∀ k, (updateRecord i f s).stands k = s.stands k := by
    intro k
    show ((s.alarms.records.modify i f).getD k .blank).state.stands = (s.alarms.records.getD k .blank).state.stands
    rw [List.getD_eq_getElem?_getD, List.getD_eq_getElem?_getD, List.getElem?_modify]
    by_cases hk : i = k
    · subst hk
      cases hr : s.alarms.records[i]? with
      | none => rfl
      | some r =>
        have hget : s.record i = r := by unfold State.record; rw [List.getD_eq_getElem?_getD, hr]; rfl
        rw [hget] at hs
        simp [hs]
    · simp [hk]
  have ha : ∀ a, (updateRecord i f s).anyStands a = s.anyStands a := fun a => by
    unfold State.anyStands
    simp only [hst]
    rfl
  have ht : (updateRecord i f s).tripLevel = s.tripLevel := by
    unfold State.tripLevel State.tripPull
    rw [ha]; rfl
  have hd : (updateRecord i f s).derivedCondition = s.derivedCondition := by
    unfold State.derivedCondition
    rw [ha, ha]; rfl
  exact ⟨d.1.trans ht.symm, d.2.trans hd.symm⟩

theorem follows_updateCause (i : Nat) (f : Cause → Cause) (s : State) : Follows s (updateCause i f s) :=
  .of_causes ⟨rfl, fun x => x, fun x => x, fun _ r => r⟩ rfl

theorem moves_withActivity {l : List Activity} {s : State} (h : s.joined = false → s.groups.activity = [] → l = []) :
    Moves s (withActivity l s) :=
  Moves.trans (t := { s with groups := { s.groups with activity := l } })
    ⟨rfl, fun x => x, fun x => x, fun j r => by
      obtain ⟨a1, a2, a3, a4, a5, a6, a7, a8, a9, a10, a11, a12, a13, a14⟩ := r
      exact ⟨a1, a2, a3, a4, a5, a6, a7, a8, a9, a10, a11, a12, a13, h j a14⟩⟩
    (Moves.foldl (fun s c => moves_markBoards _ c s) _ _)

theorem moves_addActivity {a : Activity} {s : State} (h : s.joined = true) : Moves s (addActivity a s) :=
  Moves.ite _ (Moves.refl s) (moves_withActivity (fun j => by rw [h] at j; cases j))

theorem moves_removeActivity (p : Activity → Bool) (s : State) : Moves s (removeActivity p s) :=
  moves_withActivity (fun _ h => by rw [h]; rfl)

theorem causes_removeActivity_of_none {p : Activity → Bool} {s : State} (h : ∀ a ∈ s.groups.activity, p a = false) :
    s.groups.activity.filter (fun a => !p a) = s.groups.activity := by
  apply List.filter_eq_self.2
  intro a ha
  simp [h a ha]

/-! ## Announcing (R114..R116) -/

theorem moves_updateRecord_keep {i : Nat} {f : AlarmRecord → AlarmRecord} (h : ∀ r, (f r).state = r.state) (s : State) :
    Moves s (updateRecord i f s) := (follows_updateRecord h s).toMoves

theorem follows_push {f : TxFrame} {cls : Nat} {s : State} (h : s.admits cls = true) : Follows s (s.push f) :=
  .of_causes (moves_push h) rfl

theorem follows_announce (i : Nat) (s : State) : Follows s (announce i s) := by
  unfold announce
  split
  · exact follows_updateRecord (by intro _; rfl) s
  · split
    · exact (follows_push ‹_›).trans (follows_updateRecord (by intro _; rfl) _)
    · exact follows_updateRecord (by intro _; rfl) s

theorem follows_queueClear (i : Nat) (s : State) : Follows s (queueClear i s) := by
  unfold queueClear
  split
  · exact follows_push ‹_›
  · exact follows_updateRecord (by intro _; rfl) s

theorem follows_withdrawFrames (p : TxFrame → Bool) (s : State) : Follows s (withdrawFrames p s) :=
  .of_causes (moves_withdrawFrames p s) rfl

theorem follows_clearAnnounced (i : Nat) (s : State) : Follows s (clearAnnounced i s) := by
  unfold clearAnnounced
  refine Follows.ite _ ?_ (follows_updateRecord (by intro _; rfl) s)
  exact ((follows_withdrawFrames _ s).trans (Follows.ite _ (follows_queueClear i _) (Follows.refl _))).trans
    (follows_updateRecord (by intro _; rfl) _)

/-! ## Entries to ACTIVE and returns to QUIET (R112, R113, R115, R121) -/

theorem moves_firstOutEntry (i : Nat) (v : Int) (s : State) : Moves s (firstOutEntry i v s) :=
  Moves.ite _ ⟨rfl, fun x => x, fun x => x, fun _ r => r⟩ ⟨rfl, fun x => x, fun x => x, fun _ r => r⟩

/-- An entry to ACTIVE ends with the derived condition; only a JOINED station makes one (R109, R110). -/
theorem follows_enterActive {i : Nat} {v : Int} {s : State} (h : s.joined = true) : Follows s (enterActive i v s) := by
  unfold enterActive
  apply Follows.recondition
  have h1 : Moves s (updateRecord i (fun r => { r with state := .active, matchCount := 0, value := v }) s) :=
    moves_updateRecord (fun j => by rw [h] at j; cases j)
  have h2 := h1.trans (Moves.ite (s.alarmAction i = .trip) (moves_firstOutEntry i v _) (Moves.refl _))
  have h3 := h2.trans (Moves.ite (s.ownSetTakes i = true)
    (moves_addActivity (a := ⟨s.alarmGroup i, s.dir.own, i⟩) (h2.joined.trans h)) (Moves.refl _))
  have h4 := h3.trans (Moves.ite (s.needsAnnouncing i = true) (follows_announce i _).toMoves (Moves.refl _))
  exact h4.trans (Moves.ite _ (Moves.refl _) (moves_markBoards _ _ _))

theorem follows_returnQuiet (i : Nat) (s : State) : Follows s (returnQuiet i s) := by
  unfold returnQuiet
  apply Follows.recondition
  exact ((moves_updateRecord (by intro _ _; rfl)).trans (moves_removeActivity _ _)).trans (follows_clearAnnounced i _).toMoves

theorem follows_releaseRecord (i : Nat) (s : State) : Follows s (releaseRecord i s) := by
  unfold releaseRecord
  split
  · rename_i hst
    refine Follows.ite _ ?_ (follows_returnQuiet i s)
    have hst' : (s.record i).state = .active := hst
    exact follows_updateRecord_stands (fun _ k => by rw [hst'] at k; cases k) (by rw [hst']; rfl)
  · exact follows_returnQuiet i s
  · exact Follows.refl s
  · exact Follows.refl s
  · exact Follows.refl s

/-! ## Raise and release (R110) -/

theorem follows_takeCause (i : Nat) (s : State) : Follows s (takeCause i s) := by
  unfold takeCause
  split
  · rename_i h
    simp only [Bool.and_eq_true] at h
    exact follows_enterActive h.1.1
  · exact Follows.refl s

theorem follows_raiseHeld (i : Nat) (v : Int) (s : State) : Follows s (raiseHeld i v s) :=
  (follows_updateCause _ _ s).trans (follows_takeCause i _)

theorem follows_releaseHeld (i : Nat) (s : State) : Follows s (releaseHeld i s) :=
  Follows.ite _ ((follows_updateCause _ _ s).trans (follows_releaseRecord i _)) (Follows.refl s)

theorem follows_holdWhile (i : Nat) (v : Int) (b : Bool) (s : State) : Follows s (holdWhile i v b s) :=
  Follows.ite _ (follows_raiseHeld i v s) (follows_releaseHeld i s)

theorem follows_occurrence (i : Nat) (v : Int) (s : State) : Follows s (occurrence i v s) := by
  unfold occurrence
  split
  · rename_i h
    simp only [Bool.and_eq_true] at h
    exact (follows_enterActive h.1).trans (follows_releaseRecord i _)
  · exact Follows.refl s

/-! ## Owed frames and announcements (R116, R136) -/

theorem follows_retryOwed (i : Nat) (s : State) : Follows s (retryOwed i s) := by
  unfold retryOwed
  have h1 : Follows s (if (s.record i).announceOwed = true then
      (if s.stands i = true then announce i (updateRecord i (fun r => { r with announceOwed := false }) s)
        else updateRecord i (fun r => { r with announceOwed := false }) s) else s) :=
    Follows.ite _ (Follows.ite _ ((follows_updateRecord (by intro _; rfl) s).trans (follows_announce i _))
      (follows_updateRecord (by intro _; rfl) s)) (Follows.refl s)
  have h2 : ∀ u : State, Follows u (if (u.record i).clearOwed = true then
      (match u.alarmState i with
        | .quiet => queueClear i (updateRecord i (fun r => { r with clearOwed := false }) u)
        | .pending => u
        | .active | .activeAcked | .latched => updateRecord i (fun r => { r with clearOwed := false }) u)
      else u) := by
    intro u
    refine Follows.ite _ ?_ (Follows.refl _)
    split
    · exact (follows_updateRecord (by intro _; rfl) _).trans (follows_queueClear i _)
    · exact Follows.refl _
    all_goals exact follows_updateRecord (by intro _; rfl) _
  exact h1.trans (h2 _)

theorem follows_retryAllOwed (s : State) : Follows s (retryAllOwed s) := Follows.foldl (fun s i => follows_retryOwed i s) _ s

theorem follows_reannounce (i : Nat) (s : State) : Follows s (reannounce i s) :=
  Follows.ite _ (Follows.refl s) (follows_announce i s)

theorem follows_reannounceAll (p : Nat → Bool) (s : State) : Follows s (reannounceAll p s) :=
  Follows.foldl (fun s i => follows_reannounce i s) _ s

/-! ## Watch entries at a sample event (R109) -/

theorem follows_takeResult {i : Nat} {d : WatchDef} {r : TestResult} {s : State} (h : s.joined = true) :
    Follows s (takeResult i d r s) := by
  have hq : ∀ (f : AlarmRecord → AlarmRecord), (s.record i).state.stands = false →
      (∀ x, (f x).state.stands = false) → Follows s (updateRecord i f s) := fun f h0 hf =>
    follows_updateRecord_stands (fun j => by rw [h] at j; cases j) (by rw [hf, h0])
  have hst : (s.record i).state = s.alarmState i := rfl
  unfold takeResult
  cases ha : s.alarmState i <;> rw [ha] at hst <;> cases r
  all_goals first
    | exact Follows.ite _ (follows_enterActive h) (hq _ (by rw [hst]; rfl) (by intro _; rfl))
    | exact hq _ (by rw [hst]; rfl) (by intro _; rfl)
    | exact follows_releaseRecord i s
    | exact Follows.refl s

theorem follows_watchSample {i : Nat} {s : State} (h : s.joined = true) : Follows s (watchSample i s) := by
  unfold watchSample
  split
  · exact Follows.ite _ (Follows.refl s) (follows_takeResult h)
  · exact Follows.refl s

theorem follows_watchSamples {s : State} (h : s.joined = true) : Follows s (watchSamples s) := by
  unfold watchSamples
  generalize List.range 16 = l
  induction l generalizing s with
  | nil => exact Follows.refl s
  | cons a l ih =>
    have h1 : Follows s (watchSample a s) := follows_watchSample h
    exact h1.trans (ih (h1.joined.trans h))

/-! ## Acknowledgement (R118, R122) -/

theorem follows_acknowledgeOne (i : Nat) (s : State) : Follows s (acknowledgeOne i s) := by
  have hst : (s.record i).state = s.alarmState i := rfl
  unfold acknowledgeOne
  split
  all_goals rename_i he
  all_goals rw [he] at hst
  · exact follows_updateRecord_stands (fun _ k => by rw [hst] at k; cases k) (by rw [hst]; rfl)
  · exact Follows.ite _
      (follows_updateRecord_stands (fun _ k => by rw [hst] at k; cases k) (by rw [hst]; rfl)) (follows_returnQuiet i s)
  · exact Follows.refl s
  · exact Follows.refl s
  · exact Follows.refl s

theorem follows_firstOut (f : Option FirstOut) (s : State) :
    Follows s { s with alarms := { s.alarms with firstOut := f } } :=
  .of_causes ⟨rfl, fun x => x, fun x => x, fun _ r => r⟩ rfl

theorem follows_acknowledgeAlarms (index : Nat) (s : State) : Follows s (acknowledgeAlarms index s) :=
  (Follows.foldl (fun s i => follows_acknowledgeOne i s) _ s).trans (Follows.ite _ (Follows.refl _) (follows_firstOut _ _))

/-! ## WATCH (R120) -/

theorem follows_withdrawAlarm (i : Nat) (s : State) : Follows s (withdrawAlarm i s) :=
  Follows.ite _ (Follows.refl s) ((follows_returnQuiet i s).trans (follows_updateRecord (by intro _; rfl) _))

/-! ## Settling (R11, R18, R46, R88, R146) -/

theorem follows_handLate (s : State) : Follows s (handLate s) := follows_holdWhile _ _ _ s

theorem follows_withStall (t : Timer) (s : State) : Follows s (s.withStall t) :=
  .of_causes ⟨rfl, fun x => x, fun x => x, fun _ r => r⟩ rfl

theorem follows_permitSensed (b : Bool) (s : State) :
    Follows s { s with control := { s.control with permitSensed := b } } := by
  refine ⟨moves_control rfl rfl rfl rfl rfl (fun _ h => h), fun d => ?_⟩
  exact ⟨d.1, d.2⟩

theorem follows_sensePermit (s : State) : Follows s (sensePermit s) := by
  unfold sensePermit
  refine Follows.ite _ (Follows.refl s) ?_
  refine (follows_permitSensed s.permitLevel s).trans (Follows.ite _ (follows_withStall _ _) ?_)
  exact (follows_withStall _ _).trans (follows_releaseHeld 19 _)

/-- Settling touches nothing of the steady part and leaves the condition the derived one. -/
theorem follows_settle (s : State) : Follows s (settle s) :=
  ((((follows_handLate s).trans (follows_sprayUpdate _)).trans (follows_potUpdate _)).trans (follows_sensePermit _)).trans
    (follows_sensePermit _)

end Sys2Proof.Machine
end

