-- ==== Sys2Proof/Laws/Keeps.lean ====
section
/-! SUPPORT. The invariants through the shared operations: `Keeps s t`. -/

namespace Sys2Proof.Machine

open Sys2Proof

/-- `t` keeps every invariant that `s` has, the encoder count apart. -/
structure Holds (s t : State) : Prop where
  fixed   : (t.uid, t.loader, t.pending) = (s.uid, s.loader, s.pending)
  joined  : t.joined = s.joined
  places  : s.TxFits → t.TxFits
  grants  : s.GrantsFit → t.GrantsFit
  derived : s.Derived → t.Derived
  rest    : s.joined = false → s.AtRest → t.AtRest
  boards  : s.BoardsOrdered → t.BoardsOrdered
  shares  : s.SharesBalance → t.SharesBalance
  lend    : s.SharesBalance → s.LendCovered → t.LendCovered
  wire    : t.bus.onWire = s.bus.onWire ∨ t.bus.onWire = none
  ack     : t.bus.answer.ack = true → s.bus.answer.ack = true
  claims  : s.control.station = .claiming → t.control.station = .claiming ∨ t.bus.onWire = none

/-- `t` keeps every invariant that `s` has, and the encoder count. -/
structure Keeps (s t : State) : Prop extends Holds s t where
  count   : t.tracker.count = s.tracker.count

theorem Holds.trans {s t u : State} (h : Holds s t) (k : Holds t u) : Holds s u where
  fixed := k.fixed.trans h.fixed
  joined := k.joined.trans h.joined
  places x := k.places (h.places x)
  grants x := k.grants (h.grants x)
  derived x := k.derived (h.derived x)
  rest j x := k.rest (h.joined.trans j) (h.rest j x)
  boards x := k.boards (h.boards x)
  shares x := k.shares (h.shares x)
  lend x y := k.lend (h.shares x) (h.lend x y)
  wire := k.wire.elim (fun a => h.wire.elim (fun b => .inl (a.trans b)) (fun b => .inr (a.trans b))) .inr
  ack x := h.ack (k.ack x)
  claims x := (h.claims x).elim k.claims (fun b => .inr (k.wire.elim (fun a => a.trans b) id))

theorem Keeps.refl (s : State) : Keeps s s :=
  ⟨⟨rfl, rfl, id, id, id, fun _ h => h, id, id, fun _ h => h, .inl rfl, id, .inl⟩, rfl⟩

theorem Keeps.trans {s t u : State} (h : Keeps s t) (k : Keeps t u) : Keeps s u :=
  ⟨h.toHolds.trans k.toHolds, k.count.trans h.count⟩

theorem Holds.loader {s t : State} (h : Holds s t) : t.loader = s.loader := congrArg (fun x => x.2.1) h.fixed

theorem Holds.cfg {s t : State} (h : Holds s t) : t.cfg = s.cfg := by simp only [State.cfg, h.loader]

theorem Keeps.ite {s t u : State} (c : Prop) [Decidable c] (h : Keeps s t) (k : Keeps s u) : Keeps s (if c then t else u) := by
  by_cases hc : c
  · rw [if_pos hc]; exact h
  · rw [if_neg hc]; exact k

theorem Keeps.foldl {α : Type} {f : State → α → State} (h : ∀ s a, Keeps s (f s a)) (l : List α) (s : State) :
    Keeps s (l.foldl f s) := by
  induction l generalizing s with
  | nil => exact Keeps.refl s
  | cons a l ih => exact (h s a).trans (ih _)

/-- A station that is not JOINED stays as it should be (R141, R156). -/
theorem Holds.offLine {s t : State} (h : Holds s t) (k : s.OffLine) : t.OffLine := by
  intro j
  have j' : s.joined = false := h.joined.symm.trans j
  obtain ⟨k1, k2, k3⟩ := k j'
  refine ⟨h.rest j' k1, ?_, ?_⟩
  · cases hb : t.bus.answer.ack with
    | false => rfl
    | true => rw [h.ack hb] at k2; cases k2
  · intro w hw
    rcases h.wire with e | e
    · rw [e] at hw
      obtain ⟨a, b⟩ := k3 w hw
      refine ⟨?_, b⟩
      rcases h.claims a with c | c
      · exact c
      · rw [e, hw] at c; cases c
    · rw [e] at hw; cases hw

/-! ## Positions and the order of the queue (R3, R5) -/

/-- What the order of the queue depends on: id and anchor. -/
def boardKey (b : Board) : Nat × Nat × BitVec 32 := (b.line.id, b.anchorPos, b.anchorCount)

theorem pos_of_key {s t : State} (hc : t.cfg = s.cfg) (hn : t.tracker.count = s.tracker.count) {a b : Board}
    (h : boardKey a = boardKey b) : t.pos a = s.pos b := by
  simp only [boardKey, Prod.mk.injEq] at h
  simp only [State.pos, hc, hn, h.2.1, h.2.2]

/-- Queues of the same ids and anchors are in order together. -/
theorem boardsOrdered_of_keys {s t : State} (hc : t.cfg = s.cfg) (hn : t.tracker.count = s.tracker.count)
    (h : t.tracker.queue.map boardKey = s.tracker.queue.map boardKey) (k : s.BoardsOrdered) : t.BoardsOrdered := by
  have hids : t.boardIds = s.boardIds := by
    have := congrArg (List.map Prod.fst) h
    simp only [List.map_map] at this
    exact this
  have hpos : t.tracker.queue.map t.pos = s.tracker.queue.map s.pos := by
    have := congrArg (List.map (fun x : Nat × Nat × BitVec 32 =>
      leadingEdge s.cfg.countsPerMetre x.2.1 s.tracker.count x.2.2)) h
    simp only [List.map_map] at this
    have e1 : t.tracker.queue.map t.pos = t.tracker.queue.map ((fun x : Nat × Nat × BitVec 32 =>
        leadingEdge s.cfg.countsPerMetre x.2.1 s.tracker.count x.2.2) ∘ boardKey) := by
      apply List.map_congr_left
      intro b _
      simp only [State.pos, hc, hn, Function.comp, boardKey]
    rw [e1, this]
    rfl
  refine ⟨?_, by rw [hids]; exact k.2.1, by rw [hpos]; exact k.2.2⟩
  have hl := congrArg List.length h
  simp only [List.length_map] at hl
  rw [hl]; exact k.1

theorem boardKey_keep (b : Board) : boardKey (boardKeep b) = boardKey b := rfl

theorem Moves.queue_keys {s t : State} (h : Moves s t) :
    t.tracker.queue.map boardKey = s.tracker.queue.map boardKey := by
  have hq : t.steady.tracker.queue = s.steady.tracker.queue := by rw [h.steady]
  have hq : t.tracker.queue.map boardKeep = s.tracker.queue.map boardKeep := hq
  have := congrArg (List.map boardKey) hq
  simp only [List.map_map] at this
  exact this

theorem Moves.count {s t : State} (h : Moves s t) : t.tracker.count = s.tracker.count :=
  h.read (fun x => x.tracker.count) (fun _ => rfl)

theorem Moves.shares {s t : State} (h : Moves s t) : t.shares = s.shares := h.read (fun x => x.shares) (fun _ => rfl)

theorem sharesBalance_of_eq {s t : State} (hc : t.cfg = s.cfg) (h : t.shares = s.shares) (k : s.SharesBalance) :
    t.SharesBalance := by
  unfold State.SharesBalance at k ⊢
  rw [hc, h]; exact k

/-- What follows in the same event keeps every invariant. -/
theorem Follows.keeps {s t : State} (h : Follows s t) : Keeps s t where
  fixed := h.read (fun x => (x.uid, x.loader, x.pending)) (fun _ => rfl)
  count := h.count
  joined := h.joined
  places := h.places
  grants := h.grants
  derived := h.derived
  rest := h.rest
  boards := boardsOrdered_of_keys h.cfg h.count h.queue_keys
  shares := sharesBalance_of_eq h.cfg h.shares
  lend _ k w hw hk := by
    have hb : t.bus.onWire = s.bus.onWire := h.read (fun x => x.bus.onWire) (fun _ => rfl)
    rw [h.cfg, h.shares]
    exact k w (hb ▸ hw) hk
  wire := .inl (h.read (fun x => x.bus.onWire) (fun _ => rfl))
  ack x := (h.read (fun x => x.bus.answer.ack) (fun _ => rfl)).symm.trans x
  claims x := .inl ((h.read (fun x => x.control.station) (fun _ => rfl)).trans x)

/-- An operation that changes no field that an invariant reads. -/
theorem keeps_recipes (r : RecipeStore) (s : State) : Keeps s { s with recipes := r } :=
  ⟨⟨rfl, rfl, id, id, id, fun _ h => h, id, id, fun _ h => h, .inl rfl, id, .inl⟩, rfl⟩

theorem keeps_dir (d : Directory) (s : State) : Keeps s { s with dir := d } :=
  ⟨⟨rfl, rfl, id, id, id, fun _ h => h, id, id, fun _ h => h, .inl rfl, id, .inl⟩, rfl⟩

theorem keeps_free (n : Nat) (s : State) : Keeps s { s with free := n } :=
  ⟨⟨rfl, rfl, id, id, id, fun _ h => h, id, id, fun _ h => h, .inl rfl, id, .inl⟩, rfl⟩

/-- The fields of the share unit that the balance does not read. -/
theorem keeps_shares {x : Shares} {s : State} (h1 : x.state = s.shares.state) (h2 : x.held = s.shares.held)
    (h3 : x.lent = s.shares.lent) (h4 : x.borrowed = s.shares.borrowed) : Keeps s { s with shares := x } where
  fixed := rfl
  count := rfl
  joined := rfl
  places := id
  grants k := by
    show State.grantCost _ ≤ x.held
    rw [h2]; exact k
  derived := id
  rest _ r := by
    obtain ⟨a1, a2, a3, a4, a5, a6, a7, a8, a9⟩ := r
    exact ⟨a1, a2, a3, a4, a5, a6, a7, h1.trans a8, a9⟩
  boards := id
  shares k := by
    unfold State.SharesBalance at k ⊢
    simp only [h1, h2, h3, h4]
    exact k
  lend _ k w hw hk := by
    have := k w hw hk
    simp only [h1, h3]
    exact this
  wire := .inl rfl
  ack := id
  claims := .inl

/-- Bus fields other than the queue, the reservation, the frame on the wire and the answer. -/
theorem keeps_bus {x : Bus} {s : State} (h1 : x.queue = s.bus.queue) (h2 : x.reservation = s.bus.reservation)
    (h3 : x.onWire = s.bus.onWire) (h4 : x.answer = s.bus.answer) : Keeps s { s with bus := x } where
  fixed := rfl
  count := rfl
  joined := rfl
  places k := by
    unfold State.TxFits State.txUsed at k ⊢
    simp only [h1, h2]; exact k
  grants := id
  derived := id
  rest _ r := r
  boards := id
  shares := id
  lend _ k w hw hk := k w (h3 ▸ hw) hk
  wire := .inl h3
  ack k := by rw [← h4]; exact k
  claims := .inl

/-- The pumps and the feeder may change where a station that is not JOINED keeps them at rest. -/
theorem keeps_pot {x : Pot} {s : State}
    (h : s.joined = false → s.pot.main = .blank → s.pot.chip = .blank → s.pot.feeding = false →
      x.main = .blank ∧ x.chip = .blank ∧ x.feeding = false) : Keeps s { s with pot := x } where
  fixed := rfl
  count := rfl
  joined := rfl
  places k := k
  grants k := k
  derived k := k
  rest j r := by
    obtain ⟨a1, a2, a3, a4, a5, a6, a7, a8, a9, a10, a11, a12⟩ := r
    obtain ⟨b1, b2, b3⟩ := h j a9 a10 a11
    exact ⟨a1, a2, a3, a4, a5, a6, a7, a8, b1, b2, b3, a12⟩
  boards k := k
  shares k := k
  lend _ k := k
  wire := .inl rfl
  ack k := k
  claims := .inl

theorem keeps_workRequests (s : State) : Keeps s (workRequests s) := keeps_pot (fun _ a b c => ⟨a, b, c⟩)

/-! ## Boards -/

/-- A record may change in place where its id and its anchor stay. -/
theorem keeps_updateBoard {id : Nat} {f : Board → Board} (h : ∀ b, boardKey (f b) = boardKey b) (s : State) :
    Keeps s (updateBoard id f s) where
  fixed := rfl
  count := rfl
  joined := rfl
  places x := x
  grants x := x
  derived x := x
  rest _ r := by
    have hq : s.tracker.queue = [] := r.2.2.2.1
    refine ⟨r.1, r.2.1, r.2.2.1, ?_, r.2.2.2.2⟩
    show List.map _ s.tracker.queue = []
    rw [hq]; rfl
  boards := by
    refine boardsOrdered_of_keys rfl rfl ?_
    simp only [updateBoard_tracker, List.map_map]
    apply List.map_congr_left
    intro b _
    simp only [Function.comp]
    split
    · exact h b
    · rfl
  shares x := x
  lend _ x := x
  wire := .inl rfl
  ack x := x
  claims := .inl

/-- The whole queue changed in place. -/
theorem keeps_mapQueue {f : Board → Board} (h : ∀ b, boardKey (f b) = boardKey b) (s : State) :
    Keeps s (s.withQueue (s.tracker.queue.map f)) where
  fixed := rfl
  count := rfl
  joined := rfl
  places x := x
  grants x := x
  derived x := x
  rest _ r := by
    have hq : s.tracker.queue = [] := r.2.2.2.1
    refine ⟨r.1, r.2.1, r.2.2.1, ?_, r.2.2.2.2⟩
    show List.map _ s.tracker.queue = []
    rw [hq]; rfl
  boards := by
    refine boardsOrdered_of_keys rfl rfl ?_
    simp only [State.withQueue_tracker, List.map_map]
    apply List.map_congr_left
    intro b _
    exact h b
  shares x := x
  lend _ x := x
  wire := .inl rfl
  ack x := x
  claims := .inl

/-- Tracker fields other than the queue and the count. -/
theorem keeps_tracker {x : Tracker} {s : State} (h1 : x.queue = s.tracker.queue) (h2 : x.count = s.tracker.count) :
    Keeps s { s with tracker := x } where
  fixed := rfl
  count := h2
  joined := rfl
  places k := k
  grants k := k
  derived k := k
  rest _ r := by
    obtain ⟨a1, a2, a3, a4, a5⟩ := r
    exact ⟨a1, a2, a3, h1.trans a4, a5⟩
  boards := boardsOrdered_of_keys rfl h2 (by simp only [h1])
  shares k := k
  lend _ k := k
  wire := .inl rfl
  ack k := k
  claims := .inl

theorem insertByPos_perm (pos : Board → Nat) (x : Board) (l : List Board) : (insertByPos pos x l).Perm (x :: l) := by
  induction l with
  | nil => exact List.Perm.refl _
  | cons b bs ih =>
    unfold insertByPos
    split
    · exact List.Perm.refl _
    · exact (List.Perm.cons b ih).trans (List.Perm.swap x b bs)

theorem insertByPos_sorted (pos : Board → Nat) (x : Board) (l : List Board)
    (h : l.Pairwise (fun a b => pos b ≤ pos a)) : (insertByPos pos x l).Pairwise (fun a b => pos b ≤ pos a) := by
  induction l with
  | nil => exact List.pairwise_singleton _ _
  | cons b bs ih =>
    unfold insertByPos
    have hb := List.pairwise_cons.1 h
    split
    · rename_i hlt
      refine List.pairwise_cons.2 ⟨?_, h⟩
      intro c hc
      rcases List.mem_cons.1 hc with rfl | hc
      · omega
      · have := hb.1 c hc; omega
    · rename_i hge
      refine List.pairwise_cons.2 ⟨?_, ih hb.2⟩
      intro c hc
      rcases List.mem_cons.1 ((insertByPos_perm pos x bs).mem_iff.1 hc) with rfl | hc
      · omega
      · exact hb.1 c hc

/-- The queue put back into order holds the same records (R3). -/
theorem orderBoards_perm (pos : Board → Nat) (q : List Board) : (orderBoards pos q).Perm q := by
  unfold orderBoards
  have h : ∀ (q acc : List Board), (q.foldl (fun acc b => insertByPos pos b acc) acc).Perm (acc ++ q) := by
    intro q
    induction q with
    | nil => intro acc; simp
    | cons b bs ih =>
      intro acc
      refine (ih (insertByPos pos b acc)).trans ?_
      exact ((insertByPos_perm pos b acc).append_right bs).trans List.perm_middle.symm
  simpa using h q []

/-- The queue put back into order is in order (R3). -/
theorem orderBoards_sorted (pos : Board → Nat) (q : List Board) :
    (orderBoards pos q).Pairwise (fun a b => pos b ≤ pos a) := by
  unfold orderBoards
  have h : ∀ (q acc : List Board), acc.Pairwise (fun a b => pos b ≤ pos a) →
      (q.foldl (fun acc b => insertByPos pos b acc) acc).Pairwise (fun a b => pos b ≤ pos a) := by
    intro q
    induction q with
    | nil => intro acc h; exact h
    | cons b bs ih => intro acc h; exact ih _ (insertByPos_sorted pos b acc h)
  exact h q [] List.Pairwise.nil

theorem keeps_withQueue {q : List Board} {s : State} (h0 : s.tracker.queue = [] → q = [])
    (h : s.BoardsOrdered → (s.withQueue q).BoardsOrdered) : Keeps s (s.withQueue q) where
  fixed := rfl
  count := rfl
  joined := rfl
  places x := x
  grants x := x
  derived x := x
  rest _ r := by
    obtain ⟨a1, a2, a3, a4, a5⟩ := r
    exact ⟨a1, a2, a3, h0 a4, a5⟩
  boards := h
  shares x := x
  lend _ x := x
  wire := .inl rfl
  ack x := x
  claims := .inl

/-- Putting the queue back into order makes it so, whatever the anchors (R3). -/
theorem boardsOrdered_reorder {s : State} (h1 : s.tracker.queue.length ≤ 8) (h2 : s.boardIds.Nodup) :
    (reorder s).BoardsOrdered := by
  have hp := orderBoards_perm s.pos s.tracker.queue
  refine ⟨?_, ?_, ?_⟩
  · show (orderBoards s.pos s.tracker.queue).length ≤ 8
    rw [hp.length_eq]; exact h1
  · show ((orderBoards s.pos s.tracker.queue).map _).Nodup
    exact (hp.map _).nodup_iff.2 h2
  · show ((orderBoards s.pos s.tracker.queue).map s.pos).Pairwise _
    rw [List.pairwise_map]
    exact orderBoards_sorted s.pos s.tracker.queue

/-- A filtered queue is in order. -/
theorem boardsOrdered_filter (p : Board → Bool) {s : State} (h : s.BoardsOrdered) :
    (s.withQueue (s.tracker.queue.filter p)).BoardsOrdered := by
  have hs : (s.tracker.queue.filter p).Sublist s.tracker.queue := List.filter_sublist
  exact ⟨Nat.le_trans hs.length_le h.1, (hs.map _).nodup h.2.1, h.2.2.sublist (hs.map _)⟩

end Sys2Proof.Machine
end

