-- ==== Sys2Proof/Laws/Heater.lean ====
section
/-! SUPPORT. The allocation of the held shares (R58, R59), and the invariants through the heater unit's operations. -/

namespace Sys2Proof.Machine

open Sys2Proof

/-! ## The allocation fits (R58) -/

theorem dutyCost_zero (r : Nat) : dutyCost r 0 = 0 := by simp [dutyCost]

/-- A grant costs no more than the shares that remain (R58). -/
theorem dutyCost_grantOf (rated remaining demand : Nat) : dutyCost rated (grantOf rated remaining demand) ≤ remaining := by
  unfold grantOf
  split
  · rename_i h; subst h; simp [dutyCost]
  · rename_i h
    have h1 : min demand (remaining * 256 / rated) ≤ remaining * 256 / rated := Nat.min_le_right _ _
    have h2 : rated * (remaining * 256 / rated) ≤ remaining * 256 := Nat.mul_div_le _ _
    have h3 : rated * min demand (remaining * 256 / rated) ≤ remaining * 256 :=
      Nat.le_trans (Nat.mul_le_mul_left rated h1) h2
    unfold dutyCost
    omega

/-- The grants of an allocation cost no more than what it began with (R58). -/
theorem allocate_cost (s : State) (l : List Nat) (r : Nat) :
    ((allocate s l r).map (fun p => dutyCost (s.channelConfig p.1).rated p.2)).sum ≤ r := by
  induction l generalizing r with
  | nil => exact Nat.zero_le _
  | cons n ns ih =>
    have h := dutyCost_grantOf (s.channelConfig n).rated r (s.channel n).demand
    have := ih (r - dutyCost (s.channelConfig n).rated (grantOf (s.channelConfig n).rated r (s.channel n).demand))
    simp only [allocate, List.map_cons, List.sum_cons]
    omega

theorem allocate_keys (s : State) (l : List Nat) (r : Nat) : (allocate s l r).map Prod.fst = l := by
  induction l generalizing r with
  | nil => rfl
  | cons n ns ih => simp only [allocate, List.map_cons, ih]

/-- No channel stands twice in the order of allocation. -/
theorem inUseOrder_nodup (s : State) : s.inUseOrder.Nodup := by
  unfold State.inUseOrder List.Nodup
  rw [List.pairwise_flatMap]
  refine ⟨fun p _ => (List.nodup_range).sublist List.filter_sublist, ?_⟩
  simp only [List.pairwise_cons, List.mem_cons, List.not_mem_nil, or_false, List.mem_filter, Bool.and_eq_true, beq_iff_eq,
    List.Pairwise.nil, and_true, forall_eq_or_imp, forall_eq, false_imp_iff, implies_true]
  refine ⟨⟨?_, ?_, ?_⟩, ⟨?_, ?_⟩, ?_⟩
  all_goals
    intro x hx y hy e
    subst e
    have := hx.2.2
    have := hy.2.2
    omega

theorem mem_inUseOrder {s : State} {n : Nat} (h : n ∈ s.inUseOrder) : n < 8 ∧ s.inUse n = true := by
  unfold State.inUseOrder at h
  obtain ⟨p, _, hp⟩ := List.mem_flatMap.1 h
  obtain ⟨h1, h2⟩ := List.mem_filter.1 hp
  simp only [Bool.and_eq_true] at h2
  exact ⟨List.mem_range.1 h1, h2.1⟩

theorem lookup_of_not_mem {l : List (Nat × Nat)} {n : Nat} (h : n ∉ l.map Prod.fst) : l.lookup n = none := by
  induction l with
  | nil => rfl
  | cons p l ih =>
    obtain ⟨a, b⟩ := p
    simp only [List.map_cons, List.mem_cons, not_or] at h
    have : (n == a) = false := by simpa using h.1
    simp only [List.lookup, this]
    exact ih h.2

/-- Over keys that stand once, summing by lookup is summing the list. -/
theorem sum_lookup {l : List (Nat × Nat)} (h : (l.map Prod.fst).Nodup) (f : Nat → Nat → Nat) :
    ((l.map Prod.fst).map (fun n => f n ((l.lookup n).getD 0))).sum = (l.map (fun p => f p.1 p.2)).sum := by
  induction l with
  | nil => rfl
  | cons p l ih =>
    obtain ⟨a, b⟩ := p
    simp only [List.map_cons] at h ⊢
    obtain ⟨h1, h2⟩ := List.nodup_cons.1 h
    simp only [List.sum_cons, List.lookup, beq_self_eq_true, Option.getD_some]
    congr 1
    rw [← ih h2]
    congr 1
    apply List.map_congr_left
    intro n hn
    have : (n == a) = false := by
      simp only [beq_eq_false_iff_ne]
      intro e; subst e; exact h1 hn
    simp only [this]

theorem sum_filter_eq {l : List Nat} {p : Nat → Bool} {f : Nat → Nat} (h : ∀ n ∈ l, p n = false → f n = 0) :
    (l.map f).sum = ((l.filter p).map f).sum := by
  induction l with
  | nil => rfl
  | cons a l ih =>
    have ih' := ih (fun n hn => h n (List.mem_cons_of_mem a hn))
    by_cases hp : p a = true
    · simp only [List.filter_cons, hp, if_true, List.map_cons, List.sum_cons, ih']
    · have hp' : p a = false := by simpa using hp
      have := h a (List.mem_cons_self ..) hp'
      simp only [List.filter_cons, hp', List.map_cons, List.sum_cons, ih', this, Nat.zero_add]
      rfl

/-- The grants that an allocation of the held shares gives fit in them (R58). -/
theorem allotted_fit (s : State) :
    ((List.range 8).map (fun n => if s.inUse n then dutyCost (s.channelConfig n).rated (s.allotted n) else 0)).sum
      ≤ s.shares.held := by
  have hk := allocate_keys s s.inUseOrder s.shares.held
  have hnd := inUseOrder_nodup s
  have hsum : ((List.range 8).map (fun n => if s.inUse n then dutyCost (s.channelConfig n).rated (s.allotted n) else 0)).sum
      = (s.inUseOrder.map (fun n => dutyCost (s.channelConfig n).rated (s.allotted n))).sum := by
    rw [sum_filter_eq (p := fun n => s.inUseOrder.contains n)]
    · have hperm : ((List.range 8).filter (fun n => s.inUseOrder.contains n)).Perm s.inUseOrder := by
        rw [List.perm_ext_iff_of_nodup ((List.nodup_range).sublist List.filter_sublist) hnd]
        intro n
        simp only [List.mem_filter, List.contains_iff_mem, List.mem_range]
        exact ⟨fun h => h.2, fun h => ⟨(mem_inUseOrder h).1, h⟩⟩
      rw [(hperm.map _).sum_nat]
      congr 1
      apply List.map_congr_left
      intro n hn
      simp only [(mem_inUseOrder hn).2, if_true]
    · intro n _ hn
      have hm : n ∉ s.inUseOrder := by
        intro h
        rw [List.contains_iff_mem.2 h] at hn
        cases hn
      have : s.allotted n = 0 := by
        unfold State.allotted
        rw [lookup_of_not_mem (by rw [hk]; exact hm)]
        rfl
      rw [this, dutyCost_zero]
      simp
  rw [hsum]
  have h2 := sum_lookup (l := allocate s s.inUseOrder s.shares.held) (by rw [hk]; exact hnd)
    (fun n g => dutyCost (s.channelConfig n).rated g)
  rw [hk] at h2
  have h3 := allocate_cost s s.inUseOrder s.shares.held
  unfold State.allotted
  rw [h2]
  exact h3

/-! ## Falls and period starts -/

theorem channel_mapInUse (f : Nat → Channel → Channel) (s : State) (n : Nat) (h : s.inUse n = true) :
    (mapInUse f s).channel n = if n < s.heater.channels.length then f n (s.channel n) else .blank := by
  show (s.withChannels _).channel n = _
  rw [channel_mapIdx]
  simp only [h, if_true]

/-- Grants no greater than what an allocation of the present held shares gives fit (R58, R59). -/
theorem grantsFit_of_allotted {s t u : State} (hj : t.joined = u.joined) (hc : t.cfg = u.cfg)
    (hh : t.shares.held = u.shares.held) (hs : s = u)
    (h : ∀ n, u.inUse n = true → (t.channel n).grant ≤ u.allotted n) : t.GrantsFit := by
  subst hs
  have hcc : ∀ n, t.channelConfig n = s.channelConfig n := fun n => by simp only [State.channelConfig, hc]
  have hu : ∀ n, t.inUse n = s.inUse n := fun n => by simp only [State.inUse, hj, hcc]
  refine Nat.le_trans (sum_map_le (g := fun n =>
    if s.inUse n then dutyCost (s.channelConfig n).rated (s.allotted n) else 0) ?_) (by rw [hh]; exact allotted_fit s)
  intro n _
  simp only [hu, hcc]
  split
  · exact dutyCost_mono (h n ‹_›)
  · exact Nat.le_refl 0

theorem lowerGrant_grant (p slot g : Nat) (c : Channel) : (lowerGrant p slot g c).grant ≤ min c.grant g := Nat.le_refl _

/-- After a reallocation the grants fit in the held shares, whatever they were before (R59). -/
theorem grantsFit_reallocate (s : State) : (reallocate s).GrantsFit := by
  refine grantsFit_of_allotted (s := s) (u := s) rfl rfl rfl rfl (fun n hn => ?_)
  unfold reallocate
  rw [channel_mapInUse _ _ _ hn]
  split
  · exact Nat.min_le_right _ _
  · exact Nat.zero_le _

theorem moves_reallocate (s : State) : Moves s (reallocate s) :=
  moves_mapInUse (by intro _ _; rfl) (by intro _ _; exact Nat.min_le_left _ _) s

/-- A change of the held shares: the share unit's other fields stay, and the grants fit after it (R59, R62, R67). -/
theorem setHeld_spec (h : Nat) (s : State) :
    (setHeld h s).shares = { s.shares with held := h } ∧
      (setHeld h s).steady = { s.steady with shares := { s.shares with held := h } } ∧
      (setHeld h s).bus = s.bus ∧ (setHeld h s).causes = s.causes ∧ (s.GrantsFit → (setHeld h s).GrantsFit) ∧
      (s.joined = false → s.AtRest → (setHeld h s).AtRest) := by
  unfold setHeld
  have hrest : s.AtRest → State.AtRest { s with shares := { s.shares with held := h } } := fun r => r
  by_cases hlt : h < s.shares.held
  · simp only [hlt, if_true]
    have hm := moves_reallocate { s with shares := { s.shares with held := h } }
    refine ⟨rfl, ?_, rfl, rfl, fun _ => (moves_recost _).grants (grantsFit_reallocate _), fun j r => hm.rest j (hrest r)⟩
    exact hm.steady
  · simp only [hlt, if_false]
    refine ⟨rfl, rfl, rfl, rfl, fun k => ?_, fun _ r => r⟩
    have : s.shares.held ≤ h := Nat.le_of_not_lt hlt
    exact Nat.le_trans k this

theorem keeps_recost (s : State) : Keeps s (recost s) := (Follows.of_causes (moves_recost s) rfl).keeps

/-- Channels may be changed where no grant rises (R57, R63). -/
theorem keeps_mapInUse {f : Nat → Channel → Channel} (hg : ∀ n c, (f n c).grant ≤ c.grant) (s : State) :
    Keeps s (mapInUse f s) where
  fixed := rfl
  count := rfl
  joined := rfl
  places k := k
  grants := by
    refine grantsFit_of_le rfl rfl (Nat.le_refl _) (fun n hu => ?_)
    rw [channel_mapInUse _ _ _ hu]
    split
    · exact hg _ _
    · exact Nat.zero_le _
  derived k := k
  rest j r := by
    obtain ⟨a, b, c, d, e, hch, l⟩ := r
    refine ⟨a, b, c, d, e, ?_, l⟩
    intro x hx
    obtain ⟨n, hn, rfl⟩ := List.mem_mapIdx.1 hx
    have : s.inUse n = false := by simp [State.inUse, j]
    simp only [this]
    exact hch _ (List.getElem_mem hn)
  boards k := k
  shares k := k
  lend _ k := k
  wire := .inl rfl
  ack k := k
  claims := .inl

theorem keeps_serviceBoundary (s : State) : Keeps s (serviceBoundary s) :=
  (keeps_mapInUse (by
    intro n c
    show (zeroDemand (s.channelConfig n).phase s.heater.slot c).grant ≤ c.grant
    rw [zeroDemand_grant]; exact Nat.zero_le _) s).trans (keeps_recost _)

theorem zeroDemand_rest {c : Channel} (p slot : Nat)
    (h : c.setpoint = none ∧ c.demand = 0 ∧ c.grant = 0 ∧ c.pulse = 0 ∧ c.runOn = 0) :
    (zeroDemand p slot c).setpoint = none ∧ (zeroDemand p slot c).demand = 0 ∧ (zeroDemand p slot c).grant = 0
      ∧ (zeroDemand p slot c).pulse = 0 ∧ (zeroDemand p slot c).runOn = 0 := by
  obtain ⟨h1, _, _, h4, h5⟩ := h
  refine ⟨h1, rfl, zeroDemand_grant _ _ c, ?_, ?_⟩
  · show cutPulse _ c.pulse _ = 0
    rw [h4]; simp [cutPulse]
  · show cutPulse _ c.runOn _ = 0
    rw [h5]; simp [cutPulse]

/-- Channels found open (R57). -/
theorem keeps_openChannels (l : List Nat) (s : State) : Keeps s (openChannels l s) := by
  unfold openChannels
  refine Keeps.ite _ (Keeps.refl s) (Keeps.trans ?_ (keeps_recost _))
  refine
    { fixed := rfl, count := rfl, joined := rfl, places := fun k => k, grants := ?_, derived := fun k => k, rest := ?_
      boards := fun k => k, shares := fun k => k, lend := fun _ k => k, wire := .inl rfl, ack := fun k => k, claims := .inl }
  · refine grantsFit_of_le rfl rfl (Nat.le_refl _) (fun n _ => ?_)
    rw [channel_mapIdx]
    split
    · split
      · show (zeroDemand (s.channelConfig n).phase s.heater.slot (s.channel n)).grant ≤ _
        rw [zeroDemand_grant]; exact Nat.zero_le _
      · exact Nat.le_refl _
    · exact Nat.zero_le _
  · intro _ r
    obtain ⟨a, b, c, d, e, hch, l⟩ := r
    refine ⟨a, b, c, d, e, ?_, l⟩
    intro x hx
    obtain ⟨n, hn, rfl⟩ := List.mem_mapIdx.1 hx
    have hc := hch _ (List.getElem_mem hn)
    split
    · exact zeroDemand_rest (s.channelConfig n).phase s.heater.slot hc
    · exact hc

/-- The heater unit's work at a period start (R52): afterwards the grants fit, whatever they were. -/
theorem heaterPeriod_spec {s : State} (hj : s.joined = true) :
    Keeps s (heaterPeriod s) ∧ (heaterPeriod s).GrantsFit := by
  have hfit : (heaterPeriod s).GrantsFit := by
    refine grantsFit_of_allotted (s := mapInUse (regulate s) s) (u := mapInUse (regulate s) s) rfl rfl rfl rfl
      (fun n hn => ?_)
    show ((mapInUse (fun n c => startPulse (s.channelConfig n).phase ((mapInUse (regulate s) s).allotted n) c)
      (mapInUse (regulate s) s)).channel n).grant ≤ _
    rw [channel_mapInUse _ _ _ hn]
    split
    · exact Nat.le_refl _
    · exact Nat.zero_le _
  exact
    ⟨{ fixed := rfl, count := rfl, joined := rfl, places := fun k => k, grants := fun _ => hfit, derived := fun k => k
       rest := fun j _ => by rw [hj] at j; cases j
       boards := fun k => k, shares := fun k => k, lend := fun _ k => k, wire := .inl rfl, ack := fun k => k
       claims := .inl }, hfit⟩

/-- The position within the period is read by no invariant. -/
theorem keeps_slot (k : Nat) (s : State) : Keeps s { s with heater := { s.heater with slot := k } } :=
  { fixed := rfl, count := rfl, joined := rfl, places := fun k => k, grants := fun k => k, derived := fun k => k, rest := fun _ k => k
    boards := fun k => k, shares := fun k => k, lend := fun _ k => k, wire := .inl rfl, ack := fun k => k, claims := .inl }

theorem keeps_toSlot (k : Nat) (s : State) : Keeps s (toSlot k s) := Keeps.ite _ (keeps_slot _ s) (Keeps.refl s)

theorem keeps_tick (s : State) : Keeps s (tick s) := Keeps.ite _ (keeps_slot _ s) (Keeps.refl s)

end Sys2Proof.Machine
end

