-- ==== Sys2Proof/Laws/Tracker.lean ====
section
/-! SUPPORT. The invariants through the board tracker's, the recipe store's and the spray unit's operations. -/

namespace Sys2Proof.Machine

open Sys2Proof

/-! ## Recipe store: only its own fields -/

theorem keeps_withSlots (l : List Slot) (s : State) : Keeps s (s.withSlots l) := keeps_recipes _ s

theorem keeps_addRef (i : Option Nat) (s : State) : Keeps s (addRef i s) := by
  cases i with
  | none => exact Keeps.refl s
  | some i => exact keeps_recipes _ s

theorem keeps_dropRef (i : Option Nat) (s : State) : Keeps s (dropRef i s) := by
  cases i with
  | none => exact Keeps.refl s
  | some i => exact keeps_recipes _ s

theorem keeps_startHoldOver (c : Option HoldOver) (s : State) : Keeps s (startHoldOver c s) :=
  Keeps.ite _ (keeps_recipes _ s) (keeps_recipes _ s)

theorem keeps_endHoldOver (s : State) : Keeps s (endHoldOver s) := keeps_recipes _ s

theorem keeps_takeAdmit (n length count : Nat) (s : State) : Keeps s (takeAdmit n length count s) := by
  unfold takeAdmit
  split
  · refine Keeps.trans ?_ (keeps_addRef _ _)
    exact keeps_tracker rfl rfl
  · exact Keeps.refl s

theorem keeps_takeRecipe (r : RecipeFields) (s : State) : Keeps s (takeRecipe r s) := by
  have h1 : ∀ (n v : Nat) (d : Bool) (b : RecipeBody) (s : State), Keeps s (fillFree n v d b s) := fun n v d b s => by
    unfold fillFree
    split
    · exact keeps_recipes _ s
    · exact Keeps.refl s
  have h2 : ∀ (n v : Nat) (b : RecipeBody) (s : State), Keeps s (postRecipe n v b s) := fun n v b s => by
    unfold postRecipe
    split
    · exact Keeps.refl s
    · exact Keeps.refl s
    · exact Keeps.refl s
    · exact h1 _ _ _ _ s
    · exact keeps_recipes _ s
    · exact keeps_recipes _ s
    · split
      · exact (keeps_recipes _ s).trans (keeps_recipes _ _)
      · exact Keeps.refl s
  have h3 : ∀ (n v : Nat) (s : State), Keeps s (moveDefault n v s) := fun n v s => by
    unfold moveDefault
    split
    · exact keeps_recipes _ s
    · exact Keeps.refl s
  unfold takeRecipe
  exact Keeps.ite _ ((h2 _ _ _ s).trans (Keeps.ite _ (h3 _ _ _) (Keeps.refl _))) (Keeps.refl s)

theorem keeps_takeDrop (n : Nat) (s : State) : Keeps s (takeDrop n s) := keeps_recipes _ s

/-! ## Handover (R9) -/

theorem keeps_addMark (id code : Nat) (s : State) : Keeps s (addMark id code s) := (follows_addMark id code s).keeps

theorem keeps_push {f : TxFrame} {cls : Nat} {s : State} (h : s.admits cls = true) : Keeps s (s.push f) :=
  (follows_push h).keeps

theorem keeps_queueOrDrop (f : TxFrame) (s : State) : Keeps s (queueOrDrop f s) := (follows_queueOrDrop f s).keeps

theorem keeps_withdrawFrames (p : TxFrame → Bool) (s : State) : Keeps s (withdrawFrames p s) :=
  (follows_withdrawFrames p s).keeps

theorem keeps_handoverCheck (id : Nat) (s : State) : Keeps s (handoverCheck id s) := by
  unfold handoverCheck
  split
  · refine Keeps.ite _ ?_ (Keeps.refl s)
    split
    · exact keeps_push ‹_›
    · exact keeps_updateBoard (by intro _; rfl) s
  · exact Keeps.refl s

theorem keeps_handoverAll (s : State) : Keeps s (handoverAll s) := Keeps.foldl (fun s id => keeps_handoverCheck id s) _ s

/-! ## Marks that stand -/

theorem keeps_standingMarks (id : Nat) (s : State) : Keeps s (standingMarks id s) :=
  Keeps.foldl (fun s c => keeps_addMark id c s) _ s

theorem keeps_noRecipeMark (id : Nat) (s : State) : Keeps s (noRecipeMark id s) := by
  unfold noRecipeMark
  split
  · exact Keeps.refl s
  · exact Keeps.ite _ ((keeps_addMark id 7 s).trans (keeps_updateBoard (by intro _; rfl) _)) (Keeps.refl s)

theorem keeps_missingCheck (id : Nat) (s : State) : Keeps s (missingCheck id s) := by
  unfold missingCheck
  split
  · exact Keeps.ite _ (((keeps_updateBoard (by intro _; rfl) s).trans (keeps_addMark id 9 _)).trans
      (follows_occurrence _ _ _).keeps) (Keeps.refl s)
  · exact Keeps.refl s

theorem keeps_contactCheck (id : Nat) (s : State) : Keeps s (contactCheck id s) := by
  unfold contactCheck
  split
  · exact Keeps.refl s
  · refine Keeps.ite _ ?_ (Keeps.refl s)
    exact Keeps.ite _ ((keeps_updateBoard (by intro _; rfl) s).trans (keeps_addMark id 5 _))
      (keeps_updateBoard (by intro _; rfl) s)

/-! ## Spray -/

theorem keeps_flowCheck (id : Nat) (s : State) : Keeps s (flowCheck id s) :=
  (Follows.of_calm (moves_flowCheck id s) (calm_flowCheck id s)).keeps

theorem keeps_markNotFluxed (id : Nat) (s : State) : Keeps s (markNotFluxed id s) :=
  (Follows.of_calm (moves_markNotFluxed id s) (calm_markNotFluxed id s)).keeps

/-- The spray unit's fields are read by the rest of a station that is not JOINED only. -/
theorem keeps_spray {x : Spray} {s : State}
    (h : s.joined = false → (∀ o ∈ s.spray.oneShots, o = none) → ∀ o ∈ x.oneShots, o = none) :
    Keeps s { s with spray := x } where
  fixed := rfl
  count := rfl
  joined := rfl
  places k := k
  grants k := k
  derived k := k
  rest j r := by
    obtain ⟨a1, a2, a3, a4, a5, a6⟩ := r
    exact ⟨a1, a2, a3, a4, h j a5, a6⟩
  boards k := k
  shares k := k
  lend _ k := k
  wire := .inl rfl
  ack k := k
  claims := .inl

/-- A dot fires only where no station inhibit holds, so at a JOINED station only (R44). -/
theorem inhibit_of_rest {s : State} (h : s.AtRest) : s.stationInhibit = true := by
  simp [State.stationInhibit, h.1]

/-- No dot is handled where no record is held. -/
theorem keeps_handleDot (id k : Nat) (s : State) : Keeps s (handleDot id k s) := by
  unfold handleDot
  split
  · exact Keeps.refl s
  · rename_i b hb
    refine Keeps.trans ?_ (keeps_updateBoard (by intro _; rfl) _)
    split
    · exact keeps_markNotFluxed id s
    · rename_i sl _
      refine Keeps.ite _ (keeps_markNotFluxed id s) (Keeps.ite _ (keeps_updateBoard (by intro _; rfl) s) ?_)
      unfold fireDot
      refine Keeps.trans ?_ (keeps_updateBoard (by intro _; rfl) _)
      -- a held record means that the queue is not empty, so that the station is not at rest
      have hne : s.tracker.queue ≠ [] := by
        intro e
        simp [State.board, e] at hb
      have hs : ∀ x : Spray, Keeps s { s with spray := x } := fun x =>
        { fixed := rfl, count := rfl, joined := rfl, places := fun k => k, grants := fun k => k, derived := fun k => k
          rest := fun _ r => absurd r.2.2.2.1 hne
          boards := fun k => k, shares := fun k => k, lend := fun _ k => k, wire := .inl rfl, ack := fun k => k
          claims := .inl }
      exact Keeps.ite _ (hs _) (hs _)

theorem keeps_sprayDots (id : Nat) (s : State) : Keeps s (sprayDots id s) := by
  unfold sprayDots
  split
  · exact Keeps.refl s
  · exact Keeps.foldl (fun s k => keeps_handleDot id k s) _ s

theorem keeps_sprayRecords (ids : List Nat) (s : State) : Keeps s (sprayRecords ids s) := by
  unfold sprayRecords
  simp only []
  split
  · exact (keeps_free (s.free + 1) s).trans (Keeps.foldl (fun s id => keeps_sprayDots id s) _ _)
  · exact Keeps.foldl (fun s id => keeps_sprayDots id s) _ s

theorem keeps_sprayEnd (id : Nat) (s : State) : Keeps s (sprayEnd id s) := by
  unfold sprayEnd
  split
  · exact Keeps.refl s
  · exact Keeps.ite _ ((keeps_updateBoard (by intro _; rfl) s).trans (keeps_flowCheck id _)) (Keeps.refl s)

theorem keeps_sprayPassOver (id : Nat) (s : State) : Keeps s (sprayPassOver id s) := by
  unfold sprayPassOver
  split
  · exact Keeps.refl s
  · exact Keeps.ite _ (((keeps_updateBoard (by intro _; rfl) s).trans (keeps_markNotFluxed id _)).trans
      (keeps_flowCheck id _)) (Keeps.refl s)

/-! ## Release (R22) -/

theorem keeps_dropCounting (id : Nat) (s : State) : Keeps s (dropCounting id s) :=
  (Follows.of_calm (moves_dropCounting id s) (calm_dropCounting id s)).keeps

theorem keeps_closeShots (o : Owner) (s : State) : Keeps s (closeShots o s) :=
  (Follows.of_calm (moves_closeShots o s) (calm_closeShots o s)).keeps

theorem keeps_disownShots (id : Nat) (s : State) : Keeps s (disownShots id s) :=
  (Follows.of_calm (moves_disownShots id s) (calm_disownShots id s)).keeps

theorem keeps_countUnreported (s : State) : Keeps s (countUnreported s) := keeps_tracker rfl rfl

theorem keeps_removeBoard (id : Nat) (s : State) : Keeps s (removeBoard id s) := by
  unfold removeBoard
  have h : Keeps s (dropCounting id (disownShots id (s.withQueue (s.tracker.queue.filter (fun b => b.line.id != id))))) :=
    ((keeps_withQueue (fun e => by rw [e]; rfl) (boardsOrdered_filter _)).trans (keeps_disownShots id _)).trans
      (keeps_dropCounting id _)
  exact Keeps.ite _ (h.trans (keeps_tracker rfl rfl)) h

theorem keeps_reportBoard (b : Board) (s : State) : Keeps s (reportBoard b s) := by
  unfold reportBoard
  refine Keeps.ite _ (Keeps.refl s) ?_
  split
  · exact keeps_countUnreported s
  · split
    · exact keeps_push ‹_›
    · exact keeps_countUnreported s

theorem keeps_releaseBoard (b : Board) (s : State) : Keeps s (releaseBoard b s) := by
  unfold releaseBoard
  have h := (((keeps_withdrawFrames (TxFrame.isPositionOf b.line.id) s).trans (keeps_dropRef b.slot _)).trans
    (keeps_removeBoard b.line.id _)).trans (keeps_reportBoard b _)
  exact Keeps.ite _ (h.trans (keeps_startHoldOver _ _)) h

theorem keeps_releaseCheck (id : Nat) (s : State) : Keeps s (releaseCheck id s) := by
  unfold releaseCheck
  split
  · exact Keeps.refl s
  · exact Keeps.ite _ (keeps_releaseBoard _ s) (Keeps.refl s)

theorem keeps_eachBoard {f : Nat → State → State} (h : ∀ id s, Keeps s (f id s)) (ids : List Nat) (s : State) :
    Keeps s (eachBoard f ids s) := Keeps.foldl (fun s id => h id s) ids s

/-- A position event keeps every invariant (R5). -/
theorem keeps_positionEvents (ids : List Nat) (s : State) : Keeps s (positionEvents ids s) := by
  unfold positionEvents
  refine Keeps.trans ?_ (Keeps.ite _ (Keeps.refl _) (keeps_workRequests _))
  exact (((((((keeps_eachBoard keeps_missingCheck ids s).trans (keeps_eachBoard keeps_noRecipeMark ids _)).trans
    (keeps_sprayRecords ids _)).trans (keeps_eachBoard keeps_sprayEnd ids _)).trans
    (keeps_eachBoard keeps_contactCheck ids _)).trans (keeps_eachBoard keeps_standingMarks ids _)).trans
    (keeps_eachBoard keeps_handoverCheck ids _)).trans (keeps_eachBoard keeps_releaseCheck ids _)

/-! ## Taking a record in -/

/-- A record of an id not held joins a queue that has a place (R3). -/
theorem boardsOrdered_insert {x : Board} {s : State} (h : s.BoardsOrdered) (hl : s.tracker.queue.length < 8)
    (hid : x.line.id ∉ s.boardIds) : (s.withQueue (insertByPos s.pos x s.tracker.queue)).BoardsOrdered := by
  have hp := insertByPos_perm s.pos x s.tracker.queue
  refine ⟨?_, ?_, ?_⟩
  · show (insertByPos s.pos x s.tracker.queue).length ≤ 8
    rw [hp.length_eq]; exact hl
  · show ((insertByPos s.pos x s.tracker.queue).map _).Nodup
    exact (hp.map _).nodup_iff.2 (List.nodup_cons.2 ⟨hid, h.2.1⟩)
  · show ((insertByPos s.pos x s.tracker.queue).map s.pos).Pairwise _
    rw [List.pairwise_map]
    exact insertByPos_sorted _ _ _ (List.pairwise_map.1 h.2.2)

theorem addRef_tracker (i : Option Nat) (s : State) : (addRef i s).tracker = s.tracker := by cases i <;> rfl

theorem keeps_joinQueue {b : Board} {s : State} (hj : s.joined = true) (hl : s.tracker.queue.length < 8)
    (hid : b.line.id ∉ s.boardIds) : Keeps s (joinQueue b s) := by
  unfold joinQueue
  have h1 := keeps_addRef (s.resolve b.line.recipe b.line.version) s
  have ht := addRef_tracker (s.resolve b.line.recipe b.line.version) s
  refine (h1.trans ?_).trans (keeps_endHoldOver _)
  have hk : ∀ u : State, u.joined = true → u.tracker.queue.length < 8 → b.line.id ∉ u.boardIds → ∀ sl,
      Keeps u (u.withQueue (insertByPos u.pos { b with slot := sl } u.tracker.queue)) := fun u uj ul uid sl =>
    { fixed := rfl, count := rfl, joined := rfl, places := id, grants := id, derived := id
      rest := fun j _ => by rw [uj] at j; cases j
      boards := fun k => boardsOrdered_insert k ul uid
      shares := id, lend := fun _ k => k, wire := .inl rfl, ack := id, claims := .inl }
  exact hk _ (h1.joined.trans hj) (by rw [ht]; exact hl) (by unfold State.boardIds; rw [ht]; exact hid) _

theorem keeps_takeInChecks (id : Nat) (s : State) : Keeps s (takeInChecks id s) :=
  (((keeps_sprayPassOver id s).trans (keeps_noRecipeMark id _)).trans (keeps_contactCheck id _)).trans
    (keeps_standingMarks id _)

/-! ## The downstream neighbour (R7, R8) -/

theorem keeps_updateNeighbour (gone : List Nat) (s : State) : Keeps s (updateNeighbour gone s) := by
  unfold updateNeighbour
  refine Keeps.ite _ (Keeps.refl s) ?_
  have h1 : Keeps s { s with tracker := { s.tracker with
      neighbour := s.findNeighbour
      queue := s.tracker.queue.map (fun b => { b with handed := none, heldBack := false }) } } :=
    (keeps_mapQueue (f := fun b => { b with handed := none, heldBack := false }) (by intro _; rfl) s).trans
      (keeps_tracker (x := { s.tracker with
        neighbour := s.findNeighbour
        queue := s.tracker.queue.map (fun b => { b with handed := none, heldBack := false }) }) rfl rfl)
  have h2 := h1.trans (keeps_withdrawFrames (TxFrame.isKind 8) _)
  exact (h2.trans (Keeps.ite _ (follows_markBoards _ 10 _).keeps (Keeps.refl _))).trans (keeps_handoverAll _)

end Sys2Proof.Machine
end

