-- ==== Sys2Proof/Laws/Shares.lean ====
section
/-! SUPPORT. Loan lists (R68) and the invariants through the share unit's operations. -/

namespace Sys2Proof.Machine

open Sys2Proof

/-! ## Loan lists -/

theorem loanSum_cons (r : Loan) (l : List Loan) : loanSum (r :: l) = r.amount + loanSum l := by simp [loanSum]

theorem loanSum_append (l m : List Loan) : loanSum (l ++ m) = loanSum l + loanSum m := by simp [loanSum]

theorem hasLoan_iff (peer : Nat) (l : List Loan) : hasLoan peer l = true ↔ peer ∈ l.map (·.peer) := by
  simp only [hasLoan, List.any_eq_true, beq_iff_eq, List.mem_map]

theorem loanOf_cons (peer : Nat) (r : Loan) (l : List Loan) :
    loanOf peer (r :: l) = if r.peer = peer then r.amount else loanOf peer l := by
  unfold loanOf
  by_cases h : r.peer = peer
  · simp [h]
  · have : (r.peer == peer) = false := by simpa using h
    simp [List.find?, this, h]

theorem loanOf_of_not_mem {peer : Nat} {l : List Loan} (h : peer ∉ l.map (·.peer)) : loanOf peer l = 0 := by
  induction l with
  | nil => rfl
  | cons r l ih =>
    simp only [List.map_cons, List.mem_cons, not_or] at h
    rw [loanOf_cons, if_neg (fun e => h.1 e.symm)]
    exact ih h.2

theorem loanOf_le_sum (peer : Nat) (l : List Loan) : loanOf peer l ≤ loanSum l := by
  induction l with
  | nil => exact Nat.le_refl 0
  | cons r l ih =>
    rw [loanOf_cons, loanSum_cons]
    split <;> omega

theorem map_loan_of_not_mem {peer : Nat} {f : Loan → Loan} {l : List Loan} (h : peer ∉ l.map (·.peer)) :
    l.map (fun r => if r.peer == peer then f r else r) = l := by
  induction l with
  | nil => rfl
  | cons r l ih =>
    simp only [List.map_cons, List.mem_cons, not_or] at h
    have : (r.peer == peer) = false := by simpa using fun e => h.1 e.symm
    simp only [List.map_cons, this, ih h.2]
    rfl

/-- A record grows or is appended: the sum rises by the amount and each peer keeps one record (R68, R76). -/
theorem growLoan_spec {peer m : Nat} {l : List Loan} (h : (l.map (·.peer)).Nodup) :
    loanSum (growLoan peer m l) = loanSum l + m ∧ ((growLoan peer m l).map (·.peer)).Nodup := by
  unfold growLoan
  by_cases hp : hasLoan peer l = true
  · simp only [hp, if_true]
    have hmem := (hasLoan_iff peer l).1 hp
    constructor
    · clear hp
      induction l with
      | nil => cases hmem
      | cons r l ih =>
        simp only [List.map_cons] at h hmem ⊢
        obtain ⟨h1, h2⟩ := List.nodup_cons.1 h
        by_cases e : r.peer = peer
        · have hb : (r.peer == peer) = true := by simpa using e
          rw [map_loan_of_not_mem (by rw [← e]; exact h1)]
          simp only [hb, if_true, loanSum_cons]
          omega
        · have hb : (r.peer == peer) = false := by simpa using e
          rcases List.mem_cons.1 hmem with e' | hm
          · exact absurd e'.symm e
          · simp only [hb, loanSum_cons, ih h2 hm]
            simp only [Bool.false_eq_true, if_false]
            omega
    · have : (l.map (fun r => if r.peer == peer then { r with amount := r.amount + m } else r)).map (·.peer)
          = l.map (·.peer) := by
        rw [List.map_map]
        apply List.map_congr_left
        intro r _
        simp only [Function.comp]
        split <;> rfl
      rw [this]; exact h
  · simp only [hp]
    have hmem : peer ∉ l.map (·.peer) := fun e => hp ((hasLoan_iff peer l).2 e)
    refine ⟨by rw [if_neg (by simp), loanSum_append]; simp [loanSum], ?_⟩
    rw [if_neg (by simp), List.map_append]
    rw [List.nodup_append]
    refine ⟨h, by simp, ?_⟩
    intro a ha b hb e
    simp only [List.map_cons, List.map_nil, List.mem_cons, List.not_mem_nil, or_false] at hb
    subst e; subst hb
    exact hmem ha

theorem dropLoan_spec {peer : Nat} {l : List Loan} (h : (l.map (·.peer)).Nodup) :
    loanSum (dropLoan peer l) + loanOf peer l = loanSum l ∧ ((dropLoan peer l).map (·.peer)).Nodup := by
  refine ⟨?_, h.sublist (List.filter_sublist.map _)⟩
  unfold dropLoan
  induction l with
  | nil => rfl
  | cons r l ih =>
    simp only [List.map_cons] at h
    obtain ⟨h1, h2⟩ := List.nodup_cons.1 h
    rw [loanOf_cons, loanSum_cons]
    by_cases e : r.peer = peer
    · have hb : (r.peer != peer) = false := by simp [e]
      simp only [List.filter_cons, hb, Bool.false_eq_true, if_false, if_pos e]
      have := ih h2
      rw [loanOf_of_not_mem (by rw [← e]; exact h1)] at this
      omega
    · have hb : (r.peer != peer) = true := by simpa using e
      simp only [List.filter_cons, hb, if_true, if_neg e, loanSum_cons]
      have := ih h2
      omega

theorem loanSum_filter_pos (l : List Loan) : loanSum (l.filter (fun r => r.amount != 0)) = loanSum l := by
  induction l with
  | nil => rfl
  | cons r l ih =>
    by_cases e : r.amount = 0
    · simp only [List.filter_cons, e, loanSum_cons]
      simp [ih]
    · have hb : (r.amount != 0) = true := by simpa using e
      simp only [List.filter_cons, hb, if_true, loanSum_cons, ih]

theorem shrinkLoan_spec {peer m : Nat} {l : List Loan} (h : (l.map (·.peer)).Nodup) :
    loanSum (shrinkLoan peer m l) + min m (loanOf peer l) = loanSum l ∧ ((shrinkLoan peer m l).map (·.peer)).Nodup := by
  unfold shrinkLoan
  refine ⟨?_, ?_⟩
  · rw [loanSum_filter_pos]
    induction l with
    | nil => simp [loanSum, loanOf]
    | cons r l ih =>
      simp only [List.map_cons] at h ⊢
      obtain ⟨h1, h2⟩ := List.nodup_cons.1 h
      rw [loanOf_cons, loanSum_cons, loanSum_cons]
      by_cases e : r.peer = peer
      · have hb : (r.peer == peer) = true := by simpa using e
        rw [map_loan_of_not_mem (by rw [← e]; exact h1)]
        simp only [hb, if_true, if_pos e]
        omega
      · have hb : (r.peer == peer) = false := by simpa using e
        simp only [hb, Bool.false_eq_true, if_false, if_neg e]
        have := ih h2
        omega
  · have : (l.map (fun r => if r.peer == peer then { r with amount := r.amount - m } else r)).map (·.peer)
        = l.map (·.peer) := by
      rw [List.map_map]
      apply List.map_congr_left
      intro r _
      simp only [Function.comp]
      split <;> rfl
    have h' : ((l.map (fun r => if r.peer == peer then { r with amount := r.amount - m } else r)).map (·.peer)).Nodup := by
      rw [this]; exact h
    exact h'.sublist (List.filter_sublist.map _)

/-! ## Changes of the lists with H -/

/-- H and a list changed together: what is left to show is the balance. -/
theorem keeps_setHeld {x : Shares} {h : Nat} {s : State} (hst : s.shares.state = .unseated → x.state = .unseated) (hh : s.shares.held = x.held)
    (hb : s.SharesBalance → State.SharesBalance { s with shares := { x with held := h } })
    (hl : s.SharesBalance → s.LendCovered → State.LendCovered { s with shares := { x with held := h } }) :
    Keeps s (setHeld h { s with shares := x }) := by
  obtain ⟨e1, e2, e3, e4, e5, e6⟩ := setHeld_spec h { s with shares := x }
  have hcfg : (setHeld h { s with shares := x }).cfg = s.cfg := by
    have : (setHeld h { s with shares := x }).loader = s.loader := congrArg Prod.fst e4
    simp only [State.cfg, this]
  have hfix : ((setHeld h { s with shares := x }).uid, (setHeld h { s with shares := x }).loader,
      (setHeld h { s with shares := x }).pending) = (s.uid, s.loader, s.pending) := by
    have := congrArg (fun y : State => (y.uid, y.loader, y.pending)) e2
    exact this
  have hctl : (setHeld h { s with shares := x }).control = s.control := congrArg (fun p => p.2.1) e4
  have htr : (setHeld h { s with shares := x }).steady.tracker = s.steady.tracker := by rw [e2]; rfl
  have hj : (setHeld h { s with shares := x }).joined = s.joined := by simp only [State.joined, hctl]
  have hq : (setHeld h { s with shares := x }).tracker.queue.map boardKey = s.tracker.queue.map boardKey := by
    have : (setHeld h { s with shares := x }).tracker.queue.map boardKeep = s.tracker.queue.map boardKeep :=
      congrArg (fun x : Tracker => x.queue) htr
    have := congrArg (List.map boardKey) this
    simp only [List.map_map] at this
    exact this
  have hn : (setHeld h { s with shares := x }).tracker.count = s.tracker.count := by
    have : (setHeld h { s with shares := x }).steady.tracker.count = s.steady.tracker.count := by rw [htr]
    exact this
  exact
    { fixed := hfix
      count := hn
      joined := hj
      places := fun k => by unfold State.TxFits State.txUsed at k ⊢; rw [e3]; exact k
      grants := fun k => e5 (by
        show State.grantCost _ ≤ x.held
        rw [← hh]; exact k)
      derived := fun k => derived_of_causes (s := s) e4 k
      rest := fun j r => e6 j (by
        obtain ⟨a1, a2, a3, a4, a5, a6, a7, a8, a9⟩ := r
        exact ⟨a1, a2, a3, a4, a5, a6, a7, hst a8, a9⟩)
      boards := boardsOrdered_of_keys hcfg hn hq
      shares := fun k => sharesBalance_of_eq (s := { s with shares := { x with held := h } }) hcfg e1 (hb k)
      lend := fun k l w hw hk => by
        rw [e1, hcfg]
        rw [e3] at hw
        exact hl k l w hw hk
      wire := .inl (by rw [e3])
      ack := fun k => by rw [e3] at k; exact k
      claims := fun k => .inl (by rw [hctl]; exact k) }

/-- A loan made, where the base still covers it (R76). -/
theorem keeps_lendTo {peer m : Nat} {s : State}
    (hm : s.SharesBalance → s.shares.state ≠ .unseated ∧ loanSum s.shares.lent + m ≤ s.cfg.base)
    (hw : s.bus.onWire = none) : Keeps s (lendTo peer m s) := by
  unfold lendTo
  refine keeps_setHeld (x := { s.shares with lent := growLoan peer m s.shares.lent }) id rfl (fun k => ?_)
    (fun _ _ w hw' => by rw [show s.bus.onWire = some w from hw'] at hw; cases hw)
  obtain ⟨hs, hb⟩ := hm k
  unfold State.SharesBalance at k ⊢
  rw [if_neg hs] at k
  show if s.shares.state = .unseated then _ else _
  rw [if_neg hs]
  obtain ⟨k1, k2, k3, k4⟩ := k
  have hg := growLoan_spec (peer := peer) (m := m) k3
  refine ⟨?_, ?_, hg.2, k4⟩
  · show s.shares.held - m + loanSum (growLoan peer m s.shares.lent) = s.cfg.base + loanSum s.shares.borrowed
    rw [hg.1]; omega
  · show loanSum (growLoan peer m s.shares.lent) ≤ s.cfg.base
    rw [hg.1]; omega

theorem keeps_borrowFrom {peer m : Nat} {s : State} (hs : s.shares.state ≠ .unseated) : Keeps s (borrowFrom peer m s) := by
  unfold borrowFrom
  refine keeps_setHeld (x := { s.shares with borrowed := growLoan peer m s.shares.borrowed }) id rfl (fun k => ?_)
    (fun _ l => l)
  unfold State.SharesBalance at k ⊢
  rw [if_neg hs] at k
  show if s.shares.state = .unseated then _ else _
  rw [if_neg hs]
  obtain ⟨k1, k2, k3, k4⟩ := k
  have hg := growLoan_spec (peer := peer) (m := m) k4
  refine ⟨?_, k2, k3, hg.2⟩
  show s.shares.held + m + loanSum s.shares.lent = s.cfg.base + loanSum (growLoan peer m s.shares.borrowed)
  rw [hg.1]; omega

/-- The lent list falls and H rises by as much. -/
theorem keeps_lentFalls {l : List Loan} {d : Nat} {s : State} (h0 : s.shares.lent = [] → l = [] ∧ d = 0)
    (h : (s.shares.lent.map (·.peer)).Nodup → loanSum l + d = loanSum s.shares.lent ∧ (l.map (·.peer)).Nodup) :
    Keeps s (setHeld (s.shares.held + d) (s.withLent l)) := by
  refine keeps_setHeld (x := { s.shares with lent := l }) id rfl (fun k => ?_) (fun k c w hw hk => ?_)
  · unfold State.SharesBalance at k ⊢
    show if s.shares.state = .unseated then _ else _
    by_cases hs : s.shares.state = .unseated
    · rw [if_pos hs] at k ⊢
      obtain ⟨a, b, c⟩ := k
      obtain ⟨e1, e2⟩ := h0 b
      refine ⟨?_, e1, c⟩
      show s.shares.held + d = 0
      rw [e2]; exact a
    · rw [if_neg hs] at k ⊢
      obtain ⟨k1, k2, k3, k4⟩ := k
      obtain ⟨e1, e2⟩ := h k3
      refine ⟨?_, ?_, e2, k4⟩
      · show s.shares.held + d + loanSum l = s.cfg.base + loanSum s.shares.borrowed
        omega
      · show loanSum l ≤ s.cfg.base
        omega
  · obtain ⟨c1, c2⟩ := c w hw hk
    refine ⟨c1, ?_⟩
    unfold State.SharesBalance at k
    rw [if_neg c1] at k
    have := (h k.2.2.1).1
    show halfAt w.payload 0 + loanSum l ≤ s.cfg.base
    omega

/-- The borrowed list falls and H falls by as much. -/
theorem keeps_borrowedFalls {l : List Loan} {d : Nat} {s : State} (h0 : s.shares.borrowed = [] → l = [] ∧ d = 0)
    (h : (s.shares.borrowed.map (·.peer)).Nodup → loanSum l + d = loanSum s.shares.borrowed ∧ (l.map (·.peer)).Nodup) :
    Keeps s (setHeld (s.shares.held - d) (s.withBorrowed l)) := by
  refine keeps_setHeld (x := { s.shares with borrowed := l }) id rfl (fun k => ?_) (fun _ c => c)
  unfold State.SharesBalance at k ⊢
  show if s.shares.state = .unseated then _ else _
  by_cases hs : s.shares.state = .unseated
  · rw [if_pos hs] at k ⊢
    obtain ⟨a, b, c⟩ := k
    obtain ⟨e1, e2⟩ := h0 c
    refine ⟨?_, b, e1⟩
    show s.shares.held - d = 0
    rw [a]; exact Nat.zero_sub d
  · rw [if_neg hs] at k ⊢
    obtain ⟨k1, k2, k3, k4⟩ := k
    obtain ⟨e1, e2⟩ := h k4
    refine ⟨?_, k2, k3, e2⟩
    show s.shares.held - d + loanSum s.shares.lent = s.cfg.base + loanSum l
    omega

theorem keeps_takeBack (peer m : Nat) (s : State) : Keeps s (takeBack peer m s) :=
  keeps_lentFalls (fun e => by rw [e]; exact ⟨rfl, Nat.min_zero m⟩) (fun h => shrinkLoan_spec h)

theorem keeps_giveBack (peer m : Nat) (s : State) : Keeps s (giveBack peer m s) :=
  keeps_borrowedFalls (fun e => by rw [e]; exact ⟨rfl, Nat.min_zero m⟩) (fun h => shrinkLoan_spec h)

theorem keeps_reclaim (peer : Nat) (s : State) : Keeps s (reclaim peer s) :=
  keeps_lentFalls (fun e => by rw [e]; exact ⟨rfl, rfl⟩) (fun h => dropLoan_spec h)

theorem keeps_surrender (peer : Nat) (s : State) : Keeps s (surrender peer s) :=
  keeps_borrowedFalls (fun e => by rw [e]; exact ⟨rfl, rfl⟩) (fun h => dropLoan_spec h)

/-! ## Needs -/

theorem keeps_endNeed (s : State) : Keeps s (endNeed s) := keeps_shares rfl rfl rfl rfl

theorem keeps_setNeed (m : Nat) (s : State) : Keeps s (setNeed m s) := keeps_shares rfl rfl rfl rfl

theorem keeps_meetNeed (m : Nat) (s : State) : Keeps s (meetNeed m s) :=
  Keeps.ite _ (Keeps.refl s) (Keeps.ite _ (keeps_endNeed s) (keeps_shares rfl rfl rfl rfl))

/-! ## Seating and its end -/

/-- Seating begins the lists afresh with H = base (R69). -/
theorem keeps_seat {s : State} (hj : s.joined = true) (hw : s.bus.onWire = none) : Keeps s (seat s) := by
  unfold seat
  obtain ⟨e1, e2, e3, e4, e5, e6⟩ := setHeld_spec s.cfg.base
    (endNeed { s with shares := { s.shares with state := .seated, lent := [], borrowed := [] } })
  have hcfg : (seat s).cfg = s.cfg := by
    have : (seat s).loader = s.loader := congrArg Prod.fst e4
    simp only [State.cfg, this]
  have hfix : ((seat s).uid, (seat s).loader, (seat s).pending) = (s.uid, s.loader, s.pending) := by
    have := congrArg (fun y : State => (y.uid, y.loader, y.pending)) e2
    exact this
  have hctl : (seat s).control = s.control := congrArg (fun p => p.2.1) e4
  have htr : (seat s).steady.tracker = s.steady.tracker := by
    rw [show (seat s).steady = _ from e2]; rfl
  have hq : (seat s).tracker.queue.map boardKey = s.tracker.queue.map boardKey := by
    have : (seat s).tracker.queue.map boardKeep = s.tracker.queue.map boardKeep := congrArg (fun x : Tracker => x.queue) htr
    have := congrArg (List.map boardKey) this
    simp only [List.map_map] at this
    exact this
  have hn : (seat s).tracker.count = s.tracker.count := by
    have : (seat s).steady.tracker.count = s.steady.tracker.count := by rw [htr]
    exact this
  exact
    { fixed := hfix
      count := hn
      joined := by show (seat s).joined = _; simp only [State.joined, hctl]
      places := fun k => by
        show (seat s).txUsed ≤ 16
        unfold State.TxFits State.txUsed at k
        unfold State.txUsed
        rw [show (seat s).bus = s.bus from e3]; exact k
      grants := fun k => e5 k
      derived := fun k => derived_of_causes (s := s) e4 k
      rest := fun j _ => by rw [hj] at j; cases j
      boards := boardsOrdered_of_keys hcfg hn hq
      shares := fun _ => by
        have e1' : (seat s).shares = _ := e1
        show (seat s).SharesBalance
        unfold State.SharesBalance
        rw [e1', hcfg]
        simp [endNeed, loanSum]
      lend := fun _ _ w hw' => by
        have : (seat s).bus.onWire = s.bus.onWire := congrArg (fun b : Bus => b.onWire) e3
        rw [show (seat s).bus.onWire = some w from hw', hw] at this
        cases this
      wire := .inl (congrArg (fun b : Bus => b.onWire) e3)
      ack := fun k => by
        have : (seat s).bus.answer.ack = s.bus.answer.ack := congrArg (fun b : Bus => b.answer.ack) e3
        rw [← this]; exact k
      claims := fun k => .inl (by show (seat s).control.station = _; rw [hctl]; exact k) }

theorem keeps_dropLoansOf (k : Nat) (s : State) : Keeps s (dropLoansOf k s) :=
  Keeps.ite _ (Keeps.refl s) ((keeps_reclaim k s).trans (keeps_surrender k _))

theorem keeps_loanGone (k : Nat) (s : State) : Keeps s (loanGone k s) := Keeps.ite _ (keeps_reclaim k s) (Keeps.refl s)

/-- Entering isolation drops the borrowed records with their sum (R83). -/
theorem keeps_detach (s : State) : Keeps s (detach s) := by
  unfold detach
  split
  · rename_i hst
    refine Keeps.trans ?_ (keeps_withdrawFrames _ _)
    have hne : s.shares.state ≠ .unseated := by rw [hst]; intro e; cases e
    refine keeps_setHeld (x := { s.shares with state := .detached, borrowed := [], needAmount := 0, needTimer := .stopped })
      (fun e => absurd e hne) rfl (fun k => ?_) (fun _ c w hw hk => ⟨(by intro e; cases e), (c w hw hk).2⟩)
    unfold State.SharesBalance at k ⊢
    rw [if_neg hne] at k
    obtain ⟨k1, k2, k3, k4⟩ := k
    refine ⟨?_, k2, k3, List.nodup_nil⟩
    show s.shares.held - loanSum s.shares.borrowed + loanSum s.shares.lent = s.cfg.base + 0
    omega
  · exact keeps_shares rfl rfl rfl rfl
  · exact Keeps.refl s

/-! ## Frames of a period start and of a need's end -/

theorem keeps_queueNeed (s : State) : Keeps s (queueNeed s) := Keeps.ite _ (keeps_queueOrDrop _ s) (Keeps.refl s)

theorem keeps_queueReturn (s : State) : Keeps s (queueReturn s) := by
  unfold queueReturn
  split
  · exact Keeps.refl s
  · exact Keeps.ite _ (keeps_queueOrDrop _ s) (Keeps.refl s)

theorem keeps_budgetShort (s : State) : Keeps s (budgetShort s) := by
  unfold budgetShort
  refine Keeps.ite _ ?_ ?_
  · exact (keeps_shares (x := { s.shares with shortPeriods := 0 }) rfl rfl rfl rfl).trans (follows_releaseHeld 28 _).keeps
  · exact Keeps.ite _ ((keeps_shares (x := { s.shares with shortPeriods := min 10 (s.shares.shortPeriods + 1) }) rfl rfl rfl rfl).trans
      (follows_raiseHeld 28 _ _).keeps) (keeps_shares rfl rfl rfl rfl)

theorem keeps_shareHandOver (s : State) : Keeps s (shareHandOver s) :=
  ((keeps_queueNeed s).trans (keeps_queueReturn _)).trans (keeps_budgetShort _)

theorem keeps_queueRecall (s : State) : Keeps s (queueRecall s) := by
  unfold queueRecall
  split
  · exact Keeps.refl s
  · exact Keeps.ite _ (keeps_queueOrDrop _ s) (Keeps.refl s)

theorem keeps_withTx_le {s : State} {q : List TxFrame} (h : q.length ≤ s.bus.queue.length) : Keeps s (s.withTx q) :=
  (Follows.of_causes (moves_withTx_le h) rfl).keeps

theorem keeps_answerNeed (x a : Nat) (s : State) : Keeps s (answerNeed x a s) := by
  unfold answerNeed
  exact Keeps.ite _ (Keeps.refl s) (Keeps.ite _ (keeps_withTx_le (Nat.le_of_eq (List.length_map ..))) (keeps_queueOrDrop _ s))

end Sys2Proof.Machine
end

