-- ==== Sys2Proof/Laws/Bus.lean ====
section
/-! SUPPORT. The invariants through the directory and the line bus interface: what a commit does before the effects of its
kind, and the ends of a frame. -/

namespace Sys2Proof.Machine

open Sys2Proof

/-! ## Directory -/

theorem keeps_setEntry (n : Nat) (e : Option DirEntry) (s : State) : Keeps s (setEntry n e s) := keeps_dir _ s

/-- ORPHAN flags are read by no invariant. -/
theorem keeps_orphans (l : List Nat) (s : State) : Keeps s { s with groups := { s.groups with orphans := l } } :=
  ⟨⟨rfl, rfl, id, id, id, fun _ h => h, id, id, fun _ h => h, .inl rfl, id, .inl⟩, rfl⟩

theorem keeps_clearOrphan (r : Nat) (s : State) : Keeps s (clearOrphan r s) := keeps_orphans _ s

theorem keeps_touch (src : Nat) (s : State) : Keeps s (touch src s) := by
  unfold touch
  refine Keeps.ite _ ?_ (Keeps.refl s)
  split
  · exact keeps_setEntry _ _ s
  · exact (keeps_setEntry _ _ s).trans (keeps_clearOrphan _ _)

theorem keeps_writeStatus (src : Nat) (f : StatusFields) (s : State) : Keeps s (writeStatus src f s) := by
  unfold writeStatus
  split
  · exact Keeps.ite _ ((keeps_setEntry _ _ s).trans (keeps_updateNeighbour _ _)) (Keeps.refl s)
  · exact Keeps.refl s

theorem keeps_writeJoin (src : Nat) (f : JoinFields) (s : State) : Keeps s (writeJoin src f s) := by
  unfold writeJoin
  split
  · exact keeps_setEntry _ _ s
  · exact Keeps.refl s

theorem keeps_writeClaim (k : Nat) (f : ClaimFields) (s : State) : Keeps s (writeClaim k f s) := keeps_setEntry _ _ s

theorem keeps_orphanGone (r : Nat) (s : State) : Keeps s (orphanGone r s) := Keeps.ite _ (keeps_orphans _ s) (Keeps.refl s)

/-- An aging sweep keeps every invariant (R175). -/
theorem keeps_sweep (s : State) : Keeps s (sweep s) :=
  ((keeps_dir _ s).trans (Keeps.foldl (fun s n => (keeps_loanGone n s).trans (keeps_orphanGone n _)) _ _)).trans
    (keeps_updateNeighbour _ _)

theorem keeps_queueJoin (s : State) : Keeps s (queueJoin s) := by
  unfold queueJoin
  split
  · exact keeps_push ‹_›
  · exact keeps_dir _ s

theorem keeps_retryJoin (s : State) : Keeps s (retryJoin s) :=
  Keeps.ite _ ((keeps_dir _ s).trans (keeps_queueJoin _)) (Keeps.refl s)

theorem keeps_endHoldBacks (s : State) : Keeps s (endHoldBacks s) :=
  (keeps_mapQueue (by intro _; rfl) s).trans (keeps_eachBoard keeps_handoverCheck _ _)

theorem keeps_settle (s : State) : Keeps s (settle s) := (follows_settle s).keeps

/-- The ORPHAN flags do not matter where the condition is derived again. -/
theorem keeps_orphans_recondition {s t : State} {l : List Nat} (h : Moves s t) :
    Keeps s (recondition { t with groups := { t.groups with orphans := l } }) := by
  have h2 := moves_recondition { t with groups := { t.groups with orphans := l } }
  exact
    { fixed := (h2.read (fun x => (x.uid, x.loader, x.pending)) (fun _ => rfl)).trans
        (h.read (fun x => (x.uid, x.loader, x.pending)) (fun _ => rfl))
      count := h2.count.trans h.count
      joined := h2.joined.trans h.joined
      places := fun x => h2.places (h.places x)
      grants := fun x => h2.grants (h.grants x)
      derived := fun _ => derived_recondition _
      rest := fun j x => h2.rest (h.joined.trans j) (h.rest j x)
      boards := fun x => boardsOrdered_of_keys h2.cfg h2.count h2.queue_keys
        (boardsOrdered_of_keys (t := { t with groups := { t.groups with orphans := l } }) h.cfg h.count h.queue_keys x)
      shares := fun x => sharesBalance_of_eq h2.cfg h2.shares
        (sharesBalance_of_eq (t := { t with groups := { t.groups with orphans := l } }) h.cfg h.shares x)
      lend := fun _ x w hw hk => by
        have e1 : (recondition { t with groups := { t.groups with orphans := l } }).bus.onWire = t.bus.onWire :=
          h2.read (fun x => x.bus.onWire) (fun _ => rfl)
        have e2 : t.bus.onWire = s.bus.onWire := h.read (fun x => x.bus.onWire) (fun _ => rfl)
        rw [h2.shares, h2.cfg]
        show t.shares.state ≠ _ ∧ _ + loanSum t.shares.lent ≤ t.cfg.base
        rw [h.shares, h.cfg]
        exact x w (e2 ▸ e1 ▸ hw) hk
      wire := .inl ((h2.read (fun x => x.bus.onWire) (fun _ => rfl)).trans (h.read (fun x => x.bus.onWire) (fun _ => rfl)))
      ack := fun x => by
        have e1 : (recondition { t with groups := { t.groups with orphans := l } }).bus.answer.ack = t.bus.answer.ack :=
          h2.read (fun x => x.bus.answer.ack) (fun _ => rfl)
        have e2 : t.bus.answer.ack = s.bus.answer.ack := h.read (fun x => x.bus.answer.ack) (fun _ => rfl)
        rw [← e2, ← e1]; exact x
      claims := fun x => .inl ((h2.read (fun x => x.control.station) (fun _ => rfl)).trans
        ((h.read (fun x => x.control.station) (fun _ => rfl)).trans x)) }

theorem keeps_clearOrphan_recondition {s t : State} (r : Nat) (h : Moves s t) : Keeps s (recondition (clearOrphan r t)) :=
  keeps_orphans_recondition h

theorem keeps_emptyOrphans_recondition {s t : State} (p : Nat → Bool) (h : Moves s t) :
    Keeps s (recondition (clearEmptyOrphans p t)) :=
  keeps_orphans_recondition h

theorem keeps_peerJoined (k : Nat) (s : State) : Keeps s (peerJoined k s) :=
  ((keeps_dropLoansOf k s).trans (keeps_clearOrphan_recondition k (moves_removeActivity _ _))).trans
    (follows_reannounceAll _ _).keeps

/-! ## The transmit queue's places -/

theorem keeps_removeOnBus (s : State) : Keeps s (removeOnBus s) := keeps_withTx_le (List.length_filter_le _ _)

theorem keeps_mapTx (g : TxFrame → TxFrame) (s : State) : Keeps s (s.withTx (s.bus.queue.map g)) :=
  keeps_withTx_le (Nat.le_of_eq (List.length_map ..))

theorem keeps_keepOnBus (s : State) : Keeps s (keepOnBus s) := keeps_mapTx toWaiting s

/-- A frame in progress ends: a place less may be taken, nothing is on the wire and nothing is answered. -/
theorem keeps_closed {x : Bus} {s : State} (h1 : x.queue.length ≤ s.bus.queue.length)
    (h2 : x.reservation = s.bus.reservation ∨ x.reservation = none)
    (h3 : x.onWire = s.bus.onWire ∨ x.onWire = none) (h4 : x.answer.ack = true → s.bus.answer.ack = true) :
    Keeps s { s with bus := x } where
  fixed := rfl
  count := rfl
  joined := rfl
  places k := by
    unfold State.TxFits State.txUsed at k ⊢
    rcases h2 with e | e
    · simp only [e]; exact Nat.le_trans (Nat.add_le_add_right h1 _) k
    · simp only [e]
      exact Nat.le_trans (Nat.le_trans h1 (Nat.le_add_right _ _)) k
  grants := id
  derived := id
  rest _ r := r
  boards := id
  shares := id
  lend _ k w hw hk := by
    rcases h3 with e | e
    · exact k w (e ▸ hw) hk
    · exact absurd (e ▸ hw : none = some w) (by intro h; cases h)
  wire := h3
  ack := h4
  claims := .inl

theorem keeps_endFrame (s : State) : Keeps s (endFrame s) :=
  keeps_closed (Nat.le_refl _) (.inr rfl) (.inr rfl) (fun h => by cases h)

theorem keeps_closeFrame (s : State) : Keeps s (closeFrame s) :=
  keeps_closed (Nat.le_refl _) (.inl rfl) (.inr rfl) (fun h => by cases h)

theorem keeps_dropReservation (s : State) : Keeps s (dropReservation s) :=
  keeps_closed (Nat.le_refl _) (.inr rfl) (.inl rfl) id

/-! ## Outcomes of the station's own frame (R162, R169) -/

theorem keeps_updateRecordSame {i : Nat} {f : AlarmRecord → AlarmRecord} (h : ∀ r, (f r).state = r.state) (s : State) :
    Keeps s (updateRecord i f s) := (follows_updateRecord h s).keeps

theorem keeps_failedKind (f : TxFrame) (s : State) : Keeps s (failedKind f s) := by
  unfold failedKind
  split
  · exact keeps_handoverCheck _ s
  · exact keeps_countUnreported s
  · exact keeps_updateRecordSame (by intro _; rfl) s
  · exact keeps_dir _ s
  · exact keeps_dir _ s
  all_goals exact Keeps.refl s

theorem keeps_failFrame (f : TxFrame) (s : State) : Keeps s (failFrame f s) := by
  have h : Keeps (removeOnBus s) { removeOnBus s with bus := { (removeOnBus s).bus with failed := bump (removeOnBus s).bus.failed } } :=
    keeps_bus rfl rfl rfl rfl
  unfold failFrame
  exact (((keeps_removeOnBus s).trans h).trans (follows_raiseHeld 26 _ _).keeps).trans (keeps_failedKind f _)

theorem keeps_countAttempt (f : TxFrame) (p : TxPhase) (s : State) : Keeps s (countAttempt f p s) :=
  Keeps.ite _ (keeps_failFrame f s) (keeps_mapTx _ s)

/-- A claimant that gives up holds nothing more on the wire (R176). -/
theorem keeps_failClaim (s : State) : Keeps s (failClaim s) := by
  unfold failClaim
  by_cases hc : s.control.station = .claiming
  · simp only [hc, if_true]
    have hj : s.joined = false := by simp [State.joined, hc]
    have hj' : ∀ (d : Directory) (b : Bus), State.joined { s with
        control := { s.control with station := .claimFail }, dir := d, bus := b } = false := fun _ _ => rfl
    exact
      { fixed := rfl
        count := rfl
        joined := by rw [hj]; exact hj' _ _
        places := fun k => by
          unfold State.TxFits State.txUsed at k ⊢
          exact Nat.le_trans (Nat.add_le_add_right (Nat.zero_le _) _) k
        grants := fun _ => by
          unfold State.GrantsFit State.grantCost
          refine Nat.le_trans (Nat.le_of_eq ?_) (Nat.zero_le _)
          simp only [State.inUse, hj', Bool.false_and]
          rfl
        derived := fun k => by
          obtain ⟨k1, k2⟩ := k
          refine ⟨?_, ?_⟩
          · show s.control.tripSensed = (false || s.control.tripOthers)
            rw [k1]
            unfold State.tripLevel State.tripPull
            rw [hj]
            rfl
          · show s.control.condition = .normal
            rw [k2]
            unfold State.derivedCondition
            rw [hj]
            rfl
        rest := fun _ r => r
        boards := fun k => k
        shares := fun k => k
        lend := fun _ _ w hw => by cases hw
        wire := .inr rfl
        ack := fun k => k
        claims := fun _ => .inr rfl }
  · simp only [hc, if_false]
    exact Keeps.refl s

theorem keeps_refuseFrame (f : TxFrame) (s : State) : Keeps s (refuseFrame f s) :=
  Keeps.ite _ (keeps_failClaim s) (keeps_countAttempt f _ s)

theorem keeps_declinedKind (f : TxFrame) (s : State) : Keeps s (declinedKind f s) := by
  unfold declinedKind
  split
  · exact keeps_updateBoard (by intro _; rfl) s
  · exact keeps_countUnreported s
  · exact keeps_surrender _ s
  · exact keeps_reclaim _ s
  all_goals exact Keeps.refl s

/-- An outcome that does not commit the frame keeps every invariant (R162). -/
theorem keeps_ownOutcome (f : TxFrame) (x : Slots) (s : State) : Keeps s (ownOutcome f x s) :=
  Keeps.ite _ (keeps_countAttempt f _ s)
    (Keeps.ite _ (keeps_refuseFrame f s) ((keeps_removeOnBus s).trans (keeps_declinedKind f _)))

/-! ## Commits (R163) -/

theorem keeps_leaveIsolation (s : State) : Keeps s (leaveIsolation s) :=
  ((follows_releaseHeld 27 s).keeps.trans (Keeps.ite _ (Keeps.refl _) (keeps_queueJoin _))).trans (keeps_settle _)

theorem keeps_restartContact (own : Bool) (s : State) : Keeps s (restartContact own s) := by
  unfold restartContact
  refine Keeps.ite _ (Keeps.refl s) ?_
  have h : Keeps s (if own then { s with bus := { s.bus with ownContact := s.contactTimer } }
      else { s with bus := { s.bus with peerContact := s.contactTimer } }) := by
    cases own
    · exact keeps_bus rfl rfl rfl rfl
    · exact keeps_bus rfl rfl rfl rfl
  exact Keeps.ite _ (h.trans (keeps_leaveIsolation _)) h

theorem keeps_deliverOwn (s : State) : Keeps s (deliverOwn s) :=
  Keeps.ite _ ((follows_releaseHeld 26 s).keeps.trans (keeps_settle _)) (Keeps.refl s)

theorem keeps_commitFrame (own : Bool) (src : Nat) (s : State) : Keeps s (commitFrame own src s) := by
  unfold commitFrame
  cases own
  · exact (((keeps_keepOnBus s).trans (keeps_closeFrame _)).trans
      (Keeps.ite _ (Keeps.refl _) (keeps_restartContact false _))).trans (keeps_touch src _)
  · exact (((keeps_removeOnBus s).trans (keeps_closeFrame _)).trans (keeps_restartContact true _)).trans (keeps_deliverOwn _)

/-- What the effects of a kind may read of the state before: the share unit, the reservation, and a wire that is free. -/
structure Commits (s t : State) : Prop where
  shares      : t.shares = s.shares
  reservation : t.bus.reservation = s.bus.reservation
  wire        : s.bus.onWire = none → t.bus.onWire = none

theorem Commits.refl (s : State) : Commits s s := ⟨rfl, rfl, id⟩

theorem Commits.trans {s t u : State} (h : Commits s t) (k : Commits t u) : Commits s u :=
  ⟨k.shares.trans h.shares, k.reservation.trans h.reservation, fun x => k.wire (h.wire x)⟩

theorem Commits.ite {s t u : State} (c : Prop) [Decidable c] (h : Commits s t) (k : Commits s u) :
    Commits s (if c then t else u) := by
  by_cases hc : c
  · rw [if_pos hc]; exact h
  · rw [if_neg hc]; exact k

theorem Moves.commits {s t : State} (h : Moves s t) : Commits s t where
  shares := h.shares
  reservation := h.read (fun x => x.bus.reservation) (fun _ => rfl)
  wire := fun x => (h.read (fun x => x.bus.onWire) (fun _ => rfl)).trans x

theorem commits_queueJoin (s : State) : Commits s (queueJoin s) := Commits.ite _ ⟨rfl, rfl, id⟩ ⟨rfl, rfl, id⟩

theorem commits_touch (src : Nat) (s : State) : Commits s (touch src s) := by
  unfold touch
  refine Commits.ite _ ?_ (Commits.refl s)
  split <;> exact ⟨rfl, rfl, id⟩

theorem commits_restartContact (own : Bool) (s : State) : Commits s (restartContact own s) := by
  unfold restartContact
  refine Commits.ite _ (Commits.refl s) ?_
  have h : Commits s (if own then { s with bus := { s.bus with ownContact := s.contactTimer } }
      else { s with bus := { s.bus with peerContact := s.contactTimer } }) := by
    cases own <;> exact ⟨rfl, rfl, id⟩
  refine Commits.ite _ (h.trans ?_) h
  exact ((follows_releaseHeld 27 _).toMoves.commits.trans (Commits.ite _ (Commits.refl _) (commits_queueJoin _))).trans
    (follows_settle _).toMoves.commits

/-- The common part of a commit leaves the share unit and the reservation as they are and the wire free. -/
theorem commitFrame_spec (own : Bool) (src : Nat) (s : State) :
    (commitFrame own src s).shares = s.shares ∧ (commitFrame own src s).bus.reservation = s.bus.reservation
      ∧ (commitFrame own src s).bus.onWire = none := by
  unfold commitFrame
  cases own
  · have h : Commits (closeFrame (keepOnBus s)) (touch src (if s.joined && src == s.dir.own && src != 0
        then closeFrame (keepOnBus s) else restartContact false (closeFrame (keepOnBus s)))) :=
      (Commits.ite _ (Commits.refl _) (commits_restartContact false _)).trans (commits_touch src _)
    exact ⟨h.shares, h.reservation, h.wire rfl⟩
  · have h : Commits (closeFrame (removeOnBus s)) (deliverOwn (restartContact true (closeFrame (removeOnBus s)))) :=
      (commits_restartContact true _).trans (Commits.ite _
        ((follows_releaseHeld 26 _).toMoves.commits.trans (follows_settle _).toMoves.commits) (Commits.refl _))
    exact ⟨h.shares, h.reservation, h.wire rfl⟩

end Sys2Proof.Machine
end

