-- ==== Sys2Proof/Laws/Sound.lean ====
section
/-! SUPPORT. What every command keeps: `Sound P Q s t`, and the commands that are no commits: start, field signals, timers, and
the bus events below the commit. -/

namespace Sys2Proof.Machine

open Sys2Proof

/-- The result is a next state with this property. -/
def Answers (r : Result) (Q : State → Prop) : Prop := ∃ t, r = .next t ∧ Q t

/-- `t` keeps each invariant that `s` has, two under the premise `P`, the share unit under `Q`; the uid and the queue of commands stay. -/
structure Lasts (P Q : Prop) (s t : State) : Prop where
  uid     : t.uid = s.uid
  pending : t.pending = s.pending
  places  : s.TxFits → t.TxFits
  grants  : s.GrantsFit → t.GrantsFit
  derived : s.Derived → t.Derived
  off     : P → s.OffLine → t.OffLine
  boards  : P → s.BoardsOrdered → t.BoardsOrdered
  shares  : Q → s.SharesBalance → s.LendCovered → t.SharesBalance ∧ t.LendCovered

/-- And the loader and the encoder count stay. -/
structure Sound (P Q : Prop) (s t : State) : Prop extends Lasts P Q s t where
  loader  : t.loader = s.loader
  count   : t.tracker.count = s.tracker.count

/-- What a command keeps: a station that is not JOINED may be taken to be as it should be, and its LEND to be covered. -/
abbrev Stays (s : State) : State → Prop := Sound s.OffLine (s.OffLine ∧ s.LendCovered) s

theorem Holds.lasts {P Q : Prop} {s t : State} (h : Holds s t) : Lasts P Q s t where
  uid := congrArg (fun x => x.1) h.fixed
  pending := congrArg (fun x => x.2.2) h.fixed
  places := h.places
  grants := h.grants
  derived := h.derived
  off _ := h.offLine
  boards _ := h.boards
  shares _ k l := ⟨h.shares k, h.lend k l⟩

theorem Keeps.sound {P Q : Prop} {s t : State} (h : Keeps s t) : Sound P Q s t := ⟨h.lasts, h.loader, h.count⟩

theorem Sound.trans {P Q : Prop} {s t u : State} (h : Sound P Q s t) (k : Sound P Q t u) : Sound P Q s u where
  uid := k.uid.trans h.uid
  pending := k.pending.trans h.pending
  places x := k.places (h.places x)
  grants x := k.grants (h.grants x)
  derived x := k.derived (h.derived x)
  off p x := k.off p (h.off p x)
  boards p x := k.boards p (h.boards p x)
  shares p x y := (h.shares p x y).elim (k.shares p)
  loader := k.loader.trans h.loader
  count := k.count.trans h.count

theorem Sound.refl {P Q : Prop} (s : State) : Sound P Q s s := (Keeps.refl s).sound

/-- What is kept before a command is kept with it. -/
theorem Keeps.stays {s t u : State} (h : Keeps s t) (k : Stays t u) : Stays s u where
  uid := k.uid.trans (congrArg (fun x => x.1) h.fixed)
  pending := k.pending.trans (congrArg (fun x => x.2.2) h.fixed)
  places x := k.places (h.places x)
  grants x := k.grants (h.grants x)
  derived x := k.derived (h.derived x)
  off p x := k.off (h.offLine p) (h.offLine x)
  boards p x := k.boards (h.offLine p) (h.boards x)
  shares q x y := k.shares ⟨h.offLine q.1, h.lend x y⟩ (h.shares x) (h.lend x y)
  loader := k.loader.trans h.loader
  count := k.count.trans h.count

theorem Keeps.answers {P Q : Prop} {s t : State} (h : Keeps s t) : Answers (.next t) (Sound P Q s) := ⟨t, rfl, h.sound⟩

theorem Answers.ite {c : Prop} [Decidable c] {r q : Result} {Q : State → Prop} (h : c → Answers r Q) (k : ¬c → Answers q Q) :
    Answers (if c then r else q) Q := by
  by_cases hc : c
  · rw [if_pos hc]; exact h hc
  · rw [if_neg hc]; exact k hc

/-! ## Stations that are not JOINED -/

theorem grantsFit_offline {s : State} (h : s.joined = false) : s.GrantsFit := by
  unfold State.GrantsFit State.grantCost
  refine Nat.le_trans (Nat.le_of_eq ?_) (Nat.zero_le _)
  simp only [State.inUse, h, Bool.false_and]
  rfl

/-- A station that is not JOINED derives NORMAL, and pulls nothing. -/
theorem derived_offline {s : State} (h : s.joined = false) : s.Derived ↔
    s.control.tripSensed = s.control.tripOthers ∧ s.control.condition = .normal := by
  have e : s.derivedCondition = .normal := by unfold State.derivedCondition; rw [h]; rfl
  have e' : s.tripLevel = s.control.tripOthers := by unfold State.tripLevel State.tripPull; rw [h]; rfl
  unfold State.Derived
  rw [e, e']

theorem boardsOrdered_nil {s : State} (h : s.tracker.queue = []) : s.BoardsOrdered := by
  unfold State.BoardsOrdered State.boardIds
  rw [h]
  exact ⟨Nat.zero_le _, List.nodup_nil, List.Pairwise.nil⟩

theorem sharesBalance_unseated {s : State} (h : s.shares = .reset) : s.SharesBalance := by
  unfold State.SharesBalance
  rw [h]
  exact ⟨rfl, rfl, rfl⟩

theorem lendCovered_none {s : State} (h : s.bus.onWire = none) : s.LendCovered := by
  intro w hw
  rw [h] at hw
  cases hw

/-! ## Start (R184..R188) -/

theorem atRest_reset (pinHeld : Bool) (c : Control) (u : BitVec 48) (n : Nat) (p : List Instr) (hm : c.mode = .idle)
    (hc : c.condition = .normal) (hs : c.service = 0) :
    State.AtRest { State.reset with uid := u, loader := .reset pinHeld, control := c, free := n, pending := p } := by
  have h1 : ∀ o ∈ Spray.reset.oneShots, o = none := by decide
  have h2 : ∀ c ∈ Heater.reset.channels, c.setpoint = none ∧ c.demand = 0 ∧ c.grant = 0 ∧ c.pulse = 0 ∧ c.runOn = 0 := by
    decide
  have h3 : ∀ r ∈ Alarms.reset.records, r.state = .quiet := by decide
  exact ⟨hm, hc, hs, rfl, h1, h2, rfl, rfl, rfl, rfl, rfl, rfl, h3, rfl⟩

theorem lasts_startReset (pinHeld : Bool) (s : State) : Answers (execStartReset pinHeld s) (Lasts s.OffLine (s.OffLine ∧ s.LendCovered) s) :=
  ⟨_, rfl,
    { uid := rfl
      pending := rfl
      places := fun _ => Nat.zero_le _
      grants := fun _ => grantsFit_offline rfl
      derived := fun _ => (derived_offline rfl).2 ⟨rfl, rfl⟩
      off := fun _ _ _ => ⟨atRest_reset pinHeld _ _ _ _ rfl rfl rfl, rfl, fun w hw => by cases hw⟩
      boards := fun _ _ => boardsOrdered_nil rfl
      shares := fun _ _ _ => ⟨sharesBalance_unseated rfl, lendCovered_none rfl⟩ }⟩

/-- The loader changes, and its configuration with it; nothing but OffLine's premises may read it while not JOINED. -/
theorem lasts_loader {s t : State} (hj : s.joined = false) (hj' : t.joined = false) (hp : t.pending = s.pending)
    (hu : t.uid = s.uid) (hb : t.bus = s.bus) (ht : t.tracker = s.tracker) (hs : t.shares = s.shares)
    (hc : t.control.tripSensed = s.control.tripSensed ∧ t.control.tripOthers = s.control.tripOthers
      ∧ t.control.condition = s.control.condition)
    (hst : s.control.station ≠ .claiming) (hr : s.AtRest → t.AtRest) : Lasts s.OffLine (s.OffLine ∧ s.LendCovered) s t where
  uid := hu
  pending := hp
  places k := by unfold State.TxFits State.txUsed at k ⊢; rw [hb]; exact k
  grants _ := grantsFit_offline hj'
  derived k := by
    obtain ⟨a, b, c⟩ := hc
    rw [derived_offline hj] at k
    rw [derived_offline hj', a, b, c]
    exact k
  off _ k _ := by
    obtain ⟨a, b, c⟩ := k hj
    refine ⟨hr a, by rw [hb]; exact b, fun w hw => ?_⟩
    rw [hb] at hw
    exact absurd (c w hw).1 hst
  boards p _ := boardsOrdered_nil (by rw [ht]; exact (p hj).1.2.2.2.1)
  shares p k _ := by
    obtain ⟨_, _, c⟩ := p.1 hj
    have hu' : s.shares.state = .unseated := (p.1 hj).1.2.2.2.2.2.2.2.1
    constructor
    · unfold State.SharesBalance at k ⊢
      rw [hs]
      rw [if_pos hu'] at k ⊢
      exact k
    · refine lendCovered_none ?_
      rw [hb]
      cases hw : s.bus.onWire with
      | none => rfl
      | some w => exact absurd (c w hw).1 hst

theorem lasts_imageReadEnd (image : List Byte) (s : State) : Answers (execImageReadEnd image s) (Lasts s.OffLine (s.OffLine ∧ s.LendCovered) s) := by
  unfold execImageReadEnd
  refine Answers.ite (fun h => ⟨_, rfl, ?_⟩) (fun _ => ⟨s, rfl, (Sound.refl s).toLasts⟩)
  have hj : s.joined = false := by simp [State.joined, h.1]
  have hst : s.control.station ≠ .claiming := by rw [h.1]; intro e; cases e
  split
  · exact lasts_loader hj rfl rfl rfl rfl rfl rfl ⟨rfl, rfl, rfl⟩ hst (fun r => r)
  · exact lasts_loader hj rfl rfl rfl rfl rfl rfl ⟨rfl, rfl, rfl⟩ hst (fun r => r)

/-- A change of the loader that leaves its configuration. -/
theorem lasts_resetPinRelease (s : State) : Answers (execResetPinRelease s) (Lasts s.OffLine (s.OffLine ∧ s.LendCovered) s) := by
  unfold execResetPinRelease
  refine Answers.ite (fun _ => ⟨_, rfl, ?_⟩) (fun _ => ⟨s, rfl, (Sound.refl s).toLasts⟩)
  exact ⟨rfl, rfl, id, id, id, fun _ k => k, fun _ k => k, fun _ k l => ⟨k, l⟩⟩

/-! ## Extraction (R125..R129) -/

theorem keeps_extraction {x : Extraction} {s : State}
    (h : s.joined = false → s.extraction.request = false → x.request = false) : Keeps s { s with extraction := x } where
  fixed := rfl
  count := rfl
  joined := rfl
  places k := k
  grants k := k
  derived k := k
  rest j r := by
    obtain ⟨a1, a2, a3, a4, a5, a6, a7, a8, a9, a10, a11, a12, a13⟩ := r
    exact ⟨a1, a2, a3, a4, a5, a6, a7, a8, a9, a10, a11, h j a12, a13⟩
  boards k := k
  shares k := k
  lend _ k := k
  wire := .inl rfl
  ack k := k
  claims := .inl

theorem keeps_driveDucts (s : State) : Keeps s (driveDucts s) :=
  (((follows_sprayUpdate s).trans (follows_holdWhile _ _ _ _)).trans (follows_holdWhile _ _ _ _)).keeps

theorem keeps_mapDucts (f : Nat → Duct → Duct) (s : State) : Keeps s (mapDucts f s) := keeps_extraction (fun _ k => k)

theorem keeps_requestOff (s : State) : Keeps s (requestOff s) := by
  unfold requestOff
  exact (Keeps.trans (keeps_extraction (fun _ _ => rfl)) (keeps_mapDucts _ _)).trans (keeps_driveDucts _)

theorem keeps_testRequest (s : State) : Keeps s (testRequest s) := by
  unfold testRequest
  by_cases hc : s.extractionCause = true
  · have hj : s.joined = true := by
      unfold State.extractionCause at hc
      exact (Bool.and_eq_true_iff.1 hc).1
    rw [if_pos hc]
    refine Keeps.ite _ (keeps_extraction (fun _ k => k)) ?_
    unfold requestOn
    exact Keeps.trans (keeps_extraction (fun j => by rw [hj] at j; cases j)) (keeps_mapDucts _ _)
  · rw [if_neg hc]
    exact Keeps.ite _ (Keeps.ite _ (keeps_requestOff s) (keeps_extraction (fun _ k => k))) (Keeps.refl s)

theorem keeps_ductSample (n : Nat) (s : State) : Keeps s (ductSample n s) :=
  (keeps_mapDucts _ s).trans (keeps_driveDucts _)

theorem keeps_failDuct (n : Nat) (s : State) : Keeps s (failDuct n s) := (keeps_mapDucts _ s).trans (keeps_driveDucts _)

/-! ## The heater period (R52, R60) -/

/-- The heater unit's fields, where the grants fit afterwards and the premise rules out a station that is not JOINED. -/
theorem sound_heater {P Q : Prop} {x : Heater} {s : State} (hj : P → s.OffLine → s.joined = true)
    (hg : State.GrantsFit { s with heater := x }) : Sound P Q s { s with heater := x } where
  uid := rfl
  pending := rfl
  places k := k
  grants _ := hg
  derived k := k
  off p k j := by
    have := hj p k
    rw [show s.joined = false from j] at this
    cases this
  boards _ k := k
  shares _ k l := ⟨k, l⟩
  loader := rfl
  count := rfl

theorem sound_heaterPeriod {P Q : Prop} {s : State} (hj : P → s.OffLine → s.joined = true) : Sound P Q s (heaterPeriod s) := by
  refine sound_heater (x := (heaterPeriod s).heater) hj ?_
  show (heaterPeriod s).GrantsFit
  by_cases h : s.joined = true
  · exact (heaterPeriod_spec h).2
  · exact grantsFit_offline (by
      show s.joined = false
      simpa using h)

theorem sound_periodWork {P Q : Prop} {s : State} (hj : P → s.OffLine → s.joined = true) : Sound P Q s (periodWork s) :=
  (sound_heaterPeriod hj).trans ((keeps_shareHandOver _).trans (keeps_testRequest _)).sound

theorem grantsFit_periodWork (s : State) : (periodWork s).GrantsFit := by
  have h : (heaterPeriod s).GrantsFit := by
    by_cases h : s.joined = true
    · exact (heaterPeriod_spec h).2
    · exact grantsFit_offline (by
        show s.joined = false
        simpa using h)
  exact ((keeps_shareHandOver _).trans (keeps_testRequest _)).grants h

theorem joined_periodWork (s : State) : (periodWork s).joined = s.joined :=
  (keeps_testRequest _).joined.trans ((keeps_shareHandOver _).joined.trans rfl)

theorem boards_periodWork {s : State} (h : s.BoardsOrdered) : (periodWork s).BoardsOrdered :=
  ((keeps_shareHandOver (heaterPeriod s)).trans (keeps_testRequest _)).boards h

theorem sound_periodStart (s : State) : Answers (execPeriodStart s) (Stays s) := by
  unfold execPeriodStart
  refine Answers.ite (fun h => ⟨_, rfl, ?_⟩) (fun _ => (Keeps.refl s).answers)
  refine (sound_periodWork (fun p _ => ?_)).trans (keeps_settle _).sound
  cases hj : s.joined with
  | true => rfl
  | false =>
    have := (p hj).1.2.2.2.2.2.2.1
    rw [this] at h
    cases h

theorem sound_heaterOnEdge (n : Fin 8) (s : State) : Answers (execHeaterOnEdge n s) (Stays s) :=
  Answers.ite (fun _ => (keeps_toSlot _ s).answers) (fun _ => (Keeps.refl s).answers)

theorem sound_heaterOffEdge (n : Fin 8) (s : State) : Answers (execHeaterOffEdge n s) (Stays s) := by
  unfold execHeaterOffEdge
  split
  · exact Answers.ite (fun _ => (keeps_toSlot _ s).answers) (fun _ => (Keeps.refl s).answers)
  · exact (Keeps.refl s).answers

/-! ## Spray (R39, R47, R48) -/

theorem sound_pulseEnd (n : Fin 8) (s : State) : Answers (execPulseEnd n s) (Stays s) := by
  unfold execPulseEnd
  split
  · rename_i id _
    refine Keeps.answers ?_
    exact ((keeps_closeShots (.board id) s).trans (keeps_updateBoard (by intro _; rfl) _)).trans (keeps_flowCheck _ _)
  · exact (keeps_closeShots _ s).answers
  · exact (Keeps.refl s).answers
  · exact (Keeps.refl s).answers

theorem sound_flowLagExpiry (b : Half) (s : State) : Answers (execFlowLagExpiry b s) (Stays s) := by
  unfold execFlowLagExpiry
  split
  · exact Answers.ite (fun _ => ((keeps_updateBoard (by intro _; rfl) s).trans (keeps_flowCheck _ _)).answers)
      (fun _ => (Keeps.refl s).answers)
  · exact (Keeps.refl s).answers

theorem sound_flowPulse (s : State) : Answers (execFlowPulse s) (Stays s) := by
  have h : Keeps s { s with spray := { s.spray with flowCount := s.spray.flowCount + 1 } } := keeps_spray (fun _ k => k)
  unfold execFlowPulse
  simp only []
  split
  · exact h.answers
  · exact (h.trans (keeps_updateBoard (by intro _; rfl) _)).answers

/-! ## Timers -/

theorem sound_presenceEvent (s : State) : Answers (execPresenceEvent s) (Stays s) :=
  Answers.ite (fun _ => ((((keeps_dir _ s).trans (follows_queueStatus _).keeps).trans (keeps_endHoldBacks _)).trans
    (keeps_retryJoin _)).answers) (fun _ => (Keeps.refl s).answers)

theorem sound_agingSweep (s : State) : Answers (execAgingSweep s) (Stays s) :=
  Answers.ite (fun _ => (((keeps_dir _ s).trans (keeps_sweep _)).trans (keeps_settle _)).answers)
    (fun _ => (Keeps.refl s).answers)

theorem sound_claimListenExpiry (s : State) : Answers (execClaimListenExpiry s) (Stays s) :=
  Answers.ite (fun _ => ((keeps_dir _ s).trans (keeps_queueOrDrop _ _)).answers) (fun _ => (Keeps.refl s).answers)

theorem keeps_expireContact (t : ContactId) (s : State) : Keeps s (expireContact t s) := by
  cases t <;> exact keeps_bus rfl rfl rfl rfl

theorem sound_contactTimerExpiry (t : ContactId) (s : State) : Answers (execContactTimerExpiry t s) (Stays s) :=
  Answers.ite (fun _ => Answers.ite (fun _ => (keeps_expireContact t s).answers)
    (fun _ => ((((keeps_expireContact t s).trans (keeps_detach _)).trans (follows_raiseHeld 27 0 _).keeps).trans
      (keeps_settle _)).answers)) (fun _ => (Keeps.refl s).answers)

theorem sound_needExpiry (s : State) : Answers (execNeedExpiry s) (Stays s) :=
  Answers.ite (fun _ => ((keeps_endNeed s).trans (keeps_queueRecall _)).answers) (fun _ => (Keeps.refl s).answers)

theorem sound_holdOverExpiry (s : State) : Answers (execHoldOverExpiry s) (Stays s) :=
  Answers.ite (fun _ => (keeps_endHoldOver s).answers) (fun _ => (Keeps.refl s).answers)

theorem sound_stallTimerExpiry (s : State) : Answers (execStallTimerExpiry s) (Stays s) :=
  Answers.ite (fun _ => (((follows_withStall _ s).trans (follows_raiseHeld 19 0 _)).trans (follows_settle _)).keeps.answers)
    (fun _ => (Keeps.refl s).answers)

theorem sound_settleExpiry (p : PumpId) (s : State) : Answers (execSettleExpiry p s) (Stays s) := by
  cases p
  · exact (keeps_pot (x := { s.pot with main := settledPump s.pot.main }) (fun _ a b c => ⟨by rw [a]; rfl, b, c⟩)).answers
  · exact (keeps_pot (x := { s.pot with chip := settledPump s.pot.chip }) (fun _ a b c => ⟨a, by rw [b]; rfl, c⟩)).answers

theorem sound_feedRunExpiry (s : State) : Answers (execFeedRunExpiry s) (Stays s) :=
  Answers.ite (fun _ => (((keeps_pot (s := s) (x := { s.pot with feeding := false, feedTimer := .stopped })
    (fun _ a b _ => ⟨a, b, rfl⟩)).trans (follows_occurrence 22 _ _).keeps).trans (keeps_settle _)).answers)
    (fun _ => (Keeps.refl s).answers)

theorem sound_proveTimeout (n : Fin 2) (s : State) : Answers (execProveTimeout n s) (Stays s) :=
  Answers.ite (fun _ => ((keeps_failDuct n s).trans (keeps_settle _)).answers) (fun _ => (Keeps.refl s).answers)

theorem sound_runOnExpiry (s : State) : Answers (execRunOnExpiry s) (Stays s) :=
  Answers.ite (fun _ => ((keeps_requestOff s).trans (keeps_settle _)).answers) (fun _ => (Keeps.refl s).answers)

theorem sound_busyBackoffEnd (n : Fin 16) (s : State) : Answers (execBusyBackoffEnd n s) (Stays s) :=
  (keeps_withTx_le (Nat.le_of_eq (List.length_modify ..))).answers

/-! ## The bus below the commit -/

theorem sound_busStuck (s : State) : Answers (execBusStuck s) (Stays s) := by
  unfold execBusStuck
  refine Answers.ite (fun _ => (Keeps.refl s).answers) (fun _ => ?_)
  have h : Keeps s { s with bus := { s.bus with stuck := true, footing := false, stuckCount := bump s.bus.stuckCount } } :=
    keeps_bus rfl rfl rfl rfl
  simp only []
  split
  · exact (h.trans (keeps_endFrame _)).answers
  · exact (((h.trans (keeps_endFrame _)).trans (keeps_countAttempt _ _ _)).trans (keeps_settle _)).answers

theorem sound_busIdle (s : State) : Answers (execBusIdle s) (Stays s) :=
  Answers.ite (fun _ => (keeps_bus (x := { s.bus with stuck := false, footing := true }) rfl rfl rfl rfl).answers)
    (fun _ => (Keeps.refl s).answers)

theorem sound_frameStart (s : State) : Answers (execFrameStart s) (Stays s) :=
  Answers.ite (fun _ => (keeps_closed
      (x := { s.bus with frameStart := some s.tracker.count, answer := noAnswer, reservation := none })
      (Nat.le_refl _) (.inr rfl) (.inl rfl) (fun k => by cases k)).answers)
    (fun _ => (Keeps.refl s).answers)

theorem sound_lostArbitration (s : State) : Answers (execLostArbitration s) (Stays s) :=
  Answers.ite (fun _ => ((keeps_keepOnBus s).trans (keeps_closed (x := { (keepOnBus s).bus with onWire := none })
      (Nat.le_refl _) (.inl rfl) (.inr rfl) id)).answers)
    (fun _ => (Keeps.refl s).answers)

theorem sound_frameOutcome (x : Slots) (s : State) : Answers (execFrameOutcome x s) (Stays s) := by
  unfold execFrameOutcome
  refine Answers.ite (fun _ => (Keeps.refl s).answers) (fun _ => ?_)
  split
  · exact Answers.ite (fun _ => (Keeps.refl s).answers)
      (fun _ => (((keeps_endFrame s).trans (keeps_ownOutcome _ x _)).trans (keeps_settle _)).answers)
  · exact Answers.ite (fun _ => (keeps_endFrame s).answers) (fun _ => (Keeps.refl s).answers)

end Sys2Proof.Machine
end

