-- ==== Sys2Proof/Laws/Answers.lean ====
section
/-! SUPPORT. The ACK slot (R161) and the start of a transmission (R167): what a station that is not JOINED answers and sends,
what a place it reserves takes, and what a LEND carries. -/

namespace Sys2Proof.Machine

open Sys2Proof

/-! ## Answers -/

/-- What an answer may be: ACK of a JOINED station only, and a place of the transmit queue only where one is free. -/
def Fair (s : State) (a : Slots × Option Reservation) : Prop :=
  (a.1.ack = true → s.joined = true) ∧ (a.2 = some .txPlace → s.bus.queue.length + 1 ≤ 16)

theorem Fair.ite {s : State} {c : Prop} [Decidable c] {a b : Slots × Option Reservation} (h : c → Fair s a)
    (k : ¬c → Fair s b) : Fair s (if c then a else b) := by
  by_cases hc : c
  · rw [if_pos hc]; exact h hc
  · rw [if_neg hc]; exact k hc

theorem fair_none (s : State) (x : Slots) (h : x.ack = false) : Fair s (x, none) :=
  ⟨fun k => (by rw [show x.ack = true from k] at h; cases h), fun k => by cases k⟩

theorem fair_ack {s : State} {b : Bool} (h : b = true → s.joined = true) : Fair s (ackAnswer b, none) :=
  ⟨h, fun k => by cases k⟩

theorem joined_of_not {s : State} {b : Bool} (h : ¬(!s.joined || b) = true) : s.joined = true := by
  cases hj : s.joined with
  | true => rfl
  | false => rw [hj] at h; exact absurd rfl h

theorem joined_of_and {s : State} {b : Bool} (h : (s.joined && b) = true) : s.joined = true := (Bool.and_eq_true_iff.1 h).1

theorem admits_place {s : State} {cls : Nat} (h : s.admits cls = true) : s.bus.queue.length + 1 ≤ 16 := by
  have := admits_room h
  unfold State.txUsed at this
  omega

theorem fair_hand (l : List Byte) (s : State) : Fair s (handAnswer l s) := by
  unfold handAnswer
  refine Fair.ite (fun _ => fair_none s _ rfl) (fun h => ?_)
  have hj := joined_of_not h
  refine Fair.ite (fun _ => fair_ack (fun _ => hj)) (fun _ => Fair.ite (fun _ => ⟨fun _ => hj, fun k => ?_⟩) (fun _ => fair_none s _ rfl))
  cases k

theorem fair_admit (src : Nat) (l : List Byte) (s : State) : Fair s (admitAnswer src l s) := by
  unfold admitAnswer
  refine Fair.ite (fun _ => fair_none s _ rfl) (fun h => ?_)
  have hj : s.joined = true := joined_of_not (by
    simp only [Bool.or_assoc] at h
    exact h)
  exact Fair.ite (fun _ => fair_none s _ rfl) (fun _ => Fair.ite (fun _ => fair_none s _ rfl) (fun _ => fair_ack (fun _ => hj)))

theorem fair_lend (src : Nat) (l : List Byte) (s : State) : Fair s (lendAnswer src l s) := by
  unfold lendAnswer
  simp only []
  refine Fair.ite (fun _ => fair_none s _ rfl) (fun h => ?_)
  have hj : s.joined = true := joined_of_not (by
    simp only [Bool.or_assoc] at h
    exact h)
  refine Fair.ite (fun _ => fair_none s _ rfl) (fun _ => Fair.ite (fun _ => fair_none s _ rfl) (fun _ =>
    Fair.ite (fun _ => fair_none s _ rfl) (fun _ => ⟨fun _ => hj, fun k => ?_⟩)))
  split at k <;> cases k

theorem fair_query (src : Nat) (l : List Byte) (s : State) : Fair s (queryAnswer src l s) := by
  unfold queryAnswer
  refine Fair.ite (fun _ => fair_none s _ rfl) (fun h => ?_)
  have hj : s.joined = true := joined_of_not (by
    simp only [Bool.or_assoc] at h
    exact h)
  exact Fair.ite (fun ha => ⟨fun _ => hj, fun _ => admits_place ha⟩) (fun _ => fair_none s _ rfl)

theorem fair_directed (kind src : Nat) (l : List Byte) (s : State) : Fair s (directedAnswer kind src l s) := by
  unfold directedAnswer
  split
  · exact fair_hand l s
  · exact fair_admit src l s
  · exact fair_lend src l s
  · exact fair_ack (fun h => by
      simp only [Bool.and_assoc] at h
      exact joined_of_and h)
  · exact fair_ack (fun h => by
      simp only [Bool.and_assoc] at h
      exact joined_of_and h)
  · exact fair_ack (fun h => by
      simp only [Bool.and_assoc] at h
      exact joined_of_and h)
  · exact fair_ack (fun h => by
      simp only [Bool.and_assoc] at h
      exact joined_of_and h)
  · exact fair_ack (fun h => by
      simp only [Bool.and_assoc] at h
      exact joined_of_and h)
  · exact fair_ack (fun h => by
      simp only [Bool.and_assoc] at h
      exact joined_of_and h)
  · exact fair_query src l s
  · exact fair_none s _ rfl

/-- Whatever the frame: ACK comes from a JOINED station only, and a place is reserved only where one is free (R156, R161,
R164). -/
theorem fair_answerTo (f : RawFrame) (s : State) : Fair s (answerTo f s) := by
  unfold answerTo
  split
  · refine fair_none s _ ?_
    split <;> rfl
  · refine Fair.ite (fun _ => fair_none s _ rfl) (fun _ => Fair.ite (fun _ => fair_none s _ ?_) (fun _ =>
      Fair.ite (fun _ => fair_directed _ _ _ s) (fun _ => fair_none s _ rfl)))
    unfold broadcastAnswer
    split <;> rfl

theorem sound_ackSlot (f : RawFrame) (s : State) : Answers (execAckSlot f s) (Stays s) := by
  unfold execAckSlot
  refine Answers.ite (fun _ => ⟨_, rfl, ?_⟩) (fun _ => (Keeps.refl s).answers)
  obtain ⟨h1, h2⟩ := fair_answerTo f s
  exact
    { uid := rfl
      pending := rfl
      places := fun k => by
        unfold State.TxFits State.txUsed at k ⊢
        show s.bus.queue.length + (if (answerTo f s).2 == some .txPlace then 1 else 0) ≤ 16
        cases hr : (answerTo f s).2 == some Reservation.txPlace with
        | true =>
          simp only [if_true]
          exact h2 (by simpa using hr)
        | false =>
          simp only [Bool.false_eq_true, if_false]
          exact Nat.le_trans (Nat.le_add_right _ _) k
      grants := id
      derived := id
      off := fun _ k j => by
        obtain ⟨a, _, c⟩ := k j
        refine ⟨a, ?_, c⟩
        show (answerTo f s).1.ack = false
        cases ha : (answerTo f s).1.ack with
        | false => rfl
        | true =>
          have := h1 ha
          rw [show s.joined = false from j] at this
          cases this
      boards := fun _ k => k
      shares := fun _ k l => ⟨k, l⟩
      loader := rfl
      count := rfl }

/-! ## Start of transmission -/

/-- What two written bytes read back as (R189). -/
theorem halfAt_byte2 (n : Nat) : halfAt (byte2 n) 0 = n % 65536 := by
  simp [halfAt, byteAt, byte2, BitVec.toNat_ofNat]
  omega

/-- A LEND that is built carries no more than the base still covers, from a station whose share unit is SEATED (R73, R74). -/
theorem lend_payload {s : State} {f : TxFrame} {p : List Byte} (hk : f.body.kind = 5) (h : s.payload f = some p) :
    s.shares.state ≠ .unseated ∧ halfAt p 0 + loanSum s.shares.lent ≤ s.cfg.base := by
  have hb : ∃ r, f.body = .lend r := by
    cases hf : f.body <;> simp [TxBody.kind, hf] at hk ⊢
  obtain ⟨r, hr⟩ := hb
  unfold State.payload at h
  simp only [hr] at h
  by_cases hl : s.lendsTo f.dst = true
  · rw [if_pos hl] at h
    unfold amountBytes at h
    by_cases hm : 1 ≤ min s.lendable r
    · rw [if_pos hm] at h
      cases h
      constructor
      · intro e
        unfold State.lendsTo State.seated at hl
        rw [e] at hl
        simp at hl
      · rw [halfAt_byte2]
        have h1 : ((min s.lendable r).toNat : Int) ≤ s.lendable := by
          rw [Int.toNat_of_nonneg (by omega)]
          omega
        have h2 : s.lendable ≤ (s.cfg.base : Int) - loanSum s.shares.lent := by
          unfold State.lendable
          omega
        have h3 : (min s.lendable r).toNat % 65536 ≤ (min s.lendable r).toNat := Nat.mod_le _ _
        omega
    · rw [if_neg hm] at h
      cases h
  · rw [if_neg hl] at h
    cases h

theorem findSome_eligible {s : State} {i : Nat} (h : s.firstEligible = some i) :
    ∃ f, s.bus.queue[i]? = some f ∧ s.mayTransmit f = true := by
  unfold State.firstEligible at h
  obtain ⟨cls, hc⟩ := List.exists_of_findSome?_eq_some h
  obtain ⟨hlt, hp, _⟩ := List.findIdx?_eq_some_iff_getElem.1 hc.2
  refine ⟨s.bus.queue[i], List.getElem?_eq_getElem hlt, ?_⟩
  exact (Bool.and_eq_true_iff.1 hp).2

/-- Starting a frame, and withdrawing those whose build fails, keeps every invariant (R167). -/
theorem sound_startFrame {P Q : Prop} (n : Nat) (s : State) : Sound P Q s (startFrame n s) := by
  induction n generalizing s with
  | zero => exact Sound.refl s
  | succ n ih =>
    unfold startFrame
    split
    · exact Sound.refl s
    · rename_i i hi
      split
      · exact Sound.refl s
      · rename_i f hf
        obtain ⟨f', hf', hm⟩ := findSome_eligible hi
        have hff : f' = f := by rw [hf] at hf'; exact (Option.some.inj hf').symm
        subst hff
        split
        · exact (keeps_withTx_le (by
            rw [List.length_eraseIdx]
            split
            · exact Nat.sub_le _ _
            · exact Nat.le_refl _)).sound.trans (ih _)
        · rename_i p hp
          exact
            { uid := rfl
              pending := rfl
              places := fun k => by
                unfold State.TxFits State.txUsed at k ⊢
                refine Nat.le_trans ?_ k
                rw [List.length_modify]
                exact Nat.le_add_right _ _
              grants := id
              derived := id
              off := fun _ k j => by
                have j' : s.joined = false := j
                refine ⟨(k j').1, rfl, fun w hw' => ?_⟩
                cases hw'
                unfold State.mayTransmit at hm
                rw [j'] at hm
                simp only [Bool.false_or, Bool.and_eq_true, beq_iff_eq] at hm
                refine ⟨hm.1, ?_⟩
                show f'.body.kind = 1
                have := hm.2
                unfold TxFrame.isKind at this
                simpa using this
              boards := fun _ k => k
              shares := fun _ k _ => ⟨k, fun w hw' hk => by
                cases hw'
                exact lend_payload hk hp⟩
              loader := rfl
              count := rfl }

theorem sound_startOfTransmission (s : State) : Answers (execStartOfTransmission s) (Stays s) :=
  Answers.ite (fun _ => ⟨_, rfl, sound_startFrame 16 s⟩) (fun _ => (Keeps.refl s).answers)

end Sys2Proof.Machine
end

