-- ==== Sys2Proof/Laws/Fields.lean ====
section
/-! SUPPORT. The field signals: what the encoder, the eyes, the line wires and a sample event keep. -/

namespace Sys2Proof.Machine

open Sys2Proof

/-! ## Encoder (R3..R5) -/

/-- The records keep their ids where only anchors change, and the queue is put back into order. -/
theorem holds_reorder {s t : State} (h0 : s.tracker.queue = [] → t.tracker.queue = [])
    (hl : t.tracker.queue.length = s.tracker.queue.length) (hid : t.boardIds = s.boardIds)
    (he : { t with tracker := s.tracker } = s) : Holds s (reorder t) := by
  have e : ∀ {α : Type} (g : State → α), (∀ (x : State) (r : Tracker), g { x with tracker := r } = g x) →
      g (reorder t) = g s := fun g hg => by
    rw [show g (reorder t) = g t from hg t _, ← hg t s.tracker, he]
  exact
    { fixed := e (fun x => (x.uid, x.loader, x.pending)) (by intros; rfl)
      joined := e (fun x => x.joined) (by intros; rfl)
      places := fun k => by
        have := e (fun x => x.txUsed) (by intros; rfl)
        unfold State.TxFits at k ⊢
        rw [this]; exact k
      grants := fun k => by
        have h1 : (reorder t).grantCost = s.grantCost := e (fun x => x.grantCost) (by intros; rfl)
        have h2 : (reorder t).shares.held = s.shares.held := e (fun x => x.shares.held) (by intros; rfl)
        unfold State.GrantsFit at k ⊢
        rw [h1, h2]; exact k
      derived := fun k => derived_of_causes (e (fun x => x.causes) (by intros; rfl)) k
      rest := fun j r => by
        have hq : (reorder t).tracker.queue = [] := by
          show orderBoards t.pos t.tracker.queue = []
          rw [h0 r.2.2.2.1]; rfl
        have := e (fun x => (x.control, x.spray, x.heater, x.shares, x.pot, x.extraction, x.alarms, x.groups)) (by intros; rfl)
        simp only [Prod.mk.injEq] at this
        obtain ⟨b1, b2, b3, b4, b5, b6, b7, b8⟩ := this
        unfold State.AtRest at r ⊢
        rw [b1, b2, b3, b4, b5, b6, b7, b8, hq]
        obtain ⟨a1, a2, a3, _, a5⟩ := r
        exact ⟨a1, a2, a3, rfl, a5⟩
      boards := fun k => boardsOrdered_reorder (by rw [hl]; exact k.1) (by rw [hid]; exact k.2.1)
      shares := fun k => by
        have := e (fun x => (x.cfg, x.shares)) (by intros; rfl)
        exact sharesBalance_of_eq (congrArg Prod.fst this) (congrArg Prod.snd this) k
      lend := fun _ k w hw hk => by
        have := e (fun x => (x.cfg, x.shares, x.bus)) (by intros; rfl)
        simp only [Prod.mk.injEq] at this
        rw [this.1, this.2.1]
        rw [this.2.2] at hw
        exact k w hw hk
      wire := .inl (e (fun x => x.bus.onWire) (by intros; rfl))
      ack := fun k => by rw [← e (fun x => x.bus.answer.ack) (by intros; rfl)]; exact k
      claims := fun k => .inl ((e (fun x => x.control.station) (by intros; rfl)).trans k) }

theorem holds_countStep (forward : Bool) (s : State) : Holds s (countStep forward s) :=
  holds_reorder id rfl rfl rfl

/-- A record anchored anew (R6, R16). -/
theorem keeps_anchor {id : Nat} {f : Board → Board} (hf : ∀ b, (f b).line.id = b.line.id) (s : State) :
    Keeps s (reorder (updateBoard id f s)) := by
  refine ⟨holds_reorder (fun h => ?_) (List.length_map ..) ?_ rfl, rfl⟩
  · show List.map _ s.tracker.queue = []
    rw [h]; rfl
  · show (List.map _ s.tracker.queue).map _ = s.tracker.queue.map _
    rw [List.map_map]
    apply List.map_congr_left
    intro b _
    simp only [Function.comp]
    split
    · exact hf b
    · rfl

theorem keeps_stallCounted (s : State) : Keeps s (stallCounted s) :=
  ((Follows.ite _ (follows_withStall _ s) (Follows.refl s)).trans (follows_releaseHeld 19 _)).keeps

/-- A count event changes the count, and keeps the invariants (R4, R5). -/
theorem lasts_countEvent (forward : Bool) (s : State) : Answers (execCountEvent forward s) (fun t =>
    Lasts s.OffLine (s.OffLine ∧ s.LendCovered) s t ∧ t.loader = s.loader ∧
      t.tracker.count = (if forward then s.tracker.count + 1 else s.tracker.count - 1)) :=
  have h := ((keeps_stallCounted (countStep forward s)).trans (keeps_positionEvents (movedBoards s (countStep forward s)) _)).trans
    (keeps_settle _)
  ⟨_, rfl, ((holds_countStep forward s).trans h.toHolds).lasts, h.loader, h.count⟩

/-! ## Entry eye (R14, R15) -/

/-- What the board sequence reaches after `k` steps, for fewer steps than it has ids. -/
def laterId (n k : Nat) : Nat :=
  if k = 0 then n else if 65535 ≤ n then k else if n + k ≤ 65535 then n + k else n + k - 65535

theorem nextBoardId_later (n k : Nat) (h : k < 60000) : nextBoardId (laterId n k) = laterId n (k + 1) := by
  unfold nextBoardId laterId
  repeat' split
  all_goals omega

theorem laterId_ne (n j k : Nat) (h : j < k) (hk : k < 60000) : laterId n j ≠ laterId n k := by
  unfold laterId
  repeat' split
  all_goals omega

/-- The search finds an id that is not held, if it may try one id more than there are held ones. -/
theorem freshId_later (n : Nat) (fuel k : Nat) (hk : k + fuel < 60000) (held : List Nat) (hl : held.length < fuel) :
    freshId held fuel (laterId n k) ∉ held := by
  induction fuel generalizing k held with
  | zero => exact absurd hl (Nat.not_lt_zero _)
  | succ fuel ih =>
    unfold freshId
    by_cases hm : laterId n k ∈ held
    · rw [if_pos (List.contains_iff_mem.2 hm), nextBoardId_later n k (by omega)]
      have hle : (held.erase (laterId n k)).length < fuel := by
        rw [List.length_erase_of_mem hm]
        have : held ≠ [] := List.ne_nil_of_mem hm
        have : 0 < held.length := List.length_pos_iff.2 this
        omega
      -- the erased id is not met again
      have hsame : ∀ (f j : Nat), k < j → j + f < 60000 →
          freshId held f (laterId n j) = freshId (held.erase (laterId n k)) f (laterId n j)
            ∧ freshId held f (laterId n j) ≠ laterId n k := by
        intro f
        induction f with
        | zero =>
          intro j hj hjf
          exact ⟨rfl, fun e => laterId_ne n k j hj (by omega) e.symm⟩
        | succ f ihf =>
          intro j hj hjf
          have hne : laterId n j ≠ laterId n k := fun e => laterId_ne n k j hj (by omega) e.symm
          have hc : (held.erase (laterId n k)).contains (laterId n j) = held.contains (laterId n j) := by
            rw [Bool.eq_iff_iff, List.contains_iff_mem, List.contains_iff_mem]
            exact List.mem_erase_of_ne hne
          unfold freshId
          rw [hc, nextBoardId_later n j (by omega)]
          by_cases hj' : held.contains (laterId n j) = true
          · rw [if_pos hj', if_pos hj']
            exact ihf (j + 1) (by omega) (by omega)
          · rw [if_neg hj', if_neg hj']
            exact ⟨rfl, hne⟩
      obtain ⟨h1, h2⟩ := hsame fuel (k + 1) (by omega) (by omega)
      have h3 := ih (k + 1) (by omega) _ hle
      rw [← h1] at h3
      exact fun e => h3 ((List.mem_erase_of_ne h2).2 e)
    · have : ¬held.contains (laterId n k) = true := fun e => hm (List.contains_iff_mem.1 e)
      rw [if_neg this]
      exact hm

theorem freshId_not_held {held : List Nat} (h : held.length ≤ 8) (n : Nat) : freshId held 9 n ∉ held :=
  freshId_later n 9 0 (by omega) held (by omega)

theorem keeps_useAdmission (s : State) : Keeps s (useAdmission s) := by
  unfold useAdmission
  split
  · exact Keeps.refl s
  · rename_i rest _
    have h : Keeps s { s with tracker := { s.tracker with admissions := rest } } := keeps_tracker rfl rfl
    exact Keeps.ite _ (keeps_tracker rfl rfl) (h.trans (keeps_dropRef _ _))

theorem keeps_enterBoard {s : State} (hj : s.joined = true) (hl : s.tracker.queue.length < 8) : Keeps s (enterBoard s) := by
  unfold enterBoard
  have hid : freshId s.boardIds 9 s.tracker.nextId ∉ s.boardIds :=
    freshId_not_held (by rw [State.boardIds, List.length_map]; omega) _
  have h1 : Keeps s { s with tracker := { s.tracker with
      nextId := nextBoardId (freshId s.boardIds 9 s.tracker.nextId)
      underEye := some (freshId s.boardIds 9 s.tracker.nextId) } } := keeps_tracker rfl rfl
  have h2 := h1.trans (keeps_joinQueue (b := s.entryBoard (freshId s.boardIds 9 s.tracker.nextId)) hj hl hid)
  refine ((h2.trans (keeps_useAdmission _)).trans (Keeps.ite _ ?_ (Keeps.refl _))).trans
    (((keeps_takeInChecks _ _).trans (keeps_workRequests _)).trans (keeps_settle _))
  exact (keeps_addMark _ 7 _).trans (follows_occurrence 20 _ _).keeps

theorem keeps_withUnderEye (i : Option Nat) (s : State) : Keeps s (s.withUnderEye i) := keeps_tracker rfl rfl

theorem sound_entryLeadingEdge (s : State) : Answers (execEntryLeadingEdge s) (Stays s) := by
  unfold execEntryLeadingEdge
  refine Answers.ite (fun _ => (keeps_withUnderEye none s).answers) (fun hj => Answers.ite (fun _ => (Keeps.refl s).answers)
    (fun _ => Answers.ite (fun _ =>
      (((keeps_withUnderEye none s).trans (follows_occurrence 17 _ _).keeps).trans (keeps_settle _)).answers) (fun hf => ?_)))
  have hj' : s.joined = true := by simpa using hj
  refine (keeps_enterBoard hj' ?_).answers
  unfold State.freePlaces at hf
  omega

theorem keeps_updateLine {id : Nat} {f : LineRecord → LineRecord} (h : ∀ r, (f r).id = r.id) (s : State) :
    Keeps s (updateLine id f s) :=
  keeps_updateBoard (fun b => by simp only [boardKey, h]) s

theorem sound_entryTrailingEdge (s : State) : Answers (execEntryTrailingEdge s) (Stays s) := by
  unfold execEntryTrailingEdge
  split
  · rename_i b _
    refine Keeps.answers ?_
    unfold measureBoard
    exact (((keeps_updateLine (by intro _; rfl) s).trans (Keeps.ite _ (keeps_addMark _ 8 _) (Keeps.refl _))).trans
      (Keeps.ite _ (keeps_queueOrDrop _ _) (Keeps.refl _))).trans (keeps_withUnderEye none _)
  · exact (Keeps.refl s).answers

/-! ## Confirming eye (R16) -/

theorem sound_eyeLeadingEdge (s : State) : Answers (execEyeLeadingEdge s) (Stays s) := by
  unfold execEyeLeadingEdge
  split
  · exact (Keeps.refl s).answers
  · refine Answers.ite (fun _ => (Keeps.refl s).answers) (fun _ => ?_)
    split
    · refine Keeps.answers ?_
      unfold confirmBoard
      exact ((((keeps_anchor (by intro _; rfl) s).trans (keeps_queueOrDrop _ _)).trans (keeps_positionEvents _ _)).trans
        (keeps_workRequests _)).trans (keeps_settle _)
    · exact ((follows_occurrence 17 _ s).keeps.trans (keeps_settle _)).answers

/-! ## Line wires (R145, R146) -/

theorem sound_permitLineChange (b : Bool) (s : State) : Answers (execPermitLineChange b s) (Stays s) := by
  refine Keeps.answers (Keeps.trans ?_ (keeps_settle _))
  exact
    { fixed := rfl, count := rfl, joined := rfl, places := fun k => k, grants := fun k => k, derived := fun k => k, rest := fun _ r => r
      boards := fun k => k, shares := fun k => k, lend := fun _ k => k, wire := .inl rfl, ack := fun k => k, claims := .inl }

/-- Whatever changed state control's fields, deriving the condition again makes it the derived one. -/
theorem keeps_recondition_control {c : Control} {s : State} (h1 : c.station = s.control.station)
    (h2 : c.mode = s.control.mode) (h3 : c.condition = s.control.condition) (h4 : c.service = s.control.service) :
    Keeps s (recondition { s with control := c }) := by
  have hm := moves_recondition { s with control := c }
  have hj : State.joined { s with control := c } = s.joined := by simp only [State.joined, h1]
  exact
    { fixed := hm.read (fun x => (x.uid, x.loader, x.pending)) (fun _ => rfl)
      count := hm.count
      joined := hm.joined.trans hj
      places := fun k => hm.places k
      grants := fun k => hm.grants (grantsFit_of_le hj rfl (Nat.le_refl _) (fun _ _ => Nat.le_refl _) k)
      derived := fun _ => derived_recondition _
      rest := fun j r => hm.rest (hj.trans j) (by
        obtain ⟨a1, a2, a3, a4⟩ := r
        exact ⟨h2.trans a1, h3.trans a2, h4.trans a3, a4⟩)
      boards := fun k => boardsOrdered_of_keys (s := { s with control := c }) hm.cfg hm.count hm.queue_keys k
      shares := fun k => sharesBalance_of_eq (s := { s with control := c }) hm.cfg hm.shares k
      lend := fun _ k w hw hk => by
        have e1 : (recondition { s with control := c }).bus.onWire = s.bus.onWire :=
          hm.read (fun x => x.bus.onWire) (fun _ => rfl)
        rw [hm.shares, hm.cfg]
        exact k w (e1 ▸ hw) hk
      wire := .inl (hm.read (fun x => x.bus.onWire) (fun _ => rfl))
      ack := fun k => by
        have e1 : (recondition { s with control := c }).bus.answer.ack = s.bus.answer.ack :=
          hm.read (fun x => x.bus.answer.ack) (fun _ => rfl)
        rw [← e1]; exact k
      claims := fun k => .inl ((hm.read (fun x => x.control.station) (fun _ => rfl)).trans (h1.trans k)) }

theorem sound_tripLineChange (b : Bool) (s : State) : Answers (execTripLineChange b s) (Stays s) := by
  have h : Keeps s (recondition { s with control := { s.control with tripOthers := b } }) :=
    keeps_recondition_control rfl rfl rfl rfl
  exact (h.trans (keeps_settle _)).answers

/-! ## Sample events (R102) -/

/-- The alarm unit's fields other than the entries, the records and the causes. -/
theorem keeps_alarms {x : Alarms} {s : State} (h1 : x.entries = s.alarms.entries) (h2 : x.records = s.alarms.records) :
    Keeps s { s with alarms := x } where
  fixed := rfl
  count := rfl
  joined := rfl
  places k := k
  grants k := k
  derived k := derived_of_causes (s := s) (by simp only [State.causes, h1, h2]) k
  rest _ r := by
    obtain ⟨a1, a2, a3, a4, a5, a6, a7, a8, a9, a10, a11, a12, a13, a14⟩ := r
    exact ⟨a1, a2, a3, a4, a5, a6, a7, a8, a9, a10, a11, a12, by rw [h2]; exact a13, a14⟩
  boards k := k
  shares k := k
  lend _ k := k
  wire := .inl rfl
  ack k := k
  claims := .inl

theorem keeps_writeTable (x : Samples) (s : State) : Keeps s (writeTable x s) := keeps_alarms rfl rfl

theorem keeps_levelSample (r : Int) (s : State) : Keeps s (levelSample r s) :=
  Keeps.ite _ (keeps_pot (fun _ a b c => ⟨a, b, c⟩)) (Keeps.refl s)

theorem keeps_writeLevel (s : State) : Keeps s (writeLevel s) := keeps_alarms rfl rfl

theorem keeps_sampleFields (x : Samples) (s : State) : Keeps s (sampleFields x s) := by
  have h1 : Keeps s (writeLevel (levelSample (signedHalf x.level) (writeTable x s))) :=
    ((keeps_writeTable x s).trans (keeps_levelSample _ _)).trans (keeps_writeLevel _)
  exact (h1.trans (keeps_openChannels (s.newlyOpen x) _)).trans (follows_holdWhile 21 _ _ _).keeps

theorem keeps_potLow (s : State) : Keeps s (potLow s) := Keeps.ite _ (follows_holdWhile 23 _ _ s).keeps (Keeps.refl s)

theorem rampStep_blank (rate settle : Nat) (b : Pump) : rampStep rate settle b .blank = .blank := rfl

theorem keeps_rampPumps (before : Pot) (s : State) : Keeps s (rampPumps before s) :=
  keeps_pot (fun _ a b c => by
    refine ⟨?_, ?_, c⟩
    · show rampStep _ _ before.main s.pot.main = _
      rw [a]; exact rampStep_blank _ _ _
    · show rampStep _ _ before.chip s.pot.chip = _
      rw [b]; exact rampStep_blank _ _ _)

theorem keeps_samplePot (before : Pot) (s : State) : Keeps s (samplePot before s) :=
  ((((follows_potUpdate s).keeps.trans (keeps_potLow _)).trans (follows_potUpdate _).keeps).trans (keeps_rampPumps _ _)).trans
    (follows_potUpdate _).keeps

theorem keeps_sampleAlarms (s : State) : Keeps s (sampleAlarms s) := by
  unfold sampleAlarms
  split
  · rename_i h
    exact ((follows_watchSamples h).trans (follows_retryAllOwed _)).keeps
  · exact Keeps.refl s

theorem sound_sampleEvent (x : Samples) (s : State) : Answers (execSampleEvent x s) (Stays s) :=
  Answers.ite (fun _ => (Keeps.refl s).answers)
    (fun _ => ((((((keeps_sampleFields x s).trans (keeps_samplePot s.pot _)).trans (keeps_ductSample 0 _)).trans
      (keeps_ductSample 1 _)).trans (keeps_sampleAlarms _)).trans (keeps_settle _)).answers)

end Sys2Proof.Machine
end

