-- ==== Sys2Proof/Laws/Frame.lean ====
section
/-! SUPPORT. The frames: what a commit's common part leaves (`State.still`), and what a position event, a handover check, a
change of neighbour or the take-in of a record leaves (`State.far`). -/

namespace Sys2Proof.Machine

open Sys2Proof

/-! ## Still -/

theorem Moves.still {s t : State} (h : Moves s t) : t.still = s.still := by
  unfold State.still
  rw [h.steady]

theorem still_ite {s t u : State} (c : Prop) [Decidable c] (h : t.still = s.still) (k : u.still = s.still) :
    (if c then t else u).still = s.still := by
  by_cases hc : c
  · rw [if_pos hc]; exact h
  · rw [if_neg hc]; exact k

theorem still_queueJoin (s : State) : (queueJoin s).still = s.still := still_ite _ rfl rfl

theorem still_touch (src : Nat) (s : State) : (touch src s).still = s.still := by
  unfold touch
  refine still_ite _ ?_ rfl
  split <;> rfl

theorem still_restartContact (own : Bool) (s : State) : (restartContact own s).still = s.still := by
  unfold restartContact
  refine still_ite _ rfl ?_
  have h : (if own then { s with bus := { s.bus with ownContact := s.contactTimer } }
      else { s with bus := { s.bus with peerContact := s.contactTimer } } : State).still = s.still := by
    cases own <;> rfl
  refine still_ite _ (Eq.trans ?_ h) h
  unfold leaveIsolation
  exact (follows_settle _).still.trans
    ((still_ite _ rfl (still_queueJoin _)).trans (follows_releaseHeld 27 _).still)

theorem still_deliverOwn (s : State) : (deliverOwn s).still = s.still := by
  unfold deliverOwn
  exact still_ite _ ((follows_settle _).still.trans (follows_releaseHeld 26 s).still) rfl

/-- The common part of a commit changes the bus, the directory and the ORPHAN flags, and what an alarm that ends may change
(R163, R169, R171, R174). -/
theorem still_commitFrame (own : Bool) (src : Nat) (s : State) : (commitFrame own src s).still = s.still := by
  unfold commitFrame
  cases own
  · exact (still_touch _ _).trans (still_ite _ rfl (still_restartContact false (closeFrame (keepOnBus s))))
  · exact (still_deliverOwn _).trans (still_restartContact true (closeFrame (removeOnBus s)))

/-! ## Far -/

theorem State.far_of_still {s t : State} (h : t.still = s.still) (hf : t.spray.flowCount = s.spray.flowCount) :
    t.far = s.far := by
  have hc : t.tracker.count = s.tracker.count := by
    have k : t.still.tracker.count = s.still.tracker.count := by rw [h]
    exact k
  unfold State.far
  rw [h, hc, hf]

theorem Moves.far {s t : State} (h : Moves s t) : t.far = s.far :=
  State.far_of_still h.still (h.read (fun x => x.spray.flowCount) (fun _ => rfl))

theorem far_ite {s t u : State} (c : Prop) [Decidable c] (h : t.far = s.far) (k : u.far = s.far) :
    (if c then t else u).far = s.far := by
  by_cases hc : c
  · rw [if_pos hc]; exact h
  · rw [if_neg hc]; exact k

theorem far_foldl {α : Type} {f : State → α → State} (h : ∀ s a, (f s a).far = s.far) (l : List α) (s : State) :
    (l.foldl f s).far = s.far := by
  induction l generalizing s with
  | nil => rfl
  | cons a l ih => exact (ih _).trans (h s a)

theorem far_addRef (i : Option Nat) (s : State) : (addRef i s).far = s.far := by cases i <;> rfl

theorem far_dropRef (i : Option Nat) (s : State) : (dropRef i s).far = s.far := by cases i <;> rfl

theorem far_startHoldOver (c : Option HoldOver) (s : State) : (startHoldOver c s).far = s.far := far_ite _ rfl rfl

theorem far_addMark (id code : Nat) (s : State) : (addMark id code s).far = s.far := (moves_addMark id code s).far

theorem far_markBoards (p : Board → Bool) (code : Nat) (s : State) : (markBoards p code s).far = s.far :=
  (moves_markBoards p code s).far

theorem far_queueOrDrop (f : TxFrame) (s : State) : (queueOrDrop f s).far = s.far := (moves_queueOrDrop f s).far

theorem far_flowCheck (id : Nat) (s : State) : (flowCheck id s).far = s.far := (moves_flowCheck id s).far

theorem far_handoverCheck (id : Nat) (s : State) : (handoverCheck id s).far = s.far := by
  unfold handoverCheck
  split
  · exact far_ite _ (far_ite _ rfl rfl) rfl
  · rfl

theorem far_handoverAll (s : State) : (handoverAll s).far = s.far := far_foldl (fun s id => far_handoverCheck id s) _ s

theorem far_standingMarks (id : Nat) (s : State) : (standingMarks id s).far = s.far :=
  far_foldl (fun s c => far_addMark id c s) _ s

theorem far_noRecipeMark (id : Nat) (s : State) : (noRecipeMark id s).far = s.far := by
  unfold noRecipeMark
  split
  · rfl
  · exact far_ite _ (far_addMark id 7 s) rfl

theorem far_missingCheck (id : Nat) (s : State) : (missingCheck id s).far = s.far := by
  unfold missingCheck
  split
  · exact far_ite _ ((follows_occurrence 18 _ _).far.trans (far_addMark id 9 _)) rfl
  · rfl

theorem far_contactCheck (id : Nat) (s : State) : (contactCheck id s).far = s.far := by
  unfold contactCheck
  split
  · rfl
  · exact far_ite _ (far_ite _ (far_addMark id 5 _) rfl) rfl

theorem far_markNotFluxed (id : Nat) (s : State) : (markNotFluxed id s).far = s.far := (moves_markNotFluxed id s).far

theorem far_updateBoard (id : Nat) (f : Board → Board) (s : State) : (updateBoard id f s).far = s.far := rfl

theorem far_advanceDot (id k : Nat) (s : State) : (advanceDot id k s).far = s.far := rfl

theorem far_fireDot (id : Nat) (b : Board) (body : RecipeBody) (s : State) : (fireDot id b body s).far = s.far := by
  unfold fireDot
  exact (far_updateBoard id _ _).trans (far_ite _ rfl rfl)

theorem far_handleDot (id k : Nat) (s : State) : (handleDot id k s).far = s.far := by
  unfold handleDot
  split
  · rfl
  · refine (far_advanceDot id k _).trans ?_
    split
    · exact far_markNotFluxed id s
    · exact far_ite _ (far_markNotFluxed id s) (far_ite _ rfl (far_fireDot id _ _ s))

theorem far_sprayDots (id : Nat) (s : State) : (sprayDots id s).far = s.far := by
  unfold sprayDots
  split
  · rfl
  · exact far_foldl (fun s k => far_handleDot id k s) _ s

theorem far_sprayRecords (ids : List Nat) (s : State) : (sprayRecords ids s).far = s.far := by
  unfold sprayRecords
  dsimp only
  split
  · exact far_foldl (fun s id => far_sprayDots id s) _ _
  · exact far_foldl (fun s id => far_sprayDots id s) _ _

theorem far_sprayEnd (id : Nat) (s : State) : (sprayEnd id s).far = s.far := by
  unfold sprayEnd
  split
  · rfl
  · exact far_ite _ (far_flowCheck id _) rfl

theorem far_sprayPassOver (id : Nat) (s : State) : (sprayPassOver id s).far = s.far := by
  unfold sprayPassOver
  split
  · rfl
  · exact far_ite _ ((far_flowCheck id _).trans (far_markNotFluxed id _)) rfl

theorem far_dropCounting (id : Nat) (s : State) : (dropCounting id s).far = s.far := far_ite _ rfl rfl

theorem far_removeBoard (id : Nat) (s : State) : (removeBoard id s).far = s.far := by
  unfold removeBoard
  exact far_ite _ (far_dropCounting id _) (far_dropCounting id _)

theorem far_reportBoard (b : Board) (s : State) : (reportBoard b s).far = s.far := by
  unfold reportBoard
  refine far_ite _ rfl ?_
  split
  · rfl
  · exact far_ite _ rfl rfl

theorem far_releaseBoard (b : Board) (s : State) : (releaseBoard b s).far = s.far := by
  have h : (reportBoard b (removeBoard b.line.id
      (dropRef b.slot (withdrawFrames (TxFrame.isPositionOf b.line.id) s)))).far = s.far :=
    (far_reportBoard b _).trans ((far_removeBoard _ _).trans ((far_dropRef _ _).trans rfl))
  unfold releaseBoard
  exact far_ite _ ((far_startHoldOver _ _).trans h) h

theorem far_releaseCheck (id : Nat) (s : State) : (releaseCheck id s).far = s.far := by
  unfold releaseCheck
  split
  · rfl
  · exact far_ite _ (far_releaseBoard _ s) rfl

theorem far_eachBoard {f : Nat → State → State} (h : ∀ id s, (f id s).far = s.far) (ids : List Nat) (s : State) :
    (eachBoard f ids s).far = s.far := far_foldl (fun s id => h id s) ids s

theorem far_workRequests (s : State) : (workRequests s).far = s.far := rfl

/-- A position event reaches the board tracker, the recipe store's counts, the spray unit and what alarms and marks reach
(R5). -/
theorem far_positionEvents (ids : List Nat) (s : State) : (positionEvents ids s).far = s.far := by
  unfold positionEvents
  refine (far_ite (t := _) (u := _) _ rfl (far_workRequests _)).trans ?_
  exact (far_eachBoard far_releaseCheck ids _).trans ((far_eachBoard far_handoverCheck ids _).trans
    ((far_eachBoard far_standingMarks ids _).trans ((far_eachBoard far_contactCheck ids _).trans
      ((far_eachBoard far_sprayEnd ids _).trans ((far_sprayRecords ids _).trans
        ((far_eachBoard far_noRecipeMark ids _).trans (far_eachBoard far_missingCheck ids s)))))))

theorem far_joinQueue (b : Board) (s : State) : (joinQueue b s).far = s.far := far_addRef _ s

theorem far_takeInChecks (id : Nat) (s : State) : (takeInChecks id s).far = s.far :=
  (far_standingMarks id _).trans ((far_contactCheck id _).trans ((far_noRecipeMark id _).trans (far_sprayPassOver id s)))

theorem far_updateNeighbour (gone : List Nat) (s : State) : (updateNeighbour gone s).far = s.far := by
  unfold updateNeighbour
  exact far_ite _ rfl ((far_handoverAll _).trans (far_ite _ (far_markBoards _ 10 _) rfl))

theorem far_endHoldBacks (s : State) : (endHoldBacks s).far = s.far := far_eachBoard far_handoverCheck _ _

theorem far_useAdmission (s : State) : (useAdmission s).far = s.far := by
  unfold useAdmission
  split
  · rfl
  · exact far_ite _ rfl (far_dropRef _ _)

theorem far_settle (s : State) : (settle s).far = s.far := (follows_settle s).far

theorem far_enterBoard (s : State) : (enterBoard s).far = s.far := by
  unfold enterBoard
  exact (far_settle _).trans ((far_workRequests _).trans ((far_takeInChecks _ _).trans ((far_ite _
    ((follows_occurrence 20 _ _).far.trans (far_addMark _ 7 _)) rfl).trans ((far_useAdmission _).trans (far_joinQueue _ _)))))

end Sys2Proof.Machine
end

