-- ==== Sys2Proof/Laws/Records.lean ====
section
/-! SUPPORT. Which alarm records and causes an operation can touch: `Spares p s t`. -/

namespace Sys2Proof.Machine

open Sys2Proof

/-! ## One record, one cause -/

theorem record_updateRecord (i k : Nat) (f : AlarmRecord → AlarmRecord) (s : State) :
    (updateRecord i f s).record k = if i = k ∧ k < s.alarms.records.length then f (s.record k) else s.record k := by
  show (s.alarms.records.modify i f).getD k .blank = _
  unfold State.record
  rw [List.getD_eq_getElem?_getD, List.getD_eq_getElem?_getD, List.getElem?_modify]
  by_cases h : k < s.alarms.records.length
  · rw [List.getElem?_eq_getElem h]
    by_cases hk : i = k <;> simp [hk, h]
  · rw [List.getElem?_eq_none (Nat.le_of_not_lt h)]
    simp [h]

theorem cause_updateCause (i k : Nat) (f : Cause → Cause) (s : State) (hk : 16 ≤ k) :
    (updateCause i f s).cause k = if i = k ∧ k < 16 + s.alarms.causes.length then f (s.cause k) else s.cause k := by
  show (s.alarms.causes.mapIdx _).getD (k - 16) _ = _
  unfold State.cause
  rw [List.getD_eq_getElem?_getD, List.getD_eq_getElem?_getD, List.getElem?_mapIdx]
  have e : k - 16 + 16 = k := by omega
  by_cases h : k - 16 < s.alarms.causes.length
  · rw [List.getElem?_eq_getElem h]
    have h' : k < 16 + s.alarms.causes.length := by omega
    by_cases hi : i = k
    · subst hi; simp [e, h']
    · have hi' : ¬k = i := fun x => hi x.symm
      simp [e, hi, hi']
  · rw [List.getElem?_eq_none (Nat.le_of_not_lt h)]
    have h' : ¬k < 16 + s.alarms.causes.length := by omega
    simp [h']

/-- A cause that is raised stands in the list. -/
theorem cause_place {s : State} {k : Nat} (hk : 16 ≤ k) (h : (s.cause k).raised = true) : k < 16 + s.alarms.causes.length := by
  unfold State.cause at h
  rw [List.getD_eq_getElem?_getD] at h
  by_cases hl : k - 16 < s.alarms.causes.length
  · omega
  · rw [List.getElem?_eq_none (Nat.le_of_not_lt hl)] at h
    cases h

/-! ## What an operation spares -/

/-- No record and no cause is touched but those of the indices that meet `p`; the directory, the admission list and the ORPHAN
flags are not touched. -/
structure Spares (p : Nat → Prop) (s t : State) : Prop where
  record     : ∀ k, ¬p k → t.record k = s.record k
  cause      : ∀ k, 16 ≤ k → ¬p k → t.cause k = s.cause k
  dir        : t.dir = s.dir
  admissions : t.tracker.admissions = s.tracker.admissions
  orphans    : t.groups.orphans = s.groups.orphans

variable {p : Nat → Prop}

theorem Spares.refl (s : State) : Spares p s s := ⟨fun _ _ => rfl, fun _ _ _ => rfl, rfl, rfl, rfl⟩

theorem Spares.trans {s t u : State} (h : Spares p s t) (k : Spares p t u) : Spares p s u :=
  ⟨fun i hi => (k.record i hi).trans (h.record i hi), fun i h16 hi => (k.cause i h16 hi).trans (h.cause i h16 hi),
    k.dir.trans h.dir, k.admissions.trans h.admissions, k.orphans.trans h.orphans⟩

theorem Spares.ite {s t u : State} (c : Prop) [Decidable c] (h : Spares p s t) (k : Spares p s u) :
    Spares p s (if c then t else u) := by
  by_cases hc : c
  · rw [if_pos hc]; exact h
  · rw [if_neg hc]; exact k

theorem Spares.foldl {α : Type} {f : State → α → State} {l : List α} (h : ∀ s, ∀ a ∈ l, Spares p s (f s a)) (s : State) :
    Spares p s (l.foldl f s) := by
  induction l generalizing s with
  | nil => exact Spares.refl s
  | cons a l ih =>
    exact (h s a (List.mem_cons_self ..)).trans (ih (fun s b hb => h s b (List.mem_cons_of_mem a hb)) _)

theorem Spares.mono {q : Nat → Prop} {s t : State} (h : Spares p s t) (hq : ∀ k, p k → q k) : Spares q s t :=
  ⟨fun k hk => h.record k (fun x => hk (hq k x)), fun k h16 hk => h.cause k h16 (fun x => hk (hq k x)), h.dir, h.admissions,
    h.orphans⟩

/-- An operation that touches no alarm and no group. -/
theorem Spares.of_eq {s t : State} (h1 : t.alarms = s.alarms) (h2 : t.dir = s.dir)
    (h3 : t.tracker.admissions = s.tracker.admissions) (h4 : t.groups = s.groups) : Spares p s t :=
  ⟨fun _ _ => by simp only [State.record, h1], fun _ _ _ => by simp only [State.cause, h1], h2, h3, by rw [h4]⟩

theorem Spares.of_calm {s t : State} (h : t.calm = s.calm) : Spares p s t := by
  simp only [State.calm, Prod.mk.injEq] at h
  obtain ⟨_, _, h1, h2, h3, h4⟩ := h
  exact .of_eq h3 h1 h2 h4

theorem spares_senseTrip (s : State) : Spares p s (senseTrip s) := by
  unfold senseTrip
  exact Spares.ite _ (Spares.refl s) (.of_eq rfl rfl rfl rfl)

theorem spares_recondition (s : State) : Spares p s (recondition s) := by
  unfold recondition
  refine (spares_senseTrip s).trans (Spares.ite _ (.of_calm ((calm_potUpdate _).trans (calm_sprayUpdate _))) ?_)
  refine Spares.trans (t := { senseTrip s with
    control := { (senseTrip s).control with condition := (senseTrip s).derivedCondition } }) (.of_eq rfl rfl rfl rfl) ?_
  exact .of_calm (calm_setCondition _ _)

theorem spares_markBoards (q : Board → Bool) (code : Nat) (s : State) : Spares p s (markBoards q code s) :=
  .of_calm (calm_markBoards q code s)

theorem spares_updateRecord {i : Nat} (h : p i) (f : AlarmRecord → AlarmRecord) (s : State) : Spares p s (updateRecord i f s) :=
  ⟨fun k hk => by
    rw [record_updateRecord, if_neg]
    rintro ⟨rfl, _⟩
    exact hk h, fun _ _ _ => rfl, rfl, rfl, rfl⟩

theorem spares_updateCause {i : Nat} (h : p i) (f : Cause → Cause) (s : State) : Spares p s (updateCause i f s) :=
  ⟨fun _ _ => rfl, fun k h16 hk => by
    rw [cause_updateCause _ _ _ _ h16, if_neg]
    rintro ⟨rfl, _⟩
    exact hk h, rfl, rfl, rfl⟩

theorem spares_withActivity (l : List Activity) (s : State) : Spares p s (withActivity l s) :=
  Spares.trans (t := { s with groups := { s.groups with activity := l } })
    ⟨fun _ _ => rfl, fun _ _ _ => rfl, rfl, rfl, rfl⟩ (Spares.foldl (fun s c _ => spares_markBoards _ c s) _)

theorem spares_addActivity (a : Activity) (s : State) : Spares p s (addActivity a s) :=
  Spares.ite _ (Spares.refl s) (spares_withActivity _ s)

theorem spares_removeActivity (q : Activity → Bool) (s : State) : Spares p s (removeActivity q s) := spares_withActivity _ s

theorem spares_push (f : TxFrame) (s : State) : Spares p s (s.push f) := .of_eq rfl rfl rfl rfl

theorem spares_withdrawFrames (q : TxFrame → Bool) (s : State) : Spares p s (withdrawFrames q s) := .of_eq rfl rfl rfl rfl

theorem spares_announce {i : Nat} (h : p i) (s : State) : Spares p s (announce i s) := by
  unfold announce
  exact Spares.ite _ (spares_updateRecord h _ s)
    (Spares.ite _ ((spares_push _ s).trans (spares_updateRecord h _ _)) (spares_updateRecord h _ s))

theorem spares_queueClear {i : Nat} (h : p i) (s : State) : Spares p s (queueClear i s) :=
  Spares.ite _ (spares_push _ s) (spares_updateRecord h _ s)

theorem spares_clearAnnounced {i : Nat} (h : p i) (s : State) : Spares p s (clearAnnounced i s) := by
  unfold clearAnnounced
  refine Spares.ite _ ?_ (spares_updateRecord h _ s)
  exact ((spares_withdrawFrames _ s).trans (Spares.ite _ (spares_queueClear h _) (Spares.refl _))).trans
    (spares_updateRecord h _ _)

theorem spares_firstOut (f : Option FirstOut) (s : State) : Spares p s { s with alarms := { s.alarms with firstOut := f } } :=
  ⟨fun _ _ => rfl, fun _ _ _ => rfl, rfl, rfl, rfl⟩

theorem spares_firstOutEntry (i : Nat) (v : Int) (s : State) : Spares p s (firstOutEntry i v s) :=
  Spares.ite _ (spares_firstOut _ s) (spares_firstOut _ s)

theorem spares_enterActive {i : Nat} (h : p i) (v : Int) (s : State) : Spares p s (enterActive i v s) := by
  unfold enterActive
  refine Spares.trans ?_ (spares_recondition _)
  have h1 := spares_updateRecord h (fun r => { r with state := .active, matchCount := 0, value := v }) s
  have h2 := h1.trans (Spares.ite (s.alarmAction i = .trip) (spares_firstOutEntry i v _) (Spares.refl _))
  have h3 := h2.trans (Spares.ite (s.ownSetTakes i = true) (spares_addActivity ⟨s.alarmGroup i, s.dir.own, i⟩ _) (Spares.refl _))
  have h4 := h3.trans (Spares.ite (s.needsAnnouncing i = true) (spares_announce h _) (Spares.refl _))
  exact h4.trans (Spares.ite _ (Spares.refl _) (spares_markBoards _ _ _))

theorem spares_returnQuiet {i : Nat} (h : p i) (s : State) : Spares p s (returnQuiet i s) :=
  (((spares_updateRecord h _ s).trans (spares_removeActivity _ _)).trans (spares_clearAnnounced h _)).trans
    (spares_recondition _)

theorem spares_releaseRecord {i : Nat} (h : p i) (s : State) : Spares p s (releaseRecord i s) := by
  unfold releaseRecord
  split
  · exact Spares.ite _ (spares_updateRecord h _ s) (spares_returnQuiet h s)
  · exact spares_returnQuiet h s
  all_goals exact Spares.refl s

theorem spares_takeCause {i : Nat} (h : p i) (s : State) : Spares p s (takeCause i s) :=
  Spares.ite _ (spares_enterActive h _ s) (Spares.refl s)

theorem spares_raiseHeld {i : Nat} (h : p i) (v : Int) (s : State) : Spares p s (raiseHeld i v s) :=
  (spares_updateCause h _ s).trans (spares_takeCause h _)

theorem spares_releaseHeld {i : Nat} (h : p i) (s : State) : Spares p s (releaseHeld i s) :=
  Spares.ite _ ((spares_updateCause h _ s).trans (spares_releaseRecord h _)) (Spares.refl s)

theorem spares_holdWhile {i : Nat} (h : p i) (v : Int) (b : Bool) (s : State) : Spares p s (holdWhile i v b s) :=
  Spares.ite _ (spares_raiseHeld h v s) (spares_releaseHeld h s)

theorem spares_occurrence {i : Nat} (h : p i) (v : Int) (s : State) : Spares p s (occurrence i v s) :=
  Spares.ite _ ((spares_enterActive h _ s).trans (spares_releaseRecord h _)) (Spares.refl s)

theorem spares_takeCauses (s : State) : Spares (fun k => 16 ≤ k ∧ k < 29) s (takeCauses s) :=
  Spares.foldl (fun s i hi => spares_takeCause (by have := List.mem_range'_1.1 hi; omega) s) s

theorem spares_withStall (t : Timer) (s : State) : Spares p s (s.withStall t) := .of_eq rfl rfl rfl rfl

theorem spares_sensePermit (h : p 19) (s : State) : Spares p s (sensePermit s) := by
  unfold sensePermit
  refine Spares.ite _ (Spares.refl s) ?_
  refine Spares.trans (t := { s with control := { s.control with permitSensed := s.permitLevel } }) (.of_eq rfl rfl rfl rfl) ?_
  exact Spares.ite _ (spares_withStall _ _) ((spares_withStall _ _).trans (spares_releaseHeld h _))

/-- Settling touches HAND_LATE and CONVEYOR_STALL alone (R11, R18). -/
theorem spares_settle (h16 : p 16) (h19 : p 19) (s : State) : Spares p s (settle s) :=
  ((((spares_holdWhile h16 _ _ s).trans (.of_calm (calm_sprayUpdate _))).trans (.of_calm (calm_potUpdate _))).trans
    (spares_sensePermit h19 _)).trans (spares_sensePermit h19 _)

end Sys2Proof.Machine
end

