-- ==== Sys2Proof/Laws/Restart.lean ====
section
/-! SUPPORT. What holds of the blocks from a RESTART commit on to its end (R152): `Cleared n own s`. -/

namespace Sys2Proof.Machine

open Sys2Proof

/-- No board is held; the JOIN of incarnation `n` heads the transmit queue and behind it stand STATUS and the frames of alarms;
every nozzle is closed, the pumps are LOCKED, the feeder is off, no watch alarm stands, and the activity is the station's own. -/
structure Cleared (n own : Nat) (s : State) : Prop where
  boards   : s.tracker.queue = []
  frames   : ∃ rest, s.bus.queue = newFrame 3 0 (.join n) :: rest ∧
    ∀ f ∈ rest, f.body.kind = 3 ∨ f.body.kind = 11 ∨ f.body.kind = 12
  number   : s.dir.own = own
  owed     : s.dir.joinOwed = false
  mode     : s.control.mode = .idle
  shots    : s.spray.oneShots = List.replicate 8 none
  counting : s.spray.counting = none
  main     : s.pot.main = .blank
  chip     : s.pot.chip = .blank
  feeder   : s.pot.feeding = false
  watches  : ∀ i, i < 16 → s.alarmState i = .quiet
  activity : ∀ a ∈ s.groups.activity, a.raiser = own

variable {n own : Nat} {s : State}

theorem Cleared.ite {t u : State} (c : Prop) [Decidable c] (h : Cleared n own t) (k : Cleared n own u) :
    Cleared n own (if c then t else u) := by
  by_cases hc : c
  · rw [if_pos hc]; exact h
  · rw [if_neg hc]; exact k

theorem Cleared.foldl {α : Type} {f : State → α → State} {l : List α}
    (h : ∀ s, ∀ a ∈ l, Cleared n own s → Cleared n own (f s a)) : ∀ {s : State}, Cleared n own s → Cleared n own (l.foldl f s) := by
  induction l with
  | nil => exact id
  | cons a l ih =>
    intro s k
    exact ih (fun s b hb => h s b (List.mem_cons_of_mem a hb)) (h s a (List.mem_cons_self ..) k)

/-! ## Operations that find nothing to do -/

theorem markBoards_nil (h : s.tracker.queue = []) (p : Board → Bool) (code : Nat) : markBoards p code s = s := by
  simp only [markBoards, h]; rfl

theorem marks_nil (h : s.tracker.queue = []) (l : List Nat) :
    l.foldl (fun s c => markBoards (fun _ => true) c s) s = s := by
  induction l with
  | nil => rfl
  | cons a l ih => rw [List.foldl_cons, markBoards_nil h]; exact ih

theorem Cleared.sprayUpdate (h : Cleared n own s) : sprayUpdate s = s := by
  have hs := h.shots
  have hw : s.withShots (List.replicate 8 none) = s := by unfold State.withShots; rw [← hs]
  have h1 : closeBoardShots s = s := by unfold closeBoardShots; rw [hs]; exact hw
  have h2 : truncateShots s = s := by unfold truncateShots State.shotOwners; rw [h1, hs]; rfl
  have h3 : serviceShots s = s := by
    unfold serviceShots
    have e : s.spray.oneShots.mapIdx (fun k o => match o with
        | some (.board id) => some (.board id)
        | some (.released id) => some (.released id)
        | _ => if s.serviceOpens k then some Owner.service else none) = List.replicate 8 none := by
      rw [hs]
      simp [State.serviceOpens, h.mode, List.replicate, List.mapIdx_cons]
    exact (congrArg s.withShots e).trans hw
  unfold Machine.sprayUpdate
  rw [h2, ite_self, h3]
  unfold flowCheckAll State.boardIds
  rw [h.boards]; rfl

theorem Cleared.potUpdate (h : Cleared n own s) : potUpdate s = s := by
  have hl : s.lockCondition = true := by simp [State.lockCondition, h.mode]
  have hm : setMain .blank s = s := by
    unfold setMain leftUp
    rw [h.main, if_neg (by rintro ⟨x, _⟩; cases x), ← h.main]
  have hc : setChip .blank s = s := by
    unfold setChip leftUp
    rw [h.chip, if_neg (by rintro ⟨x, _⟩; cases x), ← h.chip]
  unfold Machine.potUpdate
  rw [hl, nextPump_locked, nextPump_locked, hm]
  show feederUpdate (setChip .blank s) = s
  rw [hc]
  unfold feederUpdate
  rw [h.feeder]
  simp [State.feederStarts, State.feederAllowed, h.mode]

theorem Cleared.forcedFalls (h : Cleared n own s) : forcedFalls s = s := by
  unfold Machine.forcedFalls
  rw [h.mode]; rfl

theorem Cleared.conditionMarks (h : Cleared n own s) (c : Condition) : conditionMarks c s = s := by
  unfold Machine.conditionMarks
  cases c
  · rfl
  · simp only [markBoards_nil h.boards, ite_self]
  · exact markBoards_nil h.boards _ _
  · exact markBoards_nil h.boards _ _

/-! ## Frames and records -/

theorem Cleared.push (h : Cleared n own s) {f : TxFrame} (hf : f.body.kind = 3 ∨ f.body.kind = 11 ∨ f.body.kind = 12) :
    Cleared n own (s.push f) := by
  obtain ⟨rest, h1, h2⟩ := h.frames
  refine { h with frames := ⟨rest ++ [f], ?_, ?_⟩ }
  · show s.bus.queue ++ [f] = _
    rw [h1]; rfl
  · intro g hg
    rcases List.mem_append.1 hg with k | k
    · exact h2 g k
    · rw [List.mem_singleton.1 k]; exact hf

theorem Cleared.queueStatus (h : Cleared n own s) : Cleared n own (queueStatus s) :=
  .ite _ h (.ite _ (h.push (.inl rfl)) h)

/-- JOIN is not withdrawn with an ALARM or a HAND. -/
theorem Cleared.withdraw (h : Cleared n own s) {p : TxFrame → Bool} (hp : p (newFrame 3 0 (.join n)) = false) :
    Cleared n own (withdrawFrames p s) := by
  obtain ⟨rest, h1, h2⟩ := h.frames
  refine { h with frames := ⟨rest.filter (fun f => f.phase == .onBus || !p f), ?_, fun f hf => h2 f (List.mem_filter.1 hf).1⟩ }
  show s.bus.queue.filter _ = _
  rw [h1, List.filter_cons_of_pos (by simp [hp])]

theorem Cleared.updateRecord (h : Cleared n own s) {i : Nat} (hi : 16 ≤ i) (f : AlarmRecord → AlarmRecord) :
    Cleared n own (updateRecord i f s) := by
  refine { h with watches := fun k hk => ?_ }
  have hq := h.watches k hk
  unfold State.alarmState at hq ⊢
  rw [record_updateRecord, if_neg (by omega)]
  exact hq

theorem Cleared.updateCause (h : Cleared n own s) (i : Nat) (f : Cause → Cause) : Cleared n own (updateCause i f s) := { h with }

theorem Cleared.firstOutEntry (h : Cleared n own s) (i : Nat) (v : Int) : Cleared n own (firstOutEntry i v s) :=
  .ite _ { h with } { h with }

theorem Cleared.withActivity (h : Cleared n own s) {l : List Activity} (hl : ∀ a ∈ l, a.raiser = own) :
    Cleared n own (withActivity l s) := by
  unfold Machine.withActivity
  simp only []
  rw [marks_nil (s := { s with groups := { s.groups with activity := l } }) h.boards]
  exact { h with activity := hl }

/-! ## The condition -/

theorem Cleared.control (h : Cleared n own s) {c : Control} (hc : c.mode = s.control.mode) :
    Cleared n own { s with control := c } := { h with mode := hc.trans h.mode }

theorem Cleared.recondition (h : Cleared n own s) : Cleared n own (recondition s) := by
  have h1 : Cleared n own (senseTrip s) := by
    unfold senseTrip
    refine .ite _ h (h.control ?_)
    split
    · exact (lineSensed_keeps _ _).2.1
    · rfl
  unfold Machine.recondition
  refine .ite _ ?_ ?_
  · rw [h1.sprayUpdate, h1.potUpdate]; exact h1
  · unfold setCondition
    have h2 := h1.control (c := { (senseTrip s).control with condition := (senseTrip s).derivedCondition }) rfl
    rw [h2.sprayUpdate, h2.forcedFalls, h2.potUpdate, h2.conditionMarks]
    exact h2.queueStatus

/-! ## Raise and release of a built-in condition -/

theorem Cleared.announce (h : Cleared n own s) {i : Nat} (hi : 16 ≤ i) : Cleared n own (announce i s) :=
  .ite _ (h.updateRecord hi _) (.ite _ ((h.push (.inr (.inl rfl))).updateRecord hi _) (h.updateRecord hi _))

theorem Cleared.enterActive (h : Cleared n own s) {i : Nat} (hi : 16 ≤ i) (v : Int) : Cleared n own (enterActive i v s) := by
  unfold Machine.enterActive
  have h1 := h.updateRecord hi (fun r => { r with state := .active, matchCount := 0, value := v })
  have h2 : Cleared n own (if s.alarmAction i = .trip then Machine.firstOutEntry i v
      (Machine.updateRecord i (fun r => { r with state := .active, matchCount := 0, value := v }) s)
      else Machine.updateRecord i (fun r => { r with state := .active, matchCount := 0, value := v }) s) :=
    .ite _ (h1.firstOutEntry i v) h1
  have h3 : ∀ u, Cleared n own u → Cleared n own (if s.ownSetTakes i then addActivity ⟨s.alarmGroup i, s.dir.own, i⟩ u else u) :=
    fun u hu => .ite _ (.ite _ hu (hu.withActivity (fun a ha => by
      rcases List.mem_append.1 ha with k | k
      · exact hu.activity a k
      · rw [List.mem_singleton.1 k]; exact h.number))) hu
  have h4 : ∀ u, Cleared n own u → Cleared n own (if s.needsAnnouncing i then Machine.announce i u else u) :=
    fun u hu => .ite _ (hu.announce hi) hu
  have h5 : ∀ u, Cleared n own u → Cleared n own (if s.alarmMark i = 0 then u else markBoards (fun _ => true) (s.alarmMark i) u) :=
    fun u hu => .ite _ hu (by rw [markBoards_nil hu.boards]; exact hu)
  exact (h5 _ (h4 _ (h3 _ h2))).recondition

theorem Cleared.clearAnnounced (h : Cleared n own s) {i : Nat} (hi : 16 ≤ i) : Cleared n own (clearAnnounced i s) := by
  unfold Machine.clearAnnounced
  have h1 : Cleared n own (withdrawFrames (TxFrame.isAlarmOf i) s) := h.withdraw rfl
  refine .ite _ (Cleared.updateRecord (.ite _ ?_ h1) hi _) (h.updateRecord hi _)
  exact .ite _ (h1.push (.inr (.inr rfl))) (h1.updateRecord hi _)

theorem Cleared.returnQuiet (h : Cleared n own s) {i : Nat} (hi : 16 ≤ i) : Cleared n own (returnQuiet i s) := by
  unfold Machine.returnQuiet removeActivity
  exact ((h.updateRecord hi _).withActivity (fun a ha => h.activity a (List.mem_filter.1 ha).1)).clearAnnounced hi |>.recondition

theorem Cleared.releaseRecord (h : Cleared n own s) {i : Nat} (hi : 16 ≤ i) : Cleared n own (releaseRecord i s) := by
  unfold Machine.releaseRecord
  split
  · exact .ite _ (h.updateRecord hi _) (h.returnQuiet hi)
  · exact h.returnQuiet hi
  all_goals exact h

theorem Cleared.takeCause (h : Cleared n own s) {i : Nat} (hi : 16 ≤ i) : Cleared n own (takeCause i s) :=
  .ite _ (h.enterActive hi _) h

theorem Cleared.takeCauses (h : Cleared n own s) : Cleared n own (takeCauses s) :=
  .foldl (fun _ _ hi k => k.takeCause (List.mem_range'_1.1 hi).1) h

theorem Cleared.raiseHeld (h : Cleared n own s) {i : Nat} (hi : 16 ≤ i) (v : Int) : Cleared n own (raiseHeld i v s) :=
  (h.updateCause i _).takeCause hi

theorem Cleared.releaseHeld (h : Cleared n own s) {i : Nat} (hi : 16 ≤ i) : Cleared n own (releaseHeld i s) :=
  .ite _ ((h.updateCause i _).releaseRecord hi) h

theorem Cleared.holdWhile (h : Cleared n own s) {i : Nat} (hi : 16 ≤ i) (v : Int) (b : Bool) : Cleared n own (holdWhile i v b s) :=
  .ite _ (h.raiseHeld hi v) (h.releaseHeld hi)

/-! ## Settling and the period's work -/

theorem Cleared.withStall (h : Cleared n own s) (t : Timer) : Cleared n own (s.withStall t) := { h with }

theorem Cleared.sensePermit (h : Cleared n own s) : Cleared n own (sensePermit s) := by
  unfold Machine.sensePermit
  have h1 := h.control (c := { s.control with permitSensed := s.permitLevel }) rfl
  exact .ite _ h (.ite _ (h1.withStall _) ((h1.withStall _).releaseHeld (by decide)))

theorem Cleared.settle (h : Cleared n own s) : Cleared n own (settle s) := by
  have h1 : Cleared n own (handLate s) := h.holdWhile (by decide) _ _
  unfold Machine.settle
  rw [h1.sprayUpdate, h1.potUpdate]
  exact h1.sensePermit.sensePermit

theorem Cleared.extraction (h : Cleared n own s) (x : Extraction) : Cleared n own { s with extraction := x } := { h with }

theorem Cleared.driveDucts (h : Cleared n own s) : Cleared n own (driveDucts s) := by
  unfold Machine.driveDucts
  rw [h.sprayUpdate]
  exact (h.holdWhile (by decide) _ _).holdWhile (by decide) _ _

theorem Cleared.testRequest (h : Cleared n own s) : Cleared n own (testRequest s) := by
  unfold Machine.testRequest
  refine .ite _ (.ite _ (h.extraction _) ((h.extraction _).extraction _)) (.ite _ (.ite _ ?_ (h.extraction _)) h)
  exact ((h.extraction _).extraction _).driveDucts

theorem Cleared.shares (h : Cleared n own s) (x : Shares) : Cleared n own { s with shares := x } := { h with }

theorem Cleared.budgetShort (h : Cleared n own s) : Cleared n own (budgetShort s) := by
  unfold Machine.budgetShort
  refine .ite _ ((h.shares _).releaseHeld (by decide)) ?_
  exact .ite _ ((h.shares _).raiseHeld (by decide) _) (h.shares _)

theorem Cleared.heater (h : Cleared n own s) (x : Heater) : Cleared n own { s with heater := x } := { h with }

theorem Cleared.heaterPeriod (h : Cleared n own s) : Cleared n own (heaterPeriod s) := (((h.heater _).heater _).heater _).heater _

/-- The first period's work of a share unit that is UNSEATED (R71, R77, R84). -/
theorem Cleared.periodWork (h : Cleared n own s) (hs : s.shares.state = .unseated) : Cleared n own (periodWork s) := by
  have h1 := h.heaterPeriod
  have hs1 : (Machine.heaterPeriod s).seated = false := by
    show (s.shares.state == .seated) = false
    rw [hs]; rfl
  unfold Machine.periodWork shareHandOver
  have e1 : queueNeed (Machine.heaterPeriod s) = Machine.heaterPeriod s := by simp [queueNeed, hs1]
  have e2 : queueReturn (Machine.heaterPeriod s) = Machine.heaterPeriod s := by
    unfold queueReturn
    split
    · rfl
    · simp [hs1]
  rw [e1, e2]
  exact h1.budgetShort.testRequest

theorem Cleared.updateNeighbour (h : Cleared n own s) : Cleared n own (updateNeighbour [] s) := by
  unfold Machine.updateNeighbour
  have hq : (s.tracker.queue.map (fun b => { b with handed := none, heldBack := false })) = [] := by rw [h.boards]; rfl
  have h1 : Cleared n own { s with tracker := { s.tracker with
      neighbour := s.findNeighbour
      queue := s.tracker.queue.map (fun b => { b with handed := none, heldBack := false }) } } := { h with boards := hq }
  have h2 : Cleared n own (withdrawFrames (TxFrame.isKind 8) { s with tracker := { s.tracker with
      neighbour := s.findNeighbour
      queue := s.tracker.queue.map (fun b => { b with handed := none, heldBack := false }) } }) := h1.withdraw rfl
  refine .ite _ h ?_
  simp only [markBoards_nil h2.boards, ite_self]
  unfold handoverAll State.boardIds
  rw [h2.boards]
  exact h2

/-! ## RESTART -/

/-- The blocks at their RESTART values, the JOIN of the raised incarnation queued (R152, R180). -/
theorem cleared_restartBlocks (s : State) :
    Cleared ((s.dir.incarnation.map (fun n => (n + 1) % 256)).getD 0) s.dir.own (queueJoin (restartBlocks s)) := by
  have hadm : (restartBlocks s).admits 3 = true := rfl
  unfold queueJoin
  rw [if_pos hadm]
  exact
    { boards := rfl, frames := ⟨[], rfl, fun f hf => by cases hf⟩, number := rfl, owed := rfl, mode := rfl, shots := rfl
      counting := rfl, main := rfl, chip := rfl, feeder := rfl
      watches := fun i hi => by
        show ((List.replicate 29 AlarmRecord.blank).getD i .blank).state = .quiet
        rw [List.getD_eq_getElem?_getD, List.getElem?_replicate]
        split <;> rfl
      activity := fun a ha => by cases ha }

/-- The share unit is UNSEATED, with its reset values, up to the period's work of a RESTART (R85). -/
theorem shares_restart (s : State) :
    (recondition (takeCauses (updateNeighbour [] (queueJoin (restartBlocks s))))).shares = .reset := by
  have h1 : Moves (updateNeighbour [] (queueJoin (restartBlocks s)))
      (recondition (takeCauses (updateNeighbour [] (queueJoin (restartBlocks s))))) :=
    (Follows.foldl (fun s i => follows_takeCause i s) _ _).toMoves.trans (moves_recondition _)
  have h2 := congrArg State.shares (far_updateNeighbour [] (queueJoin (restartBlocks s)))
  exact (h1.read (fun x => x.shares) (fun _ => rfl)).trans h2

/-- What stands at the end of a RESTART that is taken (R152). -/
theorem cleared_restartStation (s : State) :
    Cleared ((s.dir.incarnation.map (fun n => (n + 1) % 256)).getD 0) s.dir.own (restartStation s) :=
  ((cleared_restartBlocks s).updateNeighbour.takeCauses.recondition.periodWork (by rw [shares_restart]; rfl)).settle

end Sys2Proof.Machine
end

