-- ==== Sys2Proof/Laws/FirstOut.lean ====
section
/-! SUPPORT. While no TRIP alarm stands and none enters, the two first-out records stay (R121, R148): `Untripped f l s`. -/

namespace Sys2Proof.Machine

open Sys2Proof

/-- No TRIP alarm stands, the trip line is sensed as the other stations leave it, and the two first-out records are these. -/
structure Untripped (f : Option FirstOut) (l : LineState × Option (Nat × Nat)) (s : State) : Prop where
  stands   : ∀ i, i < 29 → s.alarmAction i = .trip → s.stands i = false
  sensed   : s.control.tripSensed = s.control.tripOthers
  firstOut : s.alarms.firstOut = f
  line     : (s.control.lineState, s.control.lineValue) = l

variable {f : Option FirstOut} {l : LineState × Option (Nat × Nat)} {s : State}

theorem Untripped.ite {t u : State} (c : Prop) [Decidable c] (h : Untripped f l t) (k : Untripped f l u) :
    Untripped f l (if c then t else u) := by
  by_cases hc : c
  · rw [if_pos hc]; exact h
  · rw [if_neg hc]; exact k

theorem Untripped.of_eq (h : Untripped f l s) {t : State} (h1 : t.loader = s.loader) (h2 : t.control = s.control)
    (h3 : t.alarms = s.alarms) : Untripped f l t := by
  have ha : ∀ i, t.alarmAction i = s.alarmAction i := fun i => by
    simp only [State.alarmAction, State.watch, State.cfg, h1, h3]
  refine ⟨fun i hi hx => ?_, by rw [h2]; exact h.sensed, by rw [h3]; exact h.firstOut, by rw [h2]; exact h.line⟩
  have := h.stands i hi ((ha i).symm.trans hx)
  simpa only [State.stands, State.alarmState, State.record, h3] using this

theorem Untripped.of_calm (h : Untripped f l s) {t : State} (k : t.calm = s.calm) : Untripped f l t := by
  simp only [State.calm, Prod.mk.injEq] at k
  exact h.of_eq k.1 k.2.1 k.2.2.2.2.1

theorem Untripped.control (h : Untripped f l s) {c : Control} (h1 : c.tripSensed = s.control.tripSensed)
    (h2 : c.tripOthers = s.control.tripOthers) (h3 : c.lineState = s.control.lineState)
    (h4 : c.lineValue = s.control.lineValue) : Untripped f l { s with control := c } :=
  ⟨h.stands, h1.trans (h.sensed.trans h2.symm), h.firstOut, by
    show (c.lineState, c.lineValue) = l
    rw [h3, h4]; exact h.line⟩

theorem Untripped.level (h : Untripped f l s) : s.tripLevel = s.control.tripSensed := by
  have ha : s.anyStands .trip = false := by
    unfold State.anyStands
    rw [List.any_eq_false]
    intro i hi
    have hi' := List.mem_range.1 hi
    by_cases hx : s.alarmAction i = .trip
    · simp [h.stands i hi' hx]
    · simp [hx]
  simp [State.tripLevel, State.tripPull, ha, h.sensed]

theorem Untripped.recondition (h : Untripped f l s) : Untripped f l (recondition s) := by
  have h1 : senseTrip s = s := by unfold senseTrip; rw [if_pos h.level]
  unfold Machine.recondition
  rw [h1]
  refine .ite _ (h.of_calm ((calm_potUpdate _).trans (calm_sprayUpdate _))) ?_
  exact (h.control (c := { s.control with condition := s.derivedCondition }) rfl rfl rfl rfl).of_calm (calm_setCondition _ s)

theorem Untripped.markBoards (h : Untripped f l s) (p : Board → Bool) (code : Nat) : Untripped f l (markBoards p code s) :=
  h.of_calm (calm_markBoards p code s)

theorem Untripped.withActivity (h : Untripped f l s) (x : List Activity) : Untripped f l (withActivity x s) := by
  unfold Machine.withActivity
  refine Untripped.of_calm (s := { s with groups := { s.groups with activity := x } }) (h.of_eq rfl rfl rfl) ?_
  exact calm_foldl (fun s c => calm_markBoards _ c s) _ _

/-- A record of an alarm that is no TRIP alarm may change, and any record where it does not come to stand. -/
theorem Untripped.updateRecord (h : Untripped f l s) {i : Nat} {g : AlarmRecord → AlarmRecord}
    (hi : s.alarmAction i ≠ .trip ∨ ∀ r, (g r).state = r.state) : Untripped f l (updateRecord i g s) := by
  refine { h with stands := fun k hk hx => ?_ }
  have hk' := h.stands k hk hx
  unfold State.stands State.alarmState at hk' ⊢
  rw [record_updateRecord]
  split
  · rename_i e
    rcases hi with hi | hi
    · exact absurd (by rw [e.1]; exact hx) hi
    · rw [hi]; exact hk'
  · exact hk'

theorem Untripped.updateCause (h : Untripped f l s) (i : Nat) (g : Cause → Cause) : Untripped f l (updateCause i g s) := { h with }

theorem Untripped.push (h : Untripped f l s) (x : TxFrame) : Untripped f l (s.push x) := h.of_eq rfl rfl rfl

theorem Untripped.announce (h : Untripped f l s) (i : Nat) : Untripped f l (announce i s) :=
  .ite _ (h.updateRecord (.inr (fun _ => rfl)))
    (.ite _ ((h.push _).updateRecord (.inr (fun _ => rfl))) (h.updateRecord (.inr (fun _ => rfl))))

theorem Untripped.clearAnnounced (h : Untripped f l s) (i : Nat) : Untripped f l (clearAnnounced i s) := by
  have h1 : Untripped f l (withdrawFrames (TxFrame.isAlarmOf i) s) := h.of_eq rfl rfl rfl
  unfold Machine.clearAnnounced
  refine .ite _ (Untripped.updateRecord (.ite _ ?_ h1) (.inr (fun _ => rfl))) (h.updateRecord (.inr (fun _ => rfl)))
  exact .ite _ (h1.push _) (h1.updateRecord (.inr (fun _ => rfl)))

theorem Untripped.enterActive (h : Untripped f l s) {i : Nat} (hi : s.alarmAction i ≠ .trip) (v : Int) :
    Untripped f l (enterActive i v s) := by
  unfold Machine.enterActive
  simp only [if_neg hi]
  have h1 := h.updateRecord (g := fun r => { r with state := .active, matchCount := 0, value := v }) (.inl hi)
  have h3 : ∀ u, Untripped f l u → Untripped f l (if s.ownSetTakes i then addActivity ⟨s.alarmGroup i, s.dir.own, i⟩ u else u) :=
    fun u hu => .ite _ (.ite _ hu (hu.withActivity _)) hu
  have h4 : ∀ u, Untripped f l u → Untripped f l (if s.needsAnnouncing i then Machine.announce i u else u) :=
    fun u hu => .ite _ (hu.announce i) hu
  have h5 : ∀ u, Untripped f l u →
      Untripped f l (if s.alarmMark i = 0 then u else Machine.markBoards (fun _ => true) (s.alarmMark i) u) :=
    fun u hu => .ite _ hu (hu.markBoards _ _)
  exact (h5 _ (h4 _ (h3 _ h1))).recondition

theorem Untripped.returnQuiet (h : Untripped f l s) {i : Nat} (hi : s.alarmAction i ≠ .trip) : Untripped f l (returnQuiet i s) :=
  (((h.updateRecord (.inl hi)).withActivity _).clearAnnounced i).recondition

theorem Untripped.releaseRecord (h : Untripped f l s) {i : Nat} (hi : s.alarmAction i ≠ .trip) :
    Untripped f l (releaseRecord i s) := by
  unfold Machine.releaseRecord
  split
  · exact .ite _ (h.updateRecord (.inl hi)) (h.returnQuiet hi)
  · exact h.returnQuiet hi
  all_goals exact h

theorem Untripped.takeCause (h : Untripped f l s) {i : Nat} (hi : s.alarmAction i ≠ .trip ∨ (s.cause i).raised = false) :
    Untripped f l (takeCause i s) := by
  unfold Machine.takeCause
  rcases hi with hi | hi
  · exact .ite _ (h.enterActive hi _) h
  · simp only [hi, Bool.and_false, Bool.false_and]; exact h

theorem Untripped.raiseHeld (h : Untripped f l s) {i : Nat} (hi : s.alarmAction i ≠ .trip) (v : Int) :
    Untripped f l (raiseHeld i v s) := (h.updateCause i _).takeCause (.inl hi)

theorem Untripped.releaseHeld (h : Untripped f l s) {i : Nat} (hi : s.alarmAction i ≠ .trip ∨ (s.cause i).raised = false) :
    Untripped f l (releaseHeld i s) := by
  unfold Machine.releaseHeld
  rcases hi with hi | hi
  · exact .ite _ ((h.updateCause i _).releaseRecord hi) h
  · rw [if_neg (by simp [hi])]; exact h

theorem Untripped.sensePermit (h : Untripped f l s) : Untripped f l (sensePermit s) := by
  unfold Machine.sensePermit
  have h1 := h.control (c := { s.control with permitSensed := s.permitLevel }) rfl rfl rfl rfl
  refine .ite _ h (.ite _ (h1.of_eq rfl rfl rfl) (Untripped.releaseHeld ?_ (.inl (by intro x; cases x))))
  exact h1.of_eq rfl rfl rfl

theorem Untripped.settle (h : Untripped f l s) : Untripped f l (settle s) := by
  have h1 : Untripped f l (handLate s) :=
    .ite _ (h.raiseHeld (by intro x; cases x) _) (h.releaseHeld (.inl (by intro x; cases x)))
  exact ((h1.of_calm (calm_sprayUpdate _)).of_calm (calm_potUpdate _)).sensePermit.sensePermit

/-! ## RESTART -/

/-- The indices whose alarm may be of action TRIP while no watch is tested: POT_LOW_LOW and the two of the ducts (R111). -/
theorem trip_builtin {i : Nat} (h : 16 ≤ i) (ht : s.alarmAction i = .trip) : i = 23 ∨ i = 24 ∨ i = 25 := by
  unfold State.alarmAction at ht
  rw [if_neg (by omega)] at ht
  split at ht
  all_goals first | (exfalso; cases ht; done) | omega

theorem handoverCheck_alarms (id : Nat) (s : State) : ((handoverCheck id s).loader, (handoverCheck id s).control,
    (handoverCheck id s).alarms) = (s.loader, s.control, s.alarms) := by
  unfold handoverCheck
  split
  · split
    · split <;> rfl
    · rfl
  · rfl

theorem Untripped.updateNeighbour (h : Untripped f l s) (gone : List Nat) : Untripped f l (updateNeighbour gone s) := by
  have hh : ∀ (ids : List Nat) (u : State), Untripped f l u → Untripped f l (ids.foldl (fun s id => handoverCheck id s) u) := by
    intro ids
    induction ids with
    | nil => exact fun _ k => k
    | cons a ids ih =>
      intro u k
      have e := handoverCheck_alarms a u
      simp only [Prod.mk.injEq] at e
      exact ih _ (k.of_eq e.1 e.2.1 e.2.2)
  unfold Machine.updateNeighbour
  refine .ite _ h (hh _ _ ?_)
  refine .ite _ (Untripped.markBoards ?_ _ _) ?_ <;> exact h.of_eq rfl rfl rfl

/-- None of the three causes that may trip is raised. -/
def State.tripCauses (s : State) : Prop := (s.cause 23).raised = false ∧ (s.cause 24).raised = false ∧ (s.cause 25).raised = false

theorem tripCauses_of {t : State} (k : Spares (fun k => k ≠ 23 ∧ k ≠ 24 ∧ k ≠ 25) s t) (h : s.tripCauses) : t.tripCauses := by
  refine ⟨?_, ?_, ?_⟩
  · rw [k.cause 23 (by decide) (by omega)]; exact h.1
  · rw [k.cause 24 (by decide) (by omega)]; exact h.2.1
  · rw [k.cause 25 (by decide) (by omega)]; exact h.2.2

theorem takeCause_unraised {i : Nat} (h : (s.cause i).raised = false) : takeCause i s = s := by
  unfold takeCause
  simp [h]

theorem Untripped.takeCauses (h : Untripped f l s) (hc : s.tripCauses) :
    Untripped f l (takeCauses s) ∧ (Machine.takeCauses s).tripCauses := by
  unfold Machine.takeCauses
  have hl : ∀ i ∈ List.range' 16 13, 16 ≤ i := fun i hi => (List.mem_range'_1.1 hi).1
  generalize List.range' 16 13 = r at hl
  induction r generalizing s with
  | nil => exact ⟨h, hc⟩
  | cons i r ih =>
    have hi := hl i (List.mem_cons_self ..)
    have hr : ∀ i ∈ r, 16 ≤ i := fun j hj => hl j (List.mem_cons_of_mem i hj)
    rw [List.foldl_cons]
    by_cases hx : (s.cause i).raised = true
    · have hne : i ≠ 23 ∧ i ≠ 24 ∧ i ≠ 25 := by
        refine ⟨?_, ?_, ?_⟩ <;> rintro rfl
        · exact absurd (hx.symm.trans hc.1) (by decide)
        · exact absurd (hx.symm.trans hc.2.1) (by decide)
        · exact absurd (hx.symm.trans hc.2.2) (by decide)
      have ht : s.alarmAction i ≠ .trip := fun e => by
        rcases trip_builtin hi e with e | e | e
        · exact hne.1 e
        · exact hne.2.1 e
        · exact hne.2.2 e
      exact ih (h.takeCause (.inl ht)) (tripCauses_of (spares_takeCause hne s) hc) hr
    · rw [takeCause_unraised (by simpa using hx)]
      exact ih h hc hr

theorem Untripped.budgetShort (h : Untripped f l s) : Untripped f l (budgetShort s) := by
  have hs : ∀ x : Shares, Untripped f l { s with shares := x } := fun x => h.of_eq rfl rfl rfl
  have ht : ∀ u : State, u.alarmAction 28 ≠ .trip := fun u x => by cases x
  unfold Machine.budgetShort
  exact .ite _ ((hs _).releaseHeld (.inl (ht _))) (.ite _ ((hs _).raiseHeld (ht _) _) (hs _))

theorem ductIn_off (st : DuctState) (hst : st ≠ .off) :
    (mapDucts (fun _ _ => (⟨.off, 0, 0, .stopped⟩ : Duct)) s).ductIn st = none := by
  unfold State.ductIn
  rw [List.find?_eq_none]
  intro n _
  by_cases he : s.ductEnabled n = true
  · have hd : ((mapDucts (fun _ _ => (⟨.off, 0, 0, .stopped⟩ : Duct)) s).duct n).state = .off := by
      show ((s.extraction.ducts.mapIdx _).getD n Duct.blank).state = .off
      rw [List.getD_eq_getElem?_getD, List.getElem?_mapIdx]
      cases s.extraction.ducts[n]? with
      | none => rfl
      | some d => simp [he]
    rw [hd]
    cases st <;> simp at hst ⊢
  · have he' : (mapDucts (fun _ _ => (⟨.off, 0, 0, .stopped⟩ : Duct)) s).ductEnabled n = s.ductEnabled n := rfl
    simp [he', he]

theorem Untripped.testRequest (h : Untripped f l s) (hc : s.tripCauses) : Untripped f l (testRequest s) := by
  unfold Machine.testRequest
  refine .ite _ (.ite _ (h.of_eq rfl rfl rfl) (h.of_eq rfl rfl rfl)) (.ite _ (.ite _ ?_ (h.of_eq rfl rfl rfl)) h)
  unfold requestOff driveDucts
  generalize hv : mapDucts (fun _ _ => (⟨.off, 0, 0, .stopped⟩ : Duct))
    { s with extraction := { s.extraction with request := false, runOn := .stopped } } = v
  have hu : Untripped f l v := by rw [← hv]; exact h.of_eq rfl rfl rfl
  have hvc : v.tripCauses := by rw [← hv]; exact hc
  have hk : (sprayUpdate v).alarms = v.alarms := by
    have := calm_sprayUpdate v
    simp only [State.calm, Prod.mk.injEq] at this
    exact this.2.2.2.2.1
  have hx : (sprayUpdate v).extraction = v.extraction := (moves_sprayUpdate v).read (fun x => x.extraction) (fun _ => rfl)
  have hl : (sprayUpdate v).loader = v.loader := (moves_sprayUpdate v).read (fun x => x.loader) (fun _ => rfl)
  have hd : ∀ st, (sprayUpdate v).ductIn st = v.ductIn st := fun st => by
    simp only [State.ductIn, State.ductEnabled, State.duct, State.cfg, hx, hl]
  have hn : ∀ st, st ≠ .off → v.ductIn st = none := fun st k => by rw [← hv]; exact ductIn_off st k
  have hcs : ∀ i, (sprayUpdate v).cause i = v.cause i := fun i => by simp only [State.cause, hk]
  have e1 : holdWhile 24 (((sprayUpdate v).ductIn .failed).getD 0 : Nat) ((sprayUpdate v).ductIn .failed).isSome (sprayUpdate v)
      = sprayUpdate v := by
    rw [hd, hn _ (by intro x; cases x)]
    simp [holdWhile, Machine.releaseHeld, hcs, hvc.2.1]
  simp only [e1]
  have e2 : holdWhile 25 (((sprayUpdate v).ductIn .lost).getD 0 : Nat) ((sprayUpdate v).ductIn .lost).isSome (sprayUpdate v)
      = sprayUpdate v := by
    rw [hd, hn _ (by intro x; cases x)]
    simp [holdWhile, Machine.releaseHeld, hcs, hvc.2.2]
  rw [e2]
  exact hu.of_calm (calm_sprayUpdate v)

theorem spares_updateNeighbour {p : Nat → Prop} (gone : List Nat) (s : State) : Spares p s (updateNeighbour gone s) := by
  unfold updateNeighbour handoverAll
  refine .ite _ (Spares.refl s) (Spares.trans ?_ (Spares.foldl (fun u a _ => ?_) _))
  · refine .ite _ (Spares.trans ?_ (spares_markBoards _ _ _)) ?_ <;> exact .of_eq rfl rfl rfl rfl
  · unfold handoverCheck
    split
    · exact .ite _ (.ite _ (.of_eq rfl rfl rfl rfl) (.of_eq rfl rfl rfl rfl)) (Spares.refl u)
    · exact Spares.refl u

theorem Untripped.periodWork (h : Untripped f l s) (hc : s.tripCauses) : Untripped f l (periodWork s) := by
  have h1 : Untripped f l (heaterPeriod s) := h.of_eq rfl rfl rfl
  have c1 : (heaterPeriod s).tripCauses := hc
  have hn : ∀ u : State, Untripped f l u → u.tripCauses → Untripped f l (queueNeed u) ∧ (queueNeed u).tripCauses :=
    fun u k c => by
      unfold queueNeed queueOrDrop
      split
      · split
        · exact ⟨k.push _, c⟩
        · exact ⟨k, c⟩
      · exact ⟨k, c⟩
  have hr : ∀ u : State, Untripped f l u → u.tripCauses → Untripped f l (queueReturn u) ∧ (queueReturn u).tripCauses :=
    fun u k c => by
      unfold queueReturn queueOrDrop
      split
      · exact ⟨k, c⟩
      · split
        · split
          · exact ⟨k.push _, c⟩
          · exact ⟨k, c⟩
        · exact ⟨k, c⟩
  have h2 := hn _ h1 c1
  have h3 := hr _ h2.1 h2.2
  have hs : ∀ u : State, Spares (fun k => k = 28) u (Machine.budgetShort u) := fun u => by
    unfold Machine.budgetShort
    refine .ite _ (Spares.trans ?_ (spares_releaseHeld (p := fun k => k = 28) rfl _))
      (.ite _ (Spares.trans ?_ (spares_raiseHeld (p := fun k => k = 28) rfl _ _)) ?_) <;>
      exact .of_eq rfl rfl rfl rfl
  unfold Machine.periodWork shareHandOver
  exact h3.1.budgetShort.testRequest (tripCauses_of ((hs _).mono (fun k e => by omega)) h3.2)

/-- A RESTART without a raised TRIP cause keeps both first-out records (R123, R148, R152). -/
theorem untripped_restartStation (h1 : s.control.tripSensed = s.control.tripOthers) (h2 : (s.cause 23).raised = false) :
    Untripped s.alarms.firstOut (s.control.lineState, s.control.lineValue) (restartStation s) := by
  have hb : Untripped s.alarms.firstOut (s.control.lineState, s.control.lineValue) (queueJoin (restartBlocks s)) := by
    have hadm : (restartBlocks s).admits 3 = true := rfl
    unfold queueJoin
    rw [if_pos hadm]
    refine ⟨fun i _ _ => ?_, h1, rfl, rfl⟩
    show ((List.replicate 29 AlarmRecord.blank).getD i .blank).state.stands = false
    rw [List.getD_eq_getElem?_getD, List.getElem?_replicate]
    split <;> rfl
  have hc : (queueJoin (restartBlocks s)).tripCauses := by
    have e : (queueJoin (restartBlocks s)).alarms.causes = restartCauses s.alarms.causes := rfl
    have k : ∀ j, (queueJoin (restartBlocks s)).cause (16 + j)
        = (restartCauses s.alarms.causes).getD j ⟨false, 0⟩ := fun j => by
      unfold State.cause
      rw [e, Nat.add_sub_cancel_left]
    have k' : ∀ j, s.cause (16 + j) = s.alarms.causes.getD j ⟨false, 0⟩ := fun j => by
      unfold State.cause
      rw [Nat.add_sub_cancel_left]
    refine ⟨?_, ?_, ?_⟩
    · have h2' : (s.cause (16 + 7)).raised = false := h2
      rw [show 23 = 16 + 7 from rfl, k]
      rw [k'] at h2'
      unfold restartCauses
      rw [List.getD_eq_getElem?_getD] at h2' ⊢
      rw [List.getElem?_mapIdx]
      cases hx : s.alarms.causes[7]? with
      | none => rfl
      | some c => rw [hx] at h2'; simpa using h2'
    · rw [show 24 = 16 + 8 from rfl, k]
      unfold restartCauses
      rw [List.getD_eq_getElem?_getD, List.getElem?_mapIdx]
      cases s.alarms.causes[8]? <;> rfl
    · rw [show 25 = 16 + 9 from rfl, k]
      unfold restartCauses
      rw [List.getD_eq_getElem?_getD, List.getElem?_mapIdx]
      cases s.alarms.causes[9]? <;> rfl
  have h1 := hb.updateNeighbour []
  have h2 := h1.takeCauses (tripCauses_of (spares_updateNeighbour [] _) hc)
  exact (h2.1.recondition.periodWork (tripCauses_of (spares_recondition _) h2.2)).settle

end Sys2Proof.Machine
end

