-- ==== Sys2Proof/Laws/Blocks.lean ====
section
/-! SUPPORT. What the operations of a sample event, a position event and a change of neighbour make of the state, each said once,
in the words of the manual's rules. -/

namespace Sys2Proof.Machine

open Sys2Proof

/-! ## Sample events: level, ramps, ducts (R91, R92, R96, R97, R98, R104, R127) -/

theorem steady_iff (p : Pump) : p.steady = true ↔ p.state ∉ [PumpState.raising, .lowering] := by
  unfold Pump.steady
  cases p.state <;> decide

theorem clamp16_eq (x : Int) : clamp16 x = max (-32768) (min 32767 x) := by
  unfold clamp16 clampInt
  split
  · omega
  · split <;> omega

theorem levelSample_eq (reading : Int) (s : State) : levelSample reading s =
    if s.cfg.roles.pot = true ∧ s.pot.main.state ∉ [PumpState.raising, .lowering] ∧
        s.pot.chip.state ∉ [PumpState.raising, .lowering] then
      { s with pot := { s.pot with
        level := max (-32768) (min 32767 (reading + (if s.pot.main.state = .up then (s.cfg.mainDrawdown : Int) else 0)
          + (if s.pot.chip.state = .up then (s.cfg.chipDrawdown : Int) else 0)))
        established := true } }
    else s := by
  unfold levelSample State.compensated
  simp only [Bool.and_eq_true, steady_iff, clamp16_eq, and_assoc]

theorem sensorCondition_closed {s : State} (h : ∀ b ∈ s.alarms.sensorOpen, b = false) : sensorCondition s = releaseHeld 21 s := by
  have : s.alarms.sensorOpen.contains true = false := by
    rw [Bool.eq_false_iff]
    intro k
    exact absurd (h true (List.contains_iff_mem.1 k)) (by decide)
  unfold sensorCondition holdWhile
  rw [this]
  rfl

theorem sensorCondition_open {s : State} {n : Nat} (h : s.alarms.sensorOpen[n]? = some true)
    (k : ∀ k, k < n → s.alarms.sensorOpen[k]? = some false) : sensorCondition s = raiseHeld 21 n s := by
  have hc : s.alarms.sensorOpen.contains true = true := List.contains_iff_mem.2 (List.mem_of_getElem? h)
  have hf : s.alarms.sensorOpen.findIdx? (· == true) = some n := by
    obtain ⟨hn, he⟩ := List.getElem?_eq_some_iff.1 h
    rw [List.findIdx?_eq_some_iff_getElem]
    refine ⟨hn, by simp [he], fun j hj => ?_⟩
    obtain ⟨hj', ej⟩ := List.getElem?_eq_some_iff.1 (k j hj)
    simp [ej]
  unfold sensorCondition holdWhile
  rw [hc, hf]
  rfl

theorem potLow_eq (s : State) : potLow s =
    if s.cfg.roles.pot = true ∧ s.pot.established = true then
      if s.pot.level < s.cfg.lowLow then raiseHeld 23 s.pot.level s else releaseHeld 23 s
    else s := by
  unfold potLow holdWhile
  simp only [Bool.and_eq_true, decide_eq_true_eq]

theorem rampToward_zero (rate speed : Nat) : rampToward rate speed 0 = if rate = 0 then 0 else speed - rate := by
  unfold rampToward
  split
  · rfl
  · rw [if_neg (Nat.not_lt_zero _), Nat.max_eq_left (Nat.zero_le _)]

theorem rampStep_lowering {rate settle : Nat} {before p : Pump} (h : p.state = .lowering) :
    rampStep rate settle before p = lowering (if rate = 0 then 0 else p.speed - rate) p.target := by
  unfold rampStep
  rw [h, rampToward_zero]

theorem rampStep_raising {rate settle : Nat} {before p : Pump} (h : p.state = .raising) (hb : before.state = .raising)
    (hs : p.speed ≠ p.target) : rampStep rate settle before p = raising settle (rampToward rate p.speed p.target) p.target := by
  unfold rampStep
  rw [h]
  exact if_pos ⟨hb, hs⟩

theorem rampStep_waits {rate settle : Nat} {before p : Pump} (h : p.state = .raising)
    (hb : before.state ≠ .raising ∨ p.speed = p.target) : rampStep rate settle before p = p := by
  unfold rampStep
  rw [h]
  exact if_neg (fun x => hb.elim (fun y => y x.1) (fun y => x.2 y))

theorem rampStep_rests {rate settle : Nat} {before p : Pump} (h : p.state ≠ .raising) (k : p.state ≠ .lowering) :
    rampStep rate settle before p = p := by
  unfold rampStep
  cases hp : p.state <;> first | rfl | exact absurd hp h | exact absurd hp k

theorem raising_eq (settle v target : Nat) : raising settle v target =
    if v ≠ target then ⟨.raising, v, target, .stopped⟩
    else if settle = 0 then ⟨.up, v, target, .stopped⟩ else ⟨.raising, v, target, .running settle⟩ := by
  unfold raising
  by_cases h : v = target <;> simp [h]

theorem neededSamples_eq (n : Nat) : neededSamples n = max 1 n := by
  unfold neededSamples
  split <;> omega

theorem sampleDuct_keeps {c : StationConfig} {q : Quantity} {d : Duct} (h : d.state = .proven)
    (k : q.valid = true ∧ (c.lossThreshold : Int) ≤ q.value) : sampleDuct c q d = { d with loss := 0 } := by
  unfold sampleDuct
  simp [h, k.1, k.2]

theorem sampleDuct_loses {c : StationConfig} {q : Quantity} {d : Duct} (h : d.state = .proven)
    (k : q.valid = false ∨ q.value < c.lossThreshold) : sampleDuct c q d =
      if max 1 c.lossSamples ≤ d.loss + 1 then { d with state := .lost, loss := d.loss + 1, prove := 0 }
      else { d with loss := d.loss + 1 } := by
  have hn : ¬(q.valid && decide ((c.lossThreshold : Int) ≤ q.value)) = true := by
    simp only [Bool.and_eq_true, decide_eq_true_eq]
    rintro ⟨a, b⟩
    rcases k with k | k
    · rw [a] at k; cases k
    · omega
  unfold sampleDuct
  rw [h]
  simp only [if_neg hn, neededSamples_eq]

theorem sampleDuct_proves {c : StationConfig} {q : Quantity} {d : Duct} (h : d.state ∈ [DuctState.proving, .lost, .failed])
    (k : q.valid = true ∧ (c.proveThreshold : Int) ≤ q.value) : sampleDuct c q d =
      if max 1 c.proveHold ≤ d.prove + 1 then ⟨.proven, d.prove + 1, 0, .stopped⟩ else { d with prove := d.prove + 1 } := by
  unfold sampleDuct
  cases hd : d.state <;> simp [hd, k.1, k.2, neededSamples_eq] at h ⊢

theorem sampleDuct_starts {c : StationConfig} {q : Quantity} {d : Duct} (h : d.state ∈ [DuctState.proving, .lost, .failed])
    (k : q.valid = false ∨ q.value < c.proveThreshold) : sampleDuct c q d = { d with prove := 0 } := by
  have hn : (q.valid && decide ((c.proveThreshold : Int) ≤ q.value)) = false := by
    rw [Bool.eq_false_iff]
    simp only [ne_eq, Bool.and_eq_true, decide_eq_true_eq]
    rintro ⟨a, b⟩
    rcases k with k | k
    · rw [a] at k; cases k
    · omega
  unfold sampleDuct
  cases hd : d.state <;> simp [hd, hn] at h ⊢

theorem extraction_driveDucts (s : State) : (driveDucts s).extraction = s.extraction := by
  have h : ∀ (i : Nat) (v : Int) (b : Bool) (u : State), (holdWhile i v b u).extraction = u.extraction := fun i v b u =>
    (follows_holdWhile i v b u).toMoves.read (fun x => x.extraction) (fun _ => rfl)
  unfold driveDucts
  exact ((h _ _ _ _).trans (h _ _ _ _)).trans ((moves_sprayUpdate s).read (fun x => x.extraction) (fun _ => rfl))

theorem duct_mapDucts (f : Nat → Duct → Duct) (k : Nat) (s : State) (h : k < s.extraction.ducts.length) :
    (mapDucts f s).duct k = if s.ductEnabled k then f k (s.duct k) else s.duct k := by
  show (s.extraction.ducts.mapIdx _).getD k Duct.blank = _
  rw [List.getD_eq_getElem?_getD, List.getElem?_mapIdx]
  unfold State.duct
  rw [List.getD_eq_getElem?_getD]
  rw [List.getElem?_eq_getElem h]
  rfl

/-- Duct `n` takes its sample (R127), and the other stays. -/
theorem duct_ductSample (n k : Nat) (s : State) (h : n < s.extraction.ducts.length) : (ductSample n s).duct k =
    if k = n then (if s.ductEnabled n then sampleDuct s.cfg (s.quantity (25 + n)) (s.duct n) else s.duct n) else s.duct k := by
  have e : (ductSample n s).duct k
      = (mapDucts (fun k d => if k = n then sampleDuct s.cfg (s.quantity (25 + n)) d else d) s).duct k := by
    unfold ductSample State.duct
    rw [extraction_driveDucts]
  rw [e]
  by_cases hk : k < s.extraction.ducts.length
  · rw [duct_mapDucts _ _ _ hk]
    by_cases he : k = n
    · subst he; simp
    · simp [he]
  · have hne : k ≠ n := fun x => hk (x ▸ h)
    rw [if_neg hne]
    unfold State.duct
    show (s.extraction.ducts.mapIdx _).getD k Duct.blank = s.extraction.ducts.getD k Duct.blank
    rw [List.getD_eq_getElem?_getD, List.getD_eq_getElem?_getD, List.getElem?_mapIdx, List.getElem?_eq_none (Nat.le_of_not_lt hk)]
    rfl

/-! ## Watch chains (R106, R107, R109) -/

theorem testEntry_eq (m : Mode) (q : Quantity) (d : WatchDef) : testEntry m q d =
    if inModeMask d m = false then .releases
    else if q.valid = false then .neither
    else if (if d.above then d.threshold < q.value else q.value < d.threshold) then .matches
    else if (if d.above then q.value < d.threshold - d.margin else d.threshold + d.margin < q.value) then .releases
    else .neither := by
  unfold testEntry
  cases inModeMask d m <;> cases q.valid <;> cases d.above <;> simp

theorem chainResult_eq (s : State) (h : Nat) (results : List TestResult)
    (e : results = (membersOf s.alarms.entries h).map (fun i =>
      match (s.watch i).def? with
      | some d => testEntry s.control.mode (s.quantity d.quantity) d
      | none => .neither)) :
    s.chainResult h = if ∀ r ∈ results, r = .matches then .matches else if .releases ∈ results then .releases else .neither := by
  subst e
  have ha : ∀ l : List TestResult, l.all (· == .matches) = true ↔ ∀ r ∈ l, r = .matches := fun l => by
    simp only [List.all_eq_true, beq_iff_eq]
  have hr : ∀ l : List TestResult, l.any (· == .releases) = true ↔ .releases ∈ l := fun l => by
    simp only [List.any_eq_true, beq_iff_eq, exists_eq_right]
  by_cases a : ∀ r ∈ (membersOf s.alarms.entries h).map (fun i =>
      match (s.watch i).def? with
      | some d => testEntry s.control.mode (s.quantity d.quantity) d
      | none => .neither), r = .matches
  · exact (if_pos ((ha _).mpr a)).trans (if_pos a).symm
  · refine (if_neg (mt (ha _).mp a)).trans (Eq.trans ?_ (if_neg a).symm)
    by_cases r : .releases ∈ (membersOf s.alarms.entries h).map (fun i =>
        match (s.watch i).def? with
        | some d => testEntry s.control.mode (s.quantity d.quantity) d
        | none => .neither)
    · exact (if_pos ((hr _).mpr r)).trans (if_pos r).symm
    · exact (if_neg (mt (hr _).mp r)).trans (if_neg r).symm

theorem takeResult_counts {s : State} {i : Nat} {d : WatchDef} (h : s.alarmState i = .quiet ∨ s.alarmState i = .pending)
    (k : (s.record i).matchCount + 1 < d.persistence) : takeResult i d .matches s =
      updateRecord i (fun x => { x with state := .pending, matchCount := x.matchCount + 1 }) s := by
  unfold takeResult
  rcases h with h | h <;> rw [h] <;> exact if_neg (by omega)

theorem takeResult_enters {s : State} {i : Nat} {d : WatchDef} (h : s.alarmState i = .quiet ∨ s.alarmState i = .pending)
    (k : d.persistence ≤ (s.record i).matchCount + 1) : takeResult i d .matches s =
      enterActive i (max (-32768) (min 32767 (s.quantity d.quantity).value)) s := by
  rw [← clamp16_eq]
  unfold takeResult
  rcases h with h | h <;> rw [h] <;> exact if_pos k

theorem takeResult_falls {s : State} {i : Nat} {d : WatchDef} {r : TestResult}
    (h : s.alarmState i = .quiet ∨ s.alarmState i = .pending) (k : r ≠ .matches) : takeResult i d r s =
      updateRecord i (fun x => { x with state := .quiet, matchCount := 0 }) s := by
  unfold takeResult
  cases r
  · exact absurd rfl k
  all_goals rcases h with h | h <;> rw [h]

theorem takeResult_releases {s : State} {i : Nat} {d : WatchDef} (h : s.alarmState i = .active) (hi : i < 16) :
    takeResult i d .releases s = if s.alarmAction i = .hold ∨ s.alarmAction i = .trip then
      updateRecord i (fun x => { x with state := .latched }) s else returnQuiet i s := by
  unfold takeResult releaseRecord
  rw [h]
  simp only [State.alarmLatches, if_pos hi, Bool.or_eq_true, beq_iff_eq]

theorem takeResult_releases_acked {s : State} {i : Nat} {d : WatchDef} (h : s.alarmState i = .activeAcked) :
    takeResult i d .releases s = returnQuiet i s := by
  unfold takeResult releaseRecord
  rw [h]

theorem takeResult_stands {s : State} {i : Nat} {d : WatchDef} {r : TestResult}
    (h : s.alarmState i = .active ∨ s.alarmState i = .activeAcked) (k : r ≠ .releases) : takeResult i d r s = s := by
  unfold takeResult
  cases r
  case releases => exact absurd rfl k
  all_goals rcases h with h | h <;> rw [h]

theorem takeResult_latched {s : State} {i : Nat} {d : WatchDef} {r : TestResult} (h : s.alarmState i = .latched) :
    takeResult i d r s = s := by
  unfold takeResult
  rw [h]

/-! ## Position events (R9, R17, R22, R40, R43, R95) -/

theorem mem_movedBoards (s u : State) (id : Nat) : id ∈ movedBoards s u ↔
    ∃ x ∈ u.tracker.queue, x.line.id = id ∧ ∀ y, s.board id = some y → s.pos y ≠ u.pos x := by
  unfold movedBoards
  simp only [List.mem_map, List.mem_filter]
  constructor
  · rintro ⟨x, ⟨hx, hp⟩, rfl⟩
    refine ⟨x, hx, rfl, fun y hy => ?_⟩
    rw [hy] at hp
    simpa using hp
  · rintro ⟨x, hx, rfl, hp⟩
    refine ⟨x, ⟨hx, ?_⟩, rfl⟩
    cases hy : s.board x.line.id with
    | none => rfl
    | some y => simpa using hp y hy

theorem positionEvents_nil (s : State) : positionEvents [] s = s := rfl

theorem eraseIdx_perm : ∀ (l : List Nat) (i : Nat) (h : i < l.length), (l[i] :: l.eraseIdx i).Perm l
  | _ :: _, 0, _ => .refl _
  | x :: l, i + 1, h => (List.Perm.swap x _ _).trans ((eraseIdx_perm l i (Nat.lt_of_succ_lt_succ h)).cons x)

theorem freeOrder_perm : ∀ (fuel n : Nat) (l : List Nat), l.length ≤ fuel → (freeOrder fuel n l).Perm l := by
  intro fuel
  induction fuel with
  | zero => intro n l h; rw [List.length_eq_zero_iff.1 (Nat.le_zero.1 h)]; exact .nil
  | succ fuel ih =>
    intro n l h
    match l, h with
    | [], _ => exact .nil
    | [x], _ => exact .refl _
    | x :: y :: rest, h =>
      have hi : n % (rest.length + 2) < (x :: y :: rest).length := Nat.mod_lt _ (by omega)
      have hl : ((x :: y :: rest).eraseIdx (n % (rest.length + 2))).length ≤ fuel := by
        rw [List.length_eraseIdx_of_lt hi]
        simp only [List.length_cons] at h ⊢
        omega
      unfold freeOrder
      simp only []
      rw [List.getD_eq_getElem?_getD, List.getElem?_eq_getElem hi, Option.getD_some]
      exact ((ih _ _ hl).cons _).trans (eraseIdx_perm _ _ hi)

/-- The boards whose dots become due together are taken in some order (R41, log entry 6). -/
theorem sprayRecords_order (ids : List Nat) (s : State) : ∃ (order : List Nat) (n : Nat),
    order.Perm (ids.filter (fun id => match s.board id with
      | none => false
      | some b => !(s.dueDots b).isEmpty)) ∧
    sprayRecords ids s = order.foldl (fun s id => sprayDots id s) { s with free := n } := by
  unfold sprayRecords
  simp only []
  generalize ids.filter (fun id => match s.board id with
      | none => false
      | some b => !(s.dueDots b).isEmpty) = due
  match due with
  | [] => exact ⟨[], s.free, .nil, rfl⟩
  | [x] => exact ⟨[x], s.free, .refl _, rfl⟩
  | x :: y :: rest => exact ⟨_, s.free + 1, freeOrder_perm _ _ _ (Nat.le_refl _), rfl⟩

theorem pairwise_ite {c : Prop} [Decidable c] {l m : List Nat} (h : l.Pairwise (· < ·)) (k : m.Pairwise (· < ·)) :
    (if c then l else m).Pairwise (· < ·) := by
  by_cases hc : c
  · rw [if_pos hc]; exact h
  · rw [if_neg hc]; exact k

theorem dueDots_rise (s : State) (b : Board) : (s.dueDots b).Pairwise (· < ·) := by
  unfold State.dueDots
  split
  · exact .nil
  · split
    · split <;> simp
    · exact pairwise_ite .nil List.pairwise_lt_range'

theorem dueDots_none {s : State} {b : Board} (h : s.cfg.roles.flux = false ∨ (b.phase ≠ .waiting ∧ b.phase ≠ .spraying)) :
    s.dueDots b = [] := by
  unfold State.dueDots
  rcases h with h | h
  · simp [h]
  · simp [h.1, h.2]

theorem mem_dueDots {s : State} {b : Board} {k : Nat} {sl : Slot} (hf : s.cfg.roles.flux = true)
    (hp : b.phase = .waiting ∨ b.phase = .spraying) (hs : s.slotOf b = some sl) (h1 : 1 ≤ sl.body.pitch) :
    k ∈ s.dueDots b ↔ b.nextDot ≤ k ∧
      10 * sl.body.margin + k * (10 * sl.body.pitch) + 10 * sl.body.margin ≤ b.line.length ∧
      s.cfg.sprayPos + 10 * sl.body.margin + k * (10 * sl.body.pitch) ≤ s.pos b := by
  have hg : ¬(!s.cfg.roles.flux || !(b.phase == .waiting || b.phase == .spraying)) = true := by
    rcases hp with hp | hp <;> simp [hf, hp]
  have hB : s.beyondRow b = (s.pos b : Int) - s.cfg.sprayPos := rfl
  have hM : marginOf sl.body = 10 * sl.body.margin := Nat.mul_comm ..
  have hP : pitchOf sl.body = 10 * sl.body.pitch := Nat.mul_comm ..
  unfold State.dueDots
  rw [if_neg hg, hs, ← hM, ← hP]
  simp only []
  have h1' : 1 ≤ pitchOf sl.body := by omega
  generalize hr : min (s.beyondRow b) ((b.line.length : Int) - marginOf sl.body) = r
  have key : (marginOf sl.body : Int) + (k * pitchOf sl.body : Nat) ≤ r ↔
      marginOf sl.body + k * pitchOf sl.body + marginOf sl.body ≤ b.line.length ∧
        s.cfg.sprayPos + marginOf sl.body + k * pitchOf sl.body ≤ s.pos b := by
    rw [← hr, hB]
    omega
  rw [← key]
  by_cases hlt : r < marginOf sl.body
  · rw [if_pos hlt]
    constructor
    · intro h; cases h
    · rintro ⟨_, h⟩
      omega
  · rw [if_neg hlt, List.mem_range'_1]
    have hd : k ≤ (r - marginOf sl.body).toNat / pitchOf sl.body ↔ k * pitchOf sl.body ≤ (r - marginOf sl.body).toNat :=
      Nat.le_div_iff_mul_le h1'
    have he : k * pitchOf sl.body ≤ (r - marginOf sl.body).toNat ↔
        (marginOf sl.body : Int) + (k * pitchOf sl.body : Nat) ≤ r := by omega
    rw [← he, ← hd]
    omega

theorem mem_dueDots_unbound {s : State} {b : Board} {k : Nat} (hf : s.cfg.roles.flux = true)
    (hp : b.phase = .waiting ∨ b.phase = .spraying) (hs : s.slotOf b = none) :
    k ∈ s.dueDots b ↔ k = 0 ∧ b.nextDot = 0 ∧ s.cfg.sprayPos ≤ s.pos b := by
  have hg : ¬(!s.cfg.roles.flux || !(b.phase == .waiting || b.phase == .spraying)) = true := by
    rcases hp with hp | hp <;> simp [hf, hp]
  unfold State.dueDots
  rw [if_neg hg, hs]
  have hB : s.beyondRow b = (s.pos b : Int) - s.cfg.sprayPos := rfl
  simp only []
  by_cases h : b.nextDot = 0 ∧ 0 ≤ s.beyondRow b
  · rw [if_pos h, List.mem_singleton]
    omega
  · rw [if_neg h]
    constructor
    · intro x; cases x
    · omega

theorem missingCheck_eq {s : State} {id eye : Nat} {b : Board} (hb : s.board id = some b) (he : s.cfg.eyePos = some eye) :
    missingCheck id s = if b.confirmed = false ∧ b.seenMissing = false ∧ eye + s.cfg.eyeTolerance < s.pos b then
      occurrence 18 id (addMark id 9 (updateBoard id (fun b => { b with seenMissing := true }) s)) else s := by
  unfold missingCheck
  rw [hb, he]
  simp [and_assoc]

theorem missingCheck_blind {s : State} {id : Nat} (he : s.cfg.eyePos = none) : missingCheck id s = s := by
  unfold missingCheck
  rw [he]
  cases s.board id <;> rfl

theorem sprayEnd_eq {s : State} {id : Nat} {b : Board} (hb : s.board id = some b) : sprayEnd id s =
    if s.sprayOver b = true then flowCheck id (updateBoard id (fun b => { b with phase := .ended }) s) else s := by
  unfold sprayEnd
  rw [hb]

theorem sprayOver_iff (s : State) (b : Board) : s.sprayOver b = true ↔
    s.cfg.roles.flux = true ∧ (b.phase = .waiting ∨ b.phase = .spraying) ∧
      (∀ sl, s.slotOf b = some sl → s.cfg.sprayPos + b.line.length < s.pos b + 10 * sl.body.margin) ∧
      (s.slotOf b = none → 1 ≤ b.nextDot) := by
  unfold State.sprayOver
  simp only [Bool.and_eq_true, Bool.or_eq_true, beq_iff_eq, and_assoc]
  refine and_congr Iff.rfl (and_congr Iff.rfl ?_)
  cases s.slotOf b with
  | none => simp
  | some sl =>
    show decide ((b.line.length : Int) - (sl.body.margin * 10 : Nat) < (s.pos b : Int) - s.cfg.sprayPos) = true ↔ _
    simp only [decide_eq_true_eq, Option.some.injEq, forall_eq', reduceCtorEq, false_implies, and_true]
    omega

theorem contactCheck_eq {s : State} {id : Nat} {b : Board} (hb : s.board id = some b) (hp : s.cfg.roles.pot = true)
    (hw : b.waveContact = false) (hl : s.cfg.wavePos ≤ s.pos b) : contactCheck id s =
      if s.waveMissing b = true then addMark id 5 (updateBoard id (fun b => { b with waveContact := true }) s)
      else updateBoard id (fun b => { b with waveContact := true }) s := by
  unfold contactCheck
  rw [hb]
  simp [hp, hw, hl]

theorem waveMissing_iff (s : State) (b : Board) : s.waveMissing b = true ↔ ∃ sl ∈ s.slotOf b,
    (sl.body.mainWave = true ∧ s.pot.main.state ≠ .up) ∨ (sl.body.chipWave = true ∧ s.pot.chip.state ≠ .up) := by
  unfold State.waveMissing
  cases s.slotOf b with
  | none => simp
  | some sl => simp

theorem contactCheck_none {s : State} {id : Nat} {b : Board} (hb : s.board id = some b)
    (h : s.cfg.roles.pot = false ∨ b.waveContact = true ∨ s.pos b < s.cfg.wavePos) : contactCheck id s = s := by
  unfold contactCheck
  rw [hb]
  refine if_neg ?_
  simp only [Bool.and_eq_true, Bool.not_eq_true', decide_eq_true_eq]
  rintro ⟨⟨a, b⟩, c⟩
  rcases h with h | h | h
  · rw [a] at h; cases h
  · rw [b] at h; cases h
  · omega

theorem handoverCheck_eq {s : State} {id dest start : Nat} {b : Board} (hb : s.board id = some b)
    (hd : s.tracker.neighbour = some dest) (hs : s.neighbourStart = some start) : handoverCheck id s =
      if b.handed = none ∧ start - s.cfg.handoverLead ≤ s.pos b ∧ b.heldBack = false ∧ s.hasFrame (TxFrame.isHandOf id) = false then
        if s.admits 1 = true then s.withTx (s.bus.queue ++ [newFrame 1 dest (.hand id)])
        else updateBoard id (fun b => { b with heldBack := true }) s
      else s := by
  unfold handoverCheck State.handDue
  rw [hb, hd, hs]
  simp only [Bool.and_eq_true, Bool.not_eq_true', decide_eq_true_eq, Option.isNone_iff_eq_none, and_assoc]
  rfl

theorem handoverCheck_alone {s : State} {id : Nat} (h : s.tracker.neighbour = none ∨ s.neighbourStart = none) :
    handoverCheck id s = s := by
  unfold handoverCheck State.handDue
  rcases h with h | h
  · rw [h]; cases s.board id <;> rfl
  · rw [h]; cases s.board id <;> cases s.tracker.neighbour <;> simp

/-- The queue of the transmit interface at a release, without the waiting HAND and AMEND POSITION of the board (R22). -/
def releasedQueue (id : Nat) (s : State) : List TxFrame :=
  s.bus.queue.filter (fun f => f.phase == .onBus || !(f.body == .hand id || f.body == .amendPosition id))

/-- The state at a release before DONE is thought of (R22). -/
def beforeReport (b : Board) (s : State) : State :=
  removeBoard b.line.id (dropRef b.slot (withdrawFrames (TxFrame.isPositionOf b.line.id) s))

theorem removeBoard_keeps (id : Nat) (s : State) : (removeBoard id s).bus = s.bus ∧ (removeBoard id s).dir = s.dir ∧
    (removeBoard id s).recipes = s.recipes ∧ (removeBoard id s).tracker = { s.tracker with
      queue := s.tracker.queue.filter (fun x => x.line.id != id)
      underEye := if s.tracker.underEye = some id then none else s.tracker.underEye } := by
  unfold removeBoard dropCounting disownShots State.withShots
  by_cases hc : s.tracker.underEye = some id <;> by_cases hk : s.spray.counting = some id <;>
    simp [State.withQueue, hc, hk]

theorem dropRef_keeps (i : Option Nat) (s : State) : (dropRef i s).bus = s.bus ∧ (dropRef i s).dir = s.dir ∧
    (dropRef i s).tracker = s.tracker ∧ (dropRef i s).recipes.slots = match i with
      | some i => s.recipes.slots.modify i (fun sl =>
          if sl.state = .retiring ∧ sl.refs - 1 = 0 then .blank else { sl with refs := sl.refs - 1 })
      | none => s.recipes.slots := by
  cases i <;> exact ⟨rfl, rfl, rfl, rfl⟩

/-- What a release makes of the queues and the slots before DONE (R22). -/
theorem beforeReport_keeps (b : Board) (s : State) :
    (beforeReport b s).bus = (s.withTx (releasedQueue b.line.id s)).bus ∧ (beforeReport b s).dir = s.dir ∧
    (beforeReport b s).tracker = { s.tracker with
      queue := s.tracker.queue.filter (fun x => x.line.id != b.line.id)
      underEye := if s.tracker.underEye = some b.line.id then none else s.tracker.underEye } ∧
    (beforeReport b s).recipes.slots = match b.slot with
      | some i => s.recipes.slots.modify i (fun sl =>
          if sl.state = .retiring ∧ sl.refs - 1 = 0 then .blank else { sl with refs := sl.refs - 1 })
      | none => s.recipes.slots := by
  have h := removeBoard_keeps b.line.id (dropRef b.slot (withdrawFrames (TxFrame.isPositionOf b.line.id) s))
  have k := dropRef_keeps b.slot (withdrawFrames (TxFrame.isPositionOf b.line.id) s)
  refine ⟨h.1.trans k.1, h.2.1.trans k.2.1, ?_, (congrArg RecipeStore.slots h.2.2.1).trans k.2.2.2⟩
  rw [show (beforeReport b s).tracker = _ from h.2.2.2, k.2.2.1]
  rfl

/-- A release is `beforeReport`, then DONE or the unreported count, and the hold-over copy at an empty queue (R22, R23, R35). -/
theorem releaseBoard_eq (b : Board) (s : State) : ∃ copy, releaseBoard b s =
    if (reportBoard b (beforeReport b s)).tracker.queue.isEmpty then startHoldOver copy (reportBoard b (beforeReport b s))
    else reportBoard b (beforeReport b s) := ⟨s.governing, rfl⟩

theorem startHoldOver_keeps (copy : Option HoldOver) (s : State) : (startHoldOver copy s).tracker = s.tracker ∧
    (startHoldOver copy s).bus = s.bus ∧ (startHoldOver copy s).recipes.slots = s.recipes.slots := by
  unfold startHoldOver
  split <;> exact ⟨rfl, rfl, rfl⟩

theorem releaseBoard_tracker (b : Board) (s : State) : (releaseBoard b s).tracker = (reportBoard b (beforeReport b s)).tracker ∧
    (releaseBoard b s).bus = (reportBoard b (beforeReport b s)).bus ∧
    (releaseBoard b s).recipes.slots = (reportBoard b (beforeReport b s)).recipes.slots := by
  obtain ⟨copy, e⟩ := releaseBoard_eq b s
  rw [e]
  split
  · exact startHoldOver_keeps _ _
  · exact ⟨rfl, rfl, rfl⟩

theorem panel_of_dir {s t : State} (h : t.dir = s.dir) : t.panel = s.panel := by
  simp only [State.panel, State.entry, h]

theorem admits_of_bus {s t : State} (h : t.bus = s.bus) (c : Nat) : t.admits c = s.admits c := by
  have e : t.txFree = s.txFree := by unfold State.txFree; rw [h]
  unfold State.admits
  rw [e]

theorem reportBoard_handed {b : Board} {s : State} (h : b.handed.isSome = true) : reportBoard b s = s := by
  unfold reportBoard
  rw [if_pos h]

theorem reportBoard_done {b : Board} {s : State} {p : Nat} (h : b.handed = none) (hp : s.panel = some p) (ha : s.admits 1 = true) :
    reportBoard b s = s.push (newFrame 1 p (.done b.line b.anchorPos b.anchorCount)) := by
  unfold reportBoard
  rw [if_neg (by rw [h]; decide), hp]
  exact if_pos ha

theorem reportBoard_unreported {b : Board} {s : State} (h : b.handed = none) (hp : s.panel = none ∨ s.admits 1 = false) :
    reportBoard b s = countUnreported s := by
  unfold reportBoard
  rw [if_neg (by rw [h]; decide)]
  split
  · rfl
  · rename_i p hp'
    rcases hp with hp | hp
    · rw [hp'] at hp; cases hp
    · rw [hp]; rfl

theorem reportBoard_keeps (b : Board) (s : State) : (reportBoard b s).tracker.queue = s.tracker.queue ∧
    (reportBoard b s).tracker.underEye = s.tracker.underEye ∧ (reportBoard b s).recipes = s.recipes := by
  unfold reportBoard
  (repeat' split) <;> exact ⟨rfl, rfl, rfl⟩

/-! ## A change of neighbour (R7, R8) -/

/-- The records and the waiting HAND frames at a change of neighbour, before any record is checked again (R8). -/
def withNeighbour (new : Option Nat) (s : State) : State :=
  withdrawFrames (TxFrame.isKind 8) { s with tracker := { s.tracker with
    neighbour := new
    queue := s.tracker.queue.map (fun b => { b with handed := none, heldBack := false }) } }

theorem updateNeighbour_same {s : State} (gone : List Nat) (h : s.findNeighbour = s.tracker.neighbour) :
    updateNeighbour gone s = s := by
  unfold updateNeighbour
  exact if_pos h

theorem updateNeighbour_changed {s : State} (gone : List Nat) (h : s.findNeighbour ≠ s.tracker.neighbour) :
    ∃ absent : Bool, (absent = true ↔ (∃ n, s.tracker.neighbour = some n ∧ n ∈ gone) ∧ s.findNeighbour.isSome = true) ∧
      updateNeighbour gone s = handoverAll (if absent then markBoards (fun _ => true) 10 (withNeighbour s.findNeighbour s)
        else withNeighbour s.findNeighbour s) := by
  refine ⟨match s.tracker.neighbour with
    | some n => gone.contains n && s.findNeighbour.isSome
    | none => false, ?_, ?_⟩
  · cases s.tracker.neighbour with
    | none => simp
    | some n => simp
  · unfold updateNeighbour
    rw [if_neg h]
    rfl

end Sys2Proof.Machine
end

