-- ==== Sys2Proof/Laws/Units.lean ====
section
/-! SUPPORT. What the units make of an eye's edge, a merge, a period start, a test of the extraction request, a joining station
and the condition, each said once, in the words of the manual's rules. -/

namespace Sys2Proof.Machine

open Sys2Proof

/-! ## The choice at an eye (R16, R17) -/

theorem eyeCandidate_iff (s : State) (eye : Nat) (b : Board) : s.eyeCandidate eye b = true ↔ b.confirmed = false ∧
    b.seenMissing = false ∧ eye ≤ s.pos b + s.cfg.eyeTolerance ∧ s.pos b ≤ eye + s.cfg.eyeTolerance := by
  unfold State.eyeCandidate
  simp only [Bool.and_eq_true, Bool.not_eq_true', decide_eq_true_eq, and_assoc]

theorem eyeDistance_eq (p eye : Nat) : (p ≤ eye → eyeDistance eye p = eye - p) ∧ (eye ≤ p → eyeDistance eye p = p - eye) := by
  unfold eyeDistance
  constructor <;> intro h <;> omega

theorem chooseAtEye_nil {s : State} {eye : Nat} (h : s.tracker.queue.filter (s.eyeCandidate eye) = []) :
    s.chooseAtEye eye = none := by
  unfold State.chooseAtEye
  rw [h]
  rfl

/-- A choice goes on through a list: the result is no farther than any of it, and the first of the nearest. -/
theorem nearest_fold (d : Board → Nat) (l : List Board) (x : Board) :
    ∃ y, l.foldl (fun best b => match best with
        | none => some b
        | some x => if d b < d x then some b else some x) (some x) = some y ∧
      ((y = x ∧ ∀ b ∈ l, d x ≤ d b) ∨
        (d y < d x ∧ ∃ i : Nat, l[i]? = some y ∧ (∀ b ∈ l, d y ≤ d b) ∧ ∀ (j : Nat) (b : Board), j < i → l[j]? = some b → d y < d b)) := by
  induction l generalizing x with
  | nil => exact ⟨x, rfl, Or.inl ⟨rfl, fun _ h => absurd h List.not_mem_nil⟩⟩
  | cons a l ih =>
    by_cases h : d a < d x
    · obtain ⟨y, hy, k⟩ := ih a
      refine ⟨y, ?_, Or.inr ?_⟩
      · rw [List.foldl_cons]
        dsimp only
        rw [if_pos h]
        exact hy
      · rcases k with ⟨rfl, k⟩ | ⟨lt, i, hi, k, f⟩
        · refine ⟨h, 0, rfl, fun b hb => ?_, fun j b hj => absurd hj (Nat.not_lt_zero _)⟩
          rcases List.mem_cons.1 hb with rfl | hb
          · exact Nat.le_refl _
          · exact k b hb
        · refine ⟨Nat.lt_trans lt h, i + 1, hi, fun b hb => ?_, fun j b hj hb => ?_⟩
          · rcases List.mem_cons.1 hb with rfl | hb
            · exact Nat.le_of_lt lt
            · exact k b hb
          · cases j with
            | zero => cases hb; exact lt
            | succ j => exact f j b (Nat.lt_of_succ_lt_succ hj) hb
    · obtain ⟨y, hy, k⟩ := ih x
      refine ⟨y, ?_, ?_⟩
      · rw [List.foldl_cons]
        dsimp only
        rw [if_neg h]
        exact hy
      · rcases k with ⟨rfl, k⟩ | ⟨lt, i, hi, k, f⟩
        · refine Or.inl ⟨rfl, fun b hb => ?_⟩
          rcases List.mem_cons.1 hb with rfl | hb
          · exact Nat.le_of_not_lt h
          · exact k b hb
        · refine Or.inr ⟨lt, i + 1, hi, fun b hb => ?_, fun j b hj hb => ?_⟩
          · rcases List.mem_cons.1 hb with rfl | hb
            · exact Nat.le_trans (Nat.le_of_lt lt) (Nat.le_of_not_lt h)
            · exact k b hb
          · cases j with
            | zero => cases hb; exact Nat.lt_of_lt_of_le lt (Nat.le_of_not_lt h)
            | succ j => exact f j b (Nat.lt_of_succ_lt_succ hj) hb

/-- The chosen record is the first of the nearest candidates, in the order of those that come before it in the filtered queue. -/
theorem chooseAtEye_spec (s : State) (eye : Nat) :
    (s.tracker.queue.filter (s.eyeCandidate eye) = [] ∧ s.chooseAtEye eye = none) ∨
      ∃ (i : Nat) (y : Board), s.chooseAtEye eye = some y ∧ (s.tracker.queue.filter (s.eyeCandidate eye))[i]? = some y ∧
        (∀ b ∈ s.tracker.queue.filter (s.eyeCandidate eye), eyeDistance eye (s.pos y) ≤ eyeDistance eye (s.pos b)) ∧
        ∀ (j : Nat) (b : Board), j < i → (s.tracker.queue.filter (s.eyeCandidate eye))[j]? = some b →
          eyeDistance eye (s.pos y) < eyeDistance eye (s.pos b) := by
  unfold State.chooseAtEye
  generalize s.tracker.queue.filter (s.eyeCandidate eye) = l
  cases l with
  | nil => exact Or.inl ⟨rfl, rfl⟩
  | cons a l =>
    obtain ⟨y, hy, k⟩ := nearest_fold (fun b => eyeDistance eye (s.pos b)) l a
    refine Or.inr ?_
    rcases k with ⟨rfl, k⟩ | ⟨lt, i, hi, k, f⟩
    · refine ⟨0, y, hy, rfl, fun b hb => ?_, fun j b hj => absurd hj (Nat.not_lt_zero _)⟩
      rcases List.mem_cons.1 hb with rfl | hb
      · exact Nat.le_refl _
      · exact k b hb
    · refine ⟨i + 1, y, hy, hi, fun b hb => ?_, fun j b hj hb => ?_⟩
      · rcases List.mem_cons.1 hb with rfl | hb
        · exact Nat.le_of_lt lt
        · exact k b hb
      · cases j with
        | zero => cases hb; exact lt
        | succ j => exact f j b (Nat.lt_of_succ_lt_succ hj) hb

theorem chooseAtEye_none (s : State) (eye : Nat) :
    s.chooseAtEye eye = none ↔ ∀ x ∈ s.tracker.queue, s.eyeCandidate eye x = false := by
  constructor
  · intro h x hx
    rcases chooseAtEye_spec s eye with ⟨e, _⟩ | ⟨_, y, hy, _⟩
    · exact Bool.eq_false_iff.2 (List.filter_eq_nil_iff.1 e x hx)
    · rw [h] at hy; cases hy
  · intro h
    exact chooseAtEye_nil (List.filter_eq_nil_iff.2 (fun x hx => Bool.eq_false_iff.1 (h x hx)))

/-! ## HAND merges (R13) -/

theorem mergePairs_cons (m : Mark) (rest : List Mark) (x : LineRecord) : mergePairs (m :: rest) x = mergePairs rest
    (if m ∈ x.marks then x else if x.marks.length < 4 then { x with marks := x.marks ++ [m] } else { x with markOverflow := true }) := by
  unfold mergePairs
  rw [List.foldl_cons]
  unfold addPair
  simp only [List.contains_iff_mem]

/-! ## Period starts (R53, R55..R57, R60, R63, R71, R77, R84) -/

theorem clampNat_eq (x : Int) : clampNat 256 x = (max 0 (min 256 x)).toNat := by
  unfold clampNat
  split
  · omega
  · split <;> omega

theorem frozen_iff (e : Int) (c : Channel) : frozen e c = true ↔
    c.regulated = true ∧ (c.grant < c.demand ∨ (c.demand = 256 ∧ 0 < e) ∨ (c.demand = 0 ∧ e < 0)) := by
  unfold frozen
  simp only [Bool.and_eq_true, Bool.or_eq_true, decide_eq_true_eq, beq_iff_eq, or_assoc]

theorem regulate_open {s : State} {n : Nat} (c : Channel) (h : s.channelOpen n = true) :
    regulate s n c = ⟨some (s.setpointOf n), 0, 0, 0, false, c.pulse, c.runOn⟩ := if_pos h

theorem regulate_service {s : State} {n : Nat} (c : Channel) (h : s.channelOpen n = false) (m : s.control.mode = .service) :
    regulate s n c =
      ⟨some (s.setpointOf n), if s.line n = true ∧ s.stopped = false then 256 else 0, c.grant, c.integral, false, c.pulse, c.runOn⟩ := by
  unfold regulate State.forcedDemand
  simp only [h, m, if_true, Bool.not_false, Bool.and_true, Bool.and_eq_true, Bool.not_eq_true', Bool.false_eq_true, if_false]

theorem regulate_regulated {s : State} {n i : Nat} {e : Int} (c : Channel) (h : s.channelOpen n = false)
    (m : s.control.mode ≠ .service) (he : e = s.setpointOf n - (s.quantity n).value)
    (hi : i = (if c.regulated = true ∧ (c.grant < c.demand ∨ (c.demand = 256 ∧ 0 < e) ∨ (c.demand = 0 ∧ e < 0)) then c.integral
      else (max 0 (min 256 ((c.integral : Int) + Int.tdiv ((s.channelConfig n).ki * e) 256))).toNat)) :
    regulate s n c = ⟨some (s.setpointOf n), (max 0 (min 256 (Int.tdiv ((s.channelConfig n).kp * e) 16 + i))).toNat, c.grant, i,
      true, c.pulse, c.runOn⟩ := by
  subst he hi
  unfold regulate nextIntegral demandOf
  simp only [h, m, if_false, Bool.false_eq_true, frozen_iff, clampNat_eq]

/-- Two tests, one inside the other, with the same other case. -/
theorem nested_if {α : Type} {p q : Prop} [Decidable p] [Decidable q] (a b : α) :
    (if p then if q then a else b else b) = if p ∧ q then a else b := by
  by_cases hp : p <;> by_cases hq : q <;> simp [hp, hq]

theorem queueNeed_eq (s : State) : queueNeed s =
    if s.shares.state = .seated ∧ 0 < s.heater.shortfall ∧ s.shares.needTimer.isRunning = false ∧
        s.hasFrame (TxFrame.isKind 4) = false ∧ s.shares.held < s.cfg.cap ∧ s.admits 2 = true then
      s.withTx (s.bus.queue ++ [newFrame 2 0 .need])
    else s := by
  have hn : (1 ≤ s.needAmount) ↔ (0 < s.heater.shortfall ∧ s.shares.held < s.cfg.cap) := by
    unfold State.needAmount
    omega
  unfold queueNeed queueOrDrop State.seated State.needOutstanding State.push
  simp only [Bool.and_eq_true, Bool.not_eq_true', decide_eq_true_eq, beq_iff_eq, hn]
  rw [nested_if]
  exact ite_congr (propext ⟨fun ⟨⟨⟨⟨⟨a, b⟩, c⟩, d⟩, _, e⟩, f⟩ => ⟨a, b, c, d, e, f⟩,
    fun ⟨a, b, c, d, e, f⟩ => ⟨⟨⟨⟨⟨a, b⟩, c⟩, d⟩, b, e⟩, f⟩⟩) (fun _ => rfl) (fun _ => rfl)

theorem queueReturn_cons {s : State} {r : Loan} {rest : List Loan} (h : s.shares.borrowed = r :: rest) : queueReturn s =
    if s.shares.state = .seated ∧ s.heater.cost + s.cfg.lendMargin + s.cfg.returnHysteresis < s.shares.held ∧
        s.hasFrame (TxFrame.isKind 6) = false ∧ s.admits 2 = true then
      s.withTx (s.bus.queue ++ [newFrame 2 r.peer .returnShares])
    else s := by
  have hx : ((s.cfg.returnHysteresis : Int) < s.excess) ↔
      s.heater.cost + s.cfg.lendMargin + s.cfg.returnHysteresis < s.shares.held := by
    unfold State.excess
    omega
  unfold queueReturn queueOrDrop State.seated State.push
  simp only [h, Bool.and_eq_true, Bool.not_eq_true', decide_eq_true_eq, beq_iff_eq, hx]
  rw [nested_if]
  exact ite_congr (propext ⟨fun ⟨⟨⟨a, b⟩, c⟩, d⟩ => ⟨a, b, c, d⟩, fun ⟨a, b, c, d⟩ => ⟨⟨⟨a, b⟩, c⟩, d⟩⟩) (fun _ => rfl)
    (fun _ => rfl)

/-! ## The extraction request (R125, R128, R129) -/

theorem heatCause_iff (s : State) : s.heatCause = true ↔ ∃ c ∈ s.heater.channels, ∃ v ∈ c.setpoint, s.cfg.heatThreshold ≤ v := by
  unfold State.heatCause
  rw [List.any_eq_true]
  refine exists_congr (fun c => and_congr_right (fun _ => ?_))
  cases c.setpoint with
  | none => exact ⟨fun h => Bool.noConfusion h, fun ⟨_, h, _⟩ => nomatch h⟩
  | some v => exact ⟨fun h => ⟨v, rfl, of_decide_eq_true h⟩, fun ⟨_, h, k⟩ => by cases h; exact decide_eq_true k⟩

theorem extractionCause_iff (s : State) : s.extractionCause = true ↔
    s.joined = true ∧ (s.control.mode ≠ .idle ∨ ∃ c ∈ s.heater.channels, ∃ v ∈ c.setpoint, s.cfg.heatThreshold ≤ v) := by
  unfold State.extractionCause
  rw [Bool.and_eq_true, Bool.or_eq_true, heatCause_iff, bne_iff_ne]

/-- A test of the causes, told by the cause, the request and the run-on timer. -/
theorem testRequest_cause {s : State} (h : s.extractionCause = true) : testRequest s =
    if s.extraction.request then { s with extraction := { s.extraction with runOn := .stopped } } else requestOn s := if_pos h

theorem testRequest_none {s : State} (h : s.extractionCause = false)
    (k : s.extraction.request = false ∨ s.extraction.runOn.isRunning = true) : testRequest s = s := by
  unfold testRequest
  rw [h]
  rcases k with k | k <;> simp [k]

theorem testRequest_ends {s : State} (h : s.extractionCause = false) (r : s.extraction.request = true)
    (k : s.extraction.runOn.isRunning = false) : testRequest s =
    if s.cfg.runOnTime = 0 then requestOff s
    else { s with extraction := { s.extraction with runOn := .running (s.cfg.runOnTime * 1000) } } := by
  unfold testRequest
  rw [h]
  simp [r, k]

/-! ## A station joins (R136) -/

theorem reannounce_waiting {i : Nat} {s : State} (h : s.hasWaiting (TxFrame.isAlarmOf i) = true) : reannounce i s = s := if_pos h

theorem reannounce_queued {i : Nat} {s : State} (h : s.hasWaiting (TxFrame.isAlarmOf i) = false)
    (k : s.admits (s.alarmClass i) = true) : reannounce i s =
      updateRecord i (fun r => { r with announced := true, sentClass := s.alarmClass i, sentGroup := s.alarmGroup i })
        (s.push (s.alarmFrame i)) := by
  unfold reannounce announce
  simp only [h, k, if_true, Bool.false_eq_true, if_false]

theorem reannounce_owed {i : Nat} {s : State} (h : s.hasWaiting (TxFrame.isAlarmOf i) = false)
    (k : s.admits (s.alarmClass i) = false) : reannounce i s = updateRecord i (fun r => { r with announceOwed := true }) s := by
  unfold reannounce announce
  simp only [h, k, Bool.false_eq_true, if_false]

/-! ## The derived condition (R144) -/

theorem anyStands_iff (s : State) (a : Action) : s.anyStands a = true ↔ ∃ i, i < 29 ∧ s.stands i = true ∧ s.alarmAction i = a := by
  unfold State.anyStands
  simp only [List.any_eq_true, List.mem_range, Bool.and_eq_true, beq_iff_eq]

theorem groupInForce_iff (s : State) (g : Nat) : s.groupInForce g = true ↔ ∃ a ∈ s.groups.activity, a.group = g := by
  unfold State.groupInForce
  simp only [List.any_eq_true, beq_iff_eq]

theorem derivedCondition_tripped {s : State} (j : s.joined = true) (h : s.anyStands .trip = true) : s.derivedCondition = .tripped := by
  unfold State.derivedCondition
  simp [j, h]

theorem derivedCondition_lineStop {s : State} (j : s.joined = true) (h : s.anyStands .trip = false)
    (l : s.control.tripSensed = true) : s.derivedCondition = .lineStop := by
  unfold State.derivedCondition
  simp [j, h, l]

theorem derivedCondition_sensedInactive {s : State} (j : s.joined = true) (h : s.anyStands .trip = false)
    (l : s.control.tripSensed = false) :
    s.derivedCondition = if s.anyStands .hold || s.holdConveyor then .hold else .normal := by
  unfold State.derivedCondition
  simp [j, h, l]

theorem holdConveyor_iff (s : State) : s.holdConveyor = true ↔ ∃ g, 1 ≤ g ∧ g ≤ 8 ∧ (∃ a ∈ s.groups.activity, a.group = g) ∧
    ((s.group g).actions = 0 ∨ bitOf (s.group g).actions.toNat 3 = true) := by
  have hm : ∀ g, g ∈ groupNumbers ↔ 1 ≤ g ∧ g ≤ 8 := by
    intro g
    unfold groupNumbers
    simp only [List.mem_cons, List.not_mem_nil, or_false]
    omega
  have ha : ∀ g, bitOf (s.groupActions g) 3 = true ↔ (s.group g).actions = 0 ∨ bitOf (s.group g).actions.toNat 3 = true := by
    intro g
    unfold State.groupActions
    by_cases h : (s.group g).actions.toNat = 0
    · rw [if_pos h]
      exact ⟨fun _ => Or.inl (BitVec.eq_of_toNat_eq h), fun _ => by decide⟩
    · rw [if_neg h]
      exact ⟨Or.inr, fun k => k.resolve_left (fun e => h (by rw [e]; rfl))⟩
  unfold State.holdConveyor State.inForce
  simp only [List.any_eq_true, Bool.and_eq_true, groupInForce_iff, ha, hm, and_assoc]

end Sys2Proof.Machine
end

