-- ==== Sys2Proof/Laws/Cascade.lean ====
section
/-! SUPPORT. What follows an event at once in other blocks, each operation said once and case by case, in the words of the manual's
rules: `settle` and `recondition` with all they call, an alarm's entry and its return, and a change of the held shares. -/

namespace Sys2Proof.Machine

open Sys2Proof

/-! ## HAND_LATE and the permit line (R11, R18, R146) -/

theorem settle_eq (s : State) : settle s = sensePermit (sensePermit (potUpdate (sprayUpdate (handLate s)))) := rfl

theorem late_iff (s : State) (b : Board) :
    s.late b = true ↔ b.handed = none ∧ ∃ w, s.neighbourStart = some w ∧ w ≤ s.pos b := by
  unfold State.late
  cases s.neighbourStart <;> simp

theorem handLate_held {s : State} {b : Board} {w : Nat} (hb : b ∈ s.tracker.queue) (hh : b.handed = none)
    (hn : s.neighbourStart = some w) (hw : w ≤ s.pos b) : handLate s = raiseHeld 16 (s.tracker.neighbour.getD 0) s :=
  if_pos (List.any_eq_true.2 ⟨b, hb, (late_iff s b).2 ⟨hh, w, hn, hw⟩⟩)

theorem handLate_released {s : State}
    (h : ∀ b ∈ s.tracker.queue, ∀ w, b.handed = none → s.neighbourStart = some w → s.pos b < w) :
    handLate s = releaseHeld 16 s :=
  if_neg (fun k => by
    obtain ⟨b, hb, hl⟩ := List.any_eq_true.1 k
    obtain ⟨hh, w, hn, hw⟩ := (late_iff s b).1 hl
    exact Nat.not_lt_of_le hw (h b hb w hh hn))

theorem permitLevel_iff (s : State) : s.permitLevel = true ↔ s.joined = true ∧ s.control.mode = .run ∧
    s.control.condition = .normal ∧ s.control.permitOthers = false := by
  unfold State.permitLevel State.permitAsserted
  simp only [Bool.and_eq_true, Bool.not_eq_true', beq_iff_eq, and_assoc]

theorem sensePermit_same {s : State} (h : s.permitLevel = s.control.permitSensed) : sensePermit s = s := if_pos h

theorem sensePermit_active {s : State} (h : s.permitLevel = true) (k : s.control.permitSensed = false) :
    sensePermit s = { s with
      control := { s.control with permitSensed := true }
      tracker := { s.tracker with stall := if s.cfg.stallTime = 0 then .stopped else .running s.cfg.stallTime } } := by
  unfold sensePermit
  rw [h, k]
  rfl

theorem sensePermit_inactive {s : State} (h : s.permitLevel = false) (k : s.control.permitSensed = true) :
    sensePermit s = releaseHeld 19 { s with
      control := { s.control with permitSensed := false }
      tracker := { s.tracker with stall := .stopped } } := by
  unfold sensePermit
  rw [h, k]
  rfl

/-! ## The trip line, the condition and its marks (R144, R145, R147, R148) -/

theorem recondition_same {s u : State} (hu : u = senseTrip s) (h : u.derivedCondition = u.control.condition) :
    recondition s = potUpdate (sprayUpdate u) := by
  subst hu
  exact if_pos h

theorem recondition_changed {s u : State} (hu : u = senseTrip s) (h : u.derivedCondition ≠ u.control.condition) :
    recondition s = queueStatus (conditionMarks u.derivedCondition (potUpdate (forcedFalls (sprayUpdate
      { u with control := { u.control with condition := u.derivedCondition } })))) := by
  subst hu
  exact if_neg h

theorem queueStatus_eq (s : State) : queueStatus s =
    if s.joined = true ∧ s.hasFrame (TxFrame.isKind 3) = false ∧ s.admits 0 = true then
      s.withTx (s.bus.queue ++ [newFrame 0 0 .status]) else s := by
  unfold queueStatus queueOrDrop
  cases s.joined
  · exact (if_neg (fun h => Bool.noConfusion h.1)).symm
  · cases s.hasFrame (TxFrame.isKind 3)
    · exact (if_neg (fun h => Bool.noConfusion h)).trans
        (ite_congr (propext ⟨fun h => ⟨rfl, rfl, h⟩, fun h => h.2.2⟩) (fun _ => rfl) (fun _ => rfl))
    · exact (if_neg (fun h => Bool.noConfusion h.2.1)).symm

theorem tripLevel_iff (s : State) : s.tripLevel = true ↔
    (s.joined = true ∧ ∃ i, i < 29 ∧ s.stands i = true ∧ s.alarmAction i = .trip) ∨ s.control.tripOthers = true := by
  unfold State.tripLevel State.tripPull
  rw [Bool.or_eq_true, Bool.and_eq_true, anyStands_iff]

theorem senseTrip_same {s : State} (h : s.tripLevel = s.control.tripSensed) : senseTrip s = s := if_pos h

theorem senseTrip_offline {s : State} (h : s.tripLevel ≠ s.control.tripSensed) (j : s.joined = false) :
    senseTrip s = { s with control := { s.control with tripSensed := s.tripLevel } } := by
  unfold senseTrip
  rw [if_neg h, j]
  rfl

theorem senseTrip_active {s : State} (h : s.tripLevel = true) (k : s.control.tripSensed = false) (j : s.joined = true) :
    senseTrip s = { s with control := { s.control with
      tripSensed := true
      lineState := if s.control.lineState = .armed then .opened else s.control.lineState
      lineValue := if s.control.lineState = .armed then none else s.control.lineValue } } := by
  unfold senseTrip lineSensed
  rw [h, k, j]
  by_cases ha : s.control.lineState = .armed <;> simp [ha]

theorem senseTrip_inactive {s : State} (h : s.tripLevel = false) (k : s.control.tripSensed = true) (j : s.joined = true) :
    senseTrip s = { s with control := { s.control with tripSensed := false, lineState := .armed } } := by
  unfold senseTrip lineSensed
  rw [h, k, j]
  rfl

theorem spans_iff (s : State) (at' : Nat) (b : Board) : s.spans at' b = true ↔ at' ≤ s.pos b ∧ s.pos b ≤ at' + b.line.length := by
  unfold State.spans
  rw [Bool.and_eq_true, decide_eq_true_eq, decide_eq_true_eq]

theorem conditionMarks_stop {c : Condition} (h : c = .tripped ∨ c = .lineStop) (s : State) :
    conditionMarks c s = markBoards (fun _ => true) 11 s := by
  rcases h with rfl | rfl <;> rfl

theorem conditionMarks_hold {s u : State}
    (hu : u = (if s.cfg.roles.pot = true then markBoards (s.spans s.cfg.wavePos) 12 s else s)) :
    conditionMarks .hold s = if s.cfg.roles.flux = true then markBoards (s.spans s.cfg.sprayPos) 12 u else u := by
  have m : Moves s u := by rw [hu]; exact Moves.ite _ (moves_markBoards _ _ s) (Moves.refl s)
  have hs : u.spans = s.spans := m.read State.spans (fun _ => rfl)
  have e : conditionMarks .hold s = if u.cfg.roles.flux = true then markBoards (u.spans u.cfg.sprayPos) 12 u else u := by
    rw [hu]
    rfl
  rw [e, hs, m.cfg]

theorem inForce_iff (s : State) {k : Nat} (h : k < 3) : s.inForce k = true ↔
    ∃ g, 1 ≤ g ∧ g ≤ 8 ∧ (∃ a ∈ s.groups.activity, a.group = g) ∧ bitOf (s.group g).actions.toNat k = true := by
  have hm : ∀ g, g ∈ groupNumbers ↔ 1 ≤ g ∧ g ≤ 8 := by
    intro g
    unfold groupNumbers
    simp only [List.mem_cons, List.not_mem_nil, or_false]
    omega
  have ha : ∀ g, bitOf (s.groupActions g) k = bitOf (s.group g).actions.toNat k := by
    intro g
    unfold State.groupActions
    by_cases z : (s.group g).actions.toNat = 0
    · rw [if_pos z, z]
      match k, h with
      | 0, _ | 1, _ | 2, _ => decide
    · rw [if_neg z]
  unfold State.inForce
  simp only [List.any_eq_true, Bool.and_eq_true, groupInForce_iff, ha, hm, and_assoc]

/-! ## Nozzles (R44, R45, R46, R49) -/

theorem stationInhibit_iff (s : State) : s.stationInhibit = true ↔
    s.control.mode ≠ .run ∨ s.stopped = true ∨ s.inhibitSpray = true ∨ s.proven 0 = false := by
  unfold State.stationInhibit
  simp only [Bool.or_eq_true, Bool.not_eq_true', bne_iff_ne, or_assoc]

theorem sprayUpdate_eq {s u v : State}
    (hu : u = (if s.control.mode ≠ .run ∨ s.stopped = true ∨ s.inhibitSpray = true ∨ s.proven 0 = false then truncateShots s else s))
    (hv : v = serviceShots u) : sprayUpdate s = u.boardIds.foldl (fun s id => flowCheck id s) v := by
  have e : u = (if s.stationInhibit = true then truncateShots s else s) := by
    rw [hu]
    exact ite_congr (propext (stationInhibit_iff s).symm) (fun _ => rfl) (fun _ => rfl)
  subst hv
  rw [e]
  rfl

theorem truncateShots_eq {s : State} {owners : List Nat}
    (h : owners = (s.spray.oneShots.filterMap (fun o => match o with
      | some (.board id) => some id
      | _ => none)).eraseDups) :
    truncateShots s = owners.foldl (fun s id => markNotFluxed id (updateBoard id
        (fun b => { b with flowLag := if s.cfg.flowLag = 0 then .expired else .running s.cfg.flowLag }) s))
      (s.withShots (s.spray.oneShots.map (fun o => match o with
        | some (.board _) | some (.released _) => none
        | o => o))) := by
  subst h
  rfl

theorem markNotFluxed_none {s : State} {id : Nat} (h : s.board id = none) : markNotFluxed id s = s := by
  unfold markNotFluxed
  rw [h]

theorem markNotFluxed_eq {s : State} {id : Nat} {b : Board} (h : s.board id = some b) : markNotFluxed id s =
    if b.notFluxed = true then s else updateBoard id (fun b => { b with notFluxed := true }) (addMark id 1 s) := by
  unfold markNotFluxed
  rw [h]

theorem serviceOpens_iff (s : State) (n : Nat) : s.serviceOpens n = true ↔ s.control.mode = .service ∧ s.joined = true ∧
    s.stopped = false ∧ s.inhibitSpray = false ∧ s.proven 0 = true ∧ s.cfg.roles.flux = true ∧ n < s.cfg.nozzleCount ∧
    s.control.service.getLsbD (8 + n) = true := by
  have hn : n < s.nozzles ↔ s.cfg.roles.flux = true ∧ n < s.cfg.nozzleCount := by
    unfold State.nozzles
    by_cases h : s.cfg.roles.flux = true <;> simp [h]
  unfold State.serviceOpens State.valvesShut State.line
  simp only [Bool.and_eq_true, Bool.not_eq_true', Bool.or_eq_false_iff, decide_eq_true_eq, beq_iff_eq, hn, and_assoc,
    Bool.not_eq_false']

theorem serviceShots_eq (s : State) : serviceShots s = s.withShots (s.spray.oneShots.mapIdx (fun n o => match o with
    | some (.board id) => some (.board id)
    | some (.released id) => some (.released id)
    | _ => if s.serviceOpens n = true then some .service else none)) := rfl

theorem oneShots_addMark (id code : Nat) (s : State) : (addMark id code s).spray.oneShots = s.spray.oneShots := by
  unfold addMark queueOrDrop
  (repeat' split) <;> rfl

theorem oneShots_foldl {α : Type} {f : State → α → State} (h : ∀ s a, (f s a).spray.oneShots = s.spray.oneShots) (l : List α)
    (s : State) : (l.foldl f s).spray.oneShots = s.spray.oneShots := by
  induction l generalizing s with
  | nil => rfl
  | cons a l ih => exact (ih _).trans (h s a)

theorem oneShots_flowCheck (id : Nat) (s : State) : (flowCheck id s).spray.oneShots = s.spray.oneShots := by
  have hd : ∀ u : State, (dropCounting id u).spray.oneShots = u.spray.oneShots := fun u => by
    unfold dropCounting
    split <;> rfl
  unfold flowCheck
  split
  · rfl
  · split
    · exact (oneShots_foldl (fun s c => oneShots_addMark id c s) _ _).trans (hd _)
    · rfl

theorem oneShots_markNotFluxed (id : Nat) (s : State) : (markNotFluxed id s).spray.oneShots = s.spray.oneShots := by
  unfold markNotFluxed
  split
  · rfl
  · split
    · rfl
    · exact oneShots_addMark id 1 s

/-- The one-shots as the inhibits leave them: those of boards close while a station inhibit holds (R45). -/
theorem oneShots_truncateShots (s : State) : (truncateShots s).spray.oneShots = s.spray.oneShots.map (fun o => match o with
    | some (.board _) | some (.released _) => none
    | o => o) :=
  oneShots_foldl (f := fun s id => markNotFluxed id (restartLag id s)) (fun s id => oneShots_markNotFluxed id (restartLag id s)) _ _

/-- No valve is open after the nozzles have followed a condition of R46. -/
theorem nozzlesShut {s : State} (h : s.stopped = true ∨ s.inhibitSpray = true ∨ s.proven 0 = false) (n : Nat) :
    (sprayUpdate s).nozzleValve n = false := by
  have hi : s.stationInhibit = true := (stationInhibit_iff s).2 (Or.inr h)
  have e : (sprayUpdate s).spray.oneShots = (serviceShots (truncateShots s)).spray.oneShots := by
    unfold sprayUpdate
    rw [if_pos hi]
    exact oneShots_foldl (fun s id => oneShots_flowCheck id s) _ _
  have m := moves_truncateShots s
  have hs : (truncateShots s).serviceOpens n = false := by
    rw [Bool.eq_false_iff, ne_eq, serviceOpens_iff]
    rintro ⟨_, _, a, b, c, _⟩
    obtain ⟨_, _, hc, _, _, _, hf⟩ := derives_of_causes (causes_of_calm (calm_truncateShots s))
    have ea : (truncateShots s).stopped = s.stopped := by unfold State.stopped; rw [hc]
    have eb : (truncateShots s).inhibitSpray = s.inhibitSpray := hf 0
    have ec : (truncateShots s).proven 0 = s.proven 0 := m.read (fun x => x.proven 0) (fun _ => rfl)
    rw [ea] at a
    rw [eb] at b
    rw [ec] at c
    rcases h with h | h | h
    · rw [h] at a; cases a
    · rw [h] at b; cases b
    · rw [h] at c; cases c
  unfold State.nozzleValve State.oneShot
  rw [e, serviceShots_eq, show (∀ l, ((truncateShots s).withShots l).spray.oneShots = l) from fun _ => rfl,
    oneShots_truncateShots, List.getD_eq_getElem?_getD, List.getElem?_mapIdx, List.getElem?_map]
  cases s.spray.oneShots[n]? with
  | none => rfl
  | some o =>
    match o with
    | none | some .service | some (.board _) | some (.released _) => simp [hs]

/-! ## Pumps and feeder (R36, R88, R89, R90, R93, R94, R99) -/

theorem potUpdate_eq {s u v : State}
    (hu : u = setMain (nextPump s.lockCondition s.raiseAllowed s.pot.mainRequest s.cfg.settleTime s.pot.main) s)
    (hv : v = setChip (nextPump s.lockCondition s.raiseAllowed s.pot.chipRequest s.cfg.settleTime s.pot.chip) u) :
    potUpdate s = feederUpdate v := by
  subst hu hv
  rfl

theorem setMain_eq {p : Pump} {s u : State} (hu : u = { s with pot := { s.pot with main := p } }) : setMain p s =
    if s.pot.main.state = .up ∧ p.state ≠ .up then markBoards (s.spans s.cfg.wavePos) 6 u else u := by
  subst hu
  rfl

theorem setChip_eq {p : Pump} {s u : State} (hu : u = { s with pot := { s.pot with chip := p } }) : setChip p s =
    if s.pot.chip.state = .up ∧ p.state ≠ .up then markBoards (s.spans s.cfg.wavePos) 6 u else u := by
  subst hu
  rfl

theorem nextPump_lowers {allowed : Bool} {request : Option Nat} (h : request = none ∨ allowed = false) (settle : Nat) (p : Pump) :
    nextPump false allowed request settle p = ⟨if p.speed = 0 then .down else .lowering, p.speed, request.getD 0, .stopped⟩ := by
  unfold nextPump lowering
  rcases h with h | h
  · subst h
    cases p.state <;> rfl
  · subst h
    cases p.state <;> cases request <;> rfl

theorem nextPump_keeps {t settle : Nat} {p : Pump} (h : p.state = .raising ∨ p.state = .up) (k : p.target = t) :
    nextPump false true (some t) settle p = p := by
  unfold nextPump
  rcases h with h | h <;> simp [h, k]

theorem nextPump_raises {t settle : Nat} {p : Pump} (h : (p.state ≠ .raising ∧ p.state ≠ .up) ∨ p.target ≠ t) :
    nextPump false true (some t) settle p = if p.speed ≠ t then ⟨.raising, p.speed, t, .stopped⟩
      else if settle = 0 then ⟨.up, p.speed, t, .stopped⟩ else ⟨.raising, p.speed, t, .running settle⟩ := by
  rw [← raising_eq]
  unfold nextPump
  cases hp : p.state <;> simp [hp] at h ⊢ <;> simp [h]

theorem lockCondition_iff (s : State) : s.lockCondition = true ↔ s.joined = false ∨ s.cfg.roles.pot = false ∨ s.stopped = true ∨
    (s.quantity s.cfg.refChannel).value < s.cfg.meltSafe ∨ s.channelOpen s.cfg.refChannel = true ∨ s.stands 23 = true ∨
    s.control.mode = .idle := by
  unfold State.lockCondition
  simp only [Bool.or_eq_true, Bool.not_eq_true', decide_eq_true_eq, beq_iff_eq, or_assoc]

theorem raiseAllowed_iff (s : State) : s.raiseAllowed = true ↔ s.control.condition ≠ .hold ∧ s.lowerWave = false := by
  unfold State.raiseAllowed
  rw [Bool.and_eq_true, bne_iff_ne, Bool.not_eq_true']

theorem inContactZone_iff (s : State) (b : Board) : s.inContactZone b = true ↔
    s.cfg.wavePos - s.cfg.raiseLead ≤ s.pos b ∧ s.pos b ≤ s.cfg.wavePos + s.cfg.lowerLag + b.line.length := by
  unfold State.inContactZone
  rw [Bool.and_eq_true, decide_eq_true_eq, decide_eq_true_eq]

/-- The record requests a pump whose wave flag `flagOf` reads (R89). -/
theorem requestSlot_none {s : State} {flagOf : RecipeBody → Bool} (h : ∀ b ∈ s.tracker.queue,
    ¬(s.inContactZone b = true ∧ ∃ sl ∈ s.slotOf b, flagOf sl.body = true)) : s.requestSlot flagOf = none := by
  unfold State.requestSlot
  rw [List.findSome?_eq_none_iff]
  intro b hb
  by_cases hz : s.inContactZone b = true
  · rw [if_pos hz]
    cases hs : s.slotOf b with
    | none => rfl
    | some sl =>
      exact if_neg (fun hf => h b hb ⟨hz, sl, hs, hf⟩)
  · exact if_neg hz

theorem requestSlot_first {s : State} {flagOf : RecipeBody → Bool} {i : Nat} {b : Board} {sl : Slot}
    (hb : s.tracker.queue[i]? = some b) (hz : s.inContactZone b = true) (hs : s.slotOf b = some sl) (hf : flagOf sl.body = true)
    (first : ∀ (j : Nat) (x : Board), j < i → s.tracker.queue[j]? = some x →
      ¬(s.inContactZone x = true ∧ ∃ y ∈ s.slotOf x, flagOf y.body = true)) :
    s.requestSlot flagOf = some sl.body := by
  unfold State.requestSlot
  generalize s.tracker.queue = q at hb first
  induction q generalizing i with
  | nil => simp at hb
  | cons a q ih =>
    cases i with
    | zero =>
      cases hb
      rw [List.findSome?_cons]
      simp [hz, hs, hf]
    | succ i =>
      have h0 : (if s.inContactZone a then (s.slotOf a).bind (fun sl => if flagOf sl.body then some sl.body else none)
          else none) = none := by
        have k := first 0 a (Nat.succ_pos i) rfl
        by_cases za : s.inContactZone a = true
        · rw [if_pos za]
          cases ha : s.slotOf a with
          | none => rfl
          | some y => exact if_neg (fun hy => k ⟨za, y, ha, hy⟩)
        · exact if_neg za
      rw [List.findSome?_cons, h0]
      exact ih hb (fun j x hj hx => first (j + 1) x (Nat.succ_lt_succ hj) hx)

theorem feederAllowed_iff (s : State) : s.feederAllowed = true ↔ s.joined = true ∧ s.cfg.roles.pot = true ∧
    s.control.mode ≠ .idle ∧ s.control.condition ≠ .tripped ∧ s.alarmState 22 = .quiet := by
  unfold State.feederAllowed
  simp only [Bool.and_eq_true, bne_iff_ne, beq_iff_eq, and_assoc, ne_eq]

theorem feederForced_iff (s : State) :
    s.feederForced = true ↔ s.control.mode = .service ∧ s.control.service.getLsbD 18 = true := by
  unfold State.feederForced State.line
  rw [Bool.and_eq_true, beq_iff_eq]

theorem feederUpdate_starts {s : State} (f : s.pot.feeding = false) (a : s.feederAllowed = true)
    (h : (s.pot.established = true ∧ s.pot.level < s.cfg.feedOn) ∨ s.feederForced = true) : feederUpdate s = { s with pot :=
      { s.pot with feeding := true, feedTimer := if s.cfg.feedLimit = 0 then .stopped else .running (s.cfg.feedLimit * 1000) } } := by
  have k : s.feederStarts = true := by
    unfold State.feederStarts
    simpa [a] using h
  unfold feederUpdate
  rw [f, k]
  rfl

theorem feederUpdate_off {s : State} (f : s.pot.feeding = false)
    (h : s.feederAllowed = false ∨ ((s.pot.established = false ∨ s.cfg.feedOn ≤ s.pot.level) ∧ s.feederForced = false)) :
    feederUpdate s = s := by
  have k : s.feederStarts = false := by
    unfold State.feederStarts
    rcases h with h | ⟨h | h, e⟩
    · simp [h]
    · simp [h, e]
    · simp [h, e]
  unfold feederUpdate
  rw [f, k]
  rfl

theorem feederUpdate_stops {s : State} (f : s.pot.feeding = true)
    (h : s.feederAllowed = false ∨ (s.pot.established = true ∧ s.cfg.feedOff ≤ s.pot.level ∧ s.feederForced = false)) :
    feederUpdate s = { s with pot := { s.pot with feeding := false, feedTimer := .stopped } } := by
  have k : s.feederStops = true := by
    unfold State.feederStops
    rcases h with h | ⟨e, l, o⟩
    · simp [h]
    · simp [e, l, o]
  unfold feederUpdate
  rw [f, k]
  rfl

theorem feederUpdate_runs {s : State} (f : s.pot.feeding = true) (a : s.feederAllowed = true)
    (h : s.pot.established = false ∨ s.pot.level < s.cfg.feedOff ∨ s.feederForced = true) : feederUpdate s = s := by
  have k : s.feederStops = false := by
    unfold State.feederStops
    rcases h with h | h | h
    · simp [a, h]
    · simp [a, Int.not_le.2 h]
    · simp [a, h]
  unfold feederUpdate
  rw [f, k]
  rfl

end Sys2Proof.Machine
end

