-- ==== Sys2Proof/Laws/Effects.lean ====
section
/-! SUPPORT. What a change of the held shares, a forced demand, an alarm's entry and its return, a release and a join make of the
state, each said once, in the words of the manual's rules; and what a commit hands to the effects of its kind. -/

namespace Sys2Proof.Machine

open Sys2Proof

/-! ## Held shares (R58, R59, R61, R67) -/

/-- The demand cost reads the demands alone. -/
theorem demandCost_of_demands {s t : State} (hu : ∀ n, t.inUse n = s.inUse n)
    (hc : ∀ n, t.channelConfig n = s.channelConfig n) (hd : ∀ n, s.inUse n = true → (t.channel n).demand = (s.channel n).demand) :
    t.demandCost = s.demandCost := by
  unfold State.demandCost
  refine congrArg List.sum (List.map_congr_left (fun n _ => ?_))
  rw [hu n, hc n]
  by_cases h : s.inUse n = true
  · rw [if_pos h, if_pos h, hd n h]
  · rw [if_neg h, if_neg h]

/-- Channels in use that keep their demand leave the demand cost. -/
theorem demandCost_mapInUse {f : Nat → Channel → Channel} (h : ∀ n c, (f n c).demand = c.demand) (s : State) :
    (mapInUse f s).demandCost = s.demandCost := by
  refine demandCost_of_demands (fun _ => rfl) (fun _ => rfl) (fun n hn => ?_)
  rw [channel_mapInUse f s n hn]
  by_cases k : n < s.heater.channels.length
  · rw [if_pos k, h]
  · rw [if_neg k]
    unfold State.channel
    rw [List.getD_eq_getElem?_getD, List.getElem?_eq_none (Nat.le_of_not_lt k)]
    rfl

/-- A change of the held shares (R59, R61, R62, R67): at a fall every grant is held to the allocation from the new H, with the
pulses; demand cost and shortfall follow. -/
theorem setHeld_eq {h : Nat} {s u : State} (hu : u = { s with shares := { s.shares with held := h } }) :
    setHeld h s = { u with heater := { s.heater with
      channels := if h < s.shares.held then s.heater.channels.mapIdx (fun n c => if s.inUse n = true then
          { c with
            grant := min c.grant (u.allotted n)
            pulse := cutPulse (min 255 (s.heater.slot - (s.channelConfig n).phase)) c.pulse (min c.grant (u.allotted n))
            runOn := cutPulse (256 + s.heater.slot - (s.channelConfig n).phase) c.runOn (min c.grant (u.allotted n)) }
        else c) else s.heater.channels
      cost := s.demandCost
      shortfall := s.demandCost - h } } := by
  subst hu
  unfold setHeld
  by_cases hlt : h < s.shares.held
  · have k : (reallocate { s with shares := { s.shares with held := h } }).demandCost = s.demandCost :=
      demandCost_mapInUse (f := fun n c => lowerGrant (s.channelConfig n).phase s.heater.slot
        (State.allotted { s with shares := { s.shares with held := h } } n) c) (fun _ _ => rfl)
        { s with shares := { s.shares with held := h } }
    simp only [hlt, if_true]
    unfold recost
    rw [k]
    rfl
  · simp only [hlt, if_false]
    rfl

theorem demandCost_eq (s : State) : s.demandCost = ((List.range 8).map (fun n =>
    if s.inUse n = true then dutyCost (s.channelConfig n).rated (s.channel n).demand else 0)).sum := rfl

theorem meetNeed_eq (m : Nat) (s : State) : meetNeed m s = { s with shares := { s.shares with
    needAmount := if s.shares.needTimer.isRunning then s.shares.needAmount - m else s.shares.needAmount
    needTimer := if s.shares.needTimer.isRunning && decide (s.shares.needAmount ≤ m) then .stopped else s.shares.needTimer } } := by
  unfold meetNeed State.needOutstanding
  cases hr : s.shares.needTimer.isRunning
  · rfl
  · by_cases h : s.shares.needAmount ≤ m
    · simp [h, endNeed]
    · simp [h]

theorem detach_seated {s u : State} (h : s.shares.state = .seated)
    (hu : u = setHeld (s.shares.held - loanSum s.shares.borrowed) { s with shares := { s.shares with
      state := .detached, borrowed := [], needAmount := 0, needTimer := .stopped } }) :
    detach s = u.withTx (u.bus.queue.filter (fun f => f.phase == .onBus || !(f.isKind 4 || f.isKind 6))) := by
  subst hu
  unfold detach
  rw [h]
  rfl

theorem loanGone_eq (n : Nat) (s : State) : loanGone n s =
    if s.shares.state = .seated then setHeld (s.shares.held + loanOf n s.shares.lent) (s.withLent (dropLoan n s.shares.lent)) else s := by
  unfold loanGone State.seated
  exact ite_congr (propext beq_iff_eq) (fun _ => rfl) (fun _ => rfl)

theorem ownJoin_eq {s u : State} (hu : u = setHeld s.cfg.base { s with shares := { s.shares with
      state := .seated, lent := [], borrowed := [], needAmount := 0, needTimer := .stopped } }) :
    ownJoin s = ((List.range 29).filter (fun i => u.stands i && u.needsAnnouncing i)).foldl (fun x i => reannounce i x) u := by
  subst hu
  rfl

/-! ## SERVICE (R63) -/

theorem zeroDemand_eq (p slot : Nat) (c : Channel) : zeroDemand p slot c = { c with
    demand := 0
    grant := 0
    pulse := cutPulse (min 255 (slot - p)) c.pulse 0
    runOn := cutPulse (256 + slot - p) c.runOn 0 } := by
  unfold zeroDemand lowerGrant
  rw [Nat.min_zero]

theorem forcedFalls_none {s : State} (h : s.control.mode ≠ .service) : forcedFalls s = s := if_neg h

/-- A forced demand that must fall falls at once, with grant and pulses (R61, R63). -/
theorem forcedFalls_eq {s u : State} (h : s.control.mode = .service)
    (hu : u = { s with heater := { s.heater with channels := s.heater.channels.mapIdx (fun n c =>
      if s.inUse n = true ∧ (if s.line n = true ∧ s.stopped = false ∧ s.channelOpen n = false then 256 else 0) < c.demand then
        { c with
          demand := 0
          grant := 0
          pulse := cutPulse (min 255 (s.heater.slot - (s.channelConfig n).phase)) c.pulse 0
          runOn := cutPulse (256 + s.heater.slot - (s.channelConfig n).phase) c.runOn 0 }
      else c) } }) :
    forcedFalls s = { u with heater := { u.heater with cost := u.demandCost, shortfall := u.demandCost - s.shares.held } } := by
  have hd : ∀ n, s.forcedDemand n = (if s.line n = true ∧ s.stopped = false ∧ s.channelOpen n = false then 256 else 0) := by
    intro n
    unfold State.forcedDemand
    simp only [Bool.and_eq_true, Bool.not_eq_true', and_assoc]
  have e : u = mapInUse (fun n c =>
      if s.forcedDemand n < c.demand then zeroDemand (s.channelConfig n).phase s.heater.slot c else c) s := by
    rw [hu]
    unfold mapInUse State.withChannels
    refine congrArg (fun l => { s with heater := { s.heater with channels := l } }) ?_
    refine congrArg (fun f => s.heater.channels.mapIdx f) (funext (fun n => funext (fun c => ?_)))
    dsimp only
    rw [hd n, zeroDemand_eq]
    by_cases a : s.inUse n = true
    · rw [if_pos a]
      by_cases b : (if s.line n = true ∧ s.stopped = false ∧ s.channelOpen n = false then 256 else 0) < c.demand
      · rw [if_pos ⟨a, b⟩, if_pos b]
      · rw [if_neg (fun x => b x.2), if_neg b]
    · rw [if_neg (fun x => a x.1), if_neg a]
  unfold forcedFalls
  rw [if_pos h, ← e]
  rw [hu]
  rfl

/-- Every demand falls to 0 where the mode enters or leaves SERVICE, and the next regulation has no freeze case (R63). -/
theorem serviceBoundary_eq {s u : State}
    (hu : u = { s with heater := { s.heater with channels := s.heater.channels.mapIdx (fun n c =>
      if s.inUse n = true then
        { c with
          demand := 0
          grant := 0
          pulse := cutPulse (min 255 (s.heater.slot - (s.channelConfig n).phase)) c.pulse 0
          runOn := cutPulse (256 + s.heater.slot - (s.channelConfig n).phase) c.runOn 0
          regulated := false }
      else c) } }) :
    serviceBoundary s = { u with heater := { u.heater with cost := u.demandCost, shortfall := u.demandCost - s.shares.held } } := by
  have e : u = mapInUse (fun n c => { zeroDemand (s.channelConfig n).phase s.heater.slot c with regulated := false }) s := by
    rw [hu]
    unfold mapInUse State.withChannels
    refine congrArg (fun l => { s with heater := { s.heater with channels := l } }) ?_
    refine congrArg (fun f => s.heater.channels.mapIdx f) (funext (fun n => funext (fun c => ?_)))
    dsimp only
    rw [zeroDemand_eq]
  unfold serviceBoundary
  rw [← e, hu]
  rfl

theorem setMode_eq {m : Mode} {s u v : State}
    (hu : u = sprayUpdate { s with control := { s.control with
      mode := m, service := if s.control.mode = .service then 0 else s.control.service } })
    (hv : v = (if s.control.mode = .service ∨ m = .service then serviceBoundary u else u)) :
    setMode m s = queueStatus (testRequest (potUpdate (workRequests v))) := by
  subst hu hv
  rfl

theorem setService_same (s : State) : setService s.control.service s = s := if_pos rfl

theorem setService_changed {w : BitVec 32} {s u : State} (h : w ≠ s.control.service)
    (hu : u = potUpdate (workRequests (forcedFalls (sprayUpdate { s with control := { s.control with service := w } })))) :
    setService w s = settle (if w.getLsbD 19 = true ∧ s.control.service.getLsbD 19 = false then provingTest u else u) := by
  subst hu
  unfold setService State.line
  rw [if_neg h]
  refine congrArg settle (ite_congr ?_ (fun _ => rfl) (fun _ => rfl))
  rw [Bool.and_eq_true, Bool.not_eq_true']

/-! ## Raise, release, entry and return (R110, R112..R115, R121, R132, R139) -/

theorem recordValue_eq (v : Int) : recordValue v = if v.emod 65536 < 32768 then v.emod 65536 else v.emod 65536 - 65536 := by
  have h0 : 0 ≤ v.emod 65536 := Int.emod_nonneg v (by decide)
  have e : ((v.emod 65536).toNat : Int) = v.emod 65536 := Int.toNat_of_nonneg h0
  unfold recordValue signed16 pattern16
  rw [e]
  exact ite_congr (propext (by omega)) (fun _ => rfl) (fun _ => rfl)

theorem raiseHeld_eq {i : Nat} {v : Int} {s u : State}
    (hu : u = { s with alarms := { s.alarms with causes := s.alarms.causes.mapIdx (fun k c =>
      if k + 16 = i then (if c.raised then c else ⟨true, recordValue v⟩) else c) } }) :
    raiseHeld i v s = if s.joined = true ∧ (u.cause i).raised = true ∧ s.alarmState i = .quiet then
      enterActive i (u.cause i).value u else u := by
  have e : raiseHeld i v s = takeCause i u := by rw [hu]; rfl
  have hj : u.joined = s.joined := by rw [hu]; rfl
  have ha : u.alarmState i = s.alarmState i := by rw [hu]; rfl
  rw [e]
  unfold takeCause
  rw [hj, ha]
  simp only [Bool.and_eq_true, beq_iff_eq, and_assoc]

theorem releaseHeld_none {i : Nat} {s : State} (h : (s.cause i).raised = false) : releaseHeld i s = s :=
  if_neg (fun k => by rw [h] at k; cases k)

theorem releaseHeld_eq {i : Nat} {s : State} (h : (s.cause i).raised = true) : releaseHeld i s = releaseRecord i
    { s with alarms := { s.alarms with causes := s.alarms.causes.mapIdx (fun k c =>
      if k + 16 = i then { c with raised := false } else c) } } := if_pos h

theorem occurrence_eq (i : Nat) (v : Int) (s : State) : occurrence i v s =
    if s.joined = true ∧ s.alarmState i = .quiet then releaseRecord i (enterActive i (recordValue v) s) else s := by
  unfold occurrence
  simp only [Bool.and_eq_true, beq_iff_eq]

theorem releaseRecord_active {i : Nat} {s : State} (h : s.alarmState i = .active) : releaseRecord i s =
    if s.alarmLatches i = true then updateRecord i (fun r => { r with state := .latched }) s else returnQuiet i s := by
  unfold releaseRecord
  rw [h]

theorem releaseRecord_acked {i : Nat} {s : State} (h : s.alarmState i = .activeAcked) : releaseRecord i s = returnQuiet i s := by
  unfold releaseRecord
  rw [h]

theorem alarmLatches_iff (s : State) (i : Nat) : s.alarmLatches i = true ↔
    (i < 16 ∧ (s.alarmAction i = .hold ∨ s.alarmAction i = .trip)) ∨ i ∈ [17, 18, 19, 20, 22, 23, 24] ∨
      (i = 25 ∧ s.cfg.lostLatching = true) := by
  unfold State.alarmLatches
  by_cases h : i < 16
  · rw [if_pos h]
    have k : ¬(i ∈ [17, 18, 19, 20, 22, 23, 24] ∨ (i = 25 ∧ s.cfg.lostLatching = true)) := by
      simp only [List.mem_cons, List.not_mem_nil, or_false]
      omega
    rw [Bool.or_eq_true, beq_iff_eq, beq_iff_eq]
    exact ⟨fun x => Or.inl ⟨h, x⟩, fun x => (x.resolve_right k).2⟩
  · rw [if_neg h]
    have k : ¬(i < 16 ∧ (s.alarmAction i = .hold ∨ s.alarmAction i = .trip)) := fun x => h x.1
    rw [or_iff_right k]
    split <;> simp_all

theorem enterActive_eq {i : Nat} {v : Int} {s s1 s2 s3 s4 s5 : State}
    (h1 : s1 = updateRecord i (fun r => { r with state := .active, matchCount := 0, value := v }) s)
    (h2 : s2 = (if s.alarmAction i = .trip then firstOutEntry i v s1 else s1))
    (h3 : s3 = (if s.alarmGroup i ≠ 0 ∧ (s.group (s.alarmGroup i)).members.getLsbD s.dir.own = true then
      addActivity ⟨s.alarmGroup i, s.dir.own, i⟩ s2 else s2))
    (h4 : s4 = (if s.alarmAction i ≠ .note ∨ s.alarmGroup i ≠ 0 then announce i s3 else s3))
    (h5 : s5 = (if s.alarmMark i = 0 then s4 else markBoards (fun _ => true) (s.alarmMark i) s4)) :
    enterActive i v s = recondition s5 := by
  have e3 : s3 = (if s.ownSetTakes i = true then addActivity ⟨s.alarmGroup i, s.dir.own, i⟩ s2 else s2) := by
    rw [h3]
    refine ite_congr (propext ?_) (fun _ => rfl) (fun _ => rfl)
    unfold State.ownSetTakes State.alarmScope
    rw [Bool.and_eq_true, bne_iff_ne]
    constructor
    · rintro ⟨a, b⟩
      exact ⟨a, by rw [if_neg a]; exact b⟩
    · rintro ⟨a, b⟩
      exact ⟨a, by rw [if_neg a] at b; exact b⟩
  have e4 : s4 = (if s.needsAnnouncing i = true then announce i s3 else s3) := by
    rw [h4]
    refine ite_congr (propext ?_) (fun _ => rfl) (fun _ => rfl)
    unfold State.needsAnnouncing
    rw [Bool.or_eq_true, bne_iff_ne, bne_iff_ne]
  rw [h5, e4, e3, h2, h1]
  rfl

theorem firstOutEntry_counts {i : Nat} {v : Int} {s : State}
    (h : ∃ j, j < 29 ∧ j ≠ i ∧ s.stands j = true ∧ s.alarmAction j = .trip) : firstOutEntry i v s =
      { s with alarms := { s.alarms with firstOut := s.alarms.firstOut.map (fun f => { f with later := min 255 (f.later + 1) }) } } := by
  obtain ⟨j, a, b, c, d⟩ := h
  refine if_pos (List.any_eq_true.2 ⟨j, List.mem_range.2 a, ?_⟩)
  simp [b, c, d]

theorem firstOutEntry_captures {i : Nat} {v : Int} {s : State}
    (h : ∀ j, j < 29 → j ≠ i → s.stands j = true → s.alarmAction j ≠ .trip) : firstOutEntry i v s =
      { s with alarms := { s.alarms with firstOut := some ⟨i, v, (s.boardIds.head?).getD 0, 0⟩ } } := by
  refine if_neg (fun k => ?_)
  obtain ⟨j, a, b⟩ := List.any_eq_true.1 k
  simp only [Bool.and_eq_true, bne_iff_ne, beq_iff_eq, ne_eq] at b
  exact h j (List.mem_range.1 a) b.1.1 b.1.2 b.2

theorem addActivity_eq (a : Activity) (s : State) : addActivity a s =
    if a ∈ s.groups.activity then s else withActivity (s.groups.activity ++ [a]) s := by
  unfold addActivity
  exact ite_congr (propext List.contains_iff_mem) (fun _ => rfl) (fun _ => rfl)

theorem removeActivity_eq (p : Activity → Bool) (s : State) :
    removeActivity p s = withActivity (s.groups.activity.filter (fun a => !p a)) s := rfl

theorem withActivity_eq {l : List Activity} {s u : State} (hu : u = { s with groups := { s.groups with activity := l } }) :
    withActivity l s = ((u.markCodes.filter (fun c => !s.markCodes.contains c)).eraseDups).foldl
      (fun s c => markBoards (fun _ => true) c s) u := by
  subst hu
  rfl

theorem mem_markCodes (s : State) (c : Nat) : c ∈ s.markCodes ↔ ∃ g, 1 ≤ g ∧ g ≤ 8 ∧ (∃ a ∈ s.groups.activity, a.group = g) ∧
    bitOf (s.group g).actions.toNat 4 = true ∧ (s.group g).mark = c ∧ c ≠ 0 := by
  have hm : ∀ g, g ∈ groupNumbers ↔ 1 ≤ g ∧ g ≤ 8 := by
    intro g
    unfold groupNumbers
    simp only [List.mem_cons, List.not_mem_nil, or_false]
    omega
  have ha : ∀ g, bitOf (s.groupActions g) 4 = bitOf (s.group g).actions.toNat 4 := by
    intro g
    unfold State.groupActions
    by_cases z : (s.group g).actions.toNat = 0
    · rw [if_pos z, z]; decide
    · rw [if_neg z]
  unfold State.markCodes
  simp only [List.mem_map, List.mem_filter, Bool.and_eq_true, groupInForce_iff, ha, hm, bne_iff_ne, ne_eq]
  constructor
  · rintro ⟨g, ⟨⟨a, b⟩, ⟨c1, d⟩, e⟩, rfl⟩
    exact ⟨g, a, b, c1, d, rfl, e⟩
  · rintro ⟨g, a, b, c1, d, rfl, e⟩
    exact ⟨g, ⟨⟨a, b⟩, ⟨c1, d⟩, e⟩, rfl⟩

theorem announce_waiting {i : Nat} {s : State} (h : s.hasWaiting (TxFrame.isAlarmOf i) = true) :
    announce i s = updateRecord i (fun r => { r with announced := true }) s := if_pos h

theorem announce_new {i : Nat} {s : State} (h : s.hasWaiting (TxFrame.isAlarmOf i) = false) : announce i s = reannounce i s := by
  unfold reannounce
  rw [if_neg (by rw [h]; exact Bool.false_ne_true)]

theorem returnQuiet_eq {i : Nat} {s u : State} (hu : u = removeActivity (fun a => a.raiser == s.dir.own && a.index == i)
      (updateRecord i (fun r => { r with state := .quiet, matchCount := 0 }) s)) :
    returnQuiet i s = recondition (clearAnnounced i u) := by
  subst hu
  rfl

theorem alarmOnBus_iff (s : State) (i : Nat) :
    s.alarmOnBus i = true ↔ ∃ f ∈ s.bus.queue, f.phase = .onBus ∧ f.isAlarmOf i = true := by
  unfold State.alarmOnBus State.hasFrame
  simp only [List.any_eq_true, Bool.and_eq_true, beq_iff_eq]

theorem clearAnnounced_none {i : Nat} {s : State} (h : (s.record i).announced = false) :
    clearAnnounced i s = updateRecord i (fun r => { r with delivered := false }) s :=
  if_neg (fun k => by rw [h] at k; cases k)

theorem clearAnnounced_seen {i : Nat} {s : State} {q : List TxFrame} (h : (s.record i).announced = true)
    (hq : q = s.bus.queue.filter (fun f => f.phase == .onBus || !f.isAlarmOf i))
    (k : s.alarmOnBus i = true ∨ (s.record i).delivered = true) :
    clearAnnounced i s = updateRecord i (fun r => { r with announced := false, delivered := false }) (queueClear i (s.withTx q)) := by
  subst hq
  unfold clearAnnounced
  rw [if_pos h]
  have : (s.alarmOnBus i || (s.record i).delivered) = true := by simpa using k
  simp only [this, if_true]
  rfl

theorem clearAnnounced_unseen {i : Nat} {s : State} {q : List TxFrame} (h : (s.record i).announced = true)
    (hq : q = s.bus.queue.filter (fun f => f.phase == .onBus || !f.isAlarmOf i))
    (k : s.alarmOnBus i = false) (d : (s.record i).delivered = false) :
    clearAnnounced i s = updateRecord i (fun r => { r with announced := false, delivered := false }) (s.withTx q) := by
  subst hq
  unfold clearAnnounced
  rw [if_pos h]
  simp only [k, d, Bool.or_false, Bool.false_eq_true, if_false]
  rfl

theorem queueClear_eq (i : Nat) (s : State) : queueClear i s = if s.admits (s.record i).sentClass = true then
      s.withTx (s.bus.queue ++ [newFrame (s.record i).sentClass 0 (.clear i (s.record i).sentGroup)])
    else updateRecord i (fun r => { r with clearOwed := true }) s := rfl

/-! ## Records: a release, a join, the checks of a take-in (R3, R22, R28, R29, R35, R43, R47, R113, R139) -/

theorem governing_head {s : State} {b : Board} {rest : List Board} (h : s.tracker.queue = b :: rest) :
    s.governing = (s.slotOf b).map (fun sl => ⟨sl.body.zones, sl.body.pot⟩) := by
  unfold State.governing
  rw [h]

theorem governing_empty {s : State} (h : s.tracker.queue = []) : s.governing = s.recipes.holdOver := by
  unfold State.governing
  rw [h]

theorem beforeReport_spray (b : Board) (s : State) : (beforeReport b s).spray = { s.spray with
    oneShots := s.spray.oneShots.map (fun o => if o = some (.board b.line.id) then some (.released b.line.id) else o)
    counting := if s.spray.counting = some b.line.id then none else s.spray.counting } := by
  have h : ∀ u : State, (removeBoard b.line.id u).spray = { u.spray with
      oneShots := u.spray.oneShots.map (fun o => if o = some (.board b.line.id) then some (.released b.line.id) else o)
      counting := if u.spray.counting = some b.line.id then none else u.spray.counting } := by
    intro u
    unfold removeBoard dropCounting disownShots State.withShots
    by_cases hc : u.tracker.underEye = some b.line.id <;> by_cases hk : u.spray.counting = some b.line.id <;>
      simp [State.withQueue, hc, hk]
  have k : ∀ u : State, (dropRef b.slot u).spray = u.spray := by intro u; cases b.slot <;> rfl
  exact (h _).trans (by rw [k]; rfl)

/-- A pulse of the record goes on without it (R39), and the counting board ends at its release (R47). -/
theorem releaseBoard_spray (b : Board) (s : State) : (releaseBoard b s).spray = { s.spray with
    oneShots := s.spray.oneShots.map (fun o => if o = some (.board b.line.id) then some (.released b.line.id) else o)
    counting := if s.spray.counting = some b.line.id then none else s.spray.counting } := by
  have h : ∀ u : State, (reportBoard b u).spray = u.spray := by
    intro u
    unfold reportBoard
    (repeat' split) <;> rfl
  obtain ⟨copy, e⟩ := releaseBoard_eq b s
  rw [e, ← beforeReport_spray b s, ← h (beforeReport b s)]
  split
  · unfold startHoldOver
    split <;> rfl
  · rfl

/-- The hold-over starts when the last record leaves, from the setpoints that govern before it does (R35). -/
theorem releaseBoard_holdOver (b : Board) (s : State) :
    ((∃ x ∈ s.tracker.queue, x.line.id ≠ b.line.id) → (releaseBoard b s).recipes.holdOver = s.recipes.holdOver ∧
      (releaseBoard b s).recipes.holdTimer = s.recipes.holdTimer) ∧
    ((∀ x ∈ s.tracker.queue, x.line.id = b.line.id) →
      (releaseBoard b s).recipes.holdOver = (if s.cfg.holdOverTime = 0 then none else s.governing) ∧
      (releaseBoard b s).recipes.holdTimer =
        if s.cfg.holdOverTime = 0 then .stopped else .running (s.cfg.holdOverTime * 1000)) := by
  have hr : ∀ u : State, (reportBoard b u).recipes = u.recipes ∧ (reportBoard b u).cfg = u.cfg := by
    intro u
    unfold reportBoard
    (repeat' split) <;> exact ⟨rfl, rfl⟩
  have hd : ∀ (i : Option Nat) (u : State), (dropRef i u).recipes.holdOver = u.recipes.holdOver ∧
      (dropRef i u).recipes.holdTimer = u.recipes.holdTimer ∧ (dropRef i u).cfg = u.cfg := by
    intro i u
    cases i <;> exact ⟨rfl, rfl, rfl⟩
  have hm : ∀ u : State, (removeBoard b.line.id u).cfg = u.cfg := by
    intro u
    unfold removeBoard dropCounting disownShots State.withShots
    by_cases hc : u.tracker.underEye = some b.line.id <;> by_cases hk : u.spray.counting = some b.line.id <;>
      simp [State.withQueue, hc, hk, State.cfg]
  have hb : (beforeReport b s).recipes.holdOver = s.recipes.holdOver ∧
      (beforeReport b s).recipes.holdTimer = s.recipes.holdTimer ∧ (beforeReport b s).cfg = s.cfg := by
    unfold beforeReport
    rw [(removeBoard_keeps _ _).2.2.1, hm]
    obtain ⟨x, y, z⟩ := hd b.slot (withdrawFrames (TxFrame.isPositionOf b.line.id) s)
    exact ⟨x, y, z⟩
  have hq : (reportBoard b (beforeReport b s)).tracker.queue = s.tracker.queue.filter (fun x => x.line.id != b.line.id) := by
    rw [(reportBoard_keeps b _).1, (beforeReport_keeps b s).2.2.1]
  have e : releaseBoard b s =
      if (reportBoard b (beforeReport b s)).tracker.queue.isEmpty then startHoldOver s.governing (reportBoard b (beforeReport b s))
      else reportBoard b (beforeReport b s) := rfl
  constructor
  · rintro ⟨x, hx, hn⟩
    have hne : ¬(reportBoard b (beforeReport b s)).tracker.queue.isEmpty = true := by
      rw [hq, List.isEmpty_iff, List.filter_eq_nil_iff]
      intro k
      exact k x hx (bne_iff_ne.2 hn)
    rw [e, if_neg hne, (hr _).1]
    exact ⟨hb.1, hb.2.1⟩
  · intro h
    have he : (reportBoard b (beforeReport b s)).tracker.queue.isEmpty = true := by
      rw [hq, List.isEmpty_iff, List.filter_eq_nil_iff]
      intro x hx k
      exact bne_iff_ne.1 k (h x hx)
    rw [e, if_pos he]
    have hc : (reportBoard b (beforeReport b s)).cfg = s.cfg := (hr _).2.trans hb.2.2
    unfold startHoldOver
    rw [hc]
    by_cases z : s.cfg.holdOverTime = 0
    · rw [if_pos z, if_pos z, if_pos z]; exact ⟨rfl, rfl⟩
    · rw [if_neg z, if_neg z, if_neg z]; exact ⟨rfl, rfl⟩

theorem resolve_eq (number version : Nat) (s : State) : s.resolve number version = if number = 0 then none
    else s.recipes.slots.findIdx? (fun sl => sl.state != .free && sl.number == number && sl.version == version) := rfl

/-- A record that joins ends a hold-over and is resolved, and its slot's count rises (R3, R28, R29, R35). -/
theorem joinQueue_eq {b : Board} {s : State} {slot : Option Nat} : slot = s.resolve b.line.recipe b.line.version →
    joinQueue b s = { s with
      recipes := ⟨match slot with
        | some i => s.recipes.slots.modify i (fun sl => { sl with refs := sl.refs + 1 })
        | none => s.recipes.slots, none, .stopped⟩
      tracker := { s.tracker with queue := insertByPos s.pos { b with slot := slot } s.tracker.queue } } := by
  intro h
  subst h
  unfold joinQueue
  cases s.resolve b.line.recipe b.line.version <;> rfl

/-- A record joins behind every record that stands at or ahead of its place (R3). -/
theorem insertByPos_splits (pos : Board → Nat) (x : Board) (q : List Board) : ∃ front back, q = front ++ back ∧
    insertByPos pos x q = front ++ x :: back ∧ (∀ b ∈ front, pos x ≤ pos b) ∧ (∀ b, back.head? = some b → pos b < pos x) := by
  induction q with
  | nil => exact ⟨[], [], rfl, rfl, fun _ h => absurd h List.not_mem_nil, fun _ h => nomatch h⟩
  | cons a q ih =>
    by_cases h : pos a < pos x
    · refine ⟨[], a :: q, rfl, ?_, fun _ h => absurd h List.not_mem_nil, fun b k => ?_⟩
      · unfold insertByPos; rw [if_pos h]; rfl
      · cases k; exact h
    · obtain ⟨front, back, e, i, f, g⟩ := ih
      refine ⟨a :: front, back, by rw [e]; rfl, ?_, fun b hb => ?_, g⟩
      · show (if pos a < pos x then _ else a :: insertByPos pos x q) = _
        rw [if_neg h, i]; rfl
      · rcases List.mem_cons.1 hb with rfl | hb
        · exact Nat.le_of_not_lt h
        · exact f b hb

theorem noRecipeMark_eq {s : State} {id : Nat} {b : Board} (hb : s.board id = some b) : noRecipeMark id s =
    if b.slot = none ∧ b.noRecipeNoted = false ∧ s.inWindow b = true then
      updateBoard id (fun b => { b with noRecipeNoted := true }) (addMark id 7 s) else s := by
  unfold noRecipeMark
  rw [hb]
  simp only [Bool.and_eq_true, Bool.not_eq_true', Option.isNone_iff_eq_none, and_assoc]

theorem standingMarks_eq (id : Nat) (s : State) : standingMarks id s =
    ((s.alarmMarks ++ s.markCodes).eraseDups).foldl (fun s c => addMark id c s) s := rfl

theorem mem_alarmMarks (s : State) (c : Nat) : c ∈ s.alarmMarks ↔
    ∃ i, i < 16 ∧ (s.alarmState i = .active ∨ s.alarmState i = .activeAcked) ∧ s.alarmMark i = c ∧ c ≠ 0 := by
  unfold State.alarmMarks
  simp only [List.mem_map, List.mem_filter, List.mem_range, Bool.and_eq_true, Bool.or_eq_true, beq_iff_eq, bne_iff_ne, ne_eq]
  constructor
  · rintro ⟨i, ⟨a, b, d⟩, rfl⟩
    exact ⟨i, a, b, rfl, d⟩
  · rintro ⟨i, a, b, rfl, d⟩
    exact ⟨i, ⟨a, b, d⟩, rfl⟩

theorem takeInChecks_eq (id : Nat) (s : State) :
    takeInChecks id s = standingMarks id (contactCheck id (noRecipeMark id (sprayPassOver id s))) := rfl

theorem sprayPassOver_eq {s : State} {id margin : Nat} {b : Board} (hb : s.board id = some b)
    (hm : margin = (match s.slotOf b with
      | some sl => 10 * sl.body.margin
      | none => 0)) : sprayPassOver id s =
    if s.cfg.roles.flux = true ∧ s.cfg.sprayPos + margin < s.pos b then
      flowCheck id (markNotFluxed id (updateBoard id (fun b => { b with phase := .ended }) s)) else s := by
  subst hm
  unfold sprayPassOver
  simp only [hb]
  cases s.slotOf b with
  | none =>
    simp only [Bool.and_eq_true, decide_eq_true_eq]
    refine ite_congr (propext (and_congr_right (fun _ => ?_))) (fun _ => rfl) (fun _ => rfl)
    unfold State.beyondRow
    omega
  | some sl =>
    simp only [Bool.and_eq_true, decide_eq_true_eq]
    refine ite_congr (propext (and_congr_right (fun _ => ?_))) (fun _ => rfl) (fun _ => rfl)
    unfold State.beyondRow marginOf
    omega

/-! ## The start of a transmission (R167) -/

theorem startFrame_none {s : State} (n : Nat) (h : s.firstEligible = none) : startFrame n s = s := by
  cases n with
  | zero => rfl
  | succ n => unfold startFrame; rw [h]

theorem startFrame_withdrawn {s : State} {i : Nat} {f : TxFrame} (n : Nat) (h : s.firstEligible = some i)
    (hf : s.bus.queue[i]? = some f) (hp : s.payload f = none) :
    startFrame (n + 1) s = startFrame n { s with bus := { s.bus with queue := s.bus.queue.eraseIdx i } } := by
  rw [startFrame.eq_2, h]
  simp only [hf, hp]
  rfl

theorem startFrame_started {s : State} {i : Nat} {f : TxFrame} {p : List Byte} (n : Nat) (h : s.firstEligible = some i)
    (hf : s.bus.queue[i]? = some f) (hp : s.payload f = some p) : startFrame (n + 1) s = { s with bus := { s.bus with
      queue := s.bus.queue.modify i (fun f => { f with phase := .onBus })
      onWire := some ⟨f.cls, if f.isKind 1 then 0 else s.dir.own, f.body.kind, f.dst, p⟩
      frameStart := some s.tracker.count
      answer := ⟨false, false, false⟩
      reservation := none } } := by
  rw [startFrame.eq_2, h]
  simp only [hf, hp]
  rfl

/-! ## Commits (R163) -/

/-- A frame of another participant commits: the common part, then the effects of its kind. -/
theorem committed_heard {s : State} {start : BitVec 32} (h : s.Hears start) (kind src dst : Nat) (payload : List Byte)
    (effect : Commit → State → State) : committed kind src dst payload effect s = .next (dropReservation (effect
      ⟨false, s.bus.answer.ack && dst == s.dir.own, start, s.bus.reservation == some .txPlace⟩ (commitFrame false src s))) := by
  unfold committed State.ownsFrame
  rw [h.2, h.1]

/-- The station's own frame commits. -/
theorem committed_sent {s : State} {kind src dst : Nat} {payload : List Byte} (h : s.Sends kind src dst payload) :
    ∃ start, ∀ effect : Commit → State → State, committed kind src dst payload effect s = .next (dropReservation (effect
      ⟨true, s.bus.answer.ack && dst == s.dir.own, start, s.bus.reservation == some .txPlace⟩ (commitFrame true src s))) := by
  obtain ⟨a, b⟩ := h
  obtain ⟨start, e⟩ := Option.isSome_iff_exists.1 b
  refine ⟨start, fun effect => ?_⟩
  unfold committed
  rw [e, a]

/-- A directed frame that the station has not acknowledged, or one to another station. -/
theorem not_forMe {s : State} {dst : Nat} (h : s.bus.answer.ack = false ∨ dst ≠ s.dir.own) :
    (s.bus.answer.ack && dst == s.dir.own) = false := by
  rcases h with h | h
  · rw [h]; rfl
  · rw [Bool.and_eq_false_iff]; exact Or.inr (beq_eq_false_iff_ne.2 h)

/-- What the common part of a commit does not reach reads as before. -/
theorem commitFrame_read (own : Bool) (src : Nat) (s : State) {α : Type} (g : State → α) (hg : ∀ x : State, g x.still = g x) :
    g (commitFrame own src s) = g s := by
  rw [← hg (commitFrame own src s), still_commitFrame, hg]

theorem touch_own (src : Nat) (s : State) : (touch src s).dir.own = s.dir.own := by
  unfold touch
  by_cases h : s.learnsFrom src = true
  · rw [if_pos h]; split <;> rfl
  · rw [if_neg h]

theorem settle_own (s : State) : (settle s).dir.own = s.dir.own :=
  (follows_settle s).toMoves.read (fun x => x.dir.own) (fun _ => rfl)

theorem releaseHeld_own (i : Nat) (s : State) : (releaseHeld i s).dir.own = s.dir.own :=
  (follows_releaseHeld i s).toMoves.read (fun x => x.dir.own) (fun _ => rfl)

theorem queueJoin_own (s : State) : (queueJoin s).dir.own = s.dir.own := by
  unfold queueJoin
  by_cases h : s.admits 3 = true
  · rw [if_pos h]; rfl
  · rw [if_neg h]

theorem leaveIsolation_own (s : State) : (leaveIsolation s).dir.own = s.dir.own := by
  rw [← releaseHeld_own 27 s]
  unfold leaveIsolation
  generalize releaseHeld 27 s = u
  by_cases h : u.hasFrame (TxFrame.isKind 2) = true
  · simp only [if_pos h]; exact settle_own u
  · simp only [if_neg h]; exact (settle_own _).trans (queueJoin_own u)

theorem restartContact_own (own : Bool) (s : State) : (restartContact own s).dir.own = s.dir.own := by
  unfold restartContact
  by_cases h : (!s.joined) = true
  · rw [if_pos h]
  · rw [if_neg h]
    have k : (if own then { s with bus := { s.bus with ownContact := s.contactTimer } }
        else { s with bus := { s.bus with peerContact := s.contactTimer } } : State).dir.own = s.dir.own := by
      cases own <;> rfl
    rw [← k]
    generalize (if own then { s with bus := { s.bus with ownContact := s.contactTimer } }
        else { s with bus := { s.bus with peerContact := s.contactTimer } } : State) = u
    by_cases c : (s.isolated && !u.isolated) = true
    · simp only [if_pos c]; exact leaveIsolation_own u
    · simp only [if_neg c]

theorem deliverOwn_own (s : State) : (deliverOwn s).dir.own = s.dir.own := by
  unfold deliverOwn
  by_cases h : (s.cause 26).raised = true
  · rw [if_pos h, settle_own, releaseHeld_own]
  · rw [if_neg h]

/-- The common part of a commit keeps the own number (R163). -/
theorem commitFrame_own (own : Bool) (src : Nat) (s : State) : (commitFrame own src s).dir.own = s.dir.own := by
  unfold commitFrame
  cases own
  · refine (touch_own _ _).trans ?_
    by_cases h : (s.joined && src == s.dir.own && src != 0) = true
    · rw [if_pos h]; rfl
    · rw [if_neg h, restartContact_own]; rfl
  · exact (deliverOwn_own _).trans ((restartContact_own true _).trans rfl)

end Sys2Proof.Machine
end

