-- ==== Sys2Proof/Laws/Frames.lean ====
section
/-! SUPPORT. The commits: what every commit gives the effects of its kind, and what each kind keeps. -/

namespace Sys2Proof.Machine

open Sys2Proof

/-- What is known at the effects of a commit's kind, with the state `s` before the commit and `u` after its common part. -/
structure AtCommit (kind : Nat) (payload : List Byte) (s : State) (c : Commit) (u : State) : Prop where
  wire     : c.own = true → ∃ w, s.bus.onWire = some w ∧ w.kind = kind ∧ w.payload = payload
  sent     : c.own = true → kind ≠ 1 → s.OffLine → u.joined = true
  acked    : c.forMe = true → s.OffLine → u.joined = true
  reserved : c.reserved = true → u.bus.reservation = some .txPlace
  free     : u.bus.onWire = none
  shares   : u.shares = s.shares
  cfg      : u.cfg = s.cfg

/-- A commit keeps what the effects of its kind keep (R163). -/
theorem sound_committed {kind src dst : Nat} {payload : List Byte} {effect : Commit → State → State} {s : State}
    (h : ∀ c u, AtCommit kind payload s c u → Sound s.OffLine (s.OffLine ∧ s.LendCovered) u (dropReservation (effect c u))) :
    Answers (committed kind src dst payload effect s) (Stays s) := by
  unfold committed
  split
  · exact (Keeps.refl s).answers
  · rename_i start _
    refine ⟨_, rfl, ?_⟩
    have k := keeps_commitFrame (s.ownsFrame kind src dst payload) src s
    obtain ⟨k1, k2, k3⟩ := commitFrame_spec (s.ownsFrame kind src dst payload) src s
    have hw : s.ownsFrame kind src dst payload = true → ∃ w, s.bus.onWire = some w ∧ w.kind = kind ∧ w.payload = payload := by
      intro ho
      unfold State.ownsFrame at ho
      split at ho
      · rename_i w hw
        simp only [Bool.and_eq_true, beq_iff_eq] at ho
        exact ⟨w, hw, ho.1.1.1, ho.2⟩
      · cases ho
    have hj : (s.OffLine → s.joined = true) → s.OffLine →
        (commitFrame (s.ownsFrame kind src dst payload) src s).joined = true := fun f o => k.joined.trans (f o)
    refine Sound.trans k.sound (h _ _
      { wire := hw
        sent := fun ho hk => hj (fun o => ?_)
        acked := fun ha => hj (fun o => ?_)
        reserved := fun hr => ?_
        free := k3
        shares := k1
        cfg := k.cfg })
    · cases j : s.joined with
      | true => rfl
      | false =>
        obtain ⟨w, hw', hk', _⟩ := hw ho
        exact absurd (hk'.symm.trans ((o j).2.2 w hw').2) hk
    · cases j : s.joined with
      | true => rfl
      | false =>
        have h1 := (o j).2.1
        have h2 : s.bus.answer.ack = true := (Bool.and_eq_true_iff.1 ha).1
        rw [h1] at h2
        cases h2
    · rw [k2]
      simpa using hr

/-- The effects of most kinds keep every invariant by themselves. -/
theorem Sound.dropped {P Q : Prop} {s t : State} (h : Sound P Q s t) : Sound P Q s (dropReservation t) :=
  h.trans (keeps_dropReservation t).sound

theorem sound_ite {P Q : Prop} {c : Prop} [Decidable c] {s t u : State} (h : c → Sound P Q s t) (k : ¬c → Sound P Q s u) :
    Sound P Q s (if c then t else u) := by
  by_cases hc : c
  · rw [if_pos hc]; exact h hc
  · rw [if_neg hc]; exact k hc

/-! ## HAND and AMEND (R10, R13, R21) -/

theorem addPair_id (m : Mark) (r : LineRecord) : (addPair m r).id = r.id := by
  unfold addPair
  split
  · rfl
  · split <;> rfl

theorem mergeLine_id (f r : LineRecord) : (mergeLine f r).id = r.id := by
  unfold mergeLine mergePairs
  generalize f.marks = l
  have h : ∀ (l : List Mark) (r : LineRecord), (l.foldl (fun r m => addPair m r) r).id = r.id := by
    intro l
    induction l with
    | nil => intro r; rfl
    | cons m l ih => intro r; exact (ih _).trans (addPair_id m r)
  rw [h]

theorem board_none {s : State} {id : Nat} (h : ¬(s.board id).isSome = true) : id ∉ s.boardIds := by
  intro hm
  obtain ⟨b, hb, rfl⟩ := List.mem_map.1 hm
  apply h
  unfold State.board
  rw [List.find?_isSome]
  exact ⟨b, hb, by simp⟩

theorem keeps_takeHand {start : BitVec 32} {f : HandFields} {s : State} (hj : s.joined = true) :
    Keeps s (takeHand start f s) := by
  unfold takeHand
  simp only []
  by_cases h : (s.board (handLine f).id).isSome = true
  · rw [if_pos h]
    exact (keeps_updateLine (mergeLine_id _) s).trans (keeps_positionEvents _ _)
  · rw [if_neg h]
    by_cases hl : s.tracker.queue.length < 8
    · rw [if_pos hl]
      exact ((keeps_joinQueue hj hl (board_none h)).trans (keeps_takeInChecks _ _)).trans (keeps_positionEvents _ _)
    · rw [if_neg hl]
      exact Keeps.refl s

theorem keeps_handDelivered (id dst : Nat) (s : State) : Keeps s (handDelivered id dst s) :=
  Keeps.ite _ (keeps_updateBoard (by intro _; rfl) s) (keeps_handoverCheck id s)

theorem sound_hand (src dst : Station) (f : HandFields) (s : State) : Answers (execHand src dst f s) (Stays s) :=
  sound_committed (fun _ u _ => (sound_ite
    (fun _ => ((keeps_handDelivered _ _ u).trans (keeps_settle _)).sound)
    (fun _ => sound_ite
      (fun h => ((keeps_takeHand (Bool.and_eq_true_iff.1 h).2).trans (keeps_settle _)).sound)
      (fun _ => Sound.refl u))).dropped)

theorem sound_amendMark (src : Station) (board : Half) (station code : Byte) (s : State) :
    Answers (execAmendMark src board station code s) (Stays s) :=
  sound_committed (fun _ u _ => (sound_ite (fun _ => (keeps_updateLine (addPair_id _) u).sound) (fun _ => Sound.refl u)).dropped)

theorem sound_amendLength (src : Station) (board length : Half) (s : State) :
    Answers (execAmendLength src board length s) (Stays s) :=
  sound_committed (fun _ u _ => (sound_ite (fun _ => (keeps_updateLine (by intro _; rfl) u).sound)
    (fun _ => Sound.refl u)).dropped)

theorem keeps_reanchor (id pos : Nat) (start : BitVec 32) (s : State) : Keeps s (reanchor id pos start s) :=
  (keeps_anchor (by intro _; rfl) s).trans (keeps_positionEvents _ _)

theorem sound_amendPosition (src : Station) (board : Half) (pos : Pos) (s : State) :
    Answers (execAmendPosition src board pos s) (Stays s) :=
  sound_committed (fun _ u _ => (sound_ite (fun _ => ((keeps_reanchor _ _ _ u).trans (keeps_settle _)).sound)
    (fun _ => Sound.refl u)).dropped)

/-! ## Shares (R70..R80) -/

theorem sound_need (src : Station) (amount : Half) (s : State) : Answers (execNeed src amount s) (Stays s) :=
  sound_committed (fun _ u _ => (sound_ite (fun _ => Sound.refl u) (fun _ => sound_ite (fun _ => (keeps_setNeed _ u).sound)
    (fun _ => sound_ite (fun _ => Sound.refl u) (fun _ => (keeps_answerNeed _ _ u).sound)))).dropped)

/-- H and other fields of the share unit changed together, where the premise rules out a station that is not JOINED. -/
theorem sound_setHeld {P Q : Prop} {x : Shares} {h : Nat} {s : State} (hj : P → s.OffLine → s.joined = true)
    (hh : s.shares.held = x.held)
    (hq : Q → s.SharesBalance → s.LendCovered → State.SharesBalance { s with shares := { x with held := h } } ∧
      State.LendCovered { s with shares := { x with held := h } }) :
    Sound P Q s (setHeld h { s with shares := x }) := by
  obtain ⟨e1, e2, e3, e4, e5, -⟩ := setHeld_spec h { s with shares := x }
  generalize setHeld h { s with shares := x } = t at e1 e2 e3 e4 e5 ⊢
  have hr : ∀ {α : Type} (g : State → α), (∀ x : State, g x.steady = g x) →
      (∀ (x : State) (y : Shares), g { x with shares := y } = g x) → g t = g s := fun g h1 h2 => by
    rw [← h1 t, e2]
    exact (h2 _ _).trans ((h1 _).trans (h2 _ _))
  have hjj : t.joined = s.joined := hr (fun x => x.joined) (fun _ => rfl) (fun _ _ => rfl)
  have hcfg : t.cfg = s.cfg := hr (fun x => x.cfg) (fun _ => rfl) (fun _ _ => rfl)
  have hk : t.tracker.queue.map boardKey = s.tracker.queue.map boardKey := by
    have : t.tracker.queue.map boardKeep = s.tracker.queue.map boardKeep :=
      hr (fun x => x.tracker.queue.map boardKeep) (fun x => by
        show (x.tracker.queue.map boardKeep).map boardKeep = _
        rw [List.map_map]
        rfl) (fun _ _ => rfl)
    have := congrArg (List.map boardKey) this
    simp only [List.map_map] at this
    exact this
  exact
    { uid := hr (fun x => x.uid) (fun _ => rfl) (fun _ _ => rfl)
      pending := hr (fun x => x.pending) (fun _ => rfl) (fun _ _ => rfl)
      places := fun k => by
        unfold State.TxFits State.txUsed at k ⊢
        rw [e3]; exact k
      grants := fun k => e5 (by
        show State.grantCost _ ≤ x.held
        rw [← hh]; exact k)
      derived := fun k => derived_of_causes (s := s) e4 k
      off := fun p k j => by
        have := hj p k
        rw [← hjj, j] at this
        cases this
      boards := fun _ => boardsOrdered_of_keys hcfg (hr (fun x => x.tracker.count) (fun _ => rfl) (fun _ _ => rfl)) hk
      shares := fun q k l => by
        obtain ⟨h1, h2⟩ := hq q k l
        refine ⟨sharesBalance_of_eq (s := { s with shares := { x with held := h } }) hcfg e1 h1, fun w hw hk => ?_⟩
        rw [e1, hcfg]
        rw [e3] at hw
        exact h2 w hw hk
      loader := hr (fun x => x.loader) (fun _ => rfl) (fun _ _ => rfl)
      count := hr (fun x => x.tracker.count) (fun _ => rfl) (fun _ _ => rfl) }

/-- A loan made at the commit of a LEND (R76): the balance rests on what the frame carried. -/
theorem sound_lendTo {P Q : Prop} {peer m : Nat} {s : State} (hw : s.bus.onWire = none) (hj : P → s.OffLine → s.joined = true)
    (hm : Q → s.shares.state ≠ .unseated ∧ loanSum s.shares.lent + m ≤ s.cfg.base) : Sound P Q s (lendTo peer m s) := by
  by_cases q : Q
  · exact (keeps_lendTo (fun _ => hm q) hw).sound
  · exact sound_setHeld (x := { s.shares with lent := growLoan peer m s.shares.lent }) hj rfl (fun x => absurd x q)

theorem sound_lend (src dst : Station) (amount : Half) (s : State) : Answers (execLend src dst amount s) (Stays s) := by
  refine sound_committed (fun c u h => (sound_ite (fun ho => ?_) (fun _ => sound_ite (fun k => ?_) (fun _ => Sound.refl u))).dropped)
  · refine sound_lendTo h.free (fun p _ => h.sent ho (by decide) p) (fun q => ?_)
    obtain ⟨w, hw, hk, hp⟩ := h.wire ho
    have := q.2 w hw hk
    rw [hp, halfAt_byte2] at this
    have hb : amount.toNat < 65536 := amount.isLt
    rw [Nat.mod_eq_of_lt hb] at this
    rw [h.shares, h.cfg]
    exact ⟨this.1, by omega⟩
  · refine ((keeps_borrowFrom (fun e => ?_)).trans (keeps_meetNeed _ _)).sound
    have := (Bool.and_eq_true_iff.1 k).2
    unfold State.seated at this
    rw [e] at this
    cases this

theorem sound_return (src dst : Station) (amount : Half) (s : State) : Answers (execReturn src dst amount s) (Stays s) :=
  sound_committed (fun _ u _ => (sound_ite (fun _ => (keeps_giveBack _ _ u).sound)
    (fun _ => sound_ite (fun _ => (keeps_takeBack _ _ u).sound) (fun _ => Sound.refl u))).dropped)

theorem sound_recall (src dst : Station) (amount : Half) (s : State) : Answers (execRecall src dst amount s) (Stays s) :=
  sound_committed (fun _ u _ => (sound_ite (fun _ => (keeps_takeBack _ _ u).sound)
    (fun _ => sound_ite (fun _ => (keeps_giveBack _ _ u).sound) (fun _ => Sound.refl u))).dropped)

/-! ## ALARM and CLEAR (R114, R133, R134) -/

theorem keeps_captureLine (src : Nat) (f : AlarmFields) (s : State) : Keeps s (captureLine src f s) :=
  Keeps.ite _
    { fixed := rfl, count := rfl, joined := rfl, places := fun k => k, grants := fun k => k, derived := fun k => k, rest := fun _ r => r
      boards := fun k => k, shares := fun k => k, lend := fun _ k => k, wire := .inl rfl, ack := fun k => k, claims := .inl }
    (Keeps.refl s)

theorem keeps_alarmDelivered (i : Nat) (s : State) : Keeps s (alarmDelivered i s) :=
  Keeps.ite _ (keeps_updateRecordSame (by intro _; rfl) s) (Keeps.refl s)

theorem keeps_noteDelivered (src : Nat) (f : AlarmFields) (s : State) : Keeps s (noteDelivered src f s) :=
  Keeps.ite _ (keeps_alarmDelivered _ s) (Keeps.refl s)

theorem sound_alarm (src : Station) (f : AlarmFields) (s : State) : Answers (execAlarm src f s) (Stays s) := by
  suffices h : Answers (execAlarm src f s) (Stays (noteDelivered src.toNat f s)) from
    h.imp (fun _ k => ⟨k.1, (keeps_noteDelivered src.toNat f s).stays k.2⟩)
  refine sound_committed (fun c u _ => Sound.dropped ?_)
  have h := keeps_captureLine src.toNat f u
  simp only []
  refine sound_ite (fun hs => ?_) (fun _ => h.sound)
  have hj : (captureLine src.toNat f u).joined = true := by
    unfold State.inScope at hs
    simp only [Bool.and_eq_true] at hs
    exact hs.2.1.1.1.1.1.1
  exact (h.trans ((Follows.recondition (moves_addActivity hj)).keeps.trans (keeps_settle _))).sound

theorem keeps_deactivate (p : Activity → Bool) (q : Nat → Bool) (s : State) :
    Keeps s (settle (recondition (clearEmptyOrphans q (removeActivity p s)))) :=
  (keeps_emptyOrphans_recondition q (moves_removeActivity p s)).trans (keeps_settle _)

theorem sound_clear (src : Station) (index group : Byte) (s : State) : Answers (execClear src index group s) (Stays s) := by
  unfold execClear
  refine sound_committed (fun c u _ => Sound.dropped ?_)
  exact sound_ite (fun _ => (keeps_deactivate _ _ u).sound) (fun _ => Sound.refl u)

theorem sound_release (src : Station) (group raiser : Byte) (s : State) : Answers (execRelease src group raiser s) (Stays s) := by
  unfold execRelease panelFrame
  refine sound_committed (fun c u _ => Sound.dropped ?_)
  split
  · exact (keeps_deactivate _ _ u).sound
  · exact Sound.refl u

theorem sound_acknowledge (src dst : Station) (index : Byte) (s : State) : Answers (execAcknowledge src dst index s) (Stays s) := by
  unfold execAcknowledge panelFrame
  refine sound_committed (fun c u _ => Sound.dropped ?_)
  split
  · exact ((follows_acknowledgeAlarms _ u).trans (follows_settle _)).keeps.sound
  · exact Sound.refl u

/-! ## Recipes (R31..R34), queries (R153), and the kinds with no effect of their own -/

theorem sound_recipe (src : Station) (f : RecipeFields) (s : State) : Answers (execRecipe src f s) (Stays s) := by
  unfold execRecipe panelFrame
  refine sound_committed (fun c u _ => Sound.dropped ?_)
  split
  · exact (keeps_takeRecipe f u).sound
  · exact Sound.refl u

theorem sound_drop (src : Station) (n : Byte) (s : State) : Answers (execDrop src n s) (Stays s) := by
  unfold execDrop panelFrame
  refine sound_committed (fun c u _ => Sound.dropped ?_)
  split
  · exact (keeps_takeDrop _ u).sound
  · exact Sound.refl u

theorem sound_admit (src dst : Station) (n : Byte) (length : Half) (count : Byte) (s : State) :
    Answers (execAdmit src dst n length count s) (Stays s) := by
  unfold execAdmit panelFrame
  refine sound_committed (fun c u _ => Sound.dropped ?_)
  split
  · exact (keeps_takeAdmit _ _ _ u).sound
  · exact Sound.refl u

/-- A place that was reserved for the REPORT is given up as the REPORT takes it (R164). -/
theorem sound_reservedPush {P Q : Prop} {f : TxFrame} {s : State} (h : s.bus.reservation = some .txPlace) :
    Sound P Q s (dropReservation (s.push f)) where
  uid := rfl
  pending := rfl
  places k := by
    unfold State.TxFits State.txUsed at k ⊢
    rw [h] at k
    show (s.bus.queue ++ [f]).length + 0 ≤ 16
    rw [List.length_append]
    exact k
  grants := id
  derived := id
  off _ k := k
  boards _ k := k
  shares _ k l := ⟨k, l⟩
  loader := rfl
  count := rfl

theorem sound_query (code : Nat) (src dst : Station) (item : Byte) (s : State) :
    Answers (answerQuery code src dst item s) (Stays s) := by
  unfold answerQuery
  refine sound_committed (fun c u h => ?_)
  by_cases hm : c.forMe = true
  · rw [if_pos hm]
    unfold queueReport
    by_cases hr : c.reserved = true
    · rw [if_pos hr]
      exact sound_reservedPush (h.reserved hr)
    · rw [if_neg hr]
      exact (keeps_queueOrDrop _ u).sound.dropped
  · rw [if_neg hm]
    exact (Sound.refl u).dropped

theorem sound_plain (kind src dst : Nat) (payload : List Byte) (s : State) :
    Answers (committed kind src dst payload (fun _ s => s) s) (Stays s) :=
  sound_committed (fun _ u _ => (Sound.refl u).dropped)

/-! ## WATCH (R120) -/

theorem moves_foldl_withdraw (l : List Nat) (s : State) : Follows s (l.foldl (fun s h => withdrawAlarm h s) s) :=
  Follows.foldl (fun s h => follows_withdrawAlarm h s) l s

/-- An entry replaced: the condition is derived again. -/
theorem keeps_entries_recondition (l : List WatchEntry) (u : State) :
    Keeps u (recondition { u with alarms := { u.alarms with entries := l } }) := by
  have hm := moves_recondition { u with alarms := { u.alarms with entries := l } }
  exact
    { fixed := hm.read (fun x => (x.uid, x.loader, x.pending)) (fun _ => rfl)
      count := hm.count
      joined := hm.joined
      places := fun k => hm.places k
      grants := fun k => hm.grants k
      derived := fun _ => derived_recondition _
      rest := fun j r => hm.rest j r
      boards := fun k => boardsOrdered_of_keys (s := { u with alarms := { u.alarms with entries := l } }) hm.cfg hm.count
        hm.queue_keys k
      shares := fun k => sharesBalance_of_eq (s := { u with alarms := { u.alarms with entries := l } }) hm.cfg hm.shares k
      lend := fun _ k w hw hk => by
        have e1 : (recondition { u with alarms := { u.alarms with entries := l } }).bus.onWire = u.bus.onWire :=
          hm.read (fun x => x.bus.onWire) (fun _ => rfl)
        rw [hm.shares, hm.cfg]
        exact k w (e1 ▸ hw) hk
      wire := .inl (hm.read (fun x => x.bus.onWire) (fun _ => rfl))
      ack := fun k => by
        have e1 : (recondition { u with alarms := { u.alarms with entries := l } }).bus.answer.ack = u.bus.answer.ack :=
          hm.read (fun x => x.bus.answer.ack) (fun _ => rfl)
        rw [← e1]; exact k
      claims := fun k => .inl ((hm.read (fun x => x.control.station) (fun _ => rfl)).trans k) }

theorem keeps_installWatch (i : Nat) (e : WatchEntry) (s : State) : Keeps s (recondition (installWatch i e s)) :=
  (moves_foldl_withdraw [holderOf s.alarms.entries i, holderOf (s.alarms.entries.set i e) i].eraseDups s).keeps.trans
    (keeps_entries_recondition _ _)

theorem keeps_installed (i : Nat) (e : WatchEntry) (s : State) : Keeps s (settle (recondition (installWatch i e s))) :=
  (keeps_installWatch i e s).trans (keeps_settle _)

theorem sound_watchInstall (src dst : Station) (index : Byte) (f : WatchFields) (s : State) :
    Answers (execWatchInstall src dst index f s) (Stays s) := by
  unfold execWatchInstall panelFrame
  refine sound_committed (fun c u _ => Sound.dropped ?_)
  split
  · split
    · exact (keeps_installed _ _ u).sound
    · exact Sound.refl u
  · exact Sound.refl u

theorem sound_watchEmpty (src dst : Station) (index : Byte) (s : State) :
    Answers (execWatchEmpty src dst index s) (Stays s) := by
  unfold execWatchEmpty panelFrame
  refine sound_committed (fun c u _ => Sound.dropped ?_)
  split
  · exact (keeps_installed _ _ u).sound
  · exact Sound.refl u

/-! ## MODE, SIGNAL, RESTART (R142, R150, R152) -/

/-- State control's mode and service word, where the premise rules out a station that is not JOINED. -/
theorem sound_control {P Q : Prop} {c : Control} {s : State} (hj : P → s.OffLine → s.joined = true)
    (h1 : c.station = s.control.station) (h2 : c.condition = s.control.condition)
    (h3 : c.tripSensed = s.control.tripSensed) (h4 : c.tripOthers = s.control.tripOthers) :
    Sound P Q s { s with control := c } := by
  have hjj : State.joined { s with control := c } = s.joined := by simp only [State.joined, h1]
  exact
    { uid := rfl
      pending := rfl
      places := id
      grants := fun k => grantsFit_of_le hjj rfl (Nat.le_refl _) (fun _ _ => Nat.le_refl _) k
      derived := fun k => by
        refine ⟨?_, ?_⟩
        · show c.tripSensed = (State.joined _ && s.anyStands .trip || c.tripOthers)
          rw [hjj, h3, h4]
          exact k.1
        · show c.condition = _
          unfold State.derivedCondition
          rw [hjj, h2]
          show _ = if !s.joined then _ else if s.anyStands .trip then _ else if c.tripSensed then _ else _
          rw [h3]
          exact k.2
      off := fun p k j => by
        have := hj p k
        rw [← hjj, j] at this
        cases this
      boards := fun _ k => k
      shares := fun _ k l => ⟨k, l⟩
      loader := rfl
      count := rfl }

theorem sound_setMode {P Q : Prop} {m : Mode} {s : State} (hj : P → s.OffLine → s.joined = true) :
    Sound P Q s (settle (setMode m s)) := by
  unfold setMode
  dsimp only
  refine Sound.trans (t := { s with control := { s.control with
    mode := m
    service := if s.control.mode = .service then 0 else s.control.service } }) (sound_control hj rfl rfl rfl rfl) ?_
  have h : ∀ (c : Prop) [Decidable c] (u : State), Keeps u (settle (queueStatus (testRequest (potUpdate
      (workRequests (if c then serviceBoundary (sprayUpdate u) else sprayUpdate u)))))) := fun c _ u =>
    (((((follows_sprayUpdate u).keeps.trans (Keeps.ite c (keeps_serviceBoundary _) (Keeps.refl _))).trans
      (keeps_workRequests _)).trans (follows_potUpdate _).keeps).trans (keeps_testRequest _)).trans
        ((follows_queueStatus _).keeps.trans (keeps_settle _))
  exact (h _ _).sound

theorem sound_mode (src : Station) (value : Byte) (s : State) : Answers (execMode src value s) (Stays s) := by
  unfold execMode panelFrame
  refine sound_committed (fun c u _ => Sound.dropped ?_)
  split
  · split
    · rename_i h
      refine sound_setMode (fun _ _ => ?_)
      have := (Bool.and_eq_true_iff.1 h).1
      unfold State.takesPanel at this
      exact joined_of_and this
    · exact Sound.refl u
  · exact Sound.refl u

theorem sound_setService {P Q : Prop} {w : BitVec 32} {s : State} (hj : P → s.OffLine → s.joined = true) :
    Sound P Q s (setService w s) := by
  unfold setService
  refine sound_ite (fun _ => Sound.refl s) (fun _ => ?_)
  dsimp only
  refine Sound.trans (t := { s with control := { s.control with service := w } }) (sound_control hj rfl rfl rfl rfl) ?_
  have h : ∀ (c : Prop) [Decidable c] (u : State), Keeps u (settle
      (if c then provingTest (potUpdate (workRequests (forcedFalls (sprayUpdate u))))
        else potUpdate (workRequests (forcedFalls (sprayUpdate u))))) :=
    fun c _ u => (((((follows_sprayUpdate u).trans (follows_forcedFalls _)).keeps.trans (keeps_workRequests _)).trans
      (follows_potUpdate _).keeps).trans (Keeps.ite c ((keeps_mapDucts _ _).trans (keeps_driveDucts _)) (Keeps.refl _))).trans (keeps_settle _)
  exact (h _ _).sound

theorem sound_signal {kind src dst : Nat} (f : State → BitVec 32) (s : State) :
    Answers (committed kind src dst [] (fun c s => if c.forMe then setService (f s) s else s) s) (Stays s) :=
  sound_committed (fun _ u h => (sound_ite (fun hm => sound_setService (fun p _ => h.acked hm p)) (fun _ => Sound.refl u)).dropped)

theorem follows_takeCauses (s : State) : Follows s (takeCauses s) := Follows.foldl (fun s i => follows_takeCause i s) _ s

/-- The blocks at the values RESTART gives them have every invariant but the condition's and the grants'. -/
theorem restartBlocks_spec (s : State) : (restartBlocks s).TxFits ∧ (restartBlocks s).BoardsOrdered
    ∧ (restartBlocks s).SharesBalance ∧ (restartBlocks s).LendCovered ∧ (restartBlocks s).joined = s.joined
    ∧ ((restartBlocks s).uid, (restartBlocks s).loader, (restartBlocks s).pending) = (s.uid, s.loader, s.pending)
    ∧ (restartBlocks s).tracker.count = s.tracker.count := by
  refine ⟨?_, boardsOrdered_nil rfl, sharesBalance_unseated rfl, lendCovered_none rfl, rfl, rfl, rfl⟩
  show 0 + 0 ≤ 16
  exact Nat.zero_le _

/-- RESTART: the invariants hold afterwards, whatever held before (R152). -/
theorem sound_restartStation {P Q : Prop} {s : State} (hj : P → s.OffLine → s.joined = true) : Sound P Q s (restartStation s) := by
  obtain ⟨r1, r2, r3, r4, r5, r6, r7⟩ := restartBlocks_spec s
  have e : restartStation s
      = settle (periodWork (recondition (takeCauses (updateNeighbour [] (queueJoin (restartBlocks s)))))) := rfl
  rw [e]
  clear e
  generalize restartBlocks s = b at r1 r2 r3 r4 r5 r6 r7 ⊢
  have hb : Keeps b (takeCauses (updateNeighbour [] (queueJoin b))) :=
    ((keeps_queueJoin _).trans (keeps_updateNeighbour _ _)).trans (follows_takeCauses _).keeps
  generalize takeCauses (updateNeighbour [] (queueJoin b)) = u at hb ⊢
  have ht : Keeps b (recondition u) := hb.trans (follows_recondition u).keeps
  have hd : (recondition u).Derived := derived_recondition u
  generalize recondition u = v at ht hd ⊢
  have hjv : v.joined = s.joined := ht.joined.trans r5
  have hf := ht.fixed.trans r6
  have hk := keeps_settle (periodWork v)
  have hq : Sound (P ∧ s.OffLine) Q v (periodWork v) := sound_periodWork (fun p _ => hjv.trans (hj p.1 p.2))
  have hg := grantsFit_periodWork v
  have hjp := joined_periodWork v
  have hbp := boards_periodWork (ht.boards r2)
  generalize periodWork v = w at hk hq hg hjp hbp ⊢
  have hall : Sound (P ∧ s.OffLine) Q v (settle w) := hq.trans hk.sound
  have h1 := ht.shares r3
  exact
    { uid := hall.uid.trans (congrArg (fun x => x.1) hf)
      pending := hall.pending.trans (congrArg (fun x => x.2.2) hf)
      places := fun _ => hall.places (ht.places r1)
      grants := fun _ => hk.grants hg
      derived := fun _ => hall.derived hd
      off := fun p k j => by
        rw [hk.joined, hjp, hjv, hj p k] at j
        cases j
      boards := fun _ _ => hk.boards hbp
      shares := fun q _ _ => hall.shares q h1 (ht.lend r3 r4)
      loader := hall.loader.trans (congrArg (fun x => x.2.1) hf)
      count := hall.count.trans (ht.count.trans r7) }

theorem sound_restart (src dst : Station) (s : State) : Answers (execRestart src dst s) (Stays s) := by
  unfold execRestart panelFrame
  refine sound_committed (fun c u h => Sound.dropped ?_)
  split
  · rename_i hm
    exact sound_restartStation (fun p _ => h.acked (Bool.and_eq_true_iff.1 hm).1 p)
  · exact Sound.refl u

/-! ## CLAIM, JOIN, STATUS (R174, R176, R179..R181) -/

theorem keeps_welcome (k : Nat) (s : State) : Keeps s (welcome k s) :=
  ((keeps_peerJoined k s).trans (keeps_updateNeighbour _ _)).trans (keeps_settle _)

theorem keeps_ownNumberHeard (s : State) : Keeps s (ownNumberHeard s) :=
  Keeps.ite _ ((follows_reannounceAll _ s).keeps.trans (keeps_settle _)) (Keeps.refl s)

theorem keeps_othersClaim (f : ClaimFields) (s : State) : Keeps s (othersClaim f s) := by
  unfold othersClaim
  refine Keeps.ite _ (Keeps.refl s) (Keeps.ite _ (keeps_ownNumberHeard s) ?_)
  have h := keeps_writeClaim f.number.toNat f s
  refine Keeps.ite _ (h.trans (keeps_welcome _ _)) ?_
  exact (h.trans (keeps_updateNeighbour _ _)).trans (Keeps.ite _ (keeps_failClaim _) (Keeps.refl _))

theorem keeps_openLineRecord (s : State) : Keeps s (openLineRecord s) := by
  unfold openLineRecord
  obtain ⟨a, b, c, d, e, f, g, h⟩ := lineSensed_keeps true s.control
  refine Keeps.ite _ ?_ (Keeps.refl s)
  refine (Follows.keeps ⟨moves_control a b c d e (fun _ k => f.trans k), fun k => ?_⟩)
  refine ⟨?_, ?_⟩
  · show (lineSensed true s.control).tripSensed = (State.joined _ && s.anyStands .trip || (lineSensed true s.control).tripOthers)
    rw [g, d]
    simp only [State.joined, a]
    exact k.1
  · show (lineSensed true s.control).condition = State.derivedCondition _
    unfold State.derivedCondition
    simp only [State.joined, a]
    rw [f]
    show _ = if !(s.control.station == .joined) then _ else if s.anyStands .trip then _
      else if (lineSensed true s.control).tripSensed then _ else _
    rw [g]
    exact k.2

/-- Seating (R69). -/
theorem sound_seat {P Q : Prop} {s : State} (hw : s.bus.onWire = none) (hj : P → s.OffLine → s.joined = true) :
    Sound P Q s (seat s) := by
  refine sound_setHeld (x := { s.shares with
    state := .seated, lent := [], borrowed := [], needAmount := 0, needTimer := .stopped }) hj rfl (fun _ _ _ => ⟨?_, ?_⟩)
  · unfold State.SharesBalance
    rw [if_neg (by intro e; cases e)]
    exact ⟨rfl, Nat.zero_le _, List.nodup_nil, List.nodup_nil⟩
  · intro w hw'
    rw [show s.bus.onWire = some w from hw'] at hw
    cases hw

/-- The commit of the own CLAIM (R69, R171, R173, R176). -/
theorem sound_becomeJoined {P Q : Prop} {n : Nat} {s : State} (hw : s.bus.onWire = none) : Sound P Q s (becomeJoined n s) := by
  unfold becomeJoined
  generalize hb : enterJoined n s = b
  have b1 : s.TxFits → b.TxFits := by rw [← hb]; exact id
  have b2 : s.BoardsOrdered → b.BoardsOrdered := by rw [← hb]; exact id
  have b3 : s.SharesBalance → b.SharesBalance := by rw [← hb]; exact id
  have b4 : b.joined = true := by rw [← hb]; rfl
  have b5 : (b.uid, b.loader, b.pending) = (s.uid, s.loader, s.pending) := by rw [← hb]; rfl
  have b7 : b.tracker.count = s.tracker.count := by rw [← hb]; rfl
  have b6 : b.bus.onWire = none := by rw [← hb]; exact hw
  clear hb
  dsimp only
  have hs : Sound True True b (takeCauses (openLineRecord (updateNeighbour [] (seat b)))) :=
    (sound_seat b6 (fun _ _ => b4)).trans (((keeps_updateNeighbour _ _).trans (keeps_openLineRecord _)).trans
      (follows_takeCauses _).keeps).sound
  have hj1 : (takeCauses (openLineRecord (updateNeighbour [] (seat b)))).joined = true :=
    ((follows_takeCauses _).keeps.joined.trans ((keeps_openLineRecord _).joined.trans ((keeps_updateNeighbour _ _).joined.trans
      (keeps_seat b4 b6).joined))).trans b4
  generalize takeCauses (openLineRecord (updateNeighbour [] (seat b))) = u at hs hj1 ⊢
  have hr : Keeps u (recondition u) := (follows_recondition u).keeps
  have hd : (recondition u).Derived := derived_recondition u
  generalize recondition u = v at hr hd ⊢
  have ha : Keeps v (reannounceAll v.needsAnnouncing v) := (follows_reannounceAll _ v).keeps
  generalize reannounceAll v.needsAnnouncing v = w at ha ⊢
  have hjw : w.joined = true := ha.joined.trans (hr.joined.trans hj1)
  have hp : Sound True True w (periodWork w) := sound_periodWork (fun _ _ => hjw)
  have hg := grantsFit_periodWork w
  have hjp := joined_periodWork w
  generalize periodWork w = x at hp hg hjp ⊢
  have hk := keeps_settle x
  have hv : Sound True True v (settle x) := ha.sound.trans (hp.trans hk.sound)
  have hall : Sound True True b (settle x) := hs.trans (hr.sound.trans hv)
  exact
    { uid := hall.uid.trans (congrArg (fun x => x.1) b5)
      pending := hall.pending.trans (congrArg (fun x => x.2.2) b5)
      places := fun k => hall.places (b1 k)
      grants := fun _ => hk.grants hg
      derived := fun _ => hv.derived hd
      off := fun _ _ j => by
        rw [hk.joined, hjp, hjw] at j
        cases j
      boards := fun _ k => hall.boards trivial (b2 k)
      shares := fun _ k _ => hall.shares trivial (b3 k) (lendCovered_none b6)
      loader := hall.loader.trans (congrArg (fun x => x.2.1) b5)
      count := hall.count.trans b7 }

theorem sound_claim (f : ClaimFields) (s : State) : Answers (execClaim f s) (Stays s) := by
  unfold execClaim
  refine sound_committed (fun c u h => Sound.dropped ?_)
  split
  · exact sound_becomeJoined h.free
  · exact (keeps_othersClaim f u).sound

theorem sound_join (src : Station) (f : JoinFields) (s : State) : Answers (execJoin src f s) (Stays s) := by
  unfold execJoin
  refine sound_committed (fun c u h => Sound.dropped ?_)
  split
  · rename_i ho
    refine Sound.trans (sound_seat h.free (fun p _ => h.sent ho (by decide) p)) (Keeps.sound ?_)
    show Keeps (seat u) (settle (reannounceAll (seat u).needsAnnouncing (seat u)))
    generalize seat u = v
    exact (follows_reannounceAll _ v).keeps.trans (keeps_settle _)
  · refine sound_ite (fun _ => (keeps_ownNumberHeard u).sound) (fun _ => ?_)
    split
    · exact Sound.refl u
    · have k := keeps_writeJoin src.toNat f u
      exact sound_ite (fun _ => (k.trans (keeps_welcome _ _)).sound) (fun _ => (k.trans (keeps_updateNeighbour _ _)).sound)

theorem sound_status (src : Station) (f : StatusFields) (s : State) : Answers (execStatus src f s) (Stays s) := by
  unfold execStatus
  refine sound_committed (fun c u h => Sound.dropped ?_)
  split
  · exact Sound.refl u
  · exact ((keeps_writeStatus _ f u).trans (keeps_settle _)).sound

end Sys2Proof.Machine
end

