-- ==== Sys2Proof/Laws/PerInstr.lean ====
section
/-! SUPPORT. One lemma for each command: no word of the table spells it, since the table's rows give no bits. -/

namespace Sys2Proof.Laws.Unspelled

open Sys2Proof

/-- No word spells the command. -/
def Statement (i : Instr) : Prop := ∀ nbits w : Nat, decodeTableWord nbits w ≠ some i

theorem startReset (pinHeld : Bool) : Statement (.startReset pinHeld) := fun _ _ h => nomatch h

theorem imageReadEnd (image : List Byte) : Statement (.imageReadEnd image) := fun _ _ h => nomatch h

theorem countEvent (forward : Bool) : Statement (.countEvent forward) := fun _ _ h => nomatch h

theorem entryLeadingEdge : Statement (.entryLeadingEdge) := fun _ _ h => nomatch h

theorem entryTrailingEdge : Statement (.entryTrailingEdge) := fun _ _ h => nomatch h

theorem eyeLeadingEdge : Statement (.eyeLeadingEdge) := fun _ _ h => nomatch h

theorem flowPulse : Statement (.flowPulse) := fun _ _ h => nomatch h

theorem permitLineChange (othersPull : Bool) : Statement (.permitLineChange othersPull) := fun _ _ h => nomatch h

theorem tripLineChange (othersPull : Bool) : Statement (.tripLineChange othersPull) := fun _ _ h => nomatch h

theorem sampleEvent (inputs : Samples) : Statement (.sampleEvent inputs) := fun _ _ h => nomatch h

theorem periodStart : Statement (.periodStart) := fun _ _ h => nomatch h

theorem heaterOnEdge (channel : Fin 8) : Statement (.heaterOnEdge channel) := fun _ _ h => nomatch h

theorem heaterOffEdge (channel : Fin 8) : Statement (.heaterOffEdge channel) := fun _ _ h => nomatch h

theorem pulseEnd (nozzle : Fin 8) : Statement (.pulseEnd nozzle) := fun _ _ h => nomatch h

theorem flowLagExpiry (board : Half) : Statement (.flowLagExpiry board) := fun _ _ h => nomatch h

theorem presenceEvent : Statement (.presenceEvent) := fun _ _ h => nomatch h

theorem agingSweep : Statement (.agingSweep) := fun _ _ h => nomatch h

theorem claimListenExpiry : Statement (.claimListenExpiry) := fun _ _ h => nomatch h

theorem contactTimerExpiry (timer : ContactId) : Statement (.contactTimerExpiry timer) := fun _ _ h => nomatch h

theorem needExpiry : Statement (.needExpiry) := fun _ _ h => nomatch h

theorem holdOverExpiry : Statement (.holdOverExpiry) := fun _ _ h => nomatch h

theorem stallTimerExpiry : Statement (.stallTimerExpiry) := fun _ _ h => nomatch h

theorem settleExpiry (pump : PumpId) : Statement (.settleExpiry pump) := fun _ _ h => nomatch h

theorem feedRunExpiry : Statement (.feedRunExpiry) := fun _ _ h => nomatch h

theorem proveTimeout (duct : Fin 2) : Statement (.proveTimeout duct) := fun _ _ h => nomatch h

theorem runOnExpiry : Statement (.runOnExpiry) := fun _ _ h => nomatch h

theorem busyBackoffEnd (place : Fin 16) : Statement (.busyBackoffEnd place) := fun _ _ h => nomatch h

theorem busStuck : Statement (.busStuck) := fun _ _ h => nomatch h

theorem frameStart : Statement (.frameStart) := fun _ _ h => nomatch h

theorem startOfTransmission : Statement (.startOfTransmission) := fun _ _ h => nomatch h

theorem lostArbitration : Statement (.lostArbitration) := fun _ _ h => nomatch h

theorem ackSlot (frame : RawFrame) : Statement (.ackSlot frame) := fun _ _ h => nomatch h

theorem frameOutcome (slots : Slots) : Statement (.frameOutcome slots) := fun _ _ h => nomatch h

theorem hand (src dst : Station) (fields : HandFields) : Statement (.hand src dst fields) := fun _ _ h => nomatch h

theorem amendMark (src : Station) (board : Half) (station code : Byte) : Statement (.amendMark src board station code) := fun _ _ h => nomatch h

theorem amendLength (src : Station) (board : Half) (length : Half) : Statement (.amendLength src board length) := fun _ _ h => nomatch h

theorem amendPosition (src : Station) (board : Half) (pos : Pos) : Statement (.amendPosition src board pos) := fun _ _ h => nomatch h

theorem recipe (src : Station) (fields : RecipeFields) : Statement (.recipe src fields) := fun _ _ h => nomatch h

theorem drop (src : Station) (number : Byte) : Statement (.drop src number) := fun _ _ h => nomatch h

theorem admitBoards (src dst : Station) (number : Byte) (length : Half) (count : Byte) : Statement (.admitBoards src dst number length count) := fun _ _ h => nomatch h

theorem need (src : Station) (amount : Half) : Statement (.need src amount) := fun _ _ h => nomatch h

theorem lend (src dst : Station) (amount : Half) : Statement (.lend src dst amount) := fun _ _ h => nomatch h

theorem returnShares (src dst : Station) (amount : Half) : Statement (.returnShares src dst amount) := fun _ _ h => nomatch h

theorem recallShares (src dst : Station) (amount : Half) : Statement (.recallShares src dst amount) := fun _ _ h => nomatch h

theorem alarm (src : Station) (fields : AlarmFields) : Statement (.alarm src fields) := fun _ _ h => nomatch h

theorem clear (src : Station) (index group : Byte) : Statement (.clear src index group) := fun _ _ h => nomatch h

theorem acknowledge (src dst : Station) (index : Byte) : Statement (.acknowledge src dst index) := fun _ _ h => nomatch h

theorem watchInstall (src dst : Station) (index : Byte) (fields : WatchFields) : Statement (.watchInstall src dst index fields) := fun _ _ h => nomatch h

theorem watchEmpty (src dst : Station) (index : Byte) : Statement (.watchEmpty src dst index) := fun _ _ h => nomatch h

theorem release (src : Station) (group raiser : Byte) : Statement (.release src group raiser) := fun _ _ h => nomatch h

theorem mode (src : Station) (value : Byte) : Statement (.mode src value) := fun _ _ h => nomatch h

theorem signalWrite (src dst : Station) (value : BitVec 32) : Statement (.signalWrite src dst value) := fun _ _ h => nomatch h

theorem signalSet (src dst : Station) (value : BitVec 32) : Statement (.signalSet src dst value) := fun _ _ h => nomatch h

theorem signalClear (src dst : Station) (value : BitVec 32) : Statement (.signalClear src dst value) := fun _ _ h => nomatch h

theorem signalInvert (src dst : Station) (value : BitVec 32) : Statement (.signalInvert src dst value) := fun _ _ h => nomatch h

theorem restart (src dst : Station) : Statement (.restart src dst) := fun _ _ h => nomatch h

theorem queryStation (src dst : Station) (item : Byte) : Statement (.queryStation src dst item) := fun _ _ h => nomatch h

theorem queryDirectory (src dst : Station) (item : Byte) : Statement (.queryDirectory src dst item) := fun _ _ h => nomatch h

theorem queryBoards (src dst : Station) (item : Byte) : Statement (.queryBoards src dst item) := fun _ _ h => nomatch h

theorem queryBoard (src dst : Station) (item : Byte) : Statement (.queryBoard src dst item) := fun _ _ h => nomatch h

theorem queryRecipe (src dst : Station) (item : Byte) : Statement (.queryRecipe src dst item) := fun _ _ h => nomatch h

theorem queryWatch (src dst : Station) (item : Byte) : Statement (.queryWatch src dst item) := fun _ _ h => nomatch h

theorem queryAlarms (src dst : Station) (item : Byte) : Statement (.queryAlarms src dst item) := fun _ _ h => nomatch h

theorem queryFirstout (src dst : Station) (item : Byte) : Statement (.queryFirstout src dst item) := fun _ _ h => nomatch h

theorem queryLoans (src dst : Station) (item : Byte) : Statement (.queryLoans src dst item) := fun _ _ h => nomatch h

theorem queryGroup (src dst : Station) (item : Byte) : Statement (.queryGroup src dst item) := fun _ _ h => nomatch h

theorem claim (fields : ClaimFields) : Statement (.claim fields) := fun _ _ h => nomatch h

theorem join (src : Station) (fields : JoinFields) : Statement (.join src fields) := fun _ _ h => nomatch h

theorem status (src : Station) (fields : StatusFields) : Statement (.status src fields) := fun _ _ h => nomatch h

theorem done (src dst : Station) (fields : HandFields) : Statement (.done src dst fields) := fun _ _ h => nomatch h

theorem report (src dst : Station) (code item : Byte) (content : List Byte) : Statement (.report src dst code item content) := fun _ _ h => nomatch h

theorem noKindFrame (src dst : Station) (kind : BitVec 5) (payload : List Byte) : Statement (.noKindFrame src dst kind payload) := fun _ _ h => nomatch h

theorem busIdle : Statement (.busIdle) := fun _ _ h => nomatch h

theorem resetPinRelease : Statement (.resetPinRelease) := fun _ _ h => nomatch h

end Sys2Proof.Laws.Unspelled
end

