-- ==== Sys2Proof/Laws/Wholes.lean ====
section
/-! SUPPORT. Whole states and bytes: the image and its checks, the reports, the heater outputs, the stall timer, an AMEND, the own
CLAIM, a RESTART, and what a released pulse makes of the nozzles. -/

namespace Sys2Proof.Machine

open Sys2Proof

/-! ## Bytes and the check (R157, R186, R189) -/

theorem byteAt_eq (l : List Byte) (i : Nat) : byteAt l i = (l.getD i 0).toNat := rfl

theorem numbersAt_eq (l : List Byte) (i : Nat) : halfAt l i = 256 * byteAt l i + byteAt l (i + 1) ∧
    posAt l i = 65536 * byteAt l i + 256 * byteAt l (i + 1) + byteAt l (i + 2) ∧
    wordAt l i = 16777216 * byteAt l i + 65536 * byteAt l (i + 1) + 256 * byteAt l (i + 2) + byteAt l (i + 3) := by
  have h : ∀ k, halfAt l k = byteAt l k * 256 + byteAt l (k + 1) := fun _ => rfl
  refine ⟨?_, ?_, ?_⟩
  · rw [h]; omega
  · show halfAt l i * 256 + byteAt l (i + 2) = _
    rw [h]; omega
  · show halfAt l i * 65536 + halfAt l (i + 2) = _
    rw [h, h, show i + 2 + 1 = i + 3 from rfl]; omega

theorem bitOf_eq (n i : Nat) : bitOf n i = n.testBit i := by
  unfold bitOf
  rw [Nat.testBit_eq_decide_div_mod_eq]
  rfl

theorem signed16_eq (n : Nat) : signed16 n = if n < 32768 then (n : Int) else (n : Int) - 65536 := rfl

theorem crcBytes_eq (b : Byte) (l : List Byte) (acc : Nat) : crcBytes [] acc = acc ∧
    crcBytes (b :: l) acc = crcBytes l (crcBits 8 b.toNat acc) := ⟨rfl, rfl⟩

theorem crcBits_eq (w n acc : Nat) : crcBits 0 n acc = acc ∧ crcBits (w + 1) n acc = crcBits w n
    (if (acc / 32768 + n / 2 ^ w % 2) % 2 = 1 then Nat.xor (acc * 2 % 65536) 0x1021 else acc * 2 % 65536) := ⟨rfl, rfl⟩

/-! ## The image (R185, R186, 13.5) -/

theorem imageBytes_eq (image : List Byte) : imageBytes image = (image ++ List.replicate 402 255).take 402 := rfl

theorem imageAccepted_iff (l : List Byte) : imageAccepted l = true ↔
    imageSound l = true ∧ stationRanges l = true ∧ processRanges l = true ∧ alarmRanges l = true ∧ rolesGood l = true := by
  unfold imageAccepted rangesGood
  simp only [Bool.and_eq_true, and_assoc]

theorem imageSound_iff (l : List Byte) : imageSound l = true ↔
    halfAt l 0 = 0xA548 ∧ halfAt l 2 = 402 ∧ halfAt l 400 = crcBytes (l.take 400) 65535 := by
  unfold imageSound markerGood lengthGood crcGood
  simp only [Bool.and_eq_true, beq_iff_eq, and_assoc]

theorem stationRanges_iff (l : List Byte) : stationRanges l = true ↔
    1 ≤ byteAt l 4 ∧ byteAt l 4 ≤ 29 ∧ byteAt l 5 < 16 ∧ posAt l 6 < posAt l 9 ∧ 1 ≤ posAt l 21 ∧
    1 ≤ byteAt l 28 ∧ byteAt l 28 ≤ 3 ∧ 100 ≤ halfAt l 29 ∧ halfAt l 29 ≤ 2000 ∧ 2 * halfAt l 29 ≤ halfAt l 31 ∧
    halfAt l 31 ≤ 60000 ∧ 1 ≤ halfAt l 34 ∧ halfAt l 34 ≤ 4000 ∧ halfAt l 36 ≤ halfAt l 34 := by
  unfold stationRanges rateGood
  simp only [Bool.and_eq_true, decide_eq_true_eq, and_assoc]

theorem processRanges_iff (l : List Byte) : processRanges l = true ↔
    5 ≤ byteAt l 42 ∧ byteAt l 42 ≤ 100 ∧
    (∀ n, n < 8 → byteAt l (43 + 9 * n) ≤ 10 ∧ halfAt l (44 + 9 * n) ≤ 400 ∧ byteAt l (46 + 9 * n) ≤ 3) ∧
    byteAt l 115 ≤ 7 ∧ signed16 (halfAt l 118) < signed16 (halfAt l 120) ∧ signed16 (halfAt l 122) < signed16 (halfAt l 118) ∧
    byteAt l 143 ≤ 8 := by
  unfold processRanges channelRanges
  simp only [Bool.and_eq_true, decide_eq_true_eq, List.all_eq_true, List.mem_range, and_assoc]

theorem optMarkOk_iff (c : Nat) : optMarkOk c = true ↔ c = 0 ∨ (16 ≤ c ∧ c ≤ 63) := by
  unfold optMarkOk
  simp only [Bool.or_eq_true, Bool.and_eq_true, decide_eq_true_eq, beq_iff_eq]

theorem actionOf_none {n : Nat} : actionOf n = none ↔ ¬(1 ≤ n ∧ n ≤ 4) := by
  match n with
  | 0 => simp [actionOf]
  | 1 | 2 | 3 | 4 => simp [actionOf]
  | n + 5 => simp [actionOf]

/-- A watch entry is in range exactly when each of its fields is. -/
theorem watchOf_isSome_iff {q c t m ch p a g k : Nat} : (watchOf q c t m ch p a g k).isSome = true ↔
    q < 30 ∧ c < 2 ∧ ch / 8 % 16 = 0 ∧ 1 ≤ p ∧ p ≤ 15 ∧ 1 ≤ a ∧ a ≤ 4 ∧ g ≤ 8 ∧ (k = 0 ∨ (16 ≤ k ∧ k ≤ 63)) := by
  unfold watchOf
  cases h : actionOf a with
  | none =>
    have := actionOf_none.1 h
    simp only [Option.isSome_none, Bool.false_eq_true, false_iff]
    rintro ⟨_, _, _, _, _, x, y, _⟩
    exact this ⟨x, y⟩
  | some b =>
    have n : 1 ≤ a ∧ a ≤ 4 := by
      apply Classical.byContradiction
      intro n
      rw [actionOf_none.2 n] at h
      cases h
    rw [← optMarkOk_iff]
    simp only [n.1, n.2, true_and]
    split
    · rename_i x
      simpa [Bool.and_eq_true, and_assoc] using x
    · rename_i x
      simpa [Bool.and_eq_true, and_assoc] using x

theorem watchAt_isSome_iff (l : List Byte) (i : Nat) : (watchAt l i).isSome = true ↔
    byteAt l i < 30 ∧ byteAt l (i + 1) < 2 ∧ byteAt l (i + 6) / 8 % 16 = 0 ∧ 1 ≤ byteAt l (i + 7) ∧ byteAt l (i + 7) ≤ 15 ∧
    1 ≤ byteAt l (i + 8) ∧ byteAt l (i + 8) ≤ 4 ∧ byteAt l (i + 9) ≤ 8 ∧
    (byteAt l (i + 10) = 0 ∨ (16 ≤ byteAt l (i + 10) ∧ byteAt l (i + 10) ≤ 63)) :=
  watchOf_isSome_iff

theorem alarmRanges_iff (l : List Byte) : alarmRanges l = true ↔
    byteAt l 146 < 4 ∧ (byteAt l 159 = 3 ∨ byteAt l 159 = 4) ∧ (byteAt l 160 = 3 ∨ byteAt l 160 = 4) ∧ byteAt l 161 ≤ 1 ∧
    (∀ i, i < 13 → byteAt l (162 + i) ≤ 8) ∧
    (∀ i, i < 8 → wordAt l (175 + 6 * i) % 2 = 0 ∧ wordAt l (175 + 6 * i) < 2 ^ 30 ∧ byteAt l (179 + 6 * i) < 32 ∧
      (byteAt l (180 + 6 * i) = 0 ∨ (16 ≤ byteAt l (180 + 6 * i) ∧ byteAt l (180 + 6 * i) ≤ 63))) ∧
    byteAt l 223 ≤ 16 ∧ (∀ n, n < byteAt l 223 → (watchAt l (224 + 11 * n)).isSome = true) ∧
    (byteAt l 223 = 0 ∨ byteAt l 223 = 16 ∨ bitOf (byteAt l (230 + 11 * (byteAt l 223 - 1))) 7 = false) := by
  unfold alarmRanges groupRanges
  simp only [Bool.and_eq_true, Bool.or_eq_true, decide_eq_true_eq, beq_iff_eq, List.all_eq_true, List.mem_range, and_assoc,
    optMarkOk_iff, Bool.not_eq_true', or_assoc]

theorem rolesGood_iff (l : List Byte) : rolesGood l = true ↔
    (bitOf (byteAt l 5) 0 = true → posAt l 14 = 0) ∧
    (bitOf (byteAt l 5) 1 = true → 1 ≤ byteAt l 143 ∧ byteAt l 143 ≤ 8) ∧
    (bitOf (byteAt l 5) 3 = true → byteAt l (43 + 9 * byteAt l 115) = 9) := by
  have h : ∀ (a : Bool) (p : Prop), (a = false ∨ p) ↔ (a = true → p) := by
    intro a p
    cases a <;> simp
  unfold rolesGood
  simp only [Bool.and_eq_true, Bool.or_eq_true, decide_eq_true_eq, beq_iff_eq, Bool.not_eq_true', and_assoc, h]

theorem zoneOf_eq (k : Nat) : zoneOf k = if k = 0 then .unused else if k = 9 then .pot else if k = 10 then .standbyOnly
    else .preheat k := by
  match k with
  | 0 | 1 | 2 | 3 | 4 | 5 | 6 | 7 | 8 | 9 | 10 => rfl
  | k + 11 =>
    rw [if_neg (by omega), if_neg (by omega), if_neg (by omega)]
    rfl

/-- The fields of an image, by their places (13.5). -/
theorem parseImage_eq (l : List Byte) : parseImage l =
    { preferred := byteAt l 4
      roles := ⟨bitOf (byteAt l 5) 0, bitOf (byteAt l 5) 1, bitOf (byteAt l 5) 2, bitOf (byteAt l 5) 3⟩
      winStart := posAt l 6, winEnd := posAt l 9, handoverLead := halfAt l 12
      eyePos := if posAt l 14 = 16777215 then none else some (posAt l 14)
      eyeTolerance := halfAt l 17, lengthTolerance := halfAt l 19, countsPerMetre := posAt l 21, stallTime := halfAt l 24
      holdOverTime := halfAt l 26, bitRate := byteAt l 28, presencePeriod := halfAt l 29, agingInterval := halfAt l 31
      busyBackoff := byteAt l 33, cap := halfAt l 34, base := halfAt l 36, lendMargin := halfAt l 38
      returnHysteresis := halfAt l 40, heaterPeriod := byteAt l 42
      channels := (List.range 8).map (fun n => ⟨zoneOf (byteAt l (43 + 9 * n)), halfAt l (43 + 9 * n + 1),
        byteAt l (43 + 9 * n + 3), byteAt l (43 + 9 * n + 4), byteAt l (43 + 9 * n + 5), byteAt l (43 + 9 * n + 6),
        signed16 (halfAt l (43 + 9 * n + 7))⟩)
      refChannel := byteAt l 115, meltSafe := signed16 (halfAt l 116), feedOn := signed16 (halfAt l 118)
      feedOff := signed16 (halfAt l 120), lowLow := signed16 (halfAt l 122), feedLimit := halfAt l 124
      mainDrawdown := halfAt l 126, chipDrawdown := halfAt l 128, wavePos := posAt l 130, raiseLead := halfAt l 133
      lowerLag := halfAt l 135, rampRate := byteAt l 137, settleTime := halfAt l 138, sprayPos := posAt l 140
      nozzleCount := byteAt l 143, flowLag := halfAt l 144
      ductEnabled := [bitOf (byteAt l 146) 0, bitOf (byteAt l 146) 1], proveThreshold := halfAt l 147
      lossThreshold := halfAt l 149, proveHold := byteAt l 151, lossSamples := byteAt l 152, proveTimeout := halfAt l 153
      runOnTime := halfAt l 155, heatThreshold := signed16 (halfAt l 157)
      failedLevel := if byteAt l 159 = 4 then .trip else .hold, lostLevel := if byteAt l 160 = 4 then .trip else .hold
      lostLatching := byteAt l 161 == 1, builtinGroups := (List.range 13).map (fun i => byteAt l (162 + i))
      groups := (List.range 8).map (fun i => ⟨BitVec.ofNat 32 (wordAt l (175 + 6 * i)),
        BitVec.ofNat 8 (byteAt l (179 + 6 * i)), byteAt l (180 + 6 * i)⟩)
      fixedWatches := (List.range (byteAt l 223)).filterMap (fun n => watchAt l (224 + 11 * n)) } := rfl

theorem actionCode_of {n : Nat} {a : Action} (h : actionOf n = some a) : actionCode a = n := by
  match n with
  | 0 => cases h
  | 1 | 2 | 3 | 4 => cases h; rfl
  | n + 5 => cases h

/-- The fields of a watch entry, by their places (13.3). -/
theorem watchOf_fields {q c t m ch p a g k : Nat} {d : WatchDef} (h : watchOf q c t m ch p a g k = some d) :
    d.quantity = q ∧ d.above = (c == 0) ∧ d.threshold = signed16 t ∧ d.margin = m ∧ d.inIdle = bitOf ch 0 ∧
    d.inRun = bitOf ch 1 ∧ d.inService = bitOf ch 2 ∧ d.chain = bitOf ch 7 ∧ d.persistence = p ∧ actionCode d.action = a ∧
    d.group = g ∧ d.mark = k := by
  unfold watchOf at h
  cases n : actionOf a with
  | none => rw [n] at h; cases h
  | some b =>
    rw [n] at h
    dsimp only at h
    split at h
    · cases h
      exact ⟨rfl, rfl, rfl, rfl, rfl, rfl, rfl, rfl, rfl, actionCode_of n, rfl, rfl⟩
    · cases h

theorem watchAt_fields {l : List Byte} {i : Nat} {d : WatchDef} (h : watchAt l i = some d) :
    d.quantity = byteAt l i ∧ d.above = (byteAt l (i + 1) == 0) ∧ d.threshold = signed16 (halfAt l (i + 2)) ∧
    d.margin = halfAt l (i + 4) ∧ d.inIdle = bitOf (byteAt l (i + 6)) 0 ∧ d.inRun = bitOf (byteAt l (i + 6)) 1 ∧
    d.inService = bitOf (byteAt l (i + 6)) 2 ∧ d.chain = bitOf (byteAt l (i + 6)) 7 ∧ d.persistence = byteAt l (i + 7) ∧
    actionCode d.action = byteAt l (i + 8) ∧ d.group = byteAt l (i + 9) ∧ d.mark = byteAt l (i + 10) :=
  watchOf_fields h

theorem loadedEntries_eq (c : StationConfig) : loadedEntries c = (List.range 16).map (fun n => match c.fixedWatches[n]? with
    | some d => .fixed d
    | none => .empty) := rfl

/-! ## Reports (R154, R173, R190) -/

theorem bytes_eq (n : Nat) (v : Int) (b : Bool) : byte1 n = [BitVec.ofNat 8 n] ∧
    byte2 n = [BitVec.ofNat 8 (n / 256), BitVec.ofNat 8 n] ∧
    byte3 n = [BitVec.ofNat 8 (n / 65536), BitVec.ofNat 8 (n / 256), BitVec.ofNat 8 n] ∧
    byte4 n = byte2 (n / 65536) ++ byte2 n ∧ byte6 n = byte2 (n / 4294967296) ++ byte4 n ∧
    byteS v = byte2 (v.emod 65536).toNat ∧ flag b n = if b = true then 2 ^ n else 0 := ⟨rfl, rfl, rfl, rfl, rfl, rfl, rfl⟩

theorem reportContent_station (item : Nat) (s : State) : reportContent 1 item s =
    byte1 (rolesByte s.cfg.roles) ++ byte1 s.control.mode.code ++ byte1 s.control.condition.code ++ byte1 s.alarmLevel
      ++ byte2 s.shares.held ++ byte2 s.cfg.base ++ byte2 (loanSum s.shares.lent) ++ byte2 (loanSum s.shares.borrowed)
      ++ byte1 (s.dir.incarnation.getD 0) ++ byte1 s.tracker.queue.length ++ byte4 s.control.service.toNat
      ++ byte2 s.tracker.unreported ++ byte2 s.bus.stuckCount ++ byte2 s.bus.failed := rfl

theorem reportContent_directory_own {n : Nat} {s : State} (h : n = s.dir.own) : reportContent 2 n s =
    entryReport n ⟨some s.uid, BitVec.ofNat 8 (rolesByte s.cfg.roles), some (s.cfg.winStart, s.cfg.winEnd),
      s.dir.incarnation, false, false, none⟩ := if_pos h

theorem reportContent_directory_none {n : Nat} {s : State} (h : n ≠ s.dir.own) (k : s.entry n = none) :
    reportContent 2 n s = [] := by
  show directoryReport n s = []
  unfold directoryReport
  rw [if_neg h, k]

theorem reportContent_directory {n : Nat} {s : State} {e : DirEntry} (h : n ≠ s.dir.own) (k : s.entry n = some e) :
    reportContent 2 n s = entryReport n e := by
  show directoryReport n s = _
  unfold directoryReport
  rw [if_neg h, k]

theorem entryReport_eq {n : Nat} {e : DirEntry} {w : Nat × Nat} {m : Summary} (hw : w = e.window.getD (0, 0))
    (hm : m = e.summary.getD ⟨0, 0, 0, 0, 0, 0⟩) : entryReport n e =
    byte1 n ++ byte1 (flag e.uid.isSome 0 + flag e.window.isSome 1 + flag e.incarnation.isSome 2 + flag e.summary.isSome 3)
      ++ byte1 (flag e.quiet 0 + flag e.touched 7) ++ byte6 (e.uid.getD 0).toNat ++ [e.roles &&& 31] ++ byte3 w.1 ++ byte3 w.2
      ++ byte1 (e.incarnation.getD 0) ++ byte1 m.mode ++ byte1 m.condition ++ byte1 m.level ++ byte2 m.held ++ byte2 m.base
      ++ byte1 m.boards := by
  subst hw hm
  show _ ++ _ ++ _ ++ _ ++ _ ++ (_ ++ _) ++ _ ++ _ ++ _ ++ _ ++ _ ++ _ ++ _ = _
  simp only [List.append_assoc]

theorem reportContent_boards (p : Nat) (s : State) : reportContent 3 p s = byte1 s.tracker.queue.length
    ++ ((s.tracker.queue.drop p).take 7).flatMap (fun b => byte2 b.line.id ++ byte3 (s.pos b)) := rfl

theorem reportContent_board_none {p : Nat} {s : State} (h : s.tracker.queue[p]? = none) : reportContent 4 p s = [] := by
  show boardReport p s = []
  unfold boardReport
  rw [h]

theorem reportContent_board {p : Nat} {s : State} {b : Board} (h : s.tracker.queue[p]? = some b) : reportContent 4 p s =
    lineBytes b.line (s.pos b) ++ (byte1 (b.handed.getD 0)
      ++ byte1 (flag b.confirmed 0 + flag b.seenMissing 1 + flag b.noRecipeNoted 2 + flag b.notFluxed 3 + flag b.waveContact 4)
      ++ byte1 (b.slot.getD 255) ++ byte1 b.phase.code ++ byte2 b.nextDot ++ byte2 b.dotsFired ++ byte2 b.dotsSkipped
      ++ byte2 b.flowPulses) := by
  show boardReport p s = _
  unfold boardReport
  rw [h]
  rfl

theorem lineBytes_eq (r : LineRecord) (pos : Nat) : lineBytes r pos = byte2 r.id ++ byte1 r.recipe ++ byte1 r.version
    ++ byte2 r.length ++ byte3 pos ++ byte1 (flag r.unannounced 0 + flag r.lengthFinal 1 + flag r.markOverflow 2)
    ++ byte1 r.marks.length ++ r.marks.flatMap (fun m => byte1 m.station ++ byte1 m.code) := rfl

theorem reportContent_recipe {i : Nat} {s : State} {sl : Slot} (h : sl = s.recipes.slots.getD i .blank) :
    reportContent 5 i s = byte1 sl.state.code ++ byte1 sl.refs ++ (byte1 sl.number ++ byte1 sl.version
      ++ byte1 (flag sl.isDefault 0 + flag sl.body.mainWave 1 + flag sl.body.chipWave 2)
      ++ ((List.range 8).flatMap (fun i => byteS (sl.body.zones.getD i 0))) ++ byteS sl.body.pot
      ++ byte1 sl.body.mainSpeed ++ byte1 sl.body.chipSpeed ++ byte1 sl.body.pulse ++ byte1 sl.body.pitch
      ++ byte1 sl.body.margin ++ [sl.body.mask] ++ byte1 sl.body.flow) := by
  subst h
  rfl

theorem reportContent_watch_empty {i : Nat} {s : State} (h : s.watch i = .empty) : reportContent 6 i s = byte1 0 := by
  show watchReport i s = _
  unfold watchReport
  rw [h]

theorem reportContent_watch_fixed {i : Nat} {s : State} {d : WatchDef} (h : s.watch i = .fixed d) :
    reportContent 6 i s = byte1 1 ++ watchBytes d := by
  show watchReport i s = _
  unfold watchReport
  rw [h]

theorem reportContent_watch_panel {i : Nat} {s : State} {d : WatchDef} (h : s.watch i = .panel d) :
    reportContent 6 i s = byte1 2 ++ watchBytes d := by
  show watchReport i s = _
  unfold watchReport
  rw [h]

theorem watchBytes_eq (d : WatchDef) : watchBytes d = byte1 d.quantity ++ byte1 (if d.above = true then 0 else 1)
    ++ byteS d.threshold ++ byte2 d.margin
    ++ byte1 (flag d.inIdle 0 + flag d.inRun 1 + flag d.inService 2 + flag d.chain 7)
    ++ byte1 d.persistence ++ byte1 (actionCode d.action) ++ byte1 d.group ++ byte1 d.mark := rfl

theorem reportContent_alarms (item : Nat) (s : State) : reportContent 7 item s = (List.range 29).flatMap (fun i =>
    byte1 ((s.record i).state.code + flag (s.record i).announced 3 + flag (s.record i).announceOwed 4
      + flag (s.record i).clearOwed 5)) := rfl

theorem reportContent_firstout {item : Nat} {s : State} {held line : List Byte}
    (h1 : ∀ f : FirstOut, s.alarms.firstOut = some f →
      held = byte1 1 ++ byte1 f.index ++ byteS f.value ++ byte2 f.board ++ byte1 f.later)
    (h2 : s.alarms.firstOut = none → held = [0, 0, 0, 0, 0, 0, 0])
    (h3 : ∀ v : Nat × Nat, s.control.lineValue = some v → line = byte1 v.1 ++ byte1 v.2)
    (h4 : s.control.lineValue = none → line = [0, 0]) :
    reportContent 8 item s = held ++ byte1 s.control.lineState.code ++ line := by
  show firstoutReport s = _
  unfold firstoutReport
  cases ha : s.alarms.firstOut <;> cases hb : s.control.lineValue
  · rw [h2 ha, h4 hb]
    rfl
  · rw [h2 ha, h3 _ hb]
    rfl
  · rw [h1 _ ha, h4 hb]
  · rw [h1 _ ha, h3 _ hb]

theorem reportContent_loans (item : Nat) (s : State) (l : List Loan)
    (h : l = if item = 0 then s.shares.lent else s.shares.borrowed) : reportContent 9 item s =
    byte1 l.length ++ l.flatMap (fun r => byte1 r.peer ++ byte2 r.amount) := by
  subst h
  rfl

theorem reportContent_group (g : Nat) (s : State) : reportContent 10 g s =
    byte1 (flag (decide (∃ a ∈ s.groups.activity, a.group = g)) 0) ++ [(s.group g).actions] ++ byte1 (s.group g).mark
      ++ byte4 ((List.range 32).map (fun r => flag (decide (∃ a ∈ s.groups.activity, a.group = g ∧ a.raiser = r)) r)).sum
      ++ byte4 ((List.range 32).map (fun r => flag (decide (r ∈ s.groups.orphans)) r)).sum := by
  have a : s.groupInForce g = decide (∃ a ∈ s.groups.activity, a.group = g) := by
    rw [Bool.eq_iff_iff]
    simp [State.groupInForce]
  have b : ∀ r, s.groups.activity.any (fun a => a.group == g && a.raiser == r)
      = decide (∃ a ∈ s.groups.activity, a.group = g ∧ a.raiser = r) := by
    intro r
    rw [Bool.eq_iff_iff]
    simp
  have c : ∀ r, s.groups.orphans.contains r = decide (r ∈ s.groups.orphans) := by
    intro r
    rw [Bool.eq_iff_iff]
    simp
  show byte1 (flag (s.groupInForce g) 0) ++ _ ++ _ ++ raiserBytes _ ++ raiserBytes _ = _
  unfold raiserBytes
  simp only [a, b, c]

/-! ## Heater outputs (R60, log entry 2) -/

theorem heaterOutput_iff {n p : Nat} {s : State} {c : Channel} (hc : c = s.channel n) (hp : p = (s.channelConfig n).phase) :
    s.heaterOutput n = true ↔ (p ≤ s.heater.slot ∧ (s.heater.slot < p + c.pulse ∨ 256 ≤ c.pulse)) ∨
      256 + s.heater.slot < p + c.runOn := by
  subst hc hp
  unfold State.heaterOutput
  simp only [Bool.or_eq_true, Bool.and_eq_true, decide_eq_true_eq]

theorem offSlot_eq {n p : Nat} {s : State} {c : Channel} (hc : c = s.channel n) (hp : p = (s.channelConfig n).phase) :
    s.offSlot n = if 256 + s.heater.slot < p + c.runOn then some (p + c.runOn - 256)
      else if 0 < c.pulse ∧ c.pulse < 256 ∧ p + c.pulse ≤ 256 then some (p + c.pulse) else none := by
  subst hc hp
  rfl

/-! ## The stall timer (R18) and the line wires (R144..R146) -/

theorem stallCounted_active {s : State} (h : s.control.permitSensed = true) : stallCounted s = releaseHeld 19 { s with tracker :=
    { s.tracker with stall := if s.cfg.stallTime = 0 then .stopped else .running s.cfg.stallTime } } := by
  unfold stallCounted
  rw [if_pos h]
  rfl

theorem stallCounted_inactive {s : State} (h : s.control.permitSensed = false) : stallCounted s = releaseHeld 19 s := by
  unfold stallCounted
  rw [if_neg (by rw [h]; exact Bool.false_ne_true)]

/-! ## AMEND (R19, R21) -/

theorem addPair_eq (m : Mark) (r : LineRecord) : addPair m r =
    if m ∈ r.marks then r else if r.marks.length < 4 then { r with marks := r.marks ++ [m] }
    else { r with markOverflow := true } := by
  unfold addPair
  simp only [List.contains_iff_mem]

theorem updateLine_eq (id : Nat) (f : LineRecord → LineRecord) (s : State) : updateLine id f s = { s with tracker :=
    { s.tracker with queue := s.tracker.queue.map (fun b => if b.line.id = id then { b with line := f b.line } else b) } } := by
  unfold updateLine updateBoard State.withQueue
  simp only [beq_iff_eq]

theorem updateBoard_absent {id : Nat} {f : Board → Board} {s : State} (h : id ∉ s.boardIds) : updateBoard id f s = s := by
  have e : s.tracker.queue.map (fun b => if b.line.id == id then f b else b) = s.tracker.queue := by
    refine Eq.trans (List.map_congr_left (g := fun b => b) fun b hb => ?_) (List.map_id' _)
    rw [if_neg]
    intro k
    exact h (List.mem_map.2 ⟨b, hb, beq_iff_eq.1 k⟩)
  unfold updateBoard State.withQueue
  rw [e]

theorem boardIds_commitFrame (own : Bool) (src : Nat) (s : State) : (commitFrame own src s).boardIds = s.boardIds := by
  have h : ∀ x : State, x.still.tracker.queue.map (fun b => b.line.id) = x.boardIds := fun x => by
    show (x.tracker.queue.map boardKeep).map (fun b => b.line.id) = x.tracker.queue.map (fun b => b.line.id)
    rw [List.map_map]
    rfl
  rw [← h, still_commitFrame, h]

/-! ## Joining (R110, R125, R148, R176) -/

theorem becomeJoined_eq {n : Nat} {s u v w : State}
    (hu : u = { s with
      control := { s.control with station := .joined, mode := .idle }
      dir := { s.dir with
        entries := s.dir.entries.set (if 1 ≤ n ∧ n ≤ 29 then n else 0) none
        own := if 1 ≤ n ∧ n ≤ 29 then n else 0
        incarnation := some 0, claimListen := .stopped, presence := .running s.cfg.presencePeriod }
      bus := { s.bus with
        ownContact := .running (3 * s.cfg.presencePeriod), peerContact := .running (3 * s.cfg.presencePeriod) } })
    (hv : v = updateNeighbour [] (setHeld s.cfg.base { u with shares := { u.shares with
      state := .seated, lent := [], borrowed := [], needAmount := 0, needTimer := .stopped } }))
    (hw : w = recondition ((List.range' 16 13).foldl (fun s i => takeCause i s)
      (if v.control.tripSensed = true ∧ v.control.lineState = .armed then
        { v with control := { v.control with lineState := .opened, lineValue := none } } else v))) :
    becomeJoined n s = settle (testRequest (budgetShort (queueReturn (queueNeed (heaterPeriod
      (((List.range 29).filter (fun i => w.stands i && w.needsAnnouncing i)).foldl (fun x i => reannounce i x) w)))))) := by
  have e : openLineRecord v = if v.control.tripSensed = true ∧ v.control.lineState = .armed then
      { v with control := { v.control with lineState := .opened, lineValue := none } } else v := by
    unfold openLineRecord lineSensed
    by_cases a : v.control.tripSensed = true <;> by_cases b : v.control.lineState = .armed <;> simp [a, b]
  have h1 : updateNeighbour [] (seat (enterJoined n s)) = v := by
    subst hu hv
    rfl
  have h2 : recondition (takeCauses (openLineRecord (updateNeighbour [] (seat (enterJoined n s))))) = w := by
    rw [h1, e, hw]
    rfl
  unfold becomeJoined
  simp only [h2]
  rfl

theorem takeCause_eq (i : Nat) (s : State) : takeCause i s =
    if s.joined = true ∧ (s.cause i).raised = true ∧ s.alarmState i = .quiet then enterActive i (s.cause i).value s else s := by
  unfold takeCause
  simp only [Bool.and_eq_true, beq_iff_eq, and_assoc]

/-! ## RESTART (R25, R27, R50, R66, R85, R101, R123, R130, R140, R155, R172, R183) -/

theorem restartStation_eq {s u : State}
    (hu : u = { s with
      control := { s.control with mode := .idle, service := 0 }
      dir := { s.dir with incarnation := s.dir.incarnation.map (fun n => (n + 1) % 256), claimListen := .stopped, joinOwed := false }
      bus := { s.bus with queue := [], onWire := none, reservation := none }
      tracker := { s.tracker with
        queue := [], admissions := [], underEye := none
        stall := if s.control.permitSensed = true ∧ s.cfg.stallTime ≠ 0 then .running s.cfg.stallTime else .stopped }
      recipes := ⟨List.replicate 8 .blank, none, .stopped⟩
      spray := { s.spray with oneShots := List.replicate 8 none, counting := none }
      heater := { s.heater with channels := s.heater.channels.map (fun c =>
        { c with integral := 0, regulated := false, pulse := 0, runOn := 0 }) }
      shares := ⟨.unseated, 0, [], [], 0, .stopped, 0⟩
      pot := ⟨.blank, .blank, none, none, 0, false, false, .stopped⟩
      extraction := ⟨false, .stopped, List.replicate 2 .blank⟩
      alarms := { s.alarms with
        entries := s.alarms.entries.map keepFixed
        records := List.replicate 29 .blank
        causes := s.alarms.causes.mapIdx (fun k c => if k + 16 = 24 ∨ k + 16 = 25 ∨ k + 16 = 28 then { c with raised := false }
          else c) }
      groups := ⟨[], []⟩ }) :
    restartStation s = settle (testRequest (budgetShort (queueReturn (queueNeed (heaterPeriod (recondition
      ((List.range' 16 13).foldl (fun s i => takeCause i s) (updateNeighbour [] (queueJoin u))))))))) := by
  have e : restartBlocks s = u := by
    subst hu
    have c : restartCauses s.alarms.causes = s.alarms.causes.mapIdx (fun k c =>
        if k + 16 = 24 ∨ k + 16 = 25 ∨ k + 16 = 28 then { c with raised := false } else c) := by
      unfold restartCauses
      congr 1
      funext k c
      exact ite_congr (propext ⟨fun h => by omega, fun h => by omega⟩) (fun _ => rfl) (fun _ => rfl)
    have t : (if s.control.permitSensed = true then s.stallStart else Timer.stopped) =
        if s.control.permitSensed = true ∧ s.cfg.stallTime ≠ 0 then .running s.cfg.stallTime else .stopped := by
      unfold State.stallStart
      by_cases a : s.control.permitSensed = true <;> by_cases b : s.cfg.stallTime = 0 <;> simp [a, b]
    unfold restartBlocks
    rw [c, t]
    rfl
  rw [← e]
  rfl

theorem queueJoin_eq (s : State) : queueJoin s = if s.admits 3 = true then
      s.withTx (s.bus.queue ++ [newFrame 3 0 (.join (s.dir.incarnation.getD 0))])
    else { s with dir := { s.dir with joinOwed := true } } := rfl

theorem keepFixed_eq (e : WatchEntry) : keepFixed e = match e with
    | .fixed d => .fixed d
    | _ => .empty := by
  cases e <;> rfl

/-! ## Whole states after a command -/

theorem commitFrame_joined (own : Bool) (src : Nat) (s : State) : (commitFrame own src s).joined = s.joined :=
  commitFrame_read _ _ _ State.joined (fun _ => rfl)

theorem board_isSome_iff (s : State) (id : Nat) : (s.board id).isSome = true ↔ id ∈ s.boardIds := by
  unfold State.board State.boardIds
  rw [List.find?_isSome]
  simp only [beq_iff_eq, List.mem_map]

theorem execProveTimeout_fails {n : Fin 2} {s : State} (h1 : s.ductEnabled n = true) (h2 : (s.duct n).state = .proving)
    (h3 : (s.duct n).timer.isRunning = true) : execProveTimeout n s = .next (settle (failDuct n s)) := by
  unfold execProveTimeout
  exact if_pos (by rw [h1, h2, h3]; rfl)

theorem failDuct_eq {n : Nat} {s : State} (h : s.ductEnabled n = true) : failDuct n s =
    driveDucts { s with extraction := { s.extraction with ducts := s.extraction.ducts.mapIdx (fun k d =>
      if k = n then { d with state := .failed, timer := .stopped } else d) } } := by
  have e : (fun (k : Nat) (d : Duct) => if s.ductEnabled k = true then
      (if k = n then { d with state := .failed, timer := .stopped } else d) else d) =
      (fun (k : Nat) (d : Duct) => if k = n then { d with state := .failed, timer := .stopped } else d) := by
    funext k d
    by_cases c : k = n
    · rw [c, h, if_pos rfl, if_pos rfl]
    · rw [if_neg c, ite_self]
  unfold failDuct mapDucts
  rw [e]

theorem execClaim_own {f : ClaimFields} {s : State} (h : s.Sends 1 0 0 (claimBytes f)) :
    execClaim f s = .next (dropReservation (becomeJoined f.number.toNat (commitFrame true 0 s))) := by
  obtain ⟨st, e⟩ := committed_sent h
  exact (e _).trans (congrArg (fun u => Host.Outcome.next (dropReservation u)) (if_pos rfl))

theorem execRestart_taken {src dst : Station} {s : State} {start : BitVec 32} (h : s.Hears start) (a : s.Accepts dst)
    (k : (s.afterCommit false src.toNat).restartable = true) :
    execRestart src dst s = .next (dropReservation (restartStation (commitFrame false src.toNat s))) := by
  have q : (commitFrame false src.toNat s).restartable = true := k
  unfold execRestart panelFrame
  rw [committed_heard h]
  exact congrArg (fun u => Host.Outcome.next (dropReservation u)) (if_pos (by simp [a.1, a.2, q]))

theorem takesAmend_heard {c : Commit} {src : Station} {s : State} (hc : c.own = false) (j : s.joined = true)
    (o : src.toNat ≠ s.dir.own) : takesAmend c src (commitFrame false src.toNat s) = true := by
  unfold takesAmend
  rw [commitFrame_own, commitFrame_joined, hc, j]
  simp [o]

theorem execAmendMark_taken {src : Station} {board : Half} {station code : Byte} {s : State} {start : BitVec 32} (h : s.Hears start)
    (j : s.joined = true) (o : src.toNat ≠ s.dir.own) (l : pairOk station.toNat code.toNat = true) :
    execAmendMark src board station code s = .next (dropReservation (updateLine board.toNat
      (addPair ⟨station.toNat, code.toNat⟩) (commitFrame false src.toNat s))) := by
  unfold execAmendMark
  rw [committed_heard h]
  exact congrArg (fun u => Host.Outcome.next (dropReservation u)) (if_pos (by rw [takesAmend_heard rfl j o, l]; rfl))

theorem execAmendLength_taken {src : Station} {board length : Half} {s : State} {start : BitVec 32} (h : s.Hears start)
    (j : s.joined = true) (o : src.toNat ≠ s.dir.own) (l : length ≠ 0) : execAmendLength src board length s = .next
      (dropReservation (updateLine board.toNat (fun r => { r with length := length.toNat, lengthFinal := true })
        (commitFrame false src.toNat s))) := by
  unfold execAmendLength
  rw [committed_heard h]
  exact congrArg (fun u => Host.Outcome.next (dropReservation u))
    (if_pos (by rw [takesAmend_heard rfl j o, Bool.true_and]; exact bne_iff_ne.2 l))

theorem execAmendPosition_taken {src : Station} {board : Half} {pos : Pos} {s : State} {start : BitVec 32} (h : s.Hears start)
    (j : s.joined = true) (o : src.toNat ≠ s.dir.own) (l : (s.board board.toNat).isSome = true) :
    execAmendPosition src board pos s = .next (dropReservation (settle (positionEvents [board.toNat] (reorder
      (updateBoard board.toNat (fun b => { b with anchorPos := pos.toNat, anchorCount := start })
        (commitFrame false src.toNat s)))))) := by
  have bb : ((commitFrame false src.toNat s).board board.toNat).isSome = true := by
    rw [board_isSome_iff, boardIds_commitFrame, ← board_isSome_iff]
    exact l
  unfold execAmendPosition
  rw [committed_heard h]
  exact congrArg (fun u => Host.Outcome.next (dropReservation u)) (if_pos (by rw [takesAmend_heard rfl j o, bb]; rfl))

/-- A station that does not hold the board changes no line record. -/
theorem updateLine_absent {id : Nat} {f : LineRecord → LineRecord} {s : State} (h : id ∉ s.boardIds) : updateLine id f s = s :=
  updateBoard_absent h

theorem execAmend_absent {src : Station} {board length : Half} {station code : Byte} {pos : Pos} {s : State} {start : BitVec 32}
    (h : s.Hears start) (k : board.toNat ∉ s.boardIds) :
    execAmendMark src board station code s = .next (s.afterCommit false src.toNat) ∧
    execAmendLength src board length s = .next (s.afterCommit false src.toNat) ∧
    execAmendPosition src board pos s = .next (s.afterCommit false src.toNat) := by
  have k' : board.toNat ∉ (commitFrame false src.toNat s).boardIds := by rwa [boardIds_commitFrame]
  have b : ¬((commitFrame false src.toNat s).board board.toNat).isSome = true := fun e => k' ((board_isSome_iff _ _).1 e)
  have drop : ∀ u : State, u = commitFrame false src.toNat s → Host.Outcome.next (dropReservation u) =
      (Host.Outcome.next (s.afterCommit false src.toNat) : Result) := fun u e => by rw [e]; rfl
  refine ⟨?_, ?_, ?_⟩
  · unfold execAmendMark
    rw [committed_heard h]
    apply drop
    rw [updateLine_absent k']
    exact ite_self _
  · unfold execAmendLength
    rw [committed_heard h]
    apply drop
    rw [updateLine_absent k']
    exact ite_self _
  · unfold execAmendPosition
    rw [committed_heard h]
    apply drop
    exact if_neg (by rw [Bool.and_eq_true]; exact fun e => b e.2)

end Sys2Proof.Machine
end

