-- ==== Sys2Proof/Laws/Words.lean ====
section
/-! SUPPORT. The words of the statements, each said once: what a predicate or an operation that a statement names is, by cases or
in fields, and the commits that have the common part alone. -/

namespace Sys2Proof.Machine

open Sys2Proof

/-! ## Helpers -/

/-- The chain flag of entry 15 does not count, so the search ends there at the latest. -/
theorem holderFrom_stable (entries : List WatchEntry) : ∀ fuel i, 15 ≤ fuel + i →
    holderFrom entries (fuel + 1) i = holderFrom entries fuel i
  | 0, i, h => by
    have : chained entries i = false := by
      unfold chained
      rw [Bool.and_eq_false_iff]
      exact Or.inl (decide_eq_false (by omega))
    show (if chained entries i = true then _ else i) = i
    rw [this]
    rfl
  | fuel + 1, i, h => by
    show (if chained entries i = true then holderFrom entries (fuel + 1) (i + 1) else i) =
      (if chained entries i = true then holderFrom entries fuel (i + 1) else i)
    rw [holderFrom_stable entries fuel (i + 1) (by omega)]

/-- `x` is before `y` in the choice of the neighbour (R7). -/
def Before (x y : Nat × Nat) : Prop := x.2 < y.2 ∨ (x.2 = y.2 ∧ x.1 ≤ y.1)

theorem before_trans {x y z : Nat × Nat} (h : Before x y) (k : Before y z) : Before x z := by
  unfold Before at *
  omega

theorem betterNeighbour_cases {a b : Option (Nat × Nat)} (order : ∀ x y, a = some x → b = some y → x.1 ≤ y.1) :
    (betterNeighbour a b = none ↔ a = none ∧ b = none) ∧ ∀ x, betterNeighbour a b = some x → (a = some x ∨ b = some x) ∧
      ∀ y, a = some y ∨ b = some y → Before x y := by
  cases a with
  | none =>
    refine ⟨by simp [betterNeighbour], fun x h => ⟨Or.inr h, fun y k => ?_⟩⟩
    rcases k with k | k
    · cases k
    · rw [show b = some x from h] at k
      cases k
      exact Or.inr ⟨rfl, Nat.le_refl _⟩
  | some u =>
    cases b with
    | none =>
      refine ⟨by simp [betterNeighbour], fun x h => ⟨Or.inl h, fun y k => ?_⟩⟩
      rcases k with k | k
      · rw [show some u = some x from h] at k
        cases k
        exact Or.inr ⟨rfl, Nat.le_refl _⟩
      · cases k
    | some v =>
      have o := order u v rfl rfl
      by_cases c : v.2 < u.2
      · have e : betterNeighbour (some u) (some v) = some v := if_pos c
        rw [e]
        refine ⟨by simp, fun x h => ?_⟩
        cases h
        refine ⟨Or.inr rfl, fun y k => ?_⟩
        rcases k with k | k <;> cases k
        · exact Or.inl c
        · exact Or.inr ⟨rfl, Nat.le_refl _⟩
      · have e : betterNeighbour (some u) (some v) = some u := if_neg c
        rw [e]
        refine ⟨by simp, fun x h => ?_⟩
        cases h
        refine ⟨Or.inl rfl, fun y k => ?_⟩
        unfold Before
        rcases k with k | k <;> cases k <;> omega

/-- The scan of rising numbers finds the first candidate, if there is one. -/
theorem foldl_betterNeighbour {f : Nat → Option (Nat × Nat)} (hf : ∀ n y, f n = some y → y.1 = n) :
    ∀ (l : List Nat) (b : Option (Nat × Nat)), l.Pairwise (fun m n => m ≤ n) →
      (∀ y, b = some y → ∀ n ∈ l, y.1 ≤ n) →
      (l.foldl (fun best n => betterNeighbour best (f n)) b = none ↔ b = none ∧ ∀ n ∈ l, f n = none) ∧
      ∀ x, l.foldl (fun best n => betterNeighbour best (f n)) b = some x → (b = some x ∨ ∃ n ∈ l, f n = some x) ∧
        ∀ y, (b = some y ∨ ∃ n ∈ l, f n = some y) → Before x y
  | [], b, _, _ => by
    refine ⟨by simp, fun x h => ⟨Or.inl h, fun y k => ?_⟩⟩
    rcases k with k | ⟨n, hn, _⟩
    · rw [show b = some x from h] at k
      cases k
      exact Or.inr ⟨rfl, Nat.le_refl _⟩
    · cases hn
  | m :: l, b, hl, hb => by
    have hc := betterNeighbour_cases (a := b) (b := f m) (fun x y h k => by
      rw [hf m y k]
      exact hb x h m (List.mem_cons_self ..))
    have hl' := List.pairwise_cons.1 hl
    have ih := foldl_betterNeighbour hf l (betterNeighbour b (f m)) hl'.2 (fun y h n hn => by
      have mn := hl'.1 n hn
      rcases (hc.2 y h).1 with k | k
      · exact hb y k n (List.mem_cons_of_mem _ hn)
      · rw [hf m y k]
        exact mn)
    constructor
    · show List.foldl _ (betterNeighbour b (f m)) l = none ↔ _
      rw [ih.1, hc.1]
      simp [and_assoc]
    · intro x h
      obtain ⟨hm, hmin⟩ := ih.2 x h
      constructor
      · rcases hm with k | ⟨n, hn, k⟩
        · rcases (hc.2 x k).1 with k | k
          · exact Or.inl k
          · exact Or.inr ⟨m, List.mem_cons_self .., k⟩
        · exact Or.inr ⟨n, List.mem_cons_of_mem _ hn, k⟩
      · have first : ∀ y, b = some y ∨ f m = some y → Before x y := by
          intro y k
          cases e : betterNeighbour b (f m) with
          | none =>
            have := hc.1.1 e
            rcases k with k | k
            · rw [this.1] at k; cases k
            · rw [this.2] at k; cases k
          | some z => exact before_trans (hmin z (Or.inl e)) ((hc.2 z e).2 y k)
        intro y k
        rcases k with k | ⟨n, hn, k⟩
        · exact first y (Or.inl k)
        · rcases List.mem_cons.1 hn with rfl | hn
          · exact first y (Or.inr k)
          · exact hmin y (Or.inr ⟨n, hn, k⟩)

theorem candidate_iff (s : State) (k : Nat) (y : Nat × Nat) : s.candidate k = some y ↔
    y.1 = k ∧ ∃ e w, s.entry k = some e ∧ e.window = some w ∧ s.cfg.winStart < w.1 ∧ y.2 = w.1 := by
  unfold State.candidate
  cases he : s.entry k with
  | none => simp
  | some e =>
    cases hw : e.window with
    | none => simp [hw]
    | some w =>
      obtain ⟨a, b⟩ := y
      by_cases c : s.cfg.winStart < w.1
      · simp only [hw, c, if_true, Option.some.injEq, Prod.mk.injEq]
        constructor
        · rintro ⟨rfl, rfl⟩
          exact ⟨rfl, e, w, rfl, hw, c, rfl⟩
        · rintro ⟨rfl, _, _, rfl, h, _, rfl⟩
          rw [hw] at h
          cases h
          exact ⟨rfl, rfl⟩
      · simp only [hw, c, if_false]
        constructor
        · intro h
          cases h
        · rintro ⟨_, _, _, h1, h2, h3, _⟩
          cases h1
          rw [hw] at h2
          cases h2
          exact absurd h3 c

/-- What the scan of the directory gives. -/
theorem neighbour_scan (s : State) :
    ((List.range' 1 29).foldl (fun best n => betterNeighbour best (s.candidate n)) none = none ↔
      ∀ n ∈ List.range' 1 29, s.candidate n = none) ∧
    ∀ x, (List.range' 1 29).foldl (fun best n => betterNeighbour best (s.candidate n)) none = some x →
      (∃ n ∈ List.range' 1 29, s.candidate n = some x) ∧
        ∀ y, (∃ n ∈ List.range' 1 29, s.candidate n = some y) → Before x y := by
  have h := foldl_betterNeighbour (f := s.candidate) (fun n y k => ((candidate_iff s n y).1 k).1) (List.range' 1 29) none
    (by decide) (fun y k => by cases k)
  simpa using h

theorem commitFrame_learnsFrom (own : Bool) (src n : Nat) (s : State) :
    (commitFrame own src s).learnsFrom n = s.learnsFrom n := by
  have h : (commitFrame own src s).learns = s.learns := commitFrame_read _ _ _ State.learns (fun _ => rfl)
  unfold State.learnsFrom
  rw [h, commitFrame_own]

theorem captureLine_same (src : Nat) (f : AlarmFields) (s : State) : (captureLine src f s).joined = s.joined ∧
    (captureLine src f s).dir = s.dir := by
  unfold captureLine
  split
  · exact ⟨rfl, rfl⟩
  · exact ⟨rfl, rfl⟩

theorem takesPanel_of {u : State} {src : Station} (j : u.joined = true) (k : src.toNat = 30 ∨ src.toNat = 31) :
    u.takesPanel src = true := by
  unfold State.takesPanel isPanel
  rw [j]
  rcases k with k | k <;> rw [k] <;> rfl


/-! ## R7, R137: the neighbour -/

theorem findNeighbour_some_iff :
    ∀ (s : State) (n : Nat), s.findNeighbour = some n ↔ 1 ≤ n ∧ n ≤ 29 ∧ ∃ e w, s.entry n = some e ∧ e.window = some w ∧
      s.cfg.winStart < w.1 ∧ ∀ k d v, 1 ≤ k → k ≤ 29 → s.entry k = some d → d.window = some v → s.cfg.winStart < v.1 →
        w.1 < v.1 ∨ (w.1 = v.1 ∧ n ≤ k) := by
  intro s n
  obtain ⟨hn, hs⟩ := neighbour_scan s
  unfold State.findNeighbour
  rw [Option.map_eq_some_iff]
  constructor
  · rintro ⟨x, hx, rfl⟩
    obtain ⟨⟨m, hm, hc⟩, hmin⟩ := hs x hx
    obtain ⟨rfl, e, w, he, hw, hlt, hxw⟩ := (candidate_iff s m x).1 hc
    have r := List.mem_range'_1.1 hm
    refine ⟨r.1, by omega, e, w, he, hw, hlt, fun k d v k1 k2 hd hv hk => ?_⟩
    have := hmin (k, v.1) ⟨k, List.mem_range'_1.2 ⟨k1, by omega⟩, (candidate_iff s k _).2 ⟨rfl, d, v, hd, hv, hk, rfl⟩⟩
    unfold Before at this
    dsimp only at this
    omega
  · rintro ⟨h1, h2, e, w, he, hw, hlt, hmin⟩
    have hc : s.candidate n = some (n, w.1) := (candidate_iff s n _).2 ⟨rfl, e, w, he, hw, hlt, rfl⟩
    have mem : n ∈ List.range' 1 29 := List.mem_range'_1.2 ⟨h1, by omega⟩
    cases hx : (List.range' 1 29).foldl (fun best n => betterNeighbour best (s.candidate n)) none with
    | none =>
      rw [hn.1 hx n mem] at hc
      cases hc
    | some x =>
      refine ⟨x, rfl, ?_⟩
      obtain ⟨⟨m, hm, hcm⟩, hb⟩ := hs x hx
      obtain ⟨rfl, d, v, hd, hv, hk, hxv⟩ := (candidate_iff s m x).1 hcm
      have r := List.mem_range'_1.1 hm
      have b := hb _ ⟨n, mem, hc⟩
      have a := hmin x.1 d v r.1 (by omega) hd hv hk
      unfold Before at b
      dsimp only at b
      omega

theorem findNeighbour_none_iff : ∀ s : State, s.findNeighbour = none ↔
      ∀ k d v, 1 ≤ k → k ≤ 29 → s.entry k = some d → d.window = some v → ¬ s.cfg.winStart < v.1 := by
  intro s
  unfold State.findNeighbour
  rw [Option.map_eq_none_iff, (neighbour_scan s).1]
  constructor
  · intro h k d v k1 k2 hd hv hk
    have := h k (List.mem_range'_1.2 ⟨k1, by omega⟩)
    rw [(candidate_iff s k (k, v.1)).2 ⟨rfl, d, v, hd, hv, hk, rfl⟩] at this
    cases this
  · intro h n hn
    cases hc : s.candidate n with
    | none => rfl
    | some y =>
      obtain ⟨_, e, w, he, hw, hlt, _⟩ := (candidate_iff s n y).1 hc
      have r := List.mem_range'_1.1 hn
      exact absurd hlt (h n e w r.1 (by omega) he hw)

theorem neighbourStart_some_iff : ∀ (s : State) (start : Nat), s.neighbourStart = some start ↔
      ∃ n e w, s.tracker.neighbour = some n ∧ s.entry n = some e ∧ e.window = some w ∧ w.1 = start := by
  intro s start
  simp only [State.neighbourStart, Option.bind_eq_some_iff, Option.map_eq_some_iff]
  constructor
  · rintro ⟨n, hn, e, he, w, hw, rfl⟩
    exact ⟨n, e, w, hn, he, hw, rfl⟩
  · rintro ⟨n, e, w, hn, he, hw, rfl⟩
    exact ⟨n, hn, e, he, w, hw, rfl⟩

theorem orphanGone_eq :
    ∀ (r : Nat) (s : State), orphanGone r s = if (∃ a ∈ s.groups.activity, a.raiser = r) ∧ r ∉ s.groups.orphans then
      { s with groups := { s.groups with orphans := s.groups.orphans ++ [r] } } else s := by
  intro r s
  unfold orphanGone
  simp only [Bool.and_eq_true, List.any_eq_true, beq_iff_eq, Bool.not_eq_true', List.contains_eq_mem, decide_eq_false_iff_not]

/-! ## R102..R104, R57, R116, R127, R107: a sample event and the chains -/

theorem sampled_temp : ∀ (x : Samples) (s : State) (n : Nat) (t : Sensor), n < 8 → t = x.thermocouples.getD n ⟨0, false⟩ →
      s.sampled x n = if (s.channelConfig n).zone ≠ .unused ∧ t.isOpen = false then some (signed16 t.reading.toNat) else none := by
  intro x s n t hn ht
  subst ht
  unfold State.sampled State.fitted thermocouple signedHalf
  rw [if_pos hn]
  simp [Bool.and_eq_true, bne_iff_ne]

theorem sampled_dev : ∀ (x : Samples) (s : State) (n : Nat), n < 8 →
      (∀ t sp, s.sampled x n = some t → (s.channel n).setpoint = some sp →
        s.sampled x (8 + n) = some (max (-32768) (min 32767 (t - sp)))) ∧
      (s.sampled x n = none ∨ (s.channel n).setpoint = none → s.sampled x (8 + n) = none) ∧
      s.sampled x (16 + n) = some ((s.channel n).grant : Int) := by
  intro x s n hn
  have a : ¬ 8 + n < 8 := by omega
  have b : 8 + n < 16 := by omega
  have c : ¬ 16 + n < 8 := by omega
  have d : ¬ 16 + n < 16 := by omega
  have e : 16 + n < 24 := by omega
  have f : 8 + n - 8 = n := by omega
  have g : 16 + n - 16 = n := by omega
  have dev : s.sampled x (8 + n) = (s.sampled x n).bind (fun t => (s.channel n).setpoint.map (fun sp => clamp16 (t - sp))) := by
    unfold State.sampled
    rw [if_neg a, if_pos b, if_pos hn, f]
  have duty : s.sampled x (16 + n) = some ((s.channel n).grant : Int) := by
    unfold State.sampled
    rw [if_neg c, if_neg d, if_pos e, g]
  refine ⟨fun t sp h k => ?_, fun h => ?_, duty⟩
  · rw [dev, h, k]
    show some (clamp16 (t - sp)) = _
    rw [clamp16_eq]
  · rw [dev]
    rcases h with h | h
    · rw [h]
      rfl
    · rw [h]
      cases s.sampled x n <;> rfl

theorem sampled_duct : ∀ (x : Samples) (s : State) (n : Nat) (t : Sensor), n < 2 → t = x.ducts.getD n ⟨0, false⟩ →
      s.sampled x (25 + n) = if s.ductEnabled n = true ∧ t.isOpen = false then some (t.reading.toNat : Int) else none := by
  intro x s n t hn ht
  subst ht
  have a : ¬ 25 + n < 8 := by omega
  have b : ¬ 25 + n < 16 := by omega
  have c : ¬ 25 + n < 24 := by omega
  have d : ¬ 25 + n = 24 := by omega
  have e : 25 + n < 27 := by omega
  have f : 25 + n - 25 = n := by omega
  unfold State.sampled ductInput
  rw [if_neg a, if_neg b, if_neg c, if_neg d, if_pos e, f]
  simp [Bool.and_eq_true]

theorem sampled_level_held :
    ∀ (x : Samples) (s : State), s.sampled x 24 = (if (s.quantity 24).valid = true then some (s.quantity 24).value else none) ∧
      s.sampled x 28 = some (s.shares.held : Int) := by
  intro x s
  exact ⟨rfl, rfl⟩

theorem sampled_rates_invalid : ∀ (x : Samples) (s : State),
      (s.loader.config = none ∨ s.alarms.flowHist[9]? = none → s.sampled x 27 = none) ∧
      (s.loader.config = none ∨ s.alarms.countHist[9]? = none → s.sampled x 29 = none) := by
  intro x s
  constructor
  · intro h
    show s.flowRate = none
    unfold State.flowRate
    rcases h with h | h <;> simp [h]
  · intro h
    show s.speed = none
    unfold State.speed
    rcases h with h | h <;> simp [h]

theorem sampled_flowRate :
    ∀ (x : Samples) (s : State) (old : Half), s.loader.config.isSome = true → s.alarms.flowHist[9]? = some old →
      s.sampled x 27 = some (((s.spray.flowCount.toNat + 65536 - old.toNat) % 65536 : Nat) : Int) := by
  intro x s old h k
  show s.flowRate = _
  unfold State.flowRate
  rw [if_pos h, k]
  have e : (s.spray.flowCount - old).toNat = (s.spray.flowCount.toNat + 65536 - old.toNat) % 65536 := by
    rw [BitVec.toNat_sub]
    have := old.isLt
    have := s.spray.flowCount.isLt
    omega
  exact congrArg (fun n : Nat => some (n : Int)) e

theorem sampled_speed :
    ∀ (x : Samples) (s : State) (old : BitVec 32), s.loader.config.isSome = true → s.alarms.countHist[9]? = some old →
      s.sampled x 29 = some (max (-32768) (min 32767 (Int.tdiv ((s.tracker.count - old).toInt * 10000) s.cfg.countsPerMetre))) := by
  intro x s old h k
  show s.speed = _
  unfold State.speed
  rw [if_pos h, k]
  show some (clamp16 _) = _
  rw [clamp16_eq]

theorem openResults_iff : ∀ (x : Samples) (s : State), (s.openResults x).length = 10 ∧
      (∀ n, n < 8 → (s.openResults x)[n]? =
        some ((s.channelConfig n).zone != .unused && (x.thermocouples.getD n ⟨0, false⟩).isOpen)) ∧
      (∀ n, n < 2 → (s.openResults x)[8 + n]? = some (s.ductEnabled n && (x.ducts.getD n ⟨0, false⟩).isOpen)) := by
  intro x s
  refine ⟨rfl, fun n hn => ?_, fun n hn => ?_⟩
  · match n, hn with
    | 0, _ | 1, _ | 2, _ | 3, _ | 4, _ | 5, _ | 6, _ | 7, _ => rfl
  · match n, hn with
    | 0, _ | 1, _ => rfl

theorem newlyOpen_iff : ∀ (x : Samples) (s : State) (n : Nat), n ∈ s.newlyOpen x ↔
      n < 8 ∧ (s.openResults x)[n]? = some true ∧ s.alarms.sensorOpen.getD n false = false := by
  intro x s n
  unfold State.newlyOpen State.sensorOpen
  rw [List.mem_filter, List.mem_range, Bool.and_eq_true, List.getD_eq_getElem?_getD]
  cases h : (s.openResults x)[n]? with
  | none => simp
  | some b => cases b <;> simp

theorem openChannels_cases : ∀ (l : List Nat) (s u : State), openChannels [] s = s ∧
      (u = { s with heater := { s.heater with channels := s.heater.channels.mapIdx (fun n c => if n ∈ l then
          { c with
            demand := 0
            grant := 0
            integral := 0
            regulated := false
            pulse := cutPulse (min 255 (s.heater.slot - (s.channelConfig n).phase)) c.pulse 0
            runOn := cutPulse (256 + s.heater.slot - (s.channelConfig n).phase) c.runOn 0 }
        else c) } } →
        l ≠ [] → openChannels l s = { u with heater :=
          { u.heater with cost := u.demandCost, shortfall := u.demandCost - s.shares.held } }) := by
  intro l s u
  refine ⟨rfl, fun hu hl => ?_⟩
  subst hu
  unfold openChannels
  rw [if_neg (by simpa using hl)]
  have e : (fun (n : Nat) (c : Channel) => if l.contains n = true then
      { zeroDemand (s.channelConfig n).phase s.heater.slot c with integral := 0, regulated := false } else c) =
      (fun (n : Nat) (c : Channel) => if n ∈ l then
      { c with
        demand := 0
        grant := 0
        integral := 0
        regulated := false
        pulse := cutPulse (min 255 (s.heater.slot - (s.channelConfig n).phase)) c.pulse 0
        runOn := cutPulse (256 + s.heater.slot - (s.channelConfig n).phase) c.runOn 0 }
      else c) := by
    funext n c
    by_cases h : n ∈ l
    · rw [if_pos (by simpa using h), if_pos h]
      unfold zeroDemand lowerGrant
      simp only [Nat.min_zero]
    · rw [if_neg (by simpa using h), if_neg h]
  rw [e]
  rfl

theorem writeTable_eq : ∀ (x : Samples) (s : State), writeTable x s = { s with alarms := { s.alarms with
      table := (List.range 30).map (fun q =>
        if (s.sampled x q).isSome = true then ⟨(s.sampled x q).getD 0, true⟩ else ⟨(s.quantity q).value, false⟩)
      sensorOpen := s.openResults x
      flowHist := (s.spray.flowCount :: s.alarms.flowHist).take 10
      countHist := (s.tracker.count :: s.alarms.countHist).take 10 } } := by
  intro x s
  rfl

theorem writeLevel_eq : ∀ s : State, writeLevel s = { s with alarms := { s.alarms with table := s.alarms.table.modify 24 (fun q =>
      if s.pot.established = true then ⟨s.pot.level, true⟩ else ⟨q.value, false⟩) } } := by
  intro s
  rfl

theorem ductSample_eq : ∀ (n : Nat) (s : State), ductSample n s = driveDucts { s with extraction := { s.extraction with
      ducts := s.extraction.ducts.mapIdx (fun k d =>
        if s.ductEnabled k = true ∧ k = n then sampleDuct s.cfg (s.quantity (25 + n)) d else d) } } := by
  intro n s
  have e : (fun (k : Nat) (d : Duct) => if s.ductEnabled k = true then
      (if k = n then sampleDuct s.cfg (s.quantity (25 + n)) d else d) else d) =
      (fun (k : Nat) (d : Duct) => if s.ductEnabled k = true ∧ k = n then sampleDuct s.cfg (s.quantity (25 + n)) d else d) := by
    funext k d
    by_cases h : s.ductEnabled k = true <;> by_cases g : k = n <;> simp [h, g]
  unfold ductSample mapDucts
  rw [e]

theorem retryOwed_cases : ∀ (i : Nat) (s u : State),
      u = (if (s.record i).announceOwed = true then
        if s.stands i = true then announce i (updateRecord i (fun r => { r with announceOwed := false }) s)
        else updateRecord i (fun r => { r with announceOwed := false }) s else s) →
      ((u.record i).clearOwed = false ∨ u.alarmState i = .pending → retryOwed i s = u) ∧
      ((u.record i).clearOwed = true → u.alarmState i = .quiet →
        retryOwed i s = queueClear i (updateRecord i (fun r => { r with clearOwed := false }) u)) ∧
      ((u.record i).clearOwed = true → u.alarmState i = .active ∨ u.alarmState i = .activeAcked ∨ u.alarmState i = .latched →
        retryOwed i s = updateRecord i (fun r => { r with clearOwed := false }) u) := by
  intro i s u hu
  have e : retryOwed i s = if (u.record i).clearOwed then
      match u.alarmState i with
      | .quiet => queueClear i (updateRecord i (fun r => { r with clearOwed := false }) u)
      | .pending => u
      | .active | .activeAcked | .latched => updateRecord i (fun r => { r with clearOwed := false }) u
    else u := by
    rw [hu]
    rfl
  refine ⟨fun h => ?_, fun h k => ?_, fun h k => ?_⟩
  · rcases h with h | h
    · rw [e, if_neg (by rw [h]; exact Bool.false_ne_true)]
    · rw [e, h]
      exact ite_self _
  · rw [e, if_pos h, k]
  · rw [e, if_pos h]
    rcases k with k | k | k <;> rw [k]

theorem chained_iff : ∀ (entries : List WatchEntry) (i : Nat), chained entries i = true ↔
      i < 15 ∧ ∃ d : WatchDef, (entries.getD i .empty = .fixed d ∨ entries.getD i .empty = .panel d) ∧ d.chain = true := by
  intro entries i
  unfold chained
  rw [Bool.and_eq_true, decide_eq_true_eq]
  cases entries.getD i .empty <;> simp [WatchEntry.def?]

theorem holderOf_next : ∀ (entries : List WatchEntry) (i : Nat), (chained entries i = false → holderOf entries i = i) ∧
      (chained entries i = true → holderOf entries i = holderOf entries (i + 1)) := by
  intro entries i
  constructor
  · intro h
    show (if chained entries i = true then _ else i) = i
    rw [if_neg (by rw [h]; exact Bool.false_ne_true)]
  · intro h
    have lt : i < 15 := ((chained_iff entries i).1 h).1
    show (if chained entries i = true then holderFrom entries 15 (i + 1) else i) = holderFrom entries 16 (i + 1)
    rw [if_pos h]
    exact (holderFrom_stable entries 15 (i + 1) (by omega)).symm

/-! ## R119, R189: a WATCH -/

theorem watchDefOf_isSome_iff : ∀ f : WatchFields, (watchDefOf f).isSome = true ↔
      f.quantity.toNat < 30 ∧ f.compare.toNat < 2 ∧ f.chainMode.toNat / 8 % 16 = 0 ∧ 1 ≤ f.persistence.toNat ∧
      f.persistence.toNat ≤ 15 ∧ 1 ≤ f.action.toNat ∧ f.action.toNat ≤ 4 ∧ f.group.toNat ≤ 8 ∧
      (f.mark.toNat = 0 ∨ (16 ≤ f.mark.toNat ∧ f.mark.toNat ≤ 63)) := by
  intro f
  exact watchOf_isSome_iff

theorem watchDefOf_fields : ∀ (f : WatchFields) (d : WatchDef), watchDefOf f = some d →
      d.quantity = f.quantity.toNat ∧ d.above = (f.compare.toNat == 0) ∧ d.threshold = signed16 f.threshold.toNat ∧
      d.margin = f.margin.toNat ∧ d.inIdle = bitOf f.chainMode.toNat 0 ∧ d.inRun = bitOf f.chainMode.toNat 1 ∧
      d.inService = bitOf f.chainMode.toNat 2 ∧ d.chain = bitOf f.chainMode.toNat 7 ∧ d.persistence = f.persistence.toNat ∧
      actionCode d.action = f.action.toNat ∧ d.group = f.group.toNat ∧ d.mark = f.mark.toNat := by
  intro f d h
  exact watchOf_fields h

/-! ## R14, R28: a board enters -/

theorem entryData_cases : ∀ s : State,
      (∀ (a : Admission) (rest : List Admission), s.tracker.admissions = a :: rest →
        s.entryData = (a.recipe, a.version, a.length, some a.length, false)) ∧
      (∀ sl : Slot, s.tracker.admissions = [] → s.recipes.slots.find? (fun x => x.isDefault) = some sl →
        s.entryData = (sl.number, sl.version, 1, none, false)) ∧
      (s.tracker.admissions = [] → (∀ sl ∈ s.recipes.slots, sl.isDefault = false) → s.entryData = (0, 0, 1, none, true)) := by
  intro s
  refine ⟨fun a rest h => ?_, fun sl h k => ?_, fun h k => ?_⟩
  · unfold State.entryData
    rw [h]
  · unfold State.entryData
    rw [h]
    dsimp only
    rw [k]
  · have e : s.recipes.slots.find? (fun x => x.isDefault) = none := by
      rw [List.find?_eq_none]
      intro sl hs
      rw [k sl hs]
      exact Bool.false_ne_true
    unfold State.entryData
    rw [h]
    dsimp only
    rw [e]

theorem freshId_cases : ∀ (held : List Nat) (tries n : Nat), freshId held 0 n = n ∧ (n ∉ held → freshId held tries n = n) ∧
      (n ∈ held → freshId held (tries + 1) n = freshId held tries (nextBoardId n)) := by
  intro held tries n
  refine ⟨rfl, fun h => ?_, fun h => ?_⟩
  · cases tries with
    | zero => rfl
    | succ k =>
      show (if held.contains n = true then _ else n) = n
      rw [if_neg (by simpa using h)]
  · show (if held.contains n = true then _ else n) = _
    rw [if_pos (by simpa using h)]

theorem nextBoardId_eq : ∀ n : Nat, nextBoardId n = if n < 65535 then n + 1 else 1 := by
  intro n
  rfl

theorem freePlaces_eq :
    ∀ s : State, s.freePlaces = 8 - (s.tracker.queue.length + (if s.bus.reservation = some .boardPlace then 1 else 0)) := by
  intro s
  unfold State.freePlaces
  simp only [beq_iff_eq]

theorem useAdmission_cases : ∀ s : State, (s.tracker.admissions = [] → useAdmission s = s) ∧
      ∀ (a : Admission) (rest : List Admission), s.tracker.admissions = a :: rest →
        (1 < a.count → useAdmission s =
          { s with tracker := { s.tracker with admissions := { a with count := a.count - 1 } :: rest } }) ∧
        (a.count ≤ 1 → useAdmission s =
          dropRef (s.resolve a.recipe a.version) { s with tracker := { s.tracker with admissions := rest } }) := by
  intro s
  refine ⟨fun h => ?_, fun a rest h => ⟨fun k => ?_, fun k => ?_⟩⟩
  · unfold useAdmission
    rw [h]
  · unfold useAdmission
    rw [h]
    exact if_pos k
  · unfold useAdmission
    rw [h]
    exact if_neg (by omega)

theorem dropRef_cases :
    ∀ s : State, dropRef none s = s ∧ ∀ i : Nat, dropRef (some i) s = s.withSlots (s.recipes.slots.modify i (fun sl =>
      if sl.state = .retiring ∧ sl.refs - 1 = 0 then .blank else { sl with refs := sl.refs - 1 })) := by
  intro s
  exact ⟨rfl, fun i => rfl⟩

theorem execEntryLeadingEdge_enters :
    ∀ (s u v : State) (id : Nat) (b : Board), s.joined = true → s.cfg.roles.entry = true → s.freePlaces ≠ 0 →
      id = freshId s.boardIds 9 s.tracker.nextId →
      b = { line := ⟨id, s.entryData.1, s.entryData.2.1, s.entryData.2.2.1, s.tracker.admissions.isEmpty, false, false, []⟩
            anchorPos := 0, anchorCount := s.tracker.count, handed := none, confirmed := true, seenMissing := false
            admitted := s.entryData.2.2.2.1, slot := none
            noRecipeNoted := s.entryData.2.2.2.2 && decide (s.cfg.winStart = 0)
            heldBack := false, phase := .waiting, nextDot := 0, dotsFired := 0, dotsSkipped := 0, flowPulses := 0
            notFluxed := false, flowLag := .stopped, waveContact := false } →
      u = useAdmission (joinQueue b { s with tracker := { s.tracker with nextId := nextBoardId id, underEye := some id } }) →
      v = (if s.entryData.2.2.2.2 = true then occurrence 20 id (addMark id 7 u) else u) →
      exec .entryLeadingEdge s = .next (settle (workRequests (takeInChecks id v))) := by
  intro s u v id b hj hr hp hid hb hu hv
  have pos : ∀ x : Board, x.anchorPos = 0 → x.anchorCount = s.tracker.count → s.pos x = 0 := by
    intro x h1 h2
    unfold State.pos leadingEdge
    rw [h1, h2, BitVec.sub_self]
    simp [clampNat]
  have hw : ∀ x : Board, x.anchorPos = 0 → x.anchorCount = s.tracker.count → s.inWindow x = decide (s.cfg.winStart = 0) := by
    intro x h1 h2
    unfold State.inWindow
    rw [pos x h1 h2, Bool.eq_iff_iff]
    simp
  have e : s.entryBoard id = b := by
    rw [hb]
    unfold State.entryBoard
    dsimp only
    rw [hw _ rfl rfl]
    rfl
  show execEntryLeadingEdge s = _
  unfold execEntryLeadingEdge
  rw [if_neg (by simp [hj]), if_neg (by simp [hr]), if_neg hp]
  unfold enterBoard
  dsimp only
  rw [← hid, e, ← hu, ← hv]

/-! ## R68: loans -/

theorem hasLoan_exists : ∀ (p : Nat) (l : List Loan), hasLoan p l = true ↔ ∃ r ∈ l, r.peer = p := by
  intro p l
  unfold hasLoan
  simp only [List.any_eq_true, beq_iff_eq]

theorem loanOf_cases :
    ∀ (p : Nat) (r : Loan) (l : List Loan), loanOf p [] = 0 ∧ loanOf p (r :: l) = if r.peer = p then r.amount else loanOf p l := by
  intro p r l
  refine ⟨rfl, ?_⟩
  unfold loanOf
  by_cases h : r.peer = p
  · rw [if_pos h, List.find?_cons_of_pos (by simpa using h)]
    rfl
  · rw [if_neg h, List.find?_cons_of_neg (by simpa using h)]

theorem growLoan_eq : ∀ (p m : Nat) (l : List Loan), growLoan p m l = if ∃ r ∈ l, r.peer = p then
      l.map (fun r => if r.peer = p then { r with amount := r.amount + m } else r) else l ++ [⟨p, m⟩] := by
  intro p m l
  unfold growLoan
  simp only [hasLoan_exists, beq_iff_eq]

theorem shrinkLoan_eq : ∀ (p m : Nat) (l : List Loan), shrinkLoan p m l =
      (l.map (fun r => if r.peer = p then { r with amount := r.amount - m } else r)).filter (fun r => decide (1 ≤ r.amount)) := by
  intro p m l
  unfold shrinkLoan
  simp only [beq_iff_eq]
  congr 1
  funext r
  rw [Bool.eq_iff_iff, bne_iff_ne, decide_eq_true_eq]
  omega

theorem dropLoan_eq : ∀ (p : Nat) (l : List Loan), dropLoan p l = l.filter (fun r => decide (r.peer ≠ p)) := by
  intro p l
  unfold dropLoan
  congr 1
  funext r
  rw [Bool.eq_iff_iff, bne_iff_ne, decide_eq_true_eq]

/-! ## R152: RESTART -/

theorem restartable_iff : ∀ s : State, s.restartable = true ↔ s.tracker.queue = [] ∧ s.control.condition ≠ .tripped := by
  intro s
  unfold State.restartable
  simp only [Bool.and_eq_true, List.isEmpty_iff, bne_iff_ne]

/-! ## R174, R169, R171: the common part of a commit -/

theorem learnsFrom_iff : ∀ (src : Nat) (s : State), s.learnsFrom src = true ↔
      (s.control.station = .claiming ∨ s.control.station = .claimFail ∨ s.control.station = .joined) ∧
      1 ≤ src ∧ src ≤ 31 ∧ src ≠ s.dir.own := by
  intro src s
  unfold State.learnsFrom State.learns
  simp only [Bool.and_eq_true, decide_eq_true_eq, bne_iff_ne, and_assoc]
  cases s.control.station <;> simp

theorem isolated_iff :
    ∀ s : State, s.isolated = true ↔ s.joined = true ∧ (s.bus.ownContact = .expired ∨ s.bus.peerContact = .expired) := by
  intro s
  unfold State.isolated
  simp only [Bool.and_eq_true, Bool.or_eq_true, beq_iff_eq]

theorem restartContact_cases : ∀ (own : Bool) (s u v : State),
      u = (if own = true then { s with bus := { s.bus with ownContact := .running (3 * s.cfg.presencePeriod) } }
        else { s with bus := { s.bus with peerContact := .running (3 * s.cfg.presencePeriod) } }) →
      v = releaseHeld 27 u →
      (s.joined = false → restartContact own s = s) ∧
      (s.joined = true → s.isolated = false ∨ u.isolated = true → restartContact own s = u) ∧
      (s.joined = true → s.isolated = true → u.isolated = false →
        restartContact own s = settle (if v.hasFrame (TxFrame.isKind 2) = true then v else queueJoin v)) := by
  intro own s u v hu hv
  have e : s.joined = true → restartContact own s = if s.isolated && !u.isolated then leaveIsolation u else u := by
    intro j
    rw [hu]
    unfold restartContact
    rw [if_neg (by simp [j])]
    rfl
  refine ⟨fun j => ?_, fun j h => ?_, fun j h k => ?_⟩
  · unfold restartContact
    rw [if_pos (by simp [j])]
  · rw [e j, if_neg]
    rcases h with h | h <;> simp [h]
  · rw [e j, if_pos (by simp [h, k]), hv]
    rfl

theorem commitFrame_own_eq : ∀ (src : Nat) (s u : State),
      u = restartContact true { s with bus := { s.bus with
        queue := s.bus.queue.filter (fun f => f.phase != .onBus)
        onWire := none, frameStart := none, answer := ⟨false, false, false⟩ } } →
      commitFrame true src s = if (u.cause 26).raised = true then settle (releaseHeld 26 u) else u := by
  intro src s u hu
  rw [hu]
  rfl

theorem commitFrame_heard_eq : ∀ (src : Nat) (s u v : State),
      u = { s with bus := { s.bus with
        queue := s.bus.queue.map (fun f => if f.phase = .onBus then { f with phase := .waiting } else f)
        onWire := none, frameStart := none, answer := ⟨false, false, false⟩ } } →
      v = (if s.joined = true ∧ src = s.dir.own ∧ src ≠ 0 then u else restartContact false u) →
      (v.learnsFrom src = false → commitFrame false src s = v) ∧
      (v.learnsFrom src = true → ∀ e, v.entry src = some e → commitFrame false src s =
        { v with dir := { v.dir with entries := v.dir.entries.set src (some { e with touched := true }) } }) ∧
      (v.learnsFrom src = true → v.entry src = none → commitFrame false src s = { v with
        dir := { v.dir with
          entries := v.dir.entries.set src (some ⟨none, if src = 30 ∨ src = 31 then 16 else 0, none, none, false, true, none⟩) }
        groups := { v.groups with orphans := v.groups.orphans.filter (fun r => r != src) } }) := by
  intro src s u v hu hv
  have e : commitFrame false src s = touch src v := by
    rw [hv, hu]
    unfold commitFrame
    simp only [Bool.false_eq_true, if_false, Bool.and_eq_true, beq_iff_eq, bne_iff_ne, and_assoc]
    rfl
  have p : isPanel src = true ↔ src = 30 ∨ src = 31 := by
    unfold isPanel
    simp only [Bool.or_eq_true, beq_iff_eq]
  refine ⟨fun h => ?_, fun h x k => ?_, fun h k => ?_⟩
  · rw [e]
    unfold touch
    rw [if_neg (by rw [h]; exact Bool.false_ne_true)]
  · rw [e]
    unfold touch
    rw [if_pos h, k]
    rfl
  · rw [e]
    unfold touch
    rw [if_pos h, k]
    simp only [freshEntry, p]
    rfl

theorem dropReservation_eq : ∀ s : State, dropReservation s = { s with bus := { s.bus with reservation := none } } := by
  intro s
  rfl

theorem ownsFrame_iff : ∀ (s : State) (kind src dst : Nat) (payload : List Byte), s.ownsFrame kind src dst payload = true ↔
      ∃ w, s.bus.onWire = some w ∧ w.kind = kind ∧ w.src = src ∧ w.dst = dst ∧ w.payload = payload := by
  intro s kind src dst payload
  unfold State.ownsFrame
  cases s.bus.onWire <;> simp [and_assoc]

/-! ## R133..R137, R148: activity sets -/

theorem clearEmptyOrphans_eq : ∀ (p : Nat → Bool) (s : State), clearEmptyOrphans p s = { s with groups := { s.groups with
      orphans := s.groups.orphans.filter (fun r => decide (p r = false ∨ ∃ a ∈ s.groups.activity, a.raiser = r)) } } := by
  intro p s
  have e : (fun r => !(p r && !s.groups.activity.any (fun a => a.raiser == r))) =
      (fun r => decide (p r = false ∨ ∃ a ∈ s.groups.activity, a.raiser = r)) := by
    funext r
    rw [Bool.eq_iff_iff]
    simp only [Bool.not_eq_true', Bool.and_eq_false_iff, Bool.not_eq_false', List.any_eq_true, beq_iff_eq, decide_eq_true_eq]
  unfold clearEmptyOrphans
  rw [e]

theorem execAlarm_unstored : ∀ (src : Station) (f : AlarmFields) (s : State) (start : BitVec 32), s.Hears start →
      src = 0 ∨ src.toNat = s.dir.own ∨ 28 < f.index.toNat ∨ 8 < f.group.toNat → exec (.alarm src f) s =
        .next (dropReservation (captureLine src.toNat f (commitFrame false src.toNat s))) := by
  intro src f s start h k
  show execAlarm src f s = _
  have n : noteDelivered src.toNat f s = s := by
    unfold noteDelivered State.ownsFrame
    rw [h.1]
    exact if_neg (by simp)
  unfold execAlarm
  rw [n, committed_heard h]
  refine congrArg (fun u => Host.Outcome.next (dropReservation u)) (if_neg ?_)
  have c := captureLine_same src.toNat f (commitFrame false src.toNat s)
  unfold State.inScope
  rw [c.2, commitFrame_own]
  rcases k with k | k | k | k
  · simp [k]
  · simp [k]
  · have : ¬ f.index.toNat ≤ 28 := by omega
    simp [this]
  · have : ¬ f.group.toNat ≤ 8 := by omega
    simp [this]

theorem captureLine_not : ∀ (src : Nat) (f : AlarmFields) (s : State), src = 0 ∨ 28 < f.index.toNat → captureLine src f s = s := by
  intro src f s h
  unfold captureLine
  rw [if_neg]
  rcases h with h | h
  · simp [h]
  · have : ¬ f.index.toNat ≤ 28 := by omega
    simp [this]

theorem execClear_not_held : ∀ (src : Station) (index group : Byte) (s : State) (start : BitVec 32), s.Hears start →
      s.joined = false ∨ src.toNat = s.dir.own ∨
        (⟨group.toNat, src.toNat, index.toNat⟩ : Activity) ∉ (s.afterCommit false src.toNat).groups.activity →
      exec (.clear src index group) s = .next (s.afterCommit false src.toNat) := by
  intro src index group s start h k
  show execClear src index group s = _
  unfold execClear
  rw [committed_heard h]
  refine congrArg (fun u => Host.Outcome.next (dropReservation u)) (if_neg ?_)
  rw [commitFrame_own, commitFrame_joined]
  rcases k with k | k | k
  · simp [k]
  · simp [k]
  · have k' : (⟨group.toNat, src.toNat, index.toNat⟩ : Activity) ∉ (commitFrame false src.toNat s).groups.activity := k
    simp [k']

/-! ## R135: RELEASE -/

theorem execRelease_out_of_range : ∀ (src : Station) (group raiser : Byte) (s : State) (start : BitVec 32), s.Hears start →
      8 < group.toNat ∨ 31 < raiser.toNat → exec (.release src group raiser) s = .next (s.afterCommit false src.toNat) := by
  intro src group raiser s start h k
  show execRelease src group raiser s = _
  unfold execRelease panelFrame
  rw [committed_heard h]
  refine congrArg (fun u => Host.Outcome.next (dropReservation u)) (if_neg ?_)
  rcases k with k | k
  · have : ¬ group.toNat ≤ 8 := by omega
    simp [this]
  · have : ¬ raiser.toNat ≤ 31 := by omega
    simp [this]

/-! ## R21: AMEND -/

theorem pairOk_iff : ∀ station code : Nat, pairOk station code = true ↔
      1 ≤ station ∧ station ≤ 29 ∧ ((1 ≤ code ∧ code ≤ 12) ∨ (16 ≤ code ∧ code ≤ 63)) := by
  intro station code
  unfold pairOk markCodeOk
  simp only [Bool.and_eq_true, Bool.or_eq_true, decide_eq_true_eq, and_assoc]

theorem execAmend_own : ∀ (src : Station) (board length : Half) (station code : Byte) (pos : Pos) (s : State),
      (s.Sends 9 src.toNat 0 (byte2 board.toNat ++ [1, station, code]) →
        exec (.amendMark src board station code) s = .next (s.afterCommit true src.toNat)) ∧
      (s.Sends 9 src.toNat 0 (byte2 board.toNat ++ [2] ++ byte2 length.toNat) →
        exec (.amendLength src board length) s = .next (s.afterCommit true src.toNat)) ∧
      (s.Sends 9 src.toNat 0 (byte2 board.toNat ++ [3] ++ byte3 pos.toNat) →
        exec (.amendPosition src board pos) s = .next (s.afterCommit true src.toNat)) := by
  intro src board length station code pos s
  have t : ∀ (c : Commit) (x : State), c.own = true → takesAmend c src x = false := by
    intro c x h
    unfold takesAmend
    rw [h]
    rfl
  refine ⟨fun h => ?_, fun h => ?_, fun h => ?_⟩
  · show execAmendMark src board station code s = _
    obtain ⟨start, e⟩ := committed_sent h
    unfold execAmendMark
    rw [e]
    exact congrArg (fun u => Host.Outcome.next (dropReservation u)) (if_neg (by rw [t _ _ rfl]; exact Bool.false_ne_true))
  · show execAmendLength src board length s = _
    obtain ⟨start, e⟩ := committed_sent h
    unfold execAmendLength
    rw [e]
    exact congrArg (fun u => Host.Outcome.next (dropReservation u)) (if_neg (by rw [t _ _ rfl]; exact Bool.false_ne_true))
  · show execAmendPosition src board pos s = _
    obtain ⟨start, e⟩ := committed_sent h
    unfold execAmendPosition
    rw [e]
    exact congrArg (fun u => Host.Outcome.next (dropReservation u)) (if_neg (by rw [t _ _ rfl]; exact Bool.false_ne_true))

/-! ## R171: contact timers -/

theorem expireContact_eq : ∀ s : State, expireContact .own s = { s with bus := { s.bus with ownContact := .expired } } ∧
      expireContact .peer s = { s with bus := { s.bus with peerContact := .expired } } ∧
      s.contact .own = s.bus.ownContact ∧ s.contact .peer = s.bus.peerContact := by
  intro s
  exact ⟨rfl, rfl, rfl, rfl⟩

/-! ## R38, R44, R46: nozzles -/

theorem selected_eq : ∀ (s : State) (body : RecipeBody), s.selected body = (List.range 8).filter (fun n =>
      body.mask.getLsbD n && decide (s.cfg.roles.flux = true ∧ n < s.cfg.nozzleCount)) := by
  intro s body
  unfold State.selected State.nozzles
  congr 1
  funext n
  cases s.cfg.roles.flux <;> simp

theorem proven_iff : ∀ (s : State) (n : Nat), (s.proven n = true ↔ s.ductEnabled n = true ∧ (s.duct n).state = .proven) ∧
      s.nozzleValve n = (s.oneShot n).isSome ∧
      (s.stopped = true ↔ s.control.condition = .tripped ∨ s.control.condition = .lineStop) := by
  intro s n
  refine ⟨?_, rfl, ?_⟩
  · unfold State.proven
    simp only [Bool.and_eq_true, beq_iff_eq]
  · unfold State.stopped
    simp only [Bool.or_eq_true, beq_iff_eq]

/-! ## R44, R19: inhibits and windows -/

theorem inWindow_iff :
    ∀ (s : State) (b : Board), s.inWindow b = true ↔ s.cfg.winStart ≤ s.pos b ∧ s.pos b ≤ s.cfg.winEnd + b.line.length := by
  intro s b
  unfold State.inWindow
  simp only [Bool.and_eq_true, decide_eq_true_eq]

theorem panel_cases : ∀ s : State, (∀ p, s.panel = some p ↔
        (p = 30 ∧ (s.entry 30).isSome = true) ∨ (p = 31 ∧ s.entry 30 = none ∧ (s.entry 31).isSome = true)) ∧
      (s.panel = none ↔ s.entry 30 = none ∧ s.entry 31 = none) := by
  intro s
  unfold State.panel
  cases h : s.entry 30 <;> cases k : s.entry 31 <;> simp [h, k, eq_comm]

/-! ## R2: a record taken in -/

theorem freshBoard_eq : ∀ (line : LineRecord) (pos : Nat) (count : BitVec 32), freshBoard line pos count =
      { line := line, anchorPos := pos, anchorCount := count, handed := none, confirmed := false, seenMissing := false
        admitted := none, slot := none, noRecipeNoted := false, heldBack := false, phase := .waiting, nextDot := 0
        dotsFired := 0, dotsSkipped := 0, flowPulses := 0, notFluxed := false, flowLag := .stopped, waveContact := false } := by
  intro line pos count
  rfl

/-! ## R157, R159: the check -/

theorem faultyFrame_iff :
    ∀ f : RawFrame, faultyFrame f = true ↔ f.readable = false ∨ 40 < f.length.toNat ∨ f.payload.length ≠ f.length.toNat ∨
      f.check ≠ some (BitVec.ofNat 16 (frameCheck (3 - f.cls.toNat) f.src.toNat f.kind.toNat f.dst.toNat f.length.toNat f.payload)) := by
  intro f
  unfold faultyFrame
  simp only [Bool.or_eq_true, Bool.not_eq_true', decide_eq_true_eq, bne_iff_ne, or_assoc]

theorem faultyOwn_iff : ∀ (w : WireFrame) (f : RawFrame), faultyOwn w f = true ↔
      f.check ≠ some (BitVec.ofNat 16 (frameCheck w.cls w.src w.kind w.dst w.payload.length w.payload)) := by
  intro w f
  unfold faultyOwn
  rw [bne_iff_ne]

theorem frameCheck_eq : ∀ (cls src kind dst length : Nat) (payload : List Byte), frameCheck cls src kind dst length payload =
      crcBytes payload (crcBits 23 ((((3 - cls) * 32 + src) * 32 + kind) * 2048 + dst * 64 + length) 65535) := by
  intro cls src kind dst length payload
  rfl

theorem uidAt_eq : ∀ (l : List Byte) (i : Nat), uidAt l i = 65536 * wordAt l i + halfAt l (i + 4) := by
  intro l i
  unfold uidAt
  rw [Nat.mul_comm]

/-! ## R128: a proving test -/

theorem provingTest_eq : ∀ s : State, provingTest s = driveDucts { s with extraction := { s.extraction with
      ducts := s.extraction.ducts.mapIdx (fun n d => if s.ductEnabled n = true ∧ d.state ≠ .off then
        { d with state := .proving, prove := 0
                 timer := if s.cfg.proveTimeout = 0 then .stopped else .running s.cfg.proveTimeout }
        else d) } } := by
  intro s
  have e : (fun (n : Nat) (d : Duct) => if s.ductEnabled n = true then
      (if d.state = .off then d else provingDuct s.proveTimer d) else d) =
      (fun (n : Nat) (d : Duct) => if s.ductEnabled n = true ∧ d.state ≠ .off then
    { d with state := .proving, prove := 0
             timer := if s.cfg.proveTimeout = 0 then .stopped else .running s.cfg.proveTimeout }
    else d) := by
    funext n d
    by_cases h : s.ductEnabled n = true
    · by_cases k : d.state = .off
      · rw [if_pos h, if_pos k, if_neg (fun c => c.2 k)]
      · rw [if_pos h, if_neg k, if_pos ⟨h, k⟩]
        rfl
    · rw [if_neg h, if_neg (fun c => h c.1)]
  unfold provingTest mapDucts
  rw [e]

/-! ## R108: what is announced -/

theorem needsAnnouncing_iff : ∀ (s : State) (i : Nat), s.needsAnnouncing i = true ↔ s.alarmAction i ≠ .note ∨ s.alarmGroup i ≠ 0 := by
  intro s i
  unfold State.needsAnnouncing
  simp only [Bool.or_eq_true, bne_iff_ne]

/-! ## R81, R137, R177, R179: CLAIM -/

theorem reclaim_eq : ∀ (k : Nat) (s : State),
      reclaim k s = setHeld (s.shares.held + loanOf k s.shares.lent) (s.withLent (dropLoan k s.shares.lent)) ∧
      surrender k s = setHeld (s.shares.held - loanOf k s.shares.borrowed) (s.withBorrowed (dropLoan k s.shares.borrowed)) := by
  intro k s
  exact ⟨rfl, rfl⟩

theorem clearOrphan_eq : ∀ (k : Nat) (s : State), clearOrphan k s =
      { s with groups := { s.groups with orphans := s.groups.orphans.filter (fun r => r != k) } } := by
  intro k s
  rfl

theorem writeClaim_eq : ∀ (k : Nat) (f : ClaimFields) (s : State) (e : DirEntry),
      e = (s.entry k).getD ⟨none, if k = 30 ∨ k = 31 then 16 else 0, none, none, false, true, none⟩ →
      writeClaim k f s = { s with dir := { s.dir with entries := s.dir.entries.set k (some
        { e with uid := some f.uid, roles := f.roles, window := some (f.winStart.toNat, f.winEnd.toNat)
                 incarnation := some 0, quiet := false, touched := true }) } } := by
  intro k f s e he
  have p : isPanel k = true ↔ k = 30 ∨ k = 31 := by
    unfold isPanel
    simp only [Bool.or_eq_true, beq_iff_eq]
  have q : freshEntry k = ⟨none, if k = 30 ∨ k = 31 then 16 else 0, none, none, false, true, none⟩ := by
    simp only [freshEntry, p]
  rw [he, ← q]
  rfl

theorem execClaim_unjoined :
    ∀ (f : ClaimFields) (s u : State) (start : BitVec 32), s.Hears start → s.learns = true → s.joined = false →
      1 ≤ f.number.toNat → f.number.toNat ≤ 29 → f.number.toNat ≠ s.dir.own →
      u = updateNeighbour [] (writeClaim f.number.toNat f (commitFrame false 0 s)) →
      exec (.claim f) s = .next (dropReservation
        (if u.control.station = .claiming ∧ f.number.toNat = u.cfg.preferred ∧ f.uid ≠ u.uid then { u with
          control := { u.control with station := .claimFail }
          dir := { u.dir with claimListen := .stopped }
          bus := { u.bus with queue := [], onWire := none } } else u)) := by
  intro f s u start h hl hj h1 h2 h3 hu
  show execClaim f s = _
  have lr : (commitFrame false 0 s).learns = s.learns := commitFrame_read _ _ _ State.learns (fun _ => rfl)
  have jr : (commitFrame false 0 s).joined = false := (commitFrame_joined _ _ _).trans hj
  have e : othersClaim f (commitFrame false 0 s) =
      if u.control.station = .claiming ∧ f.number.toNat = u.cfg.preferred ∧ f.uid ≠ u.uid then failClaim u else u := by
    unfold othersClaim
    dsimp only
    rw [if_neg (by rw [lr, hl]; simp [h1, h2]), if_neg (by rw [commitFrame_own]; exact h3),
      if_neg (by rw [jr]; exact Bool.false_ne_true), ← hu]
  unfold execClaim
  rw [committed_heard h]
  refine congrArg (fun x => Host.Outcome.next (dropReservation x)) ?_
  rw [if_neg Bool.false_ne_true, e]
  by_cases c : u.control.station = .claiming ∧ f.number.toNat = u.cfg.preferred ∧ f.uid ≠ u.uid
  · rw [if_pos c, if_pos c]
    exact if_pos c.1
  · rw [if_neg c, if_neg c]

theorem learns_iff : ∀ s : State, s.learns = true ↔
      s.control.station = .claiming ∨ s.control.station = .claimFail ∨ s.control.station = .joined := by
  intro s
  unfold State.learns
  cases s.control.station <;> simp

/-! ## R174, R181: JOIN and STATUS -/

theorem writeJoin_eq : ∀ (src : Nat) (f : JoinFields) (s : State) (e : DirEntry), s.entry src = some e →
      writeJoin src f s = { s with dir := { s.dir with entries := s.dir.entries.set src (some
        { e with uid := some f.uid, roles := if src = 30 ∨ src = 31 then e.roles else f.roles
                 window := some (f.winStart.toNat, f.winEnd.toNat), incarnation := some f.incarnation.toNat }) } } := by
  intro src f s e h
  have p : isPanel src = true ↔ src = 30 ∨ src = 31 := by
    unfold isPanel
    simp only [Bool.or_eq_true, beq_iff_eq]
  unfold writeJoin
  rw [h]
  simp only [entryRoles, p]
  rfl

theorem writeStatus_eq : ∀ (src : Nat) (f : StatusFields) (s : State) (e : DirEntry), s.entry src = some e → s.learnsFrom src = true →
      writeStatus src f s = updateNeighbour [] { s with dir := { s.dir with entries := s.dir.entries.set src (some
        { e with
          roles := if src = 30 ∨ src = 31 then e.roles else f.roles
          window := some (f.winStart.toNat, f.winEnd.toNat), incarnation := some f.incarnation.toNat
          summary := some ⟨f.mode.toNat, f.condition.toNat, f.level.toNat, f.held.toNat, f.base.toNat, f.boards.toNat⟩ }) } } := by
  intro src f s e h k
  have p : isPanel src = true ↔ src = 30 ∨ src = 31 := by
    unfold isPanel
    simp only [Bool.or_eq_true, beq_iff_eq]
  unfold writeStatus
  rw [h]
  dsimp only
  rw [if_pos k]
  simp only [entryRoles, p]
  rfl

theorem execJoin_unjoined :
    ∀ (src : Station) (f : JoinFields) (s : State) (start : BitVec 32), s.Hears start → s.learnsFrom src.toNat = true →
      s.joined = false → exec (.join src f) s =
        .next (dropReservation (updateNeighbour [] (writeJoin src.toNat f (commitFrame false src.toNat s)))) := by
  intro src f s start h hl hj
  show execJoin src f s = _
  have jr : (commitFrame false src.toNat s).joined = false := (commitFrame_joined _ _ _).trans hj
  have o : src.toNat ≠ s.dir.own := ((learnsFrom_iff src.toNat s).1 hl).2.2.2
  unfold execJoin
  rw [committed_heard h]
  refine congrArg (fun x => Host.Outcome.next (dropReservation x)) ?_
  rw [if_neg Bool.false_ne_true, if_neg (by rw [commitFrame_own]; exact fun c => o c.2),
    if_neg (by rw [commitFrame_learnsFrom, hl]; exact Bool.false_ne_true)]
  dsimp only
  rw [if_neg (by rw [jr]; exact Bool.false_ne_true)]

theorem execJoin_unlearned :
    ∀ (src : Station) (f : JoinFields) (s : State) (start : BitVec 32), s.Hears start → s.learnsFrom src.toNat = false →
      src = 0 ∨ src.toNat ≠ s.dir.own ∨ s.joined = false → exec (.join src f) s = .next (s.afterCommit false src.toNat) := by
  intro src f s start h hl k
  show execJoin src f s = _
  unfold execJoin
  rw [committed_heard h]
  refine congrArg (fun x => Host.Outcome.next (dropReservation x)) ?_
  rw [if_neg Bool.false_ne_true, commitFrame_own]
  by_cases c : src ≠ 0 ∧ src.toNat = s.dir.own
  · have hj : s.joined = false := by
      rcases k with k | k | k
      · exact absurd k c.1
      · exact absurd c.2 k
      · exact k
    rw [if_pos c]
    unfold ownNumberHeard
    rw [if_neg (by rw [commitFrame_joined, hj]; exact Bool.false_ne_true)]
  · rw [if_neg c, if_pos (by rw [commitFrame_learnsFrom, hl]; rfl)]

theorem execStatus_heard : ∀ (src : Station) (f : StatusFields) (s : State) (start : BitVec 32), s.Hears start →
      (s.learnsFrom src.toNat = false → exec (.status src f) s = .next (s.afterCommit false src.toNat)) ∧
      (s.learnsFrom src.toNat = true →
        exec (.status src f) s = .next (dropReservation (settle (writeStatus src.toNat f (commitFrame false src.toNat s))))) := by
  intro src f s start h
  constructor
  · intro k
    show execStatus src f s = _
    unfold execStatus
    rw [committed_heard h]
    exact congrArg (fun u => Host.Outcome.next (dropReservation u)) (if_pos (by rw [commitFrame_learnsFrom, k]; rfl))
  · intro k
    show execStatus src f s = _
    unfold execStatus
    rw [committed_heard h]
    exact congrArg (fun u => Host.Outcome.next (dropReservation u))
      (if_neg (by rw [commitFrame_learnsFrom, k]; exact Bool.false_ne_true))

/-! ## R69, R73: NEED -/

theorem execNeed_no_effect : ∀ (src : Station) (amount : Half) (s : State) (start : BitVec 32), s.Hears start →
      s.joined = false ∨ src.toNat = s.dir.own → exec (.need src amount) s = .next (s.afterCommit false src.toNat) := by
  intro src amount s start h k
  show execNeed src amount s = _
  unfold execNeed
  rw [committed_heard h]
  refine congrArg (fun x => Host.Outcome.next (dropReservation x)) ?_
  rw [commitFrame_joined, commitFrame_own]
  by_cases c : (!needInRange src.toNat amount.toNat || !s.joined) = true
  · rw [if_pos c]
  · rw [if_neg c, if_neg Bool.false_ne_true]
    rcases k with k | k
    · rw [k] at c
      simp at c
    · rw [if_pos k]

theorem execNeed_own : ∀ (src : Station) (amount : Half) (s u : State), s.Sends 4 src.toNat 0 (byte2 amount.toNat) → s.joined = true →
      1 ≤ src.toNat ∧ src.toNat ≤ 29 → 1 ≤ amount.toNat ∧ amount.toNat ≤ 255 → u = commitFrame true src.toNat s →
      exec (.need src amount) s = .next (dropReservation { u with shares := { u.shares with
        needAmount := amount.toNat, needTimer := .running u.cfg.presencePeriod } }) := by
  intro src amount s u h j r q hu
  obtain ⟨start, e⟩ := committed_sent h
  have c : (!needInRange src.toNat amount.toNat || !u.joined) = false := by
    rw [hu, commitFrame_joined, j]
    simp [needInRange, r, q]
  show execNeed src amount s = _
  unfold execNeed
  rw [e, ← hu]
  refine congrArg (fun x => Host.Outcome.next (dropReservation x)) ?_
  show (if (!needInRange src.toNat amount.toNat || !u.joined) = true then u else if true = true then setNeed amount.toNat u else _) = _
  rw [c]
  rfl

/-! ## R105, R108, R111: the properties of an alarm -/

theorem alarm_properties_watch : ∀ (s : State) (i : Nat), i < 16 →
      (s.watch i = .empty → s.alarmAction i = .note ∧ s.alarmGroup i = 0 ∧ s.alarmMark i = 0) ∧
      (∀ d : WatchDef, s.watch i = .fixed d ∨ s.watch i = .panel d →
        s.alarmAction i = d.action ∧ s.alarmGroup i = d.group ∧ s.alarmMark i = d.mark) := by
  intro s i h
  unfold State.alarmAction State.alarmGroup State.alarmMark
  rw [if_pos h, if_pos h, if_pos h]
  refine ⟨fun e => ?_, fun d e => ?_⟩
  · rw [e]
    exact ⟨rfl, rfl, rfl⟩
  · rcases e with e | e <;> rw [e] <;> exact ⟨rfl, rfl, rfl⟩

theorem alarm_properties_builtin :
    ∀ s : State, (∀ i, 16 ≤ i → s.alarmGroup i = s.cfg.builtinGroups.getD (i - 16) 0 ∧ s.alarmMark i = 0) ∧
      (∀ i ∈ [16, 17, 18, 19, 20], s.alarmAction i = .hold) ∧ (∀ i ∈ [21, 22, 27], s.alarmAction i = .warn) ∧
      s.alarmAction 23 = .trip ∧ s.alarmAction 24 = s.cfg.failedLevel ∧ s.alarmAction 25 = s.cfg.lostLevel ∧
      s.alarmAction 26 = .note ∧ s.alarmAction 28 = .note := by
  intro s
  refine ⟨fun i h => ?_, fun i h => ?_, fun i h => ?_, rfl, rfl, rfl, rfl, rfl⟩
  · unfold State.alarmGroup State.alarmMark
    rw [if_neg (by omega), if_neg (by omega)]
    exact ⟨rfl, rfl⟩
  · simp only [List.mem_cons, List.not_mem_nil, or_false] at h
    rcases h with rfl | rfl | rfl | rfl | rfl <;> rfl
  · simp only [List.mem_cons, List.not_mem_nil, or_false] at h
    rcases h with rfl | rfl | rfl <;> rfl

theorem stands_iff : ∀ (s : State) (i : Nat), (s.stands i = true ↔
      s.alarmState i = .active ∨ s.alarmState i = .activeAcked ∨ s.alarmState i = .latched) ∧
      (s.hasWaiting (TxFrame.isAlarmOf i) = true ↔ ∃ f ∈ s.bus.queue, f.phase ≠ .onBus ∧ f.isAlarmOf i = true) := by
  intro s i
  constructor
  · unfold State.stands
    cases s.alarmState i <;> simp [AlarmState.stands]
  · unfold State.hasWaiting
    simp only [List.any_eq_true, Bool.and_eq_true, bne_iff_ne]

/-! ## R142: MODE -/

theorem modeOfCode_cases : ∀ n : Nat, Mode.ofCode 0 = some .idle ∧ Mode.ofCode 1 = some .run ∧ Mode.ofCode 2 = some .service ∧
      (3 ≤ n → Mode.ofCode n = none) := by
  intro n
  refine ⟨rfl, rfl, rfl, fun h => ?_⟩
  match n, h with
  | n + 3, _ => rfl

/-! ## R165: the transmit queue -/

theorem admits_iff : ∀ (s : State) (cls : Nat), s.admits cls = true ↔
      (if cls = 3 then 1 else if cls = 2 then 3 else if cls = 1 then 5 else 7) ≤
        16 - (s.bus.queue.length + if s.bus.reservation = some .txPlace then 1 else 0) := by
  intro s cls
  unfold State.admits State.txFree classThreshold
  simp only [decide_eq_true_eq, beq_iff_eq]

/-! ## R162: outcomes -/

theorem ownCommits_iff :
    ∀ (f : TxFrame) (x : Slots), ownCommits f x = true ↔ x.veto = false ∧ x.busy = false ∧ (x.ack = true ∨ f.dst = 0) := by
  intro f x
  unfold ownCommits
  simp only [Bool.and_eq_true, Bool.or_eq_true, Bool.not_eq_true', beq_iff_eq, and_assoc]

theorem endFrame_eq :
    ∀ s : State, s.onBusFrame = s.bus.queue.find? (fun f => f.phase == .onBus) ∧ endFrame s = { s with bus := { s.bus with
      onWire := none, frameStart := none, answer := ⟨false, false, false⟩, reservation := none } } := by
  intro s
  exact ⟨rfl, rfl⟩

/-! ## R53, R64: channels in use -/

theorem inUse_iff : ∀ (s : State) (n : Nat), (s.inUse n = true ↔ s.joined = true ∧ (s.channelConfig n).zone ≠ .unused) ∧
      s.channelOpen n = s.alarms.sensorOpen.getD n false := by
  intro s n
  refine ⟨?_, rfl⟩
  unfold State.inUse
  simp only [Bool.and_eq_true, bne_iff_ne]

/-! ## R30: RECIPE -/

theorem recipeFields_eq : ∀ f : RecipeFields,
      (recipeFieldsInRange f = true ↔ f.number.toNat ≠ 0 ∧ f.flags.toNat < 8 ∧ 1 ≤ f.pulse.toNat ∧ f.pulse.toNat ≤ 50 ∧
        f.pitch.toNat ≠ 0) ∧
      recipeBodyOf f = { zones := f.zones.map (fun z => signed16 z.toNat), pot := signed16 f.pot.toNat
                         mainSpeed := f.mainSpeed.toNat, chipSpeed := f.chipSpeed.toNat, mainWave := bitOf f.flags.toNat 1
                         chipWave := bitOf f.flags.toNat 2, pulse := f.pulse.toNat, pitch := f.pitch.toNat
                         margin := f.margin.toNat, mask := f.mask, flow := f.flow.toNat } := by
  intro f
  refine ⟨?_, rfl⟩
  unfold recipeFieldsInRange recipeInRange
  simp only [Bool.and_eq_true, bne_iff_ne, decide_eq_true_eq, and_assoc]

theorem isCurrent_iff : ∀ (n : Nat) (sl : Slot), (sl.isCurrent n = true ↔ sl.state = .current ∧ sl.number = n) ∧
      (sl.isRetiring n = true ↔ sl.state = .retiring ∧ sl.number = n) := by
  intro n sl
  constructor
  · unfold Slot.isCurrent
    simp only [Bool.and_eq_true, beq_iff_eq]
  · unfold Slot.isRetiring
    simp only [Bool.and_eq_true, beq_iff_eq]

theorem execRecipe_heard : ∀ (src : Station) (f : RecipeFields) (s : State) (start : BitVec 32), s.Hears start → s.joined = true →
      src.toNat = 30 ∨ src.toNat = 31 →
      exec (.recipe src f) s = .next (dropReservation (takeRecipe f (commitFrame false src.toNat s))) := by
  intro src f s start h j k
  show execRecipe src f s = _
  unfold execRecipe panelFrame
  rw [committed_heard h]
  refine congrArg (fun x => Host.Outcome.next (dropReservation x)) (if_pos ?_)
  exact takesPanel_of ((commitFrame_joined ..).trans j) k

theorem execDrop_heard : ∀ (src : Station) (n : Byte) (s u : State) (start : BitVec 32), s.Hears start → s.joined = true →
      src.toNat = 30 ∨ src.toNat = 31 → u = commitFrame false src.toNat s →
      exec (.drop src n) s = .next (dropReservation (u.withSlots (u.recipes.slots.map (fun sl =>
        if sl.state == SlotState.current && sl.number == n.toNat then
          if sl.refs = 0 then .blank else { sl with state := .retiring, isDefault := false }
        else sl)))) := by
  intro src n s u start h j k hu
  subst hu
  show execDrop src n s = _
  unfold execDrop panelFrame
  rw [committed_heard h]
  refine congrArg (fun x => Host.Outcome.next (dropReservation x)) ((if_pos ?_).trans rfl)
  exact takesPanel_of ((commitFrame_joined ..).trans j) k

theorem execAdmit_heard :
    ∀ (src dst : Station) (n count : Byte) (length : Half) (s u : State) (start : BitVec 32) (i : Nat), s.Hears start →
      s.Accepts dst → s.findSlot (Slot.isCurrent n.toNat) = some i → u = commitFrame false src.toNat s →
      exec (.admitBoards src dst n length count) s = .next (dropReservation { u with
        recipes := { u.recipes with slots := u.recipes.slots.modify i (fun sl => { sl with refs := sl.refs + 1 }) }
        tracker := { u.tracker with admissions :=
          u.tracker.admissions ++ [(⟨n.toNat, (u.slot i).version, length.toNat, count.toNat⟩ : Admission)] } }) := by
  intro src dst n count length s u start i h a f hu
  have e : u.findSlot (Slot.isCurrent n.toNat) = some i := by
    rw [hu]
    exact (commitFrame_read _ _ _ (fun x => x.findSlot (Slot.isCurrent n.toNat)) (fun _ => rfl)).trans f
  show execAdmit src dst n length count s = _
  unfold execAdmit panelFrame
  rw [committed_heard h, ← hu]
  refine congrArg (fun x => Host.Outcome.next (dropReservation x)) ((if_pos ?_).trans ?_)
  · show (s.bus.answer.ack && dst.toNat == s.dir.own) = true
    rw [a.1, a.2]
    simp
  · unfold takeAdmit
    rw [e]
    rfl

/-! ## R189, 13.3: payloads -/

theorem payload_bytes : ∀ (f : HandFields) (a : AlarmFields) (c : ClaimFields) (j : JoinFields) (x : StatusFields),
      handBytes f = byte2 f.board.toNat ++ [f.recipe, f.version] ++ byte2 f.length.toNat ++ byte3 f.pos.toNat ++ [f.flags]
        ++ byte1 f.marks.length ++ f.marks.flatMap (fun p => [p.1, p.2]) ∧
      alarmBytes a = [a.index, a.action, a.group] ++ byte4 a.scope.toNat ++ byte2 a.value.toNat ++ [a.mark] ∧
      claimBytes c = byte6 c.uid.toNat ++ [c.number, c.roles] ++ (byte3 c.winStart.toNat ++ byte3 c.winEnd.toNat) ∧
      joinBytes j = byte6 j.uid.toNat ++ [j.incarnation, j.roles] ++ (byte3 j.winStart.toNat ++ byte3 j.winEnd.toNat) ∧
      statusBytes x = [x.roles, x.mode, x.condition, x.level] ++ (byte3 x.winStart.toNat ++ byte3 x.winEnd.toNat)
        ++ byte2 x.held.toNat ++ byte2 x.base.toNat ++ [x.boards, x.incarnation] := by
  intro f a c j x
  exact ⟨rfl, rfl, rfl, rfl, rfl⟩

/-! ## R156, R187: receiving -/

theorem receives_iff :
    ∀ s : State, s.receives = true ↔ s.control.station ≠ .loading ∧ (s.control.station = .configFault → s.loader.rateGiven = true) := by
  intro s
  unfold State.receives
  cases s.control.station <;> simp

end Sys2Proof.Machine
end

