-- ==== Sys2Proof/WellFormed.lean ====
section
/-! DEFINITION. Which commands can come: the operand types fix the width of every wire field, and the checks here fix the
lengths that the types leave open. -/

namespace Sys2Proof

/-- A sample event reads eight thermocouples and two ducts (R102, Signals of 00_scope.md). -/
def Samples.wf (x : Samples) : Bool := x.thermocouples.length == 8 && x.ducts.length == 2

/-- HAND and DONE of the right length hold at most 4 pairs (R12, R189: a longer frame is not of the kind's length). -/
def HandFields.wf (x : HandFields) : Bool := decide (x.marks.length ≤ 4)

/-- RECIPE holds eight zone setpoints (13.3). -/
def RecipeFields.wf (x : RecipeFields) : Bool := x.zones.length == 8

/-- A receiver takes in no more payload bytes than the length field declares, and a check only after all of them (R159). -/
def RawFrame.wf (x : RawFrame) : Bool :=
  decide (x.payload.length ≤ x.length.toNat) && (x.check.isNone || x.payload.length == x.length.toNat)

/-- The commands whose operands can come from the wires the manual describes. -/
def Instr.wf : Instr → Bool
  | .imageReadEnd image => image.length == 402
  | .sampleEvent x => x.wf
  | .ackSlot x => x.wf
  | .hand _ _ x => x.wf
  | .done _ _ x => x.wf
  | .recipe _ x => x.wf
  | .watchInstall _ _ _ x => x.action != 0
  | .report _ _ _ _ content => decide (content.length ≤ 38)
  | .noKindFrame _ _ _ payload => decide (payload.length ≤ 40)
  | .startReset _ | .countEvent _ | .entryLeadingEdge | .entryTrailingEdge | .eyeLeadingEdge | .flowPulse
  | .permitLineChange _ | .tripLineChange _ | .periodStart | .heaterOnEdge _ | .heaterOffEdge _ | .pulseEnd _
  | .flowLagExpiry _ | .presenceEvent | .agingSweep | .claimListenExpiry | .contactTimerExpiry _ | .needExpiry
  | .holdOverExpiry | .stallTimerExpiry | .settleExpiry _ | .feedRunExpiry | .proveTimeout _ | .runOnExpiry
  | .busyBackoffEnd _ | .busStuck | .frameStart | .startOfTransmission | .lostArbitration | .frameOutcome _
  | .amendMark _ _ _ _ | .amendLength _ _ _ | .amendPosition _ _ _ | .drop _ _ | .admitBoards _ _ _ _ _ | .need _ _
  | .lend _ _ _ | .returnShares _ _ _ | .recallShares _ _ _ | .alarm _ _ | .clear _ _ _ | .acknowledge _ _ _
  | .watchEmpty _ _ _ | .release _ _ _ | .mode _ _ | .signalWrite _ _ _ | .signalSet _ _ _ | .signalClear _ _ _
  | .signalInvert _ _ _ | .restart _ _ | .queryStation _ _ _ | .queryDirectory _ _ _ | .queryBoards _ _ _
  | .queryBoard _ _ _ | .queryRecipe _ _ _ | .queryWatch _ _ _ | .queryAlarms _ _ _ | .queryFirstout _ _ _
  | .queryLoans _ _ _ | .queryGroup _ _ _ | .claim _ | .join _ _ | .status _ _ | .busIdle | .resetPinRelease => true

end Sys2Proof
end

