-- ==== Sys2Proof/Tests/Slice0.lean ====
section
/-! SUPPORT. The author's tests: ill-formed commands, values from the manual's worked sequences, single steps, and for every
statement of Certificates/Slice0/Obligations.lean that has premises a state and operands that meet all of them. -/

set_option Elab.async false

namespace Sys2Proof.Tests

open Sys2Proof Sys2Proof.Machine

/-! ## Ill-formed commands -/

/-- A sensor that reads `n`. -/
def sensor (n : Half) : Sensor := ⟨n, false⟩

/-- A sample of eight thermocouples and two ducts. -/
def samples (temp level : Half) : Samples := ⟨List.replicate 8 (sensor temp), [sensor 200, sensor 200], level⟩

def handFields (board : Half) (pos : Pos) (marks : List (Byte × Byte)) : HandFields := ⟨board, 4, 2, 2480, pos, 2, marks⟩

def recipeFields (version : Byte) : RecipeFields := ⟨4, version, 2, List.replicate 8 2000, 2500, 200, 0, 8, 20, 10, 0x3f, 24⟩

def watchFields (action : Byte) : WatchFields := ⟨0, 0, 100, 10, 7, 2, action, 0, 0⟩

/-- A frame as a station reads it, with the check that its bits give. -/
def frameOf (cls : Nat) (src kind dst : Nat) (payload : List Byte) : RawFrame :=
  ⟨BitVec.ofNat 2 (3 - cls), BitVec.ofNat 5 src, BitVec.ofNat 5 kind, BitVec.ofNat 5 dst, BitVec.ofNat 6 payload.length, payload,
    some (BitVec.ofNat 16 (frameCheck cls src kind dst payload.length payload)), true⟩

theorem test_image_of_another_length : (Instr.imageReadEnd [0xA5, 0x48]).wf = false := by decide

theorem test_sample_without_a_duct : (Instr.sampleEvent ⟨List.replicate 8 (sensor 0), [sensor 0], 0⟩).wf = false := by decide

theorem test_sample_without_a_thermocouple :
    (Instr.sampleEvent ⟨List.replicate 7 (sensor 0), [sensor 0, sensor 0], 0⟩).wf = false := by decide

theorem test_hand_of_five_marks :
    (Instr.hand 1 2 (handFields 17 0 [(1, 1), (1, 2), (1, 3), (1, 4), (1, 5)])).wf = false := by decide

theorem test_done_of_five_marks :
    (Instr.done 1 30 (handFields 17 0 [(1, 1), (1, 2), (1, 3), (1, 4), (1, 5)])).wf = false := by decide

theorem test_recipe_of_seven_zones :
    (Instr.recipe 30 { recipeFields 2 with zones := List.replicate 7 2000 }).wf = false := by decide

theorem test_install_with_action_0 : (Instr.watchInstall 30 1 3 (watchFields 0)).wf = false := by decide

theorem test_report_beyond_a_payload : (Instr.report 1 30 3 0 (List.replicate 39 0)).wf = false := by decide

theorem test_payload_beyond_40_bytes : (Instr.noKindFrame 1 0 14 (List.replicate 41 0)).wf = false := by decide

theorem test_check_before_the_payload_ends : (Instr.ackSlot ⟨0, 1, 4, 0, 2, [0], some 0, true⟩).wf = false := by decide

theorem test_payload_beyond_its_length : (Instr.ackSlot ⟨0, 1, 4, 0, 2, [0, 0, 0], none, true⟩).wf = false := by decide

theorem test_well_formed_commands :
    (Instr.sampleEvent (samples 2500 117)).wf = true ∧ (Instr.hand 1 2 (handFields 17 12006 [(1, 3)])).wf = true ∧
    (Instr.recipe 30 (recipeFields 3)).wf = true ∧ (Instr.watchInstall 30 1 3 (watchFields 3)).wf = true ∧
    (Instr.ackSlot (frameOf 1 30 25 1 [])).wf = true := by decide +kernel

/-! ## Values of the worked sequences -/

/-- 1.11: 4 007 counts at 10 000 a metre; a step back crosses 0; a coarse encoder truncates toward zero. -/
theorem test_leading_edge :
    leadingEdge 10000 42005 246012 242005 = 46012 ∧ leadingEdge 10000 5 0 10 = 0 ∧
    leadingEdge 3000 10 1 0 = 13 ∧ leadingEdge 3000 10 0 1 = 7 := by decide +kernel

/-- 4.9: rated 60, 20 shares left, demand 128: duty 85 at a cost of 20; the demand cost of 60 at 128 is 30. -/
theorem test_grant : grantOf 60 20 128 = 85 ∧ dutyCost 60 85 = 20 ∧ dutyCost 60 86 = 21 ∧ dutyCost 60 128 = 30 := by decide

/-- R61: with 36 slots spent a pulse of 85 is cut at once for a grant of 0, and keeps to the new grant above that. -/
theorem test_cut_pulse : cutPulse 36 85 0 = 36 ∧ cutPulse 36 85 40 = 40 ∧ cutPulse 36 30 0 = 30 := by decide

/-- R55: quotients truncate toward zero. -/
theorem test_integral : nextIntegral 40 (-20) ⟨none, 0, 0, 6, false, 0, 0⟩ = 3 ∧
    demandOf 40 200 6 = 256 ∧ demandOf 40 (-200) 6 = 0 := by decide

/-- R37: a speed of 255 gives 256, 200 gives 200, 128 gives 128 and 0 gives 0. -/
theorem test_speed_demand : speedDemand 255 = 256 ∧ speedDemand 200 = 200 ∧ speedDemand 128 = 128 ∧ speedDemand 0 = 0 := by decide

/-- 11.8: uid 0000 1A20 0204 loses to uid 0000 1A20 0010, and a higher class wins. -/
theorem test_arbitration :
    losesTo (WireFrame.bits ⟨3, 0, 1, 0, byte6 0x1A200204⟩) (WireFrame.bits ⟨3, 0, 1, 0, byte6 0x1A200010⟩) = true ∧
    losesTo (WireFrame.bits ⟨2, 1, 4, 0, []⟩) (WireFrame.bits ⟨3, 5, 4, 0, []⟩) = true := by decide +kernel

/-- R157: the check of the bytes of "123456789". -/
theorem test_check : crcBytes [0x31, 0x32, 0x33, 0x34, 0x35, 0x36, 0x37, 0x38, 0x39] 65535 = 0x29B1 := by decide +kernel

/-- R14: the sequence passes over held ids and runs from 65 535 to 1. -/
theorem test_next_id : freshId [65535, 1] 9 65535 = 2 ∧ nextBoardId 65535 = 1 := by decide

/-- R40: the bytes of a HAND carry the L of the start of transmission. -/
theorem test_hand_bytes : handBytes (handFields 17 12006 [(1, 3)]) =
    [0, 17, 4, 2, 0x09, 0xB0, 0x00, 0x2E, 0xE6, 2, 1, 1, 3] := by decide

/-- No row of the table gives bits. -/
theorem test_no_word_spells_a_command (nbits w : Nat) : decodeTableWord nbits w = none := rfl

/-! ## A station for the steps -/

/-- A station of all four roles: its own window is [1 000, 50 000]. -/
def config : StationConfig :=
  { StationConfig.blank with
    preferred := 1, roles := ⟨true, true, true, true⟩, winStart := 1000, winEnd := 50000, handoverLead := 2000
    eyePos := some 0, eyeTolerance := 300, lengthTolerance := 50, countsPerMetre := 10000, stallTime := 3000
    holdOverTime := 60, presencePeriod := 500, agingInterval := 1000, busyBackoff := 20, cap := 600, base := 100
    lendMargin := 10, returnHysteresis := 20, heaterPeriod := 10
    channels := ⟨.pot, 80, 3, 40, 2, 0, 1500⟩ :: List.replicate 7 ⟨.preheat 1, 60, 1, 40, 2, 200, 1500⟩
    meltSafe := 2000, feedOn := 100, feedOff := 130, lowLow := 50, feedLimit := 30, wavePos := 40000, raiseLead := 1500
    lowerLag := 500, rampRate := 32, settleTime := 400, sprayPos := 5000, nozzleCount := 6, flowLag := 300
    ductEnabled := [true, true], proveThreshold := 180, lossThreshold := 120, proveHold := 5, lossSamples := 3
    proveTimeout := 4000, runOnTime := 5, heatThreshold := 30000, builtinGroups := List.replicate 13 0
    groups := List.replicate 8 ⟨0, 0, 0⟩ }

def body : RecipeBody := ⟨List.replicate 8 2000, 2500, 200, 0, true, false, 8, 20, 10, 0x3f, 24⟩

/-- A record of recipe (4, 2) of length 2 500 with its leading edge at `pos` and count 0. -/
def boardAt (id pos : Nat) : Board :=
  { freshBoard ⟨id, 4, 2, 2500, false, true, false, []⟩ pos 0 with slot := some 0 }

/-- A directory entry whose window begins at `w`. -/
def peerFrom (w : Nat) : DirEntry := ⟨some 9, 4, some (w, w + 15000), some 0, false, true, none⟩

/-- Station 1, JOINED and in RUN, with boards 21 and 22 and neighbour 5. -/
def joined : State :=
  { State.reset with
    uid := 7
    loader := ⟨.done, [], some config, false⟩
    control := { Control.reset with station := .joined, mode := .run }
    dir := { Directory.reset with
      entries := (Directory.reset.entries.set 5 (some (peerFrom 44000))).set 30 (some ⟨none, 16, none, none, false, true, none⟩)
      own := 1, incarnation := some 0, aging := .running 1000, presence := .running 500 }
    bus := { Bus.reset with footing := true, ownContact := .running 1500, peerContact := .running 1500 }
    tracker := { Tracker.reset with queue := [boardAt 21 30000, boardAt 22 4990], nextId := 23, underEye := some 22, neighbour := some 5 }
    recipes := { RecipeStore.reset with slots := ⟨.current, 4, 2, 2, true, body⟩ :: List.replicate 7 Slot.blank }
    heater := { Heater.reset with periodTimer := .running 1000 }
    shares := { Shares.reset with state := .seated, held := 100 }
    extraction := ⟨true, .stopped, [⟨.proven, 5, 0, .stopped⟩, ⟨.proving, 0, 0, .running 4000⟩]⟩ }

/-- The station with another configuration. -/
def withConfig (c : StationConfig) (s : State) : State := { s with loader := ⟨.done, [], some c, false⟩ }

/-- A station downstream, with an eye at 30 200 and no ENTRY role. -/
def downstream : State := withConfig { config with roles := ⟨false, false, true, true⟩, eyePos := some 30200 } joined

/-- `n` boards in the queue. -/
def crowded (n : Nat) : State := joined.withQueue ((List.range n).map (fun i => boardAt (40 + i) (20000 - 100 * i)))

/-- The station claims number 1. -/
def claiming : State :=
  { State.reset with
    uid := 7
    loader := ⟨.done, [], some config, false⟩
    control := { Control.reset with station := .claiming }
    dir := { Directory.reset with claimListen := .running 500, aging := .running 1000 }
    bus := { Bus.reset with footing := true } }

/-- A frame of another participant is on the wire, and this station has acknowledged it. -/
def hearing (s : State) : State :=
  { s with bus := { s.bus with onWire := none, frameStart := some 7, answer := ⟨true, false, false⟩ } }

/-- The same, not acknowledged. -/
def ignoring (s : State) : State := { hearing s with bus := { (hearing s).bus with answer := noAnswer } }

/-- The station transmits a frame of this kind and payload. -/
def sending (kind src dst : Nat) (payload : List Byte) (s : State) : State :=
  { s with bus := { s.bus with onWire := some ⟨1, src, kind, dst, payload⟩, frameStart := some 7 } }

theorem hears (s : State) : (hearing s).Hears 7 := ⟨rfl, rfl⟩

theorem hears_ignoring (s : State) : (ignoring s).Hears 7 := ⟨rfl, rfl⟩

theorem accepts : (hearing joined).Accepts 1 := ⟨rfl, rfl⟩

theorem sends (kind src dst : Nat) (payload : List Byte) (s : State) : (sending kind src dst payload s).Sends kind src dst payload := by
  constructor
  · simp [sending, State.ownsFrame]
  · rfl

/-! ## Single steps -/

/-- What a step answers, read as a state. -/
def after (c : Instr) (s : State) : State :=
  match exec c s with
  | .next t => t
  | _ => s

/-- 3.7: one count brings board 22 to the spray position and its margin of 100: dot 0 opens the six nozzles. -/
theorem test_a_dot_fires :
    (after (.countEvent true) (joined.withQueue [boardAt 22 5099])).spray.oneShots =
      [some (.board 22), some (.board 22), some (.board 22), some (.board 22), some (.board 22), some (.board 22), none, none] := by
  decide +kernel

/-- 3.7: one dot of six nozzles at 24 sixteenths expects 9 pulses. -/
theorem test_expected_pulses : joined.expectedPulses { boardAt 22 5000 with dotsFired := 1 } = 9 ∧
    joined.expectedPulses { boardAt 22 5000 with dotsFired := 4 } = 36 := by decide +kernel

/-- 8.8: from PROVEN, three samples below the loss threshold make LOST. -/
theorem test_draft_is_lost :
    sampleDuct config ⟨110, true⟩ ⟨.proven, 5, 0, .stopped⟩ = ⟨.proven, 5, 1, .stopped⟩ ∧
    sampleDuct config ⟨110, true⟩ ⟨.proven, 5, 2, .stopped⟩ = ⟨.lost, 0, 3, .stopped⟩ ∧
    sampleDuct config ⟨130, true⟩ ⟨.proven, 5, 2, .stopped⟩ = ⟨.proven, 5, 0, .stopped⟩ ∧
    sampleDuct config ⟨180, true⟩ ⟨.proving, 4, 0, .running 9⟩ = ⟨.proven, 5, 0, .stopped⟩ := by decide +kernel

/-- 2.6: RECIPE (4, 3) at a station whose CURRENT slot (4, 2) is in use takes a second slot, and DEFAULT goes with it. -/
theorem test_a_new_version_is_posted :
    ((after (.recipe 30 (recipeFields 3)) (hearing joined)).recipes.slots.map
      (fun sl => (sl.state, sl.number, sl.version, sl.isDefault))).take 2 =
      [(.retiring, 4, 2, false), (.current, 4, 3, true)] := by decide +kernel

/-- The record of a new board holds the default recipe, and the sequence goes on. -/
theorem test_a_board_enters :
    ((after .entryLeadingEdge joined).boardIds, (after .entryLeadingEdge joined).tracker.nextId) = ([21, 22, 23], 24) := by
  decide +kernel

/-- A LEND of 60 raises H. -/
theorem test_a_loan_is_taken :
    (after (.lend 5 1 60) (hearing joined)).shares.held = 160 ∧
    (after (.lend 5 1 60) (hearing joined)).shares.borrowed = [⟨5, 60⟩] := by decide +kernel

/-- The own CLAIM makes the station JOINED, seated, in IDLE. -/
theorem test_the_claim_joins :
    let t := after (.claim ⟨7, 1, 15, 1000, 50000⟩) (sending 1 0 0 (claimBytes ⟨7, 1, 15, 1000, 50000⟩) claiming)
    t.joined = true ∧ t.dir.own = 1 ∧ t.shares.held = 100 ∧ t.control.mode = .idle := by decide +kernel

/-- 9.10: another station pulls the trip line: LINE_STOP, and every board is marked LINE_STOPPED. -/
theorem test_the_line_stops :
    (after (.tripLineChange true) joined).control.condition = .lineStop ∧
    (after (.tripLineChange true) joined).control.lineState = .opened ∧
    (after (.tripLineChange true) joined).tracker.queue.map (fun b => b.line.marks) = [[⟨1, 11⟩], [⟨1, 11⟩]] := by
  decide +kernel

/-- A QUERY takes a report into the queue, and its bytes are built when it is sent. -/
theorem test_a_query_is_answered :
    (after .startOfTransmission (after (.queryLoans 30 1 1) (hearing (joined.withBorrowed [⟨5, 60⟩])))).bus.onWire =
      some ⟨1, 1, 13, 30, [9, 1, 1, 5, 0, 60]⟩ := by decide +kernel

/-- An idle step lets one slot of the heater period pass. -/
theorem test_an_idle_step : (match step joined with
    | .next t => t.heater.slot
    | _ => 0) = 1 := by decide +kernel

/-- R90, R92: SENSOR_OPEN, whose group lowers the wave, finds MAIN in RAISING, and the same sample event makes its first step
down; without it the pump steps up. -/
theorem test_a_lowered_pump_steps_at_once :
    let c := { config with builtinGroups := List.replicate 13 3, groups := List.replicate 8 ⟨0x3FFFFFFE, 31, 20⟩ }
    let s := withConfig c { joined with pot := { joined.pot with main := ⟨.raising, 100, 200, .stopped⟩, mainRequest := some 200 } }
    let opened : Samples := ⟨sensor 2500 :: ⟨2500, true⟩ :: List.replicate 6 (sensor 2500), [sensor 200, sensor 200], 117⟩
    (after (.sampleEvent (samples 2500 117)) s).pot.main = ⟨.raising, 132, 200, .stopped⟩ ∧
    (after (.sampleEvent opened) s).pot.main = ⟨.lowering, 68, 200, .stopped⟩ := by decide +kernel

/-- R115: the own ALARM of ISOLATED ends the isolation at its commit, and CLEAR follows it. -/
theorem test_the_alarm_of_isolation_is_cleared :
    let f : AlarmFields := ⟨27, 2, 0, 0x3FFFFFFE, 0, 0⟩
    let s := raiseHeld 27 0 { joined with bus := { joined.bus with ownContact := .expired } }
    let t := after (.alarm 1 f) (sending 11 1 0 (alarmBytes f) (updateRecord 27 (fun r => { r with announced := true }) s))
    s.alarmState 27 = .active ∧ t.alarmState 27 = .quiet ∧ t.hasFrame (TxFrame.isKind 12) = true := by decide +kernel

/-! ## An image -/

/-- `n` bytes of 0. -/
def zeros (n : Nat) : List Byte := List.replicate n 0

/-- The Station, Bus and Shares groups: station 4, HEAT, [29 000, 45 000], no eye. -/
def imageHead : List Byte :=
  byte2 0xA548 ++ byte2 402 ++ byte1 4 ++ byte1 4 ++ byte3 29000 ++ byte3 45000 ++ byte2 2000 ++ byte3 16777215 ++ zeros 4
    ++ byte3 10000 ++ zeros 4 ++ byte1 2 ++ byte2 500 ++ byte2 1000 ++ byte1 20 ++ byte2 600 ++ byte2 100 ++ byte2 10 ++ byte2 20

/-- The Heater group: channel 0 heats zone 1, the others are UNUSED. -/
def imageHeater : List Byte :=
  byte1 10 ++ byte1 1 ++ byte2 80 ++ byte1 1 ++ byte1 40 ++ byte1 2 ++ byte1 0 ++ byte2 1500 ++ zeros 63

/-- The rest to the check: the thresholds of the pot in order, HOLD for both duct conditions, one watch entry. -/
def imageTail : List Byte :=
  zeros 3 ++ byte2 20 ++ byte2 30 ++ byte2 10 ++ zeros 35 ++ [3, 3] ++ zeros 62 ++ byte1 1
    ++ [0, 1, 0, 100, 0, 10, 7, 2, 2, 0, 0] ++ zeros 165

/-- The image up to its check. -/
def imageFields : List Byte := imageHead ++ imageHeater ++ imageTail

/-- The image with the check of its bytes. -/
def image : List Byte := imageFields ++ byte2 (crcBytes imageFields 65535)

set_option maxRecDepth 100000 in
theorem test_the_image_is_accepted : image.length = 402 ∧ imageAccepted (imageBytes image) = true := by decide +kernel

set_option maxRecDepth 100000 in
theorem test_a_short_image_is_refused : imageAccepted (imageBytes (image.take 401)) = false := by decide +kernel

theorem test_the_image_gives_its_fields :
    (parseImage image).preferred = 4 ∧ (parseImage image).winStart = 29000 ∧ (parseImage image).eyePos = none ∧
    (parseImage image).base = 100 ∧ (parseImage image).fixedWatches = [⟨0, false, 100, 10, false, true, true, true, 2, .warn, 0, 0⟩] := by
  decide +kernel

/-! ## Premises met, statement by statement -/

theorem test_premises_AnIdleStepIsOnePeriodSlot : joined.pending = [] := rfl

theorem test_premises_OnlyTheStartChangesTheConfiguration :
    isStart .flowPulse = false ∧ exec .flowPulse joined = .next (after .flowPulse joined) := ⟨rfl, rfl⟩

theorem test_premises_FramesNotSeenFromTheirStartDoNothing :
    isCommit (.mode 30 1) = true ∧ joined.bus.frameStart = none := ⟨rfl, rfl⟩

/-- The station that a held reset pin has reset. -/
def held : State := { State.reset with loader := .reset true }

theorem test_premises_StartResetAndPinRelease : held.loader.phase = .pinHeld ∧ joined.loader.phase ≠ .pinHeld := by decide +kernel

theorem test_premises_TheImageIsAcceptedOrRefused_places :
    (State.reset.control.station = .loading ∧ State.reset.loader.phase = .reading) ∧
    (joined.control.station ≠ .loading ∨ joined.loader.phase ≠ .reading) := by decide +kernel

theorem test_premises_TheImageIsAcceptedOrRefused_refused : imageAccepted (imageBytes []) = false := by decide +kernel

theorem test_premises_TheEncoderCount :
    exec (.startReset true) joined = .next (after (.startReset true) joined) ∧
    exec .flowPulse joined = .next (after .flowPulse joined) ∧
    (-2147483648 : Int) < 2147483647 ∧ (-2147483648 : Int) < -2147483647 := ⟨rfl, rfl, by decide, by decide⟩

theorem test_premises_FlowPulseIsCounted : joined.spray.counting = none ∧
    { joined with spray := { joined.spray with counting := some 22 } }.spray.counting = some 22 := ⟨rfl, rfl⟩

theorem test_premises_EntryLeadingEdgeMakesABoard :
    ((crowded 7).joined = true ∧ (crowded 7).cfg.roles.entry = true ∧ (crowded 7).freePlaces ≠ 0) ∧
    ((crowded 8).joined = true ∧ (crowded 8).cfg.roles.entry = true ∧ (crowded 8).freePlaces = 0) ∧
    claiming.joined = false := by decide +kernel

theorem test_premises_EntryLeadingEdgeMakesABoard_admission_and_alarm :
    (joined.tracker.admissions = [] ∧ joined.freePlaces ≠ 0) ∧
    (∀ n ∈ [1, 2], { joined with tracker := { joined.tracker with admissions := [⟨4, 2, 2500, n⟩] } }.freePlaces ≠ 0) ∧
    ((crowded 8).alarmState 17 = .quiet ∧ 17 < (crowded 8).alarms.records.length ∧ (crowded 8).tracker.queue.length ≤ 8) ∧
    (updateRecord 17 (fun r => { r with state := .latched }) (crowded 8)).alarmState 17 ≠ .quiet := by decide +kernel

theorem test_premises_EntryLeadingEdgeMakesABoard_no_recipe :
    let s := withConfig { config with winStart := 0 } (joined.withSlots (List.replicate 8 Slot.blank))
    (downstream.joined = true ∧ downstream.cfg.roles.entry = false) ∧
    (s.joined = true ∧ s.cfg.roles.entry = true ∧ s.freePlaces ≠ 0 ∧ s.tracker.admissions = [] ∧
      (∀ sl ∈ s.recipes.slots, sl.isDefault = false) ∧ s.cfg.winStart = 0 ∧ s.alarmState 20 = .quiet ∧
      20 < s.alarms.records.length) ∧
    (updateRecord 20 (fun r => { r with state := .latched }) s).alarmState 20 ≠ .quiet ∧
    (joined.freePlaces ≠ 0 ∧ joined.recipes.slots.any (·.isDefault) = true) := by decide +kernel

theorem test_premises_EntryTrailingEdgeMeasuresTheBoard :
    (joined.tracker.underEye = some 22 ∧ joined.board 22 = some (boardAt 22 4990)) ∧
    claiming.tracker.underEye.bind claiming.board = none := ⟨⟨rfl, rfl⟩, rfl⟩

/-- Board 22 of an admitted length of 100, handed on, and off its length by one more than the tolerance. -/
theorem test_premises_EntryTrailingEdgeMeasuresTheBoard_mismatch :
    let b := { boardAt 22 1051 with admitted := some 1000, handed := some 5 }
    let s := joined.withQueue [b]
    (s.tracker.underEye = some 22 ∧ s.board 22 = some b) ∧ s.cfg.lengthTolerance < s.pos b - 1000 ∧ s.admits 1 = true ∧
    (after .entryTrailingEdge s).tracker.queue.map (fun x => (x.line.length, x.line.lengthFinal, x.line.marks)) =
      [(1051, true, [⟨1, 8⟩])] ∧
    (after .entryTrailingEdge s).bus.queue.map (·.body) = [.amendMark 22 1 8, .amendLength 22 1051] := by decide +kernel

theorem test_premises_EyeLeadingEdgeConfirmsABoard :
    (downstream.cfg.eyePos = some 30200 ∧ downstream.joined = true ∧ downstream.cfg.roles.entry = false) ∧
    downstream.chooseAtEye 30200 = some (boardAt 21 30000) ∧
    (downstream.withQueue []).chooseAtEye 30200 = none ∧
    (withConfig { config with eyePos := none } joined).cfg.eyePos = none ∧ claiming.joined = false ∧
    joined.cfg.roles.entry = true := by decide +kernel

theorem test_premises_EyeLeadingEdgeConfirmsABoard_held : downstream.eachBoard 21 (fun x =>
    leadingEdge downstream.cfg.countsPerMetre 30200 downstream.tracker.count downstream.tracker.count
      ≤ downstream.cfg.winEnd + x.line.length) := by
  unfold State.eachBoard
  decide +kernel

/-- Boards at equal distance on the two sides of the eye, two boards at one place, a confirmed one, and one out of reach. -/
theorem test_premises_EyeLeadingEdgeConfirmsABoard_choice :
    let q := [{ boardAt 40 30400 with confirmed := true }, boardAt 21 30300, boardAt 23 30300, boardAt 22 30100, boardAt 24 29899]
    let s := downstream.withQueue q
    (s.tracker.queue.map s.pos).Pairwise (fun p q => q ≤ p) ∧ s.chooseAtEye 30200 = some (boardAt 21 30300) ∧
    s.tracker.queue[1]? = some (boardAt 21 30300) ∧
    q.map (s.eyeCandidate 30200) = [false, true, true, true, false] ∧
    eyeDistance 30200 (s.pos (boardAt 22 30100)) = eyeDistance 30200 (s.pos (boardAt 21 30300)) := by decide +kernel

theorem test_premises_EyeLeadingEdgeConfirmsABoard_none :
    let s := downstream.withQueue []
    s.alarmState 17 = .quiet ∧ 17 < s.alarms.records.length ∧ s.tracker.queue.length ≤ 8 ∧
    (updateRecord 17 (fun r => { r with state := .latched }) s).alarmState 17 ≠ .quiet := by decide +kernel

/-- Board 22 at the start of the own window, without and with the mark; a place before the window. -/
theorem test_premises_TheAddMarkOperation :
    let s := joined.withQueue [boardAt 22 1000]
    let marked := joined.withQueue [{ boardAt 22 52500 with line := { (boardAt 22 0).line with marks := [⟨1, 5⟩] } }]
    let before := joined.withQueue [boardAt 22 999]
    (s.board 22 = some (boardAt 22 1000) ∧ s.cfg.winStart ≤ s.pos (boardAt 22 1000) ∧
      s.pos (boardAt 22 1000) ≤ s.cfg.winEnd + 2500 ∧ (⟨1, 5⟩ : Mark) ∉ (boardAt 22 1000).line.marks) ∧
    (marked.board 22).isSome = true ∧
    (∀ b ∈ marked.tracker.queue, (⟨1, 5⟩ : Mark) ∈ b.line.marks ∧ marked.pos b = marked.cfg.winEnd + b.line.length) ∧
    before.board 22 = some (boardAt 22 999) ∧ ¬ before.cfg.winStart ≤ before.pos (boardAt 22 999) := by decide +kernel

/-- The rows of R144: a TRIP alarm, the trip line, a HOLD alarm, a group with an empty action set, and none of them. -/
theorem test_premises_TheLineWiresAreSensed :
    let standing (i : Nat) := updateRecord i (fun r => { r with state := .latched }) joined
    let sensed := { joined with control := { joined.control with tripSensed := true } }
    let grouped := { joined with groups := ⟨[⟨8, 5, 28⟩], []⟩ }
    (joined.joined = true ∧ (standing 23).stands 23 = true ∧ (standing 23).alarmAction 23 = .trip ∧
      (standing 23).derivedCondition = .tripped) ∧
    (sensed.control.tripSensed = true ∧ sensed.derivedCondition = .lineStop) ∧
    ((standing 17).stands 17 = true ∧ (standing 17).alarmAction 17 = .hold ∧ (standing 17).derivedCondition = .hold) ∧
    ((grouped.group 8).actions = 0 ∧ grouped.holdConveyor = true ∧ grouped.derivedCondition = .hold) ∧
    (joined.holdConveyor = false ∧ joined.derivedCondition = .normal ∧ claiming.joined = false) ∧
    ∀ i, i < 29 → joined.stands i = true → joined.alarmAction i ≠ .trip := by decide +kernel

theorem test_premises_HandCommitsAtItsSender :
    ((sending 8 1 5 (handBytes (handFields 21 30000 [])) joined).Sends 8 1 5 (handBytes (handFields 21 30000 [])) ∧
      joined.tracker.neighbour = some 5) ∧
    ((sending 8 1 4 (handBytes (handFields 21 30000 [])) joined).Sends 8 1 4 (handBytes (handFields 21 30000 [])) ∧
      joined.tracker.neighbour ≠ some 4) :=
  ⟨⟨sends .., rfl⟩, sends .., by decide⟩

theorem test_premises_HandCommitsAtItsDestination :
    ((hearing (crowded 7)).Hears 7 ∧ (hearing (crowded 7)).Accepts 1 ∧ (hearing (crowded 7)).joined = true ∧
      (hearing (crowded 7)).board 17 = none ∧ (hearing (crowded 7)).tracker.queue.length < 8 ∧
      leadingEdge 10000 12006 (hearing (crowded 7)).tracker.count 7 ≤ (crowded 7).cfg.winEnd + 2480) ∧
    ((hearing joined).Hears 7 ∧ (hearing joined).Accepts 1 ∧ (hearing joined).joined = true ∧
      ((hearing joined).board 21).isSome = true) :=
  ⟨⟨hears _, ⟨rfl, rfl⟩, by decide +kernel⟩, hears _, accepts, by decide +kernel⟩

theorem test_premises_HandCommitsAtItsDestination_held : bitOf (2 : Byte).toNat 1 = true ∧ bitOf (0 : Byte).toNat 1 = false ∧
    (hearing joined).eachBoard 21 (fun b => (hearing joined).pos b ≤ (hearing joined).cfg.winEnd + 2480 ∧
      (hearing joined).pos b ≤ (hearing joined).cfg.winEnd + b.line.length) := by
  unfold State.eachBoard
  decide +kernel

/-- R13: five pairs, of which one is held, meet a list of two; the last finds no place. -/
theorem test_premises_HandCommitsAtItsDestination_merge :
    let r : LineRecord := ⟨21, 4, 2, 2500, false, true, false, [⟨1, 5⟩, ⟨2, 3⟩]⟩
    mergeLine (handLine ⟨21, 9, 9, 2480, 0, 1, [(2, 3), (1, 1), (1, 2), (1, 4)]⟩) r =
      ⟨21, 4, 2, 2500, true, true, true, [⟨1, 5⟩, ⟨2, 3⟩, ⟨1, 1⟩, ⟨1, 2⟩]⟩ ∧
    mergeLine (handLine ⟨21, 9, 9, 2480, 0, 6, []⟩) r = ⟨21, 4, 2, 2480, false, true, true, [⟨1, 5⟩, ⟨2, 3⟩]⟩ := by decide +kernel

theorem test_premises_AmendsOfOtherStations :
    (hearing joined).Hears 7 ∧ (hearing joined).joined = true ∧ (5 : Station).toNat ≠ (hearing joined).dir.own ∧
    pairOk 1 12 = true ∧ pairOk 29 63 = true ∧ pairOk 30 1 = false ∧ pairOk 1 13 = false ∧
    ((hearing joined).board 21).isSome = true ∧ (1 : Half) ≠ 0 :=
  ⟨hears _, by decide +kernel⟩

theorem test_premises_AmendsOfOtherStations_held : (hearing joined).eachBoard 21 (fun b =>
    leadingEdge 10000 30100 (hearing joined).tracker.count 7 ≤ (hearing joined).cfg.winEnd + b.line.length) := by
  unfold State.eachBoard
  decide +kernel

theorem test_premises_RecipesArePostedAndBound :
    ((hearing joined).Hears 7 ∧ (hearing joined).Accepts 1) ∧ (hearing joined).joined = true ∧
    ((30 : Station).toNat = 30 ∧ (31 : Station).toNat = 31) ∧
    (hearing joined).findSlot (Slot.isCurrent (4 : Byte).toNat) = some 0 ∧
    recipeFieldsInRange { recipeFields 3 with pulse := 51 } = false ∧ (hearing claiming).Hears 7 ∧
    (hearing claiming).joined = false ∧ (29 : Station).toNat ≠ 30 ∧ (29 : Station).toNat ≠ 31 :=
  ⟨⟨hears _, accepts⟩, rfl, by decide, by decide +kernel, by decide +kernel, hears _, rfl, by decide, by decide⟩

/-- The slots of `joined` with (4, 1) RETIRING, and with two RETIRING versions of recipe 5. -/
def retiring : State := joined.withSlots (⟨.current, 4, 2, 2, true, body⟩ :: ⟨.retiring, 4, 1, 1, false, body⟩ ::
  ⟨.retiring, 5, 1, 1, false, body⟩ :: ⟨.retiring, 5, 2, 1, false, body⟩ :: List.replicate 4 Slot.blank)

theorem test_premises_RecipesArePostedAndBound_cases :
    recipeFieldsInRange (recipeFields 3) = true ∧ recipeFieldsInRange { recipeFields 3 with flags := 1 } = true ∧
    (∃ sl ∈ joined.recipes.slots, sl.state ≠ .free ∧ sl.number = 4 ∧ sl.version = 2) ∧
    (∀ sl ∈ joined.recipes.slots, ¬(sl.state ≠ .free ∧ sl.number = 6 ∧ sl.version = 1)) ∧
    joined.recipes.slots.findIdx? (Slot.isCurrent 6) = none ∧ (joined.recipes.slots.filter (Slot.isRetiring 6)).length ≤ 1 ∧
    retiring.recipes.slots.findIdx? (Slot.isCurrent 5) = none ∧ 2 ≤ (retiring.recipes.slots.filter (Slot.isRetiring 5)).length ∧
    joined.recipes.slots.findIdx? (Slot.isCurrent 4) = some 0 ∧ (joined.recipes.slots.filter (Slot.isRetiring 4)).length = 0 ∧
    0 < (retiring.recipes.slots.filter (Slot.isRetiring 4)).length ∧
    (∀ s ∈ [downstream, joined], (s.withSlots [⟨.current, 4, 2, 0, true, body⟩, .blank]).recipes.slots.findIdx?
      (Slot.isCurrent 4) = some 0) ∧ downstream.cfg.roles.entry = false ∧ joined.cfg.roles.entry = true := by decide +kernel

/-- Board 22 has a dot on all six nozzles; board 21 has ended and its flow lag timer runs. -/
def spraying : State :=
  { (joined.withQueue [{ boardAt 21 30000 with phase := .ended, flowLag := .running 300 }, boardAt 22 5100]) with
    spray := { joined.spray with oneShots := List.replicate 6 (some (.board 22)) ++ [none, none] } }

theorem test_premises_PulseEndAndFlowLagExpiry :
    spraying.oneShot 0 = some (.board 22) ∧ spraying.oneShot 5 = some (.board 22) ∧ joined.oneShot 0 = none ∧
    (∃ b, spraying.board 21 = some b ∧ b.flowLag.isRunning = true) ∧ claiming.board 21 = none :=
  ⟨by decide +kernel, by decide +kernel, by decide +kernel, ⟨_, rfl, rfl⟩, rfl⟩

theorem test_premises_PulseEndAndFlowLagExpiry_check :
    (spraying.board 21).any spraying.checkDue = false ∧
    (joined.withQueue [{ boardAt 21 30000 with phase := .ended }]).checkDue { boardAt 21 30000 with phase := .ended } = true ∧
    joined.checkMarks { boardAt 21 30000 with phase := .ended, nextDot := 19, dotsFired := 4, dotsSkipped := 2, flowPulses := 26 } = [2, 4] ∧
    joined.checkMarks { boardAt 21 30000 with phase := .ended, nextDot := 20, dotsFired := 4, dotsSkipped := 2, flowPulses := 27 } = [] ∧
    joined.checkMarks { boardAt 21 30000 with phase := .ended, nextDot := 4, dotsFired := 4, flowPulses := 55 } = [3] := by
  decide +kernel

theorem test_premises_PositionEventsAndDueDots :
    joined.board 22 = some (boardAt 22 4990) ∧ joined.slotOf (boardAt 22 4990) = some ⟨.current, 4, 2, 2, true, body⟩ ∧
    joined.stationInhibit = false ∧ joined.spray.oneShots.any Option.isSome = false ∧
    spraying.stationInhibit = false ∧ spraying.spray.oneShots.any Option.isSome = true ∧
    { joined with control := { joined.control with mode := .idle } }.stationInhibit = true ∧
    joined.slotOf { boardAt 22 4990 with slot := none } = none := by decide +kernel

theorem test_premises_PositionEventsAndDueDots_mark :
    ((boardAt 22 4990).notFluxed = false ∧ joined.inWindow (boardAt 22 4990) = true) ∧
    { boardAt 22 4990 with notFluxed := true }.notFluxed = true := by decide +kernel

/-- A count brings boards 21 and 22 to new positions; the edges of the missing-board check, the end of spray, the contact check. -/
theorem test_premises_PositionEventsAndDueDots_checks :
    movedBoards joined (reorder { joined with tracker := { joined.tracker with count := joined.tracker.count + 1 } }) = [21, 22] ∧
    (joined.cfg.eyePos = some 0 ∧ (withConfig { config with eyePos := none } joined).cfg.eyePos = none) ∧
    (joined.cfg.roles.flux = true ∧ (boardAt 22 4990).phase = .waiting ∧ joined.pos (boardAt 22 7401) = 7401 ∧
      joined.cfg.sprayPos + (boardAt 22 7401).line.length = 7500 ∧ 10 * body.margin = 100 ∧ 1 ≤ body.pitch) ∧
    (joined.cfg.roles.pot = true ∧ (boardAt 22 40000).waveContact = false ∧ joined.cfg.wavePos = joined.pos (boardAt 22 40000) ∧
      joined.pos (boardAt 22 39999) < joined.cfg.wavePos) := by decide +kernel

/-- The release: a board handed on, one to report to panel 30, one with no panel, one with no place left. -/
theorem test_premises_PositionEventsAndDueDots_release :
    let full := joined.withTx (List.replicate 16 (newFrame 3 0 .status))
    (joined.tracker.neighbour = some 5 ∧ joined.neighbourStart = some 44000) ∧ claiming.tracker.neighbour = none ∧
    { joined with tracker := { joined.tracker with neighbour := some 4 } }.neighbourStart = none ∧
    joined.cfg.winEnd + (boardAt 21 52501).line.length < joined.pos (boardAt 21 52501) ∧
    { boardAt 21 52501 with handed := some 5 }.handed.isSome = true ∧ (boardAt 21 52501).handed = none ∧
    joined.panel = some 30 ∧ (joined.withTx joined.bus.queue).admits 1 = true ∧ claiming.panel = none ∧
    (full.withTx full.bus.queue).admits 1 = false := by decide +kernel

theorem test_premises_PeriodStartAllocatesTheHeldShares :
    joined.heater.periodTimer.isRunning = true ∧ (7 < joined.heater.channels.length ∧ joined.inUse 7 = true) ∧
    claiming.heater.periodTimer.isRunning = false := by decide +kernel

/-- Channel 0 has a pulse of 128 slots from 0; channel 1, with its offset of 200, runs on past the period's end. -/
def pulsing : State :=
  { joined with heater := { joined.heater with
      channels := ⟨some 2500, 128, 128, 0, true, 128, 0⟩ :: ⟨some 2000, 100, 100, 0, true, 100, 90⟩ :: List.replicate 6 Channel.blank } }

theorem test_premises_HeaterEdgesSetTheSlot :
    (pulsing.inUse (0 : Fin 8) = true ∧ 0 < (pulsing.channel (0 : Fin 8)).pulse ∧ pulsing.heater.periodTimer.isRunning = true) ∧
    ((joined.channel (7 : Fin 8)).pulse = 0 ∧ claiming.inUse (0 : Fin 8) = false) ∧
    (pulsing.offSlot (0 : Fin 8) = some 128 ∧ pulsing.offSlot (1 : Fin 8) = some 34 ∧ pulsing.inUse (1 : Fin 8) = true) ∧
    pulsing.offSlot (2 : Fin 8) = none := by decide +kernel

theorem test_premises_HeaterEdgesSetTheSlot_full :
    let s := { pulsing with heater := { pulsing.heater with
      slot := 256, channels := pulsing.heater.channels.set 0 ⟨some 2500, 256, 256, 0, true, 256, 0⟩ } }
    256 ≤ (s.channel 0).pulse ∧ (s.channelConfig 0).phase ≤ s.heater.slot ∧ s.offSlot 0 = none := by decide +kernel

theorem test_premises_TheGrantIsTheLargestDutyThatFits : (85 : Nat) ≤ 128 ∧ dutyCost 60 85 ≤ 20 := by decide

theorem test_premises_ASampleEventWritesTheTable :
    joined.loader.phase ≠ .pinHeld ∧ (29 < 30 ∧ 29 ≠ 24) ∧ held.loader.phase = .pinHeld := by decide +kernel

theorem test_premises_NeedCommits :
    ((sending 4 1 0 (byte2 255) joined).Sends 4 1 0 (byte2 255) ∧ (sending 4 1 0 (byte2 255) joined).joined = true) ∧
    ((hearing joined).Hears 7 ∧ (hearing joined).joined = true ∧ 1 ≤ (29 : Station).toNat ∧ (29 : Station).toNat ≤ 29 ∧
      1 ≤ (255 : Half).toNat ∧ (255 : Half).toNat ≤ 255 ∧ (29 : Station).toNat ≠ (hearing joined).dir.own) ∧
    ¬(1 ≤ (30 : Station).toNat ∧ (30 : Station).toNat ≤ 29 ∧ 1 ≤ (256 : Half).toNat ∧ (256 : Half).toNat ≤ 255) :=
  ⟨⟨sends .., rfl⟩, ⟨hears _, by decide +kernel⟩, by decide⟩

/-- Station 1 may lend up to 90 shares to station 5: 100 held less a margin of 10. The other state has lent its base. -/
theorem test_premises_NeedCommits_lends :
    let s := joined
    (s.shares.state = .seated ∧ s.shares.needTimer.isRunning = false ∧ (s.entry 5).isSome = true ∧ s.shares.lent.length < 8) ∧
    min ((s.shares.held : Int) - s.heater.cost - s.cfg.lendMargin) ((s.cfg.base : Int) - loanSum s.shares.lent) = 90 ∧
    (∀ f ∈ s.bus.queue, ¬(f.phase ≠ .onBus ∧ f.body.kind = 5 ∧ f.dst = 5)) ∧
    (∃ f ∈ (s.withTx [newFrame 2 5 (.lend 30)]).bus.queue, f.phase ≠ .onBus ∧ f.body.kind = 5 ∧ f.dst = 5) ∧
    (s.withLent [⟨5, 100⟩]).cfg.base - loanSum (s.withLent [⟨5, 100⟩]).shares.lent = 0 := by decide +kernel

theorem test_premises_LendCommits :
    (sending 5 1 5 (byte2 60) joined).Sends 5 1 5 (byte2 60) ∧
    ((hearing joined).Hears 7 ∧ (hearing joined).Accepts 1 ∧ (hearing joined).shares.state = .seated) ∧
    (hearing claiming).Hears 7 ∧ (hearing claiming).shares.state ≠ .seated :=
  ⟨sends .., ⟨hears _, accepts, rfl⟩, hears _, by decide⟩

theorem test_premises_ReturnAndRecallCommit :
    (sending 6 1 5 (byte2 60) joined).Sends 6 1 5 (byte2 60) ∧ (sending 7 1 5 (byte2 60) joined).Sends 7 1 5 (byte2 60) ∧
    (hearing joined).Hears 7 ∧ (hearing joined).Accepts 1 :=
  ⟨sends .., sends .., hears _, accepts⟩

/-- A need is outstanding, station 5 owes 60 shares, and the heaters are short. -/
def needing : State :=
  { joined with
    shares := { joined.shares with held := 40, lent := [⟨5, 60⟩], needAmount := 30, needTimer := .running 500 }
    heater := { joined.heater with shortfall := 30 } }

theorem test_premises_NeedExpiryRecalls :
    (needing.shares.needTimer.isRunning = true ∧ needing.shares.lent.getLast? = some ⟨5, 60⟩ ∧
      needing.shares.state = .seated ∧ 0 < needing.heater.shortfall ∧ needing.hasFrame (TxFrame.isKind 7) = false ∧
      needing.admits 2 = true) ∧ joined.shares.needTimer.isRunning = false := by decide +kernel

theorem test_premises_NeedExpiryRecalls_none : joined.shares.lent = [] ∧ joined.shares.state = .seated ∧
    (needing.withTx (List.replicate 16 (newFrame 3 0 .status))).admits 2 = false ∧
    (needing.withTx [newFrame 2 5 .recallShares]).hasFrame (TxFrame.isKind 7) = true := by decide +kernel

/-- R55: an integral of 40 with e = −50 and Ki = 20 falls to 37, and a grant below the demand freezes it. -/
theorem test_premises_PeriodStartAllocatesTheHeldShares_work :
    let c := { config with channels := List.replicate 8 ⟨.standbyOnly, 60, 1, 0, 20, 0, 1500⟩ }
    let s := withConfig c { joined with alarms := { joined.alarms with table := List.replicate 30 ⟨1550, true⟩ } }
    (regulate s 0 ⟨none, 10, 10, 40, true, 0, 0⟩).integral = 37 ∧ (regulate s 0 ⟨none, 10, 9, 40, true, 0, 0⟩).integral = 40 ∧
    (regulate s 0 ⟨none, 10, 9, 40, false, 0, 0⟩).integral = 37 ∧
    (joined.withBorrowed [⟨5, 60⟩, ⟨2, 3⟩]).shares.borrowed = [⟨5, 60⟩, ⟨2, 3⟩] ∧
    (joined.shares.borrowed = [] ∧ joined.heater.shortfall = 0) ∧ 0 < needing.heater.shortfall := by decide +kernel

/-- Both pumps settle; the stall, feed run and run-on timers run. -/
def timing : State :=
  { joined with
    pot := ⟨⟨.raising, 200, 200, .running 400⟩, ⟨.raising, 128, 128, .running 400⟩, none, none, 90, true, true, .running 30000⟩
    tracker := { joined.tracker with stall := .running 3000 }
    extraction := { joined.extraction with runOn := .running 5000 } }

theorem test_premises_TimersThatChangeTheirOwnUnitAlone :
    (timing.pot.main.state = .raising ∧ timing.pot.main.settle.isRunning = true) ∧
    (timing.pot.chip.state = .raising ∧ timing.pot.chip.settle.isRunning = true) ∧
    joined.pot.main.state ≠ .raising ∧ joined.pot.chip.settle.isRunning = false ∧
    (claiming.control.station = .claiming ∧ claiming.dir.claimListen.isRunning = true) ∧
    joined.control.station ≠ .claiming := by decide +kernel

theorem test_premises_StallAndFeedRunExpiry :
    timing.tracker.stall.isRunning = true ∧ joined.tracker.stall.isRunning = false ∧
    (timing.pot.feeding = true ∧ timing.pot.feedTimer.isRunning = true) ∧ joined.pot.feeding = false := by decide +kernel

theorem test_premises_ProveTimeoutAndRunOnExpiry :
    (joined.ductEnabled (1 : Fin 2) = true ∧ (joined.duct (1 : Fin 2)).state = .proving ∧
      (joined.duct (1 : Fin 2)).timer.isRunning = true) ∧ (joined.duct (0 : Fin 2)).state ≠ .proving ∧
    timing.extraction.runOn.isRunning = true ∧ (1 < timing.extraction.ducts.length ∧ timing.ductEnabled 1 = true) ∧
    joined.extraction.runOn.isRunning = false := by decide +kernel

/-- R125, R128: from IDLE to RUN the request comes on, and the ducts that are OFF begin to prove. -/
theorem test_the_request_comes_on :
    let s := hearing { joined with
      control := { joined.control with mode := .idle }, extraction := ⟨false, .stopped, [⟨.off, 0, 0, .stopped⟩, ⟨.lost, 0, 3, .stopped⟩]⟩ }
    (after (.mode 30 1) s).extraction = ⟨true, .stopped, [⟨.proving, 0, 0, .running 4000⟩, ⟨.lost, 0, 3, .stopped⟩]⟩ ∧
    (after (.mode 30 0) (hearing joined)).extraction.runOn = .running 5000 := by decide +kernel

/-- The own contact timer has run out. -/
def isolated : State := { joined with bus := { joined.bus with ownContact := .expired } }

theorem test_premises_ContactTimerExpiryIsolates :
    (isolated.joined = true ∧ (isolated.contact .peer).isRunning = true ∧ isolated.isolated = true) ∧
    (joined.joined = true ∧ (joined.contact .own).isRunning = true ∧ joined.isolated = false) ∧
    (isolated.contact .own).isRunning = false ∧ claiming.joined = false := by decide +kernel

theorem test_premises_PresenceEventQueuesStatus :
    (joined.joined = true ∧ joined.dir.presence.isRunning = true ∧ joined.admits 0 = true) ∧ claiming.joined = false := by
  decide +kernel

/-- Board 21 is held back though its HAND is due, class 1 admits it, and JOIN is owed; in the other state no class is admitted. -/
theorem test_premises_PresenceEventQueuesStatus_held_back :
    let b := { boardAt 21 45000 with heldBack := true }
    let s := { joined.withQueue [b] with dir := { joined.dir with joinOwed := true } }
    let full := s.withTx (List.replicate 16 (newFrame 3 30 .status))
    ((s.board 21) = some b ∧ b.heldBack = true ∧ b.handed = none ∧ s.tracker.neighbour = some 5 ∧
      s.neighbourStart = some 44000 ∧ 44000 - s.cfg.handoverLead ≤ s.pos b ∧ s.hasFrame (TxFrame.isHandOf 21) = false) ∧
    s.admits 1 = true ∧ s.admits 3 = true ∧ full.admits 1 = false ∧ full.admits 3 = false ∧
    full.hasFrame (TxFrame.isKind 3) = true ∧ s.dir.joinOwed = true := by decide +kernel

theorem test_premises_AgingSweepAgesEveryEntry : joined.dir.aging.isRunning = true ∧ State.reset.dir.aging.isRunning = false :=
  ⟨rfl, rfl⟩

/-- Station 5 is about to go: it owes 60 shares, and an alarm of its own stands in group 8. -/
theorem test_premises_AgingSweepAgesEveryEntry_gone :
    let s := { needing with
      dir := { needing.dir with entries := needing.dir.entries.set 5 (some { peerFrom 44000 with quiet := true, touched := false }) }
      groups := ⟨[⟨8, 5, 28⟩], []⟩ }
    s.dir.aging.isRunning = true ∧ s.shares.state = .seated ∧ loanOf 5 s.shares.lent = 60 ∧
    (List.range 32).filter (fun n => match s.entry n with
      | some e => !e.touched && e.quiet
      | none => false) = [5] := by decide +kernel

/-- Station 5 goes GONE and station 4 becomes the neighbour: both boards are checked again. -/
theorem test_premises_AgingSweepAgesEveryEntry_neighbour :
    let s := { joined with dir := { joined.dir with
      entries := (joined.dir.entries.set 5 none).set 4 (some (peerFrom 30000)) } }
    joined.findNeighbour = joined.tracker.neighbour ∧
    (s.findNeighbour = some 4 ∧ s.tracker.neighbour = some 5 ∧ 5 ∈ [5] ∧ s.findNeighbour.isSome = true ∧ s.boardIds.Nodup) ∧
    s.inWindow (boardAt 21 30000) = true ∧
    (updateNeighbour [5] s).neighbourStart = some 30000 ∧ 30000 - s.cfg.handoverLead ≤ s.pos (boardAt 21 30000) ∧
    (∀ n ∈ [(4 : Nat)], s.tracker.neighbour ≠ some n) := by decide +kernel

/-- The station transmits a STATUS. -/
def transmitting : State :=
  sending 3 1 0 [] (joined.withTx [{ newFrame 1 30 (.report 7 0) with attempts := 14, phase := .onBus }, newFrame 0 0 .status])

theorem test_premises_BusIdleFrameStartAndLostArbitration :
    (joined.receives = true ∧ joined.bus.footing = true ∧ joined.bus.onWire = none) ∧ State.reset.receives = false ∧
    State.reset.bus.footing = false ∧ transmitting.bus.onWire.isSome = true := by decide +kernel

theorem test_premises_StartOfTransmissionBuildsTheFirstEligibleFrame :
    let s := joined.withTx [newFrame 0 0 .status, newFrame 1 30 (.report 9 1)]
    let gone := joined.withTx [newFrame 1 5 (.hand 99), newFrame 0 0 .status]
    (s.bus.footing = true ∧ s.bus.frameStart = none ∧ s.firstEligible = some 1 ∧
      s.bus.queue[1]? = some (newFrame 1 30 (.report 9 1)) ∧ s.payload (newFrame 1 30 (.report 9 1)) = some [9, 1, 0]) ∧
    (gone.firstEligible = some 0 ∧ gone.bus.queue[0]? = some (newFrame 1 5 (.hand 99)) ∧ gone.payload (newFrame 1 5 (.hand 99)) = none) ∧
    State.reset.bus.footing = false ∧ transmitting.bus.frameStart.isSome = true ∧ joined.firstEligible = none := by
  decide +kernel

theorem test_premises_StartOfTransmissionBuildsTheFirstEligibleFrame_built :
    (needing.payload (newFrame 2 5 .recallShares) = some [0, 30] ∧ joined.payload (newFrame 2 5 .recallShares) = none) ∧
    (joined.payload (newFrame 2 5 (.lend 30)) = some [0, 30] ∧ needing.payload (newFrame 2 5 (.lend 30)) = none) ∧
    ({ needing with shares := { needing.shares with needTimer := .stopped } }.payload (newFrame 2 0 .need) = some [0, 30] ∧
      joined.payload (newFrame 2 0 .need) = none) ∧
    ((joined.withBorrowed [⟨5, 60⟩]).payload (newFrame 2 5 .returnShares) = some [0, 60] ∧
      joined.payload (newFrame 2 5 .returnShares) = none) := by decide +kernel

theorem test_premises_TheAckSlotAnswers :
    (hearing joined).bus.frameStart.isSome = true ∧ joined.bus.frameStart = none ∧ joined.bus.onWire = none ∧
    faultyFrame { frameOf 1 30 25 1 [] with check := none } = true ∧
    faultyFrame { frameOf 1 30 14 1 (List.replicate 41 0) with readable := true } = true ∧
    transmitting.bus.onWire = some ⟨1, 1, 3, 0, []⟩ ∧
    (faultyFrame (frameOf 1 30 25 2 []) = false ∧ (frameOf 1 30 25 2 []).dst ≠ 0 ∧ (frameOf 1 30 25 2 []).dst.toNat ≠ joined.dir.own) ∧
    faultyFrame (frameOf 1 30 18 0 [4]) = false ∧ (frameOf 1 30 18 0 [4]).dst = 0 := by decide +kernel

/-- The frames of each kind that is answered, at station 1. -/
theorem test_premises_TheAckSlotAnswers_asked :
    ∀ p ∈ [(frameOf 1 5 8 1 (handBytes (handFields 17 12006 [(1, 3)])), (8 : BitVec 5)), (frameOf 1 30 19 1 [4, 9, 0xC4, 2], 19),
        (frameOf 2 5 5 1 [0, 60], 5), (frameOf 2 5 6 1 [0, 60], 6), (frameOf 2 5 7 1 [0, 60], 7), (frameOf 1 30 20 1 [255], 20),
        (frameOf 1 30 22 1 [3, 0, 0, 0, 100, 0, 10, 7, 2, 2, 0, 0], 22), (frameOf 1 30 23 1 [1, 0], 23)],
      joined.Asked p.1 p.2 := by
  unfold State.Asked
  decide +kernel

theorem test_premises_TheAckSlotAnswers_places :
    handInRange (handBytes (handFields 17 12006 [(1, 3)])) = true ∧ handInRange (handBytes (handFields 0 12006 [])) = false ∧
    (joined.board 21).isSome = true ∧ (joined.board 17 = none ∧ 1 ≤ joined.freePlaces) ∧
    ((crowded 8).board 17 = none ∧ (crowded 8).freePlaces = 0) ∧ queryInRange 1 0 = true ∧ queryInRange 11 0 = false ∧
    (faultyFrame (frameOf 1 30 17 0 (List.replicate 28 0)) = false ∧ faultyFrame (frameOf 3 0 1 0 (List.replicate 14 0)) = false) := by
  decide +kernel

theorem test_premises_TheAnswerToRestart :
    let f := frameOf 1 30 25 1 []
    ((hearing joined).bus.frameStart.isSome = true ∧ (hearing joined).bus.onWire = none ∧ faultyFrame f = false ∧ f.kind = 25 ∧
      f.payload = [] ∧ f.dst ≠ 0 ∧ f.dst.toNat = joined.dir.own) ∧ (newFrame 1 30 (.report 7 0)).dst ≠ 0 := by decide +kernel

theorem test_premises_SignalChangesTheServiceWord :
    let f := frameOf 1 31 24 1 [1, 0, 1, 0, 0]
    ((hearing joined).bus.frameStart.isSome = true ∧ (hearing joined).bus.onWire = none ∧ faultyFrame f = false ∧ f.kind = 24 ∧
      f.payload.length = 5 ∧ f.dst ≠ 0 ∧ f.dst.toNat = joined.dir.own) ∧ (newFrame 1 30 (.report 7 0)).dst ≠ 0 := by decide +kernel

theorem test_premises_SignalChangesTheServiceWord_commit : (hearing joined).Hears 7 ∧ (hearing joined).Accepts 1 := ⟨hears _, accepts⟩

theorem test_premises_FrameOutcomeAndBusStuck :
    ((hearing joined).bus.frameStart.isSome = true ∧ (hearing joined).onBusFrame = none) ∧
    (transmitting.bus.frameStart.isSome = true ∧
      transmitting.onBusFrame = some { newFrame 1 30 (.report 7 0) with attempts := 14, phase := .onBus } ∧
      ownCommits { newFrame 1 30 (.report 7 0) with attempts := 14, phase := .onBus } ⟨false, true, false⟩ = false) ∧
    joined.bus.frameStart = none ∧ (joined.receives = true ∧ joined.bus.stuck = false ∧ joined.onBusFrame = none) ∧
    (transmitting.receives = true ∧ transmitting.bus.stuck = false) ∧ State.reset.receives = false ∧
    { newFrame 0 0 .status with attempts := 14 }.attempts + 1 < 16 ∧
    16 ≤ { newFrame 0 0 .status with attempts := 15 }.attempts + 1 := by decide +kernel

theorem test_premises_FrameOutcomeAndBusStuck_by_kind :
    (10 < joined.alarms.causes.length ∧ (joined.cause 26).raised = false ∧ joined.alarmState 26 = .quiet ∧
      26 < joined.alarms.records.length) ∧
    [(newFrame 1 5 (.hand 21)).body.kind, (newFrame 1 30 (.done (boardAt 21 0).line 0 0)).body.kind,
      (newFrame 2 5 .returnShares).body.kind, (newFrame 2 5 .recallShares).body.kind] = [8, 10, 6, 7] ∧
    TxBody.claim.kind = 1 ∧ (newFrame 0 0 .status).body.kind ∉ [6, 7, 8, 10] ∧ claiming.control.station = .claiming := by
  decide +kernel

theorem test_premises_TheCommonPartOfACommit :
    joined.joined = true ∧ 5 ≠ joined.dir.own ∧ (joined.learnsFrom 5 = true ∧ joined.entry 5 = some (peerFrom 44000)) ∧
    (joined.learnsFrom 31 = true ∧ joined.entry 31 = none ∧ 31 < joined.dir.entries.length) := by decide +kernel

/-- BUS_DELIVERY stands; and a commit of another's frame ends the isolation of a station that transmits without loss. -/
theorem test_premises_TheCommonPartOfACommit_released :
    let s := raiseHeld 26 5 joined
    let cut := { joined with bus := { joined.bus with peerContact := .expired } }
    ((s.cause 26).raised = true ∧ s.alarmState 26 = .active) ∧ (joined.cause 26).raised = false ∧
    cut.isolated = true ∧ (cut.afterCommit false 5).isolated = false := by decide +kernel

theorem test_premises_DoneReportAndNoKindHaveTheCommonPartAlone : (hearing joined).bus.frameStart.isSome = true := rfl

/-- Alarm records in every state: 0 PENDING, 19 LATCHED, 22 ACTIVE_ACKED, 23 ACTIVE. -/
def alarmed : State :=
  { joined with alarms := { joined.alarms with
      records := (((joined.alarms.records.set 0 { AlarmRecord.blank with state := .pending }).set 19
        { AlarmRecord.blank with state := .latched }).set 22 { AlarmRecord.blank with state := .activeAcked }).set 23
        { AlarmRecord.blank with state := .active } } }

theorem test_premises_AlarmRecordsMove :
    28 < alarmed.alarms.records.length ∧ alarmed.alarmState 0 = .pending ∧ alarmed.alarmState 1 = .quiet ∧
    alarmed.alarmState 19 = .latched ∧ alarmed.alarmState 22 = .activeAcked ∧ alarmed.alarmState 23 = .active := by decide +kernel

/-- The held level, SENSOR_OPEN with none and with channel 1 the first open, and the ramp steps. -/
theorem test_premises_ASampleEventWritesTheTable_pot :
    (∀ b ∈ joined.alarms.sensorOpen, b = false) ∧
    ([false, true, true][1]? = some true ∧ ∀ k, k < 1 → [false, true, true][k]? = some false) ∧
    rampStep 32 400 ⟨.up, 20, 200, .stopped⟩ ⟨.lowering, 20, 200, .stopped⟩ = ⟨.down, 0, 200, .stopped⟩ ∧
    rampStep 32 400 ⟨.raising, 180, 200, .stopped⟩ ⟨.raising, 180, 200, .stopped⟩ = ⟨.raising, 200, 200, .running 400⟩ ∧
    rampStep 32 400 ⟨.down, 0, 200, .stopped⟩ ⟨.raising, 0, 200, .stopped⟩ = ⟨.raising, 0, 200, .stopped⟩ ∧
    rampStep 0 0 ⟨.raising, 0, 200, .stopped⟩ ⟨.raising, 0, 200, .stopped⟩ = ⟨.up, 200, 200, .stopped⟩ := by decide +kernel

/-- The ducts and the results of a watch chain: counting, entering ACTIVE, released, latched. -/
theorem test_premises_ASampleEventWritesTheTable_watches :
    1 < joined.extraction.ducts.length ∧ (DuctState.failed ∈ [DuctState.proving, .lost, .failed]) ∧
    testEntry .run ⟨101, true⟩ ⟨0, true, 100, 10, false, true, true, true, 2, .hold, 0, 0⟩ = .matches ∧
    testEntry .run ⟨90, true⟩ ⟨0, true, 100, 10, false, true, true, true, 2, .hold, 0, 0⟩ = .neither ∧
    testEntry .run ⟨89, true⟩ ⟨0, true, 100, 10, false, true, true, true, 2, .hold, 0, 0⟩ = .releases ∧
    (alarmed.alarmState 0 = .pending ∧ (alarmed.record 0).matchCount + 1 < 2 ∧ 1 ≤ (alarmed.record 0).matchCount + 1) ∧
    (∀ st ∈ [AlarmState.active, .activeAcked, .latched], (updateRecord 0 (fun r => { r with state := st }) joined).alarmState 0 = st) ∧
    (joined.alarmAction 0 ≠ .hold ∧ joined.alarmAction 0 ≠ .trip) := by decide +kernel

def alarmFields : AlarmFields := ⟨28, 4, 8, 0x3FFFFFFE, 45, 0⟩

/-- The trip line is active, and the raiser of index 28 in group 8 is station 5. -/
def tripped : State :=
  { joined with
    control := { joined.control with lineState := .opened, tripOthers := true, tripSensed := true }
    groups := ⟨[⟨8, 5, 28⟩], []⟩ }

theorem test_premises_AlarmAndClearCommit :
    (sending 11 1 0 (alarmBytes alarmFields) joined).Sends 11 1 0 (alarmBytes alarmFields) ∧
    ((hearing joined).Hears 7 ∧ (hearing joined).joined = true ∧ 1 ≤ (5 : Station).toNat ∧ (5 : Station).toNat ≠ joined.dir.own ∧
      1 ≤ alarmFields.group.toNat ∧ alarmFields.group.toNat ≤ 8 ∧ alarmFields.index.toNat ≤ 28 ∧
      alarmFields.scope.getLsbD joined.dir.own = true) ∧
    ((hearing claiming).Hears 7 ∧ (hearing claiming).joined = false) ∧
    (tripped.joined = true ∧ tripped.control.lineState = .opened ∧ alarmFields.action = 4) ∧ joined.control.lineState ≠ .opened ∧
    ((hearing tripped).Hears 7 ∧ (hearing tripped).joined = true ∧
      (⟨8, 5, 28⟩ : Activity) ∈ ((hearing tripped).afterCommit false 5).groups.activity) ∧
    (sending 12 1 0 [28, 8] joined).Sends 12 1 0 [28, 8] :=
  ⟨sends .., ⟨hears _, by decide +kernel⟩, ⟨hears _, rfl⟩, by decide +kernel, by decide +kernel, ⟨hears _, by decide +kernel⟩, sends ..⟩

/-- The own ALARM of BUS_DELIVERY, and of ISOLATED with its commit the end of the isolation. -/
theorem test_premises_AlarmAndClearCommit_cleared : ∀ i ∈ [26, 27],
    let s := updateRecord i (fun r => { r with announced := true }) (raiseHeld i 0 isolated)
    let f : AlarmFields := ⟨BitVec.ofNat 8 i, 2, 0, 0x3FFFFFFE, 0, 0⟩
    let own := sending 11 1 0 (alarmBytes f) s
    own.ownsFrame 11 1 0 (alarmBytes f) = true ∧ own.bus.frameStart.isSome = true ∧ f.index.toNat = i ∧
    own.isolated = true ∧ (own.afterCommit true 1).isolated = false ∧ own.alarmState i = .active ∧ own.stands i = true ∧
    (own.cause i).raised = true ∧ (own.record i).announced = true ∧ i < own.alarms.records.length ∧
    joined.stands i = false := by decide +kernel

theorem test_premises_AcknowledgeAndReleaseCommit :
    ((hearing joined).Hears 7 ∧ (hearing joined).Accepts 1 ∧ (hearing joined).joined = true ∧ (31 : Station).toNat = 31) ∧
    ((8 : Byte).toNat ≤ 8 ∧ (31 : Byte).toNat ≤ 31) ∧
    ((hearing claiming).Hears 7 ∧ (hearing claiming).joined = false) ∧ (5 : Station).toNat ≠ 30 ∧ (5 : Station).toNat ≠ 31 :=
  ⟨⟨hears _, accepts, rfl, rfl⟩, by decide, ⟨hears _, rfl⟩, by decide, by decide⟩

theorem test_premises_WatchInstallsOrEmptiesAnEntry :
    ((hearing joined).Hears 7 ∧ (hearing joined).Accepts 1) ∧
    watchDefOf (watchFields 3) = some ⟨0, true, 100, 10, false, true, true, true, 2, .hold, 0, 0⟩ ∧
    (ignoring joined).Hears 7 ∧ (ignoring joined).bus.answer.ack = false :=
  ⟨⟨hears _, accepts⟩, by decide +kernel, hears_ignoring _, rfl⟩

/-- The holder of entry 3 stands, announced, with its ALARM delivered or on the wire. -/
theorem test_premises_WatchInstallsOrEmptiesAnEntry_withdrawn :
    let s := updateRecord 3 (fun r => { r with state := .active, announced := true, delivered := true }) joined
    let onWire := (updateRecord 3 (fun r => { r with state := .active, announced := true }) joined).withTx
      [{ newFrame 1 0 (.alarm 3 3 0 14 0 0) with phase := .onBus }]
    holderOf joined.alarms.entries 3 = 3 ∧ joined.alarmState 3 = .quiet ∧ 3 < s.alarms.records.length ∧
    (s.alarmState 3 = .active ∧ (s.record 3).announced = true ∧ (s.record 3).delivered = true ∧
      (s.withTx s.bus.queue).admits (s.record 3).sentClass = true) ∧
    ((onWire.record 3).announced = true ∧ onWire.alarmOnBus 3 = true ∧ onWire.alarmState 3 = .active ∧
      onWire.admits (onWire.record 3).sentClass = true) := by decide +kernel

theorem test_premises_ModeIsTaken :
    ((hearing joined).Hears 7 ∧ (hearing joined).joined = true ∧ (30 : Station).toNat = 30) ∧
    Mode.ofCode (2 : Byte).toNat = some .service ∧ Mode.service ≠ (hearing joined).control.mode ∧
    Mode.ofCode (3 : Byte).toNat = none ∧ Mode.ofCode (1 : Byte).toNat = some (hearing joined).control.mode ∧
    (hearing claiming).joined = false :=
  ⟨⟨hears _, rfl, rfl⟩, by decide, by decide +kernel, by decide, by decide +kernel, rfl⟩

theorem test_premises_RestartIsTaken :
    let s := hearing (joined.withQueue [])
    (s.Hears 7 ∧ s.Accepts 1 ∧ (s.afterCommit false 30).restartable = true) ∧
    (ignoring joined).bus.answer.ack = false ∧ ((hearing joined).afterCommit false 30).restartable = false :=
  ⟨⟨hears _, ⟨rfl, rfl⟩, by decide +kernel⟩, rfl, by decide +kernel⟩

theorem test_premises_RestartIsTaken_first_out :
    (hearing (joined.withQueue [])).Derived ∧ ((hearing (joined.withQueue [])).cause 23).raised = false := by
  unfold State.Derived
  decide +kernel

theorem test_premises_QueriesQueueReports :
    let s := hearing { joined with bus := { joined.bus with reservation := some .txPlace } }
    (s.Hears 7 ∧ s.Accepts 1 ∧ s.bus.reservation = some .txPlace) ∧ (ignoring joined).Hears 7 ∧
    (ignoring joined).bus.answer.ack = false :=
  ⟨⟨hears _, ⟨rfl, rfl⟩, rfl⟩, hears_ignoring _, rfl⟩

def claimFields (uid : BitVec 48) (number : Byte) : ClaimFields := ⟨uid, number, 4, 29000, 45000⟩

theorem test_premises_TheOwnClaimJoins :
    (sending 1 0 0 (claimBytes (claimFields 7 1)) claiming).Sends 1 0 0 (claimBytes (claimFields 7 1)) := sends ..

theorem test_premises_AnothersClaimIsLearned :
    ((hearing claiming).Hears 7 ∧ (hearing claiming).learns = true ∧ (29 : Byte).toNat ≠ claiming.dir.own ∧
      (29 : Byte).toNat < claiming.dir.entries.length) ∧
    (claiming.control.station = .claiming ∧ (claimFields 9 1).number.toNat = claiming.cfg.preferred ∧ (claimFields 9 1).uid ≠ claiming.uid) ∧
    (claimFields 9 30).number.toNat > 29 ∧ (hearing State.reset).Hears 7 ∧ (hearing State.reset).learns = false :=
  ⟨⟨hears _, by decide +kernel⟩, by decide +kernel, by decide, hears _, rfl⟩

theorem test_premises_AnothersClaimIsLearned_own : (hearing joined).Hears 7 ∧ (hearing joined).joined = true ∧
    (claimFields 9 1).number.toNat = (hearing joined).dir.own := ⟨hears _, by decide +kernel⟩

/-- An alarm that stands and names a group of station 4, its ALARM not waiting, and waiting. -/
theorem test_premises_AnothersClaimIsLearned_peer :
    let c := { config with builtinGroups := List.replicate 13 3, groups := List.replicate 8 ⟨0x3FFFFFFE, 31, 20⟩ }
    let s := updateRecord 17 (fun r => { r with state := .latched }) (withConfig c { joined with groups := ⟨[⟨8, 4, 28⟩], [4]⟩ })
    let f := claimFields 11 4
    let t := after (.claim f) (hearing s)
    (s.joined = true ∧ s.alarmGroup 17 = 3 ∧ (s.group 3).members.getLsbD 4 = true ∧ s.hasWaiting (TxFrame.isAlarmOf 17) = false) ∧
    (announce 17 s).hasWaiting (TxFrame.isAlarmOf 17) = true ∧
    (∀ a ∈ t.groups.activity, a.raiser ≠ 4) ∧ t.groups.orphans = [] ∧ t.hasWaiting (TxFrame.isAlarmOf 17) = true := by decide +kernel

theorem test_premises_JoinAndStatusCommit :
    let f : JoinFields := ⟨7, 0, 15, 1000, 50000⟩
    let g : StatusFields := ⟨15, 1, 0, 0, 1000, 50000, 100, 100, 2, 0⟩
    (sending 2 1 0 (joinBytes f) joined).Sends 2 1 0 (joinBytes f) ∧
    ((hearing joined).Hears 7 ∧ (hearing joined).learnsFrom 31 = true ∧ 31 < joined.dir.entries.length ∧
      joined.shares.state ≠ .unseated) ∧
    (sending 3 1 0 (statusBytes g) joined).Sends 3 1 0 (statusBytes g) :=
  ⟨sends .., ⟨hears _, by decide +kernel⟩, sends ..⟩

theorem test_premises_JoinAndStatusCommit_own : (hearing joined).Hears 7 ∧ (hearing joined).joined = true ∧ (1 : Station) ≠ 0 ∧
    (1 : Station).toNat = (hearing joined).dir.own := ⟨hears _, by decide +kernel⟩

theorem test_premises_TheTransmitQueueNeverOverflows :
    let s := joined.withTx (List.replicate 16 (newFrame 3 0 .status))
    s.TxFits ∧ step s = .next (tick s) := by
  refine ⟨?_, rfl⟩
  unfold State.TxFits
  decide +kernel

theorem test_premises_TheConditionStaysDerived : joined.Derived ∧ step joined = .next (tick joined) := by
  refine ⟨?_, rfl⟩
  unfold State.Derived
  decide +kernel

/-- Channel 0 costs 40 of the 100 held shares and channel 1 costs 24. -/
theorem test_premises_TheGrantsStayWithinTheHeldShares : pulsing.GrantsFit ∧ pulsing.grantCost = 64 ∧ step pulsing = .next (tick pulsing) := by
  refine ⟨?_, by decide +kernel, rfl⟩
  unfold State.GrantsFit
  decide +kernel

theorem test_premises_AStationThatIsNotJoinedStaysAtRest : claiming.OffLine ∧ step claiming = .next (tick claiming) := by
  refine ⟨fun _ => ⟨?_, rfl, fun w h => nomatch h⟩, rfl⟩
  unfold State.AtRest
  decide +kernel

theorem test_premises_TheBoardQueueStaysOrdered :
    (crowded 8).OffLine ∧ (crowded 8).BoardsOrdered ∧ step (crowded 8) = .next (tick (crowded 8)) := by
  refine ⟨fun h => (nomatch h), ?_, rfl⟩
  unfold State.BoardsOrdered
  decide +kernel

theorem test_premises_TheSharesStayBalanced :
    needing.OffLine ∧ needing.LendCovered ∧ needing.SharesBalance ∧ step needing = .next (tick needing) := by
  refine ⟨fun h => (nomatch h), fun w h => (nomatch h), ?_, rfl⟩
  unfold State.SharesBalance
  decide +kernel

/-! ## Premises of the operations that the statements spell -/

/-- Board 21 is at the neighbour's window and not handed on; with none there HAND_LATE is released. Lines 0 and 2 pull. -/
theorem test_premises_TheLineWiresAreSensed_cascade :
    let late := joined.withQueue [boardAt 21 44000]
    let pulled := { joined with control := { joined.control with permitSensed := true, permitOthers := true } }
    ((boardAt 21 44000) ∈ late.tracker.queue ∧ (boardAt 21 44000).handed = none ∧ late.neighbourStart = some 44000 ∧
      44000 ≤ late.pos (boardAt 21 44000)) ∧
    (∀ b ∈ joined.tracker.queue, ∀ w, b.handed = none → joined.neighbourStart = some w → joined.pos b < w) ∧
    ((joined.permitLevel = true ∧ joined.control.permitSensed = false) ∧
      (claiming.permitLevel = claiming.control.permitSensed) ∧ pulled.permitLevel = false ∧ pulled.control.permitSensed = true) ∧
    (∃ k, k < 3 ∧ joined.inForce k = false) := by
  refine ⟨by decide +kernel, ?_, by decide +kernel, 2, by decide, by decide +kernel⟩
  have h : joined.neighbourStart = some 44000 := by decide +kernel
  intro b hb w _ hw
  rw [h] at hw
  cases hw
  revert b
  decide +kernel

/-- The trip line is as sensed, becomes active and inactive at a JOINED station, and changes at another; the condition stays
and changes. -/
theorem test_premises_TheLineWiresAreSensed_trip :
    let pulled := { joined with control := { joined.control with tripOthers := true } }
    let free := { joined with control := { joined.control with tripSensed := true } }
    let away := { claiming with control := { claiming.control with tripOthers := true } }
    joined.tripLevel = joined.control.tripSensed ∧
    (pulled.tripLevel = true ∧ pulled.control.tripSensed = false ∧ pulled.joined = true) ∧
    (free.tripLevel = false ∧ free.control.tripSensed = true ∧ free.joined = true) ∧
    (away.tripLevel ≠ away.control.tripSensed ∧ away.joined = false) ∧
    (senseTrip joined).derivedCondition = (senseTrip joined).control.condition ∧
    (senseTrip pulled).derivedCondition ≠ (senseTrip pulled).control.condition := by decide +kernel

theorem test_premises_HandCommitsAtItsDestination_not_acknowledged :
    ((ignoring joined).Hears 7 ∧ (ignoring joined).bus.answer.ack = false) ∧
    ((hearing joined).Hears 7 ∧ (2 : Station).toNat ≠ (hearing joined).dir.own) ∧
    ((hearing claiming).Hears 7 ∧ (hearing claiming).joined = false) :=
  ⟨⟨hears_ignoring _, rfl⟩, ⟨hears _, by decide⟩, hears _, rfl⟩

/-- A record one position beyond its last dot at a station that sprays, with a margin of 100 and with no slot. -/
theorem test_premises_HandCommitsAtItsDestination_pass_over :
    let s := joined.withQueue [boardAt 17 5101, { boardAt 18 5001 with slot := none }]
    s.board 17 = some (boardAt 17 5101) ∧ s.slotOf (boardAt 17 5101) = some ⟨.current, 4, 2, 2, true, body⟩ ∧
    (s.cfg.roles.flux = true ∧ s.cfg.sprayPos + 10 * body.margin < s.pos (boardAt 17 5101)) ∧
    s.board 18 = some { boardAt 18 5001 with slot := none } ∧ s.slotOf { boardAt 18 5001 with slot := none } = none := by
  decide +kernel

theorem test_premises_AmendsOfOtherStations_common :
    ((hearing claiming).Hears 7 ∧ (hearing claiming).joined = false) ∧
    (hearing joined).Hears 7 ∧ (1 : Station).toNat = (hearing joined).dir.own := ⟨⟨hears _, rfl⟩, hears _, by decide⟩

theorem test_premises_RecipesArePostedAndBound_common :
    ((hearing joined).Hears 7 ∧ (29 : Station).toNat ≠ 30 ∧ (29 : Station).toNat ≠ 31) ∧ (hearing claiming).joined = false ∧
    ((ignoring joined).Hears 7 ∧ (ignoring joined).bus.answer.ack = false) ∧
    (hearing joined).findSlot (Slot.isCurrent (6 : Byte).toNat) = none :=
  ⟨⟨hears _, by decide, by decide⟩, rfl, ⟨hears_ignoring _, rfl⟩, by decide +kernel⟩

/-- A group that inhibits the spray closes the nozzles; a stopped station and a lost draft do too. -/
theorem test_premises_PulseEndAndFlowLagExpiry_nozzles :
    let c := { config with groups := List.replicate 8 ⟨0x3FFFFFFE, 1, 0⟩ }
    let s := withConfig c { spraying with groups := ⟨[⟨8, 5, 28⟩], []⟩ }
    let lost := { joined with extraction := { joined.extraction with ducts := List.replicate 2 ⟨.lost, 0, 3, .stopped⟩ } }
    (s.inhibitSpray = true ∧ s.nozzleValve 0 = true ∧ (sprayUpdate s).nozzleValve 0 = false) ∧
    { joined with control := { joined.control with condition := .lineStop } }.stopped = true ∧ lost.proven 0 = false ∧
    claiming.board 22 = none ∧ spraying.board 22 = some (boardAt 22 5100) := by decide +kernel

/-- The last record leaves, and one of two; what governs with a queue and without. -/
theorem test_premises_PositionEventsAndDueDots_hold_over :
    let one := joined.withQueue [boardAt 22 53000]
    (∀ x ∈ one.tracker.queue, x.line.id = (boardAt 22 53000).line.id) ∧
    (∃ x ∈ joined.tracker.queue, x.line.id ≠ (boardAt 22 4990).line.id) ∧
    (joined.withQueue []).tracker.queue = [] ∧ one.tracker.queue = boardAt 22 53000 :: [] ∧
    (releaseBoard (boardAt 22 53000) one).recipes.holdTimer = .running 60000 ∧
    (joinQueue (boardAt 24 0) (releaseBoard (boardAt 22 53000) one)).recipes.holdTimer = .stopped ∧
    one.board 22 = some (boardAt 22 53000) := by decide +kernel

theorem test_premises_LendCommits_common :
    ((ignoring joined).Hears 7 ∧ (ignoring joined).bus.answer.ack = false ∧ (ignoring joined).shares.state = .seated) ∧
    ((hearing joined).Hears 7 ∧ (2 : Station).toNat ≠ (hearing joined).dir.own) :=
  ⟨⟨hears_ignoring _, rfl, rfl⟩, hears _, by decide⟩

/-- A fall of H from 100 to 40 lowers the grants of both channels that pulse, and cuts. -/
theorem test_premises_LendCommits_fall :
    let s := { pulsing with heater := { pulsing.heater with slot := 36 } }
    (setHeld 40 s).heater.channels.map (·.grant) ≠ s.heater.channels.map (·.grant) ∧
    (setHeld 40 s).grantCost ≤ 40 ∧ (setHeld 100 s).heater.channels = s.heater.channels := by decide +kernel

theorem test_premises_ReturnAndRecallCommit_common :
    ((ignoring joined).Hears 7 ∧ (ignoring joined).bus.answer.ack = false) ∧ (2 : Station).toNat ≠ (hearing joined).dir.own :=
  ⟨⟨hears_ignoring _, rfl⟩, by decide⟩

/-- The ways of a pump: locked; no request, or no raise allowed; the target held; another target; at the target. -/
theorem test_premises_StallAndFeedRunExpiry_pumps :
    nextPump true true (some 200) 400 ⟨.up, 200, 200, .stopped⟩ = ⟨.locked, 0, 0, .stopped⟩ ∧
    nextPump false true none 400 ⟨.up, 200, 200, .stopped⟩ = ⟨.lowering, 200, 0, .stopped⟩ ∧
    nextPump false false (some 200) 400 ⟨.locked, 0, 0, .stopped⟩ = ⟨.down, 0, 200, .stopped⟩ ∧
    nextPump false true (some 200) 400 ⟨.up, 200, 200, .stopped⟩ = ⟨.up, 200, 200, .stopped⟩ ∧
    nextPump false true (some 128) 400 ⟨.up, 200, 200, .stopped⟩ = ⟨.raising, 200, 128, .stopped⟩ ∧
    nextPump false true (some 200) 400 ⟨.lowering, 200, 0, .stopped⟩ = ⟨.raising, 200, 200, .running 400⟩ ∧
    nextPump false true (some 200) 0 ⟨.lowering, 200, 0, .stopped⟩ = ⟨.up, 200, 200, .stopped⟩ := by decide

/-- Two boards at the wave and one ahead of it: the foremost that asks for MAIN gives the request, and none for CHIP. -/
theorem test_premises_StallAndFeedRunExpiry_requests :
    let s := joined.withQueue [boardAt 20 43001, boardAt 21 43000, boardAt 22 38500]
    (s.tracker.queue[1]? = some (boardAt 21 43000) ∧ s.inContactZone (boardAt 21 43000) = true ∧
      s.slotOf (boardAt 21 43000) = some ⟨.current, 4, 2, 2, true, body⟩ ∧ body.mainWave = true ∧
      s.inContactZone (boardAt 20 43001) = false ∧ s.requestSlot (·.mainWave) = some body) ∧
    s.inContactZone (boardAt 22 38500) = true ∧ s.requestSlot (·.chipWave) = none ∧
    (joined.control.mode = .run ∧ (∀ m, { joined with control := { joined.control with mode := m } }.control.mode = m)) := by
  refine ⟨by decide +kernel, by decide +kernel, by decide +kernel, rfl, fun _ => rfl⟩

/-- The feeder starts below its lower level, runs between the levels, stops at its upper level, and stays off between them. -/
theorem test_premises_StallAndFeedRunExpiry_feeder :
    let level (n : Nat) (on : Bool) := { joined with pot := { joined.pot with
      level := n, established := true, feeding := on, feedTimer := if on then .running 30000 else .stopped } }
    let served := { joined with control := { joined.control with mode := .service, service := 0x40000 } }
    joined.feederAllowed = true ∧ (level 99 false).feederAllowed = true ∧ joined.feederForced = false ∧
    (feederUpdate (level 99 false)).pot.feedTimer = .running 30000 ∧ (feederUpdate (level 100 false)) = level 100 false ∧
    (feederUpdate (level 129 true)) = level 129 true ∧ (feederUpdate (level 130 true)).pot.feeding = false ∧
    (served.feederForced = true ∧ served.feederAllowed = true) ∧ claiming.feederAllowed = false := by decide +kernel

theorem test_premises_ContactTimerExpiryIsolates_detach : joined.shares.state = .seated := rfl

/-- No frame is eligible; a HAND of a board that is not held goes before the STATUS that follows it is sent. -/
theorem test_premises_StartOfTransmissionBuildsTheFirstEligibleFrame_search :
    let gone := joined.withTx [newFrame 1 5 (.hand 99), newFrame 0 0 .status]
    let left := joined.withTx [newFrame 0 0 .status]
    joined.firstEligible = none ∧ (gone.firstEligible = some 0 ∧ gone.payload (newFrame 1 5 (.hand 99)) = none) ∧
    startFrame 16 gone = startFrame 15 left ∧
    (left.firstEligible = some 0 ∧ (left.payload (newFrame 0 0 .status)).isSome = true ∧
      (startFrame 15 left).bus.onWire.isSome = true) := by decide +kernel

theorem test_premises_SignalChangesTheServiceWord_common :
    ((ignoring joined).Hears 7 ∧ (ignoring joined).bus.answer.ack = false) ∧ (2 : Station).toNat ≠ (hearing joined).dir.own :=
  ⟨⟨hears_ignoring _, rfl⟩, by decide⟩

/-- In SERVICE the line of channel 0 goes, so its forced demand of 256 falls; in RUN no demand is forced. -/
theorem test_premises_SignalChangesTheServiceWord_forced :
    let s := { joined with
      control := { joined.control with mode := .service, service := 1 }
      heater := { joined.heater with channels := ⟨none, 256, 256, 0, true, 256, 0⟩ :: List.replicate 7 Channel.blank } }
    joined.control.mode ≠ .service ∧ s.control.mode = .service ∧ (1 : BitVec 32) = s.control.service ∧
    (0 : BitVec 32) ≠ s.control.service ∧ ((setService 0 s).channel 0).demand = 0 ∧ (s.channel 0).demand = 256 := by
  decide +kernel

/-- A release finds ACTIVE and ACTIVE_ACKED records, an entry to ACTIVE finds another TRIP alarm standing or none. -/
theorem test_premises_AlarmRecordsMove_operations :
    ((joined.cause 19).raised = false ∧ ((raiseHeld 19 0 joined).cause 19).raised = true) ∧
    (alarmed.alarmState 23 = .active ∧ alarmed.alarmState 22 = .activeAcked) ∧
    (23 < 29 ∧ 23 ≠ 24 ∧ alarmed.stands 23 = true ∧ alarmed.alarmAction 23 = .trip) ∧
    (∀ j, j < 29 → j ≠ 23 → joined.stands j = true → joined.alarmAction j ≠ .trip) ∧
    recordValue 32768 = -32768 ∧ recordValue (-1) = -1 ∧ recordValue 32767 = 32767 := by decide +kernel

/-- An ALARM waits; one was announced and seen on the bus, or not; none was announced. -/
theorem test_premises_AlarmRecordsMove_announcements :
    let told := updateRecord 23 (fun r => { r with announced := true }) joined
    let waits := joined.withTx [newFrame 1 0 (.alarm 23 4 0 0 0 0)]
    let onWire := told.withTx [{ newFrame 1 0 (.alarm 23 4 0 0 0 0) with phase := .onBus }]
    (waits.hasWaiting (TxFrame.isAlarmOf 23) = true ∧ joined.hasWaiting (TxFrame.isAlarmOf 23) = false) ∧
    (joined.record 23).announced = false ∧
    ((told.record 23).announced = true ∧ told.alarmOnBus 23 = false ∧ (told.record 23).delivered = false) ∧
    ((onWire.record 23).announced = true ∧ onWire.alarmOnBus 23 = true) := by decide +kernel

theorem test_premises_AcknowledgeAndReleaseCommit_common :
    (ignoring joined).Hears 7 ∧ (1 : Station) ≠ 0 ∧ (ignoring joined).bus.answer.ack = false :=
  ⟨hears_ignoring _, by decide, rfl⟩

/-- The entry of panel 30 is held, panel 31 has none, and station 5 is no panel. -/
theorem test_premises_JoinAndStatusCommit_roles :
    (∀ n ∈ [5, 30, 31], (hearing joined).learnsFrom n = true ∧ n < joined.dir.entries.length) ∧
    ((5 : Station).toNat ≠ 30 ∧ (5 : Station).toNat ≠ 31) ∧ ((30 : Station).toNat = 30 ∧ (31 : Station).toNat = 31) ∧
    (joined.entry 30).map (·.roles) = some 16 ∧ joined.entry 31 = none := by decide +kernel

/-- The record of board 22 is released while its pulse is on, and the id is taken in anew before the pulse ends. -/
def takenAnew : State :=
  joinQueue (boardAt 22 4000) (releaseBoard (boardAt 22 53000)
    { (joined.withQueue [boardAt 22 53000]) with
      spray := { joined.spray with oneShots := List.replicate 6 (some (.board 22)) ++ [none, none] } })

/-- The valve stays open to the pulse end, which starts no lag timer of the new record (R39). -/
theorem test_the_pulse_of_a_released_record :
    takenAnew.nozzleValve 0 = true ∧ (takenAnew.board 22).isSome = true ∧
    (after (.pulseEnd 0) takenAnew).nozzleValve 0 = false ∧
    ((after (.pulseEnd 0) takenAnew).board 22).map (·.flowLag) = some .stopped := by decide +kernel

theorem test_premises_PulseEndAndFlowLagExpiry_released : takenAnew.oneShot (0 : Fin 8) = some (.released 22) ∧
    { joined with spray := { joined.spray with oneShots := List.replicate 8 (some .service) } }.oneShot (0 : Fin 8) = some .service ∧
    takenAnew.oneShot (7 : Fin 8) = none := by decide +kernel

theorem test_premises_PositionEventsAndDueDots_stall :
    { joined with control := { joined.control with permitSensed := true } }.control.permitSensed = true ∧
    State.reset.control.permitSensed = false := by decide +kernel

theorem test_premises_AmendsOfOtherStations_not_held :
    (hearing joined).Hears 7 ∧ (99 : Half).toNat ∉ (hearing joined).boardIds := ⟨hears _, by decide +kernel⟩

set_option maxRecDepth 100000 in
theorem test_premises_TheImageIsAcceptedOrRefused_watch : (watchAt image 224).isSome = true := by decide +kernel

/-- The entries that DIRECTORY reports: the own, a station's, and none. -/
theorem test_premises_QueriesQueueReports_directory :
    1 = joined.dir.own ∧ (5 ≠ joined.dir.own ∧ joined.entry 5 = some (peerFrom 44000)) ∧
    (31 ≠ joined.dir.own ∧ joined.entry 31 = none) ∧
    reportContent 2 5 joined = byte1 5 ++ [7, 128] ++ byte6 9 ++ [4] ++ byte3 44000 ++ byte3 59000 ++ List.replicate 9 0 := by
  decide +kernel

/-- The places that BOARD and WATCH report, and the two halves of FIRSTOUT. -/
theorem test_premises_QueriesQueueReports_records :
    let d : WatchDef := ⟨0, true, 100, 10, true, true, true, false, 2, .warn, 0, 0⟩
    let s := { joined with
      control := { joined.control with lineValue := some (5, 28) }
      alarms := { joined.alarms with
        firstOut := some ⟨23, -1, 0, 0⟩, entries := .fixed d :: .panel d :: List.replicate 14 .empty } }
    (joined.tracker.queue[0]? = some (boardAt 21 30000) ∧ joined.tracker.queue[2]? = none) ∧
    (s.watch 0 = .fixed d ∧ s.watch 1 = .panel d ∧ s.watch 2 = .empty) ∧
    (s.alarms.firstOut = some ⟨23, -1, 0, 0⟩ ∧ joined.alarms.firstOut = none) ∧
    (s.control.lineValue = some (5, 28) ∧ joined.control.lineValue = none) ∧
    reportContent 8 0 s = [1, 23, 255, 255, 0, 0, 0] ++ byte1 s.control.lineState.code ++ [5, 28] := by decide +kernel

/-! ## Premises of the words that the statements spell -/

/-- Station 5 is the neighbour; of stations 5 and 7 with one window start the lower, and of 7 and 9 the nearer; none above 44 000. -/
theorem test_premises_AgingSweepAgesEveryEntry_choice :
    let with2 (a b : Nat) := { joined with dir := { joined.dir with
      entries := (joined.dir.entries.set 7 (some (peerFrom a))).set 9 (some (peerFrom b)) } }
    let last := withConfig { config with winStart := 44000 } joined
    joined.findNeighbour = some 5 ∧ (with2 44000 43999).findNeighbour = some 9 ∧ (with2 44000 44000).findNeighbour = some 5 ∧
    (with2 1000 44001).findNeighbour = some 5 ∧ last.findNeighbour = none ∧
    (joined.neighbourStart = some 44000 ∧ joined.entry 5 = some (peerFrom 44000) ∧ (peerFrom 44000).window = some (44000, 59000)) := by
  decide +kernel

/-- Raiser 5 stands in an activity set and has no flag, has one, and raises nothing. -/
theorem test_premises_AgingSweepAgesEveryEntry_orphan :
    let s := { joined with groups := ⟨[⟨8, 5, 28⟩], []⟩ }
    (∃ a ∈ s.groups.activity, a.raiser = 5) ∧ 5 ∉ s.groups.orphans ∧ (orphanGone 5 s).groups.orphans = [5] ∧
    (orphanGone 5 (orphanGone 5 s)).groups.orphans = [5] ∧ orphanGone 6 s = s := by decide +kernel

/-- The quantities: a reading and a setpoint far apart, an open sensor, no setpoint, both counts ten samples ago and too few. -/
theorem test_premises_ASampleEventWritesTheTable_quantities :
    let x := samples 32767 117
    let open0 : Samples := { x with thermocouples := ⟨2500, true⟩ :: List.replicate 7 (sensor 2500) }
    let cold := { joined with heater := { joined.heater with channels := ⟨some (-20000), 0, 9, 0, true, 0, 0⟩ :: List.replicate 7 Channel.blank } }
    let rated (n : BitVec 32) := { joined with
      spray := { joined.spray with flowCount := 4 }
      alarms := { joined.alarms with flowHist := List.replicate 10 65530, countHist := List.replicate 10 n } }
    (x.thermocouples.getD 0 ⟨0, false⟩ = sensor 32767 ∧ (joined.channelConfig 0).zone ≠ .unused) ∧
    (cold.sampled x 0 = some 32767 ∧ (cold.channel 0).setpoint = some (-20000) ∧ cold.sampled x 8 = some 32767 ∧
      cold.sampled x 16 = some 9) ∧
    (joined.sampled open0 0 = none ∧ (joined.channel 7).setpoint = none ∧ joined.sampled open0 8 = none) ∧
    (joined.ductEnabled 1 = true ∧ joined.sampled x 26 = some 200 ∧ claiming.sampled open0 28 = some 0) ∧
    (joined.alarms.flowHist[9]? = none ∧ State.reset.loader.config = none) ∧
    ((rated 0).loader.config.isSome = true ∧ (rated 0).alarms.flowHist[9]? = some 65530 ∧ (rated 0).sampled x 27 = some 10) ∧
    ((rated 7).alarms.countHist[9]? = some 7 ∧ (rated 7).sampled x 29 = some (-7) ∧ (rated 65536).sampled x 29 = some (-32768)) := by
  decide +kernel

/-- Channel 0 is found open once; an open channel loses its grant, with no list nothing changes. -/
theorem test_premises_ASampleEventWritesTheTable_open :
    let x : Samples := { samples 2500 117 with thermocouples := ⟨2500, true⟩ :: List.replicate 7 (sensor 2500) }
    joined.newlyOpen x = [0] ∧ (after (.sampleEvent x) joined).newlyOpen x = [] ∧ ([0] : List Nat) ≠ [] ∧
    ((openChannels [0] pulsing).channel 0).grant = 0 ∧ (openChannels [0] pulsing).heater.cost = 24 := by decide +kernel

/-- A frame owed and not; CLEAR owed by a QUIET record, by a PENDING one and by one that stands. -/
theorem test_premises_ASampleEventWritesTheTable_owed :
    let owed (st : AlarmState) := updateRecord 3 (fun r => { r with state := st, clearOwed := true }) joined
    let told := updateRecord 23 (fun r => { r with announceOwed := true }) alarmed
    ((told.record 23).announceOwed = true ∧ told.stands 23 = true ∧ (told.record 23).clearOwed = false) ∧
    ((updateRecord 0 (fun r => { r with announceOwed := true }) alarmed).stands 0 = false ∧ (joined.record 3).announceOwed = false) ∧
    (∀ st ∈ [AlarmState.quiet, .pending, .active, .activeAcked, .latched],
      ((owed st).record 3).clearOwed = true ∧ (owed st).alarmState 3 = st) := by decide +kernel

/-- Entry 2 is chained to entry 3, which holds the record of both. -/
theorem test_premises_ASampleEventWritesTheTable_chains :
    let d (c : Bool) : WatchDef := ⟨0, true, 100, 10, c, true, true, true, 2, .warn, 0, 0⟩
    let l := [.empty, .empty, .fixed (d true), .panel (d false)] ++ List.replicate 12 WatchEntry.empty
    chained l 2 = true ∧ chained l 3 = false ∧ holderOf l 2 = 3 ∧ holderOf l 3 = 3 ∧
    chained (List.replicate 16 (.fixed (d true))) 15 = false ∧ holderOf (List.replicate 16 (.fixed (d true))) 0 = 15 := by
  decide +kernel

theorem test_premises_WatchInstallsOrEmptiesAnEntry_fields :
    watchDefOf (watchFields 3) = some ⟨0, true, 100, 10, false, true, true, true, 2, .hold, 0, 0⟩ ∧
    watchDefOf { watchFields 3 with chainMode := 0x87, threshold := 0xFFFF, mark := 63, group := 8 } =
      some ⟨0, true, -1, 10, true, true, true, true, 2, .hold, 8, 63⟩ ∧
    (∀ f ∈ [{ watchFields 3 with quantity := 30 }, { watchFields 3 with chainMode := 8 }, { watchFields 3 with mark := 15 },
      { watchFields 3 with persistence := 0 }, { watchFields 3 with group := 9 }, watchFields 5], watchDefOf f = none) := by
  decide +kernel

/-- A head admission of two boards and of one, a default slot, and neither. -/
theorem test_premises_EntryLeadingEdgeMakesABoard_data :
    let entering (n : Nat) := { joined with tracker := { joined.tracker with admissions := [⟨4, 2, 1800, n⟩, ⟨9, 1, 700, 3⟩] } }
    let bare := joined.withSlots (List.replicate 8 Slot.blank)
    ((entering 2).entryData = (4, 2, 1800, some 1800, false) ∧ joined.tracker.admissions = [] ∧
      joined.recipes.slots.find? (fun x => x.isDefault) = some ⟨.current, 4, 2, 2, true, body⟩ ∧
      joined.entryData = (4, 2, 1, none, false)) ∧
    (bare.tracker.admissions = [] ∧ ∀ sl ∈ bare.recipes.slots, sl.isDefault = false) ∧
    ((useAdmission (entering 2)).tracker.admissions = [⟨4, 2, 1800, 1⟩, ⟨9, 1, 700, 3⟩] ∧
      (useAdmission (entering 1)).tracker.admissions = [⟨9, 1, 700, 3⟩] ∧ (entering 1).resolve 4 2 = some 0 ∧
      ((useAdmission (entering 1)).recipes.slots.map (·.refs))[0]? = some 1) ∧
    (dropRef (some 1) retiring).recipes.slots[1]? = some Slot.blank := by decide +kernel

/-- The ids 65535 and 1 are held, so 2 follows; the queue of seven takes one more board, and a reservation takes its place. -/
theorem test_premises_EntryLeadingEdgeMakesABoard_places :
    let kept := { crowded 7 with bus := { joined.bus with reservation := some .boardPlace } }
    freshId [65535, 1] 9 65535 = 2 ∧ (2 ∉ [65535, 1] ∧ 65535 ∈ [65535, 1]) ∧ nextBoardId 65534 = 65535 ∧
    ((crowded 7).joined = true ∧ (crowded 7).cfg.roles.entry = true ∧ (crowded 7).freePlaces = 1 ∧ kept.freePlaces = 0) ∧
    (after .entryLeadingEdge (crowded 7)).boardIds = [40, 41, 42, 43, 44, 45, 46, 23] := by decide +kernel

theorem test_premises_TheCommonPartOfACommit_learns :
    ((hearing joined).learnsFrom 5 = true ∧ (hearing joined).entry 5 = some (peerFrom 44000) ∧ (hearing joined).entry 31 = none) ∧
    ((hearing claiming).learnsFrom 29 = true ∧ (hearing joined).learnsFrom 0 = false ∧ (hearing joined).learnsFrom 1 = false ∧
      (hearing State.reset).learnsFrom 5 = false) ∧
    ((1 : Nat) = joined.dir.own ∧ joined.joined = true ∧ claiming.joined = false) := by decide +kernel

/-- A JOINED station that stays isolated for its other timer, and one that leaves isolation; JOIN waits, and does not. -/
theorem test_premises_TheCommonPartOfACommit_isolation :
    let both := { isolated with bus := { isolated.bus with peerContact := .expired } }
    let waits := isolated.withTx [newFrame 0 0 (.join 0)]
    joined.isolated = false ∧ (isolated.isolated = true ∧ isolated.joined = true ∧ both.isolated = true) ∧
    ((restartContact true both).isolated = true ∧ (restartContact true isolated).isolated = false) ∧
    (waits.hasFrame (TxFrame.isKind 2) = true ∧ isolated.hasFrame (TxFrame.isKind 2) = false ∧
      (restartContact true isolated).hasFrame (TxFrame.isKind 2) = true) ∧
    ((raiseHeld 26 5 joined).cause 26).raised = true ∧ (joined.cause 26).raised = false := by decide +kernel

theorem test_premises_AlarmAndClearCommit_unstored :
    ((hearing joined).Hears 7 ∧ (hearing claiming).joined = false ∧ (1 : Station).toNat = (hearing joined).dir.own) ∧
    (29 : Byte).toNat > 28 ∧ (9 : Byte).toNat > 8 ∧
    (⟨8, 5, 28⟩ : Activity) ∉ ((hearing joined).afterCommit false 5).groups.activity :=
  ⟨⟨hears _, rfl, by decide⟩, by decide, by decide, by decide +kernel⟩

/-- The last index of raiser 5 goes, and its ORPHAN flag with it. -/
theorem test_premises_AlarmAndClearCommit_orphans :
    let s := hearing { joined with groups := ⟨[⟨8, 5, 28⟩, ⟨8, 6, 28⟩], [5, 6]⟩ }
    (after (.clear 5 28 8) s).groups.orphans = [6] ∧ (after (.release 30 8 5) s).groups.orphans = [6] := by decide +kernel

theorem test_premises_AcknowledgeAndReleaseCommit_out_of_range :
    (hearing joined).Hears 7 ∧ 8 < (9 : Byte).toNat ∧ 31 < (32 : Byte).toNat := ⟨hears _, by decide, by decide⟩

theorem test_premises_AmendsOfOtherStations_own :
    (sending 9 1 0 (byte2 21 ++ [1, 1, 16]) joined).Sends 9 1 0 (byte2 21 ++ [1, 1, 16]) ∧
    (sending 9 1 0 (byte2 21 ++ [2] ++ byte2 2480) joined).Sends 9 1 0 (byte2 21 ++ [2] ++ byte2 2480) ∧
    (sending 9 1 0 (byte2 21 ++ [3] ++ byte3 30000) joined).Sends 9 1 0 (byte2 21 ++ [3] ++ byte3 30000) := ⟨sends .., sends .., sends ..⟩

theorem test_premises_NeedCommits_no_effect :
    ((hearing claiming).Hears 7 ∧ (hearing claiming).joined = false) ∧
    (hearing joined).Hears 7 ∧ (1 : Station).toNat = (hearing joined).dir.own := ⟨⟨hears _, rfl⟩, hears _, by decide⟩

/-- An EMPTY entry, a FIXED and a PANEL one, and the alarms of the units. -/
theorem test_premises_AlarmRecordsMove_properties :
    let d : WatchDef := ⟨0, true, 100, 10, true, true, true, false, 2, .trip, 7, 20⟩
    let s := { joined with alarms := { joined.alarms with entries := .fixed d :: .panel d :: List.replicate 14 .empty } }
    (s.watch 0 = .fixed d ∧ s.watch 1 = .panel d ∧ s.watch 15 = .empty) ∧
    (∀ i ∈ [0, 1], s.alarmAction i = .trip ∧ s.alarmGroup i = 7 ∧ s.alarmMark i = 20) ∧
    (s.needsAnnouncing 0 = true ∧ s.needsAnnouncing 15 = false ∧ s.needsAnnouncing 26 = false) := by decide +kernel

/-- A claimant of number 1 hears it claimed by another uid; a station of the line hears the CLAIM of number 29. -/
theorem test_premises_AnothersClaimIsLearned_unjoined :
    ((hearing claiming).Hears 7 ∧ (hearing claiming).learns = true ∧ (hearing claiming).joined = false) ∧
    (1 ≤ (claimFields 9 29).number.toNat ∧ (claimFields 9 29).number.toNat ≤ 29 ∧ (claimFields 9 29).number.toNat ≠ claiming.dir.own) ∧
    ((after (.claim (claimFields 9 1)) (hearing claiming)).control.station = .claimFail ∧
      (after (.claim (claimFields 9 29)) (hearing claiming)).control.station = .claiming) :=
  ⟨⟨hears _, rfl, rfl⟩, by decide, by decide +kernel⟩

/-- A JOIN of source 0, one heard while not JOINED, and a STATUS that is learned and one that is not. -/
theorem test_premises_JoinAndStatusCommit_sources :
    ((hearing claiming).Hears 7 ∧ (hearing claiming).learnsFrom 5 = true ∧ (hearing claiming).joined = false) ∧
    ((hearing joined).Hears 7 ∧ (hearing joined).learnsFrom (0 : Station).toNat = false) ∧
    ((hearing State.reset).Hears 7 ∧ (hearing State.reset).learnsFrom 5 = false ∧ State.reset.joined = false) ∧
    (hearing joined).entry 5 = some (peerFrom 44000) ∧ (hearing joined).learnsFrom 5 = true :=
  ⟨⟨hears _, by decide +kernel, rfl⟩, ⟨hears _, by decide +kernel⟩, ⟨hears _, by decide +kernel, rfl⟩, by decide +kernel, by decide +kernel⟩

/-- Receiving and learning in the five states; CONFIG_FAULT with the bit rate given and without. -/
theorem test_premises_BusIdleFrameStartAndLostArbitration_receives :
    let fault (rate : Bool) := { claiming with
      control := { claiming.control with station := .configFault }, loader := { claiming.loader with rateGiven := rate } }
    (State.reset.receives = false ∧ (fault false).receives = false ∧ (fault true).receives = true) ∧
    (claiming.receives = true ∧ joined.receives = true) ∧
    ((fault true).learns = false ∧ claiming.learns = true ∧ joined.learns = true) := by decide +kernel

/-- Both panels, panel 31 alone, and none. -/
theorem test_premises_PositionEventsAndDueDots_panel :
    let second := joined.dir.entries.set 31 (some ⟨none, 16, none, none, true, false, none⟩)
    { joined with dir := { joined.dir with entries := second } }.panel = some 30 ∧
    { joined with dir := { joined.dir with entries := second.set 30 none } }.panel = some 31 ∧ claiming.panel = none := by
  decide +kernel

/-- The own frame, and one that differs in its last byte. -/
theorem test_premises_TheCommonPartOfACommit_own_frame :
    (sending 4 1 0 [0, 9] joined).ownsFrame 4 1 0 [0, 9] = true ∧ (sending 4 1 0 [0, 9] joined).ownsFrame 4 1 0 [0, 8] = false ∧
    (hearing joined).ownsFrame 4 1 0 [0, 9] = false := by decide +kernel

end Sys2Proof.Tests
end

section
/-! PROOFS. What every command keeps, and the two statements that follow from it: the order of the board queue (O58) and the
encoder count (O9). -/

namespace Sys2Proof.Machine

open Sys2Proof

/-! ## Every command -/

theorem Answers.lasts {r : Result} {s : State} (h : Answers r (Stays s)) :
    Answers r (Lasts s.OffLine (s.OffLine ∧ s.LendCovered) s) := by
  obtain ⟨t, e, k⟩ := h
  exact ⟨t, e, k.toLasts⟩

/-- Every command but those of the start and the count event keeps the invariants, the loader and the encoder count. -/
theorem sound_exec {c : Instr} (s : State) (hs : isStart c = false) (hc : ∀ forward, c ≠ .countEvent forward) :
    Answers (exec c s) (Stays s) := by
  cases c with
  | startReset _ | imageReadEnd _ | resetPinRelease => cases hs
  | countEvent forward => exact absurd rfl (hc forward)
  | entryLeadingEdge => exact sound_entryLeadingEdge s
  | entryTrailingEdge => exact sound_entryTrailingEdge s
  | eyeLeadingEdge => exact sound_eyeLeadingEdge s
  | flowPulse => exact sound_flowPulse s
  | permitLineChange pull => exact sound_permitLineChange pull s
  | tripLineChange pull => exact sound_tripLineChange pull s
  | sampleEvent inputs => exact sound_sampleEvent inputs s
  | periodStart => exact sound_periodStart s
  | heaterOnEdge n => exact sound_heaterOnEdge n s
  | heaterOffEdge n => exact sound_heaterOffEdge n s
  | pulseEnd n => exact sound_pulseEnd n s
  | flowLagExpiry board => exact sound_flowLagExpiry board s
  | presenceEvent => exact sound_presenceEvent s
  | agingSweep => exact sound_agingSweep s
  | claimListenExpiry => exact sound_claimListenExpiry s
  | contactTimerExpiry timer => exact sound_contactTimerExpiry timer s
  | needExpiry => exact sound_needExpiry s
  | holdOverExpiry => exact sound_holdOverExpiry s
  | stallTimerExpiry => exact sound_stallTimerExpiry s
  | settleExpiry pump => exact sound_settleExpiry pump s
  | feedRunExpiry => exact sound_feedRunExpiry s
  | proveTimeout duct => exact sound_proveTimeout duct s
  | runOnExpiry => exact sound_runOnExpiry s
  | busyBackoffEnd place => exact sound_busyBackoffEnd place s
  | busStuck => exact sound_busStuck s
  | busIdle => exact sound_busIdle s
  | frameStart => exact sound_frameStart s
  | startOfTransmission => exact sound_startOfTransmission s
  | lostArbitration => exact sound_lostArbitration s
  | ackSlot frame => exact sound_ackSlot frame s
  | frameOutcome slots => exact sound_frameOutcome slots s
  | hand src dst fields => exact sound_hand src dst fields s
  | amendMark src board station code => exact sound_amendMark src board station code s
  | amendLength src board length => exact sound_amendLength src board length s
  | amendPosition src board pos => exact sound_amendPosition src board pos s
  | recipe src fields => exact sound_recipe src fields s
  | drop src number => exact sound_drop src number s
  | admitBoards src dst number length count => exact sound_admit src dst number length count s
  | need src amount => exact sound_need src amount s
  | lend src dst amount => exact sound_lend src dst amount s
  | returnShares src dst amount => exact sound_return src dst amount s
  | recallShares src dst amount => exact sound_recall src dst amount s
  | alarm src fields => exact sound_alarm src fields s
  | clear src index group => exact sound_clear src index group s
  | acknowledge src dst index => exact sound_acknowledge src dst index s
  | watchInstall src dst index fields => exact sound_watchInstall src dst index fields s
  | watchEmpty src dst index => exact sound_watchEmpty src dst index s
  | release src group raiser => exact sound_release src group raiser s
  | mode src value => exact sound_mode src value s
  | signalWrite src dst value => exact sound_signal (fun _ => value) s
  | signalSet src dst value => exact sound_signal (fun u => u.control.service ||| value) s
  | signalClear src dst value => exact sound_signal (fun u => u.control.service &&& ~~~value) s
  | signalInvert src dst value => exact sound_signal (fun u => u.control.service ^^^ value) s
  | restart src dst => exact sound_restart src dst s
  | queryStation src dst item => exact sound_query 1 src dst item s
  | queryDirectory src dst item => exact sound_query 2 src dst item s
  | queryBoards src dst item => exact sound_query 3 src dst item s
  | queryBoard src dst item => exact sound_query 4 src dst item s
  | queryRecipe src dst item => exact sound_query 5 src dst item s
  | queryWatch src dst item => exact sound_query 6 src dst item s
  | queryAlarms src dst item => exact sound_query 7 src dst item s
  | queryFirstout src dst item => exact sound_query 8 src dst item s
  | queryLoans src dst item => exact sound_query 9 src dst item s
  | queryGroup src dst item => exact sound_query 10 src dst item s
  | claim fields => exact sound_claim fields s
  | join src fields => exact sound_join src fields s
  | status src fields => exact sound_status src fields s
  | done src dst fields => exact sound_plain 10 _ _ _ s
  | report src dst code item content => exact sound_plain 13 _ _ _ s
  | noKindFrame src dst kind payload => exact sound_plain _ _ _ _ s

/-- Every command keeps the invariants. -/
theorem lasts_exec (c : Instr) (s : State) : Answers (exec c s) (Lasts s.OffLine (s.OffLine ∧ s.LendCovered) s) := by
  cases c with
  | startReset pinHeld => exact lasts_startReset pinHeld s
  | imageReadEnd image => exact lasts_imageReadEnd image s
  | resetPinRelease => exact lasts_resetPinRelease s
  | countEvent forward =>
    obtain ⟨t, e, k, _, _⟩ := lasts_countEvent forward s
    exact ⟨t, e, k⟩
  | _ => exact (sound_exec s rfl (by intro _ h; cases h)).lasts

/-- A step keeps the invariants: it runs the command taken from the front of the queue, or one period slot passes. -/
theorem lasts_step {s t : State} (h : step s = .next t) :
    ∃ rest, Lasts s.OffLine (s.OffLine ∧ s.LendCovered) (s.withPending rest) t := by
  unfold step at h
  split at h
  · cases h
    exact ⟨s.pending, (keeps_tick s).lasts⟩
  · next c rest _ =>
    obtain ⟨u, e, k⟩ := lasts_exec c (s.withPending rest)
    cases e.symm.trans h
    exact ⟨rest, k⟩

/-- Settles O58: what every step keeps, read for the board queue. -/
theorem theBoardQueueStaysOrdered : Obligations.TheBoardQueueStaysOrdered := by
  rintro s t ⟨off, ordered⟩ h
  obtain ⟨rest, k⟩ := lasts_step h
  exact ⟨k.off off off, k.boards off ordered⟩

/-! ## The encoder count (R4) -/

/-- Of the commands that are not count events, START_RESET alone may change the count. -/
theorem exec_count {c : Instr} {s t : State} (hc : ∀ forward, c ≠ .countEvent forward) (hr : ∀ pinHeld, c ≠ .startReset pinHeld)
    (h : exec c s = .next t) : t.tracker.count = s.tracker.count := by
  have other (hs : isStart c = false) : t.tracker.count = s.tracker.count := by
    obtain ⟨u, e, k⟩ := sound_exec s hs hc
    cases e.symm.trans h
    exact k.count
  cases c with
  | startReset pinHeld => exact absurd rfl (hr pinHeld)
  | imageReadEnd image =>
    replace h : execImageReadEnd image s = .next t := h
    unfold execImageReadEnd at h
    split at h
    · split at h <;> (cases h; rfl)
    · cases h; rfl
  | resetPinRelease =>
    replace h : execResetPinRelease s = .next t := h
    unfold execResetPinRelease at h
    split at h <;> (cases h; rfl)
  | _ => exact other rfl

theorem far_stallCounted (s : State) : (stallCounted s).far = s.far :=
  ((Follows.ite _ (follows_withStall _ s) (Follows.refl s)).trans (follows_releaseHeld 19 _)).toMoves.far

/-- A count event leaves all that no position event may change, but for the count (R4, R5). -/
theorem execCountEvent_far (forward : Bool) (s : State) : ∃ t, exec (.countEvent forward) s = .next t ∧
    t.tracker.count = (if forward then s.tracker.count + 1 else s.tracker.count - 1) ∧
    t.far = { s with tracker := { s.tracker with count := t.tracker.count } }.far := by
  have k := ((keeps_stallCounted (countStep forward s)).trans
    (keeps_positionEvents (movedBoards s (countStep forward s)) _)).trans (keeps_settle _)
  refine ⟨_, rfl, k.count, ?_⟩
  rw [far_settle, far_positionEvents, far_stallCounted, k.count]
  rfl

/-- A position takes the difference of two counts as a signed number of 32 bits (R5). -/
theorem leadingEdge_signed (countsPerMetre pos : Nat) (count : BitVec 32) {d : Int} (h1 : -2147483648 < d)
    (h2 : d < 2147483648) : leadingEdge countsPerMetre pos (count + BitVec.ofInt 32 d) count =
      clampNat 16777215 ((pos : Int) + Int.tdiv (d * 10000) countsPerMetre) := by
  have e : (count + BitVec.ofInt 32 d - count).toInt = d := by
    rw [BitVec.add_comm, BitVec.add_sub_cancel, BitVec.toInt_ofInt]
    exact Int.bmod_eq_of_le (by omega) (by omega)
  unfold leadingEdge
  rw [e]

/-- Settles O9. -/
theorem theEncoderCount : Obligations.TheEncoderCount :=
  ⟨execCountEvent_far, fun _ _ _ h => by cases h; rfl, fun _ _ _ hc hr h => exec_count hc hr h,
    fun countsPerMetre pos count _ h1 h2 => leadingEdge_signed countsPerMetre pos count h1 h2⟩

end Sys2Proof.Machine
end

section
/-! PROOFS. The record of a board id after one record was changed, and the statements that need no more: the add-mark operation
(O14), the trailing edge of the entry eye (O12), and the kinds whose commit is the common part alone (O43). -/

namespace Sys2Proof.Machine

open Sys2Proof

/-! ## The record of a board id -/

theorem board_id {s : State} {id : Nat} {b : Board} (h : s.board id = some b) : b.line.id = id :=
  beq_iff_eq.1 (List.find?_some (p := fun b : Board => b.line.id == id) h)

theorem board_mem {s : State} {id : Nat} {b : Board} (h : s.board id = some b) : b ∈ s.tracker.queue :=
  List.mem_of_find?_eq_some h

theorem board_updateBoard {f : Board → Board} (hf : ∀ b, (f b).line.id = b.line.id) (id n : Nat) (s : State) :
    (updateBoard id f s).board n = (s.board n).map (fun b => if b.line.id == id then f b else b) := by
  show (s.tracker.queue.map _).find? _ = _
  rw [List.find?_map]
  have e : (fun b : Board => b.line.id == n) ∘ (fun b => if b.line.id == id then f b else b) = fun b => b.line.id == n := by
    funext b
    simp only [Function.comp]
    split
    · rw [hf]
    · rfl
  rw [e]
  rfl

theorem board_updateBoard_same {s : State} {id : Nat} {b : Board} {f : Board → Board} (hf : ∀ b, (f b).line.id = b.line.id)
    (h : s.board id = some b) : (updateBoard id f s).board id = some (f b) := by
  rw [board_updateBoard hf, h, Option.map_some, if_pos (beq_iff_eq.2 (board_id h))]

theorem board_updateBoard_other {s : State} {id n : Nat} {f : Board → Board} (hf : ∀ b, (f b).line.id = b.line.id)
    (h : n ≠ id) : (updateBoard id f s).board n = s.board n := by
  rw [board_updateBoard hf]
  cases e : s.board n with
  | none => rfl
  | some b =>
    rw [Option.map_some, if_neg]
    intro k
    exact h ((board_id e).symm.trans (beq_iff_eq.1 k))

/-! ## The add-mark operation (R19, R20) -/

theorem addMark_eq {s : State} {id : Nat} {b : Board} (code : Nat) (h : s.board id = some b) : addMark id code s =
    if s.inWindow b = true ∧ (⟨s.dir.own, code⟩ : Mark) ∉ b.line.marks then
      queueOrDrop (newFrame 1 0 (.amendMark id s.dir.own code)) (updateLine id (addPair ⟨s.dir.own, code⟩) s)
    else s := by
  unfold addMark
  rw [h]
  by_cases w : s.inWindow b = true <;> by_cases k : (⟨s.dir.own, code⟩ : Mark) ∈ b.line.marks <;> simp [w, k]

theorem addMark_added {s : State} {id code : Nat} {b : Board} (h : s.board id = some b) (w : s.inWindow b = true)
    (k : (⟨s.dir.own, code⟩ : Mark) ∉ b.line.marks) : addMark id code s =
    queueOrDrop (newFrame 1 0 (.amendMark id s.dir.own code)) (updateLine id (addPair ⟨s.dir.own, code⟩) s) := by
  rw [addMark_eq code h, if_pos ⟨w, k⟩]

theorem queueOrDrop_tracker (f : TxFrame) (s : State) : (queueOrDrop f s).tracker = s.tracker := by
  unfold queueOrDrop
  split <;> rfl

theorem queueOrDrop_board (f : TxFrame) (s : State) (n : Nat) : (queueOrDrop f s).board n = s.board n := by
  unfold State.board
  rw [queueOrDrop_tracker]

theorem queueOrDrop_eq (cls dst : Nat) (body : TxBody) (s : State) : queueOrDrop (newFrame cls dst body) s =
    if s.admits cls = true then s.withTx (s.bus.queue ++ [newFrame cls dst body]) else s := rfl

/-- Settles O14: without effect by `addMark_eq`, otherwise one record changes by `addPair` and one frame is queued. -/
theorem theAddMarkOperation : Obligations.TheAddMarkOperation := by
  intro s id code b hb
  have idle (h : ¬(s.inWindow b = true ∧ (⟨s.dir.own, code⟩ : Mark) ∉ b.line.marks)) : addMark id code s = s := by
    rw [addMark_eq code hb, if_neg h]
  refine ⟨fun w => idle fun k => w ((inWindow_iff s b).1 k.1), fun w => ⟨fun held => idle fun k => k.2 held, fun fresh => ?_⟩⟩
  have e := addMark_added hb ((inWindow_iff s b).2 w) fresh
  have keepsId : ∀ x : Board, ({ x with line := addPair ⟨s.dir.own, code⟩ x.line } : Board).line.id = x.line.id :=
    fun x => addPair_id _ x.line
  refine ⟨?_, fun n hn => ?_, ?_, ?_⟩
  · rw [e, queueOrDrop_board, updateLine, board_updateBoard_same keepsId hb, addPair_eq, if_neg fresh]
  · rw [e, queueOrDrop_board, updateLine, board_updateBoard_other keepsId hn]
  · rw [e, queueOrDrop_eq]
    show (if s.admits 1 = true then _ else _ : State).bus.queue = _
    split <;> rfl
  · rw [e, queueOrDrop_eq]
    split <;> rfl

/-! ## The trailing edge of the entry eye (R15) -/

theorem underEye_board {s : State} {id : Nat} {b : Board} (hu : s.tracker.underEye = some id) (hb : s.board id = some b) :
    exec .entryTrailingEdge s = .next (measureBoard b s) := by
  show execEntryTrailingEdge s = _
  unfold execEntryTrailingEdge
  rw [hu, Option.bind_some, hb]

/-- The measured length is off the admitted one by more than the tolerance. -/
theorem lengthOff_iff (s : State) (b : Board) (m : Nat) : (match b.admitted with
      | some a => decide (s.cfg.lengthTolerance < m - a) || decide (s.cfg.lengthTolerance < a - m)
      | none => false) = true ↔
    ∃ a ∈ b.admitted, s.cfg.lengthTolerance < m - a ∨ s.cfg.lengthTolerance < a - m := by
  cases b.admitted <;> simp

/-- The board under the eye takes its measured length, LENGTH_MISMATCH where it is off, and AMEND LENGTH where it is HANDED. -/
theorem measureBoard_eq {s u v : State} {id m : Nat} {b : Board} (hb : s.board id = some b)
    (hm : m = (if s.pos b = 0 then 1 else min (s.pos b) 65535))
    (hu : u = updateLine id (fun r => { r with length := m, lengthFinal := true }) s)
    (hv : v = (if ∃ a ∈ b.admitted, s.cfg.lengthTolerance < m - a ∨ s.cfg.lengthTolerance < a - m then addMark id 8 u else u)) :
    measureBoard b s = (if b.handed.isSome = true ∧ v.admits 1 = true then
      v.withTx (v.bus.queue ++ [newFrame 1 0 (.amendLength id m)]) else v).withUnderEye none := by
  have hid := board_id hb
  subst hid
  have ev : v = (if (match b.admitted with
      | some a => decide (s.cfg.lengthTolerance < m - a) || decide (s.cfg.lengthTolerance < a - m)
      | none => false) = true then addMark b.line.id 8 u else u) := by
    rw [hv]
    exact ite_congr (propext (lengthOff_iff s b m).symm) (fun _ => rfl) (fun _ => rfl)
  rw [← nested_if, ← queueOrDrop_eq, ev, hu, hm]
  rfl

theorem steady_withUnderEye {s t : State} (h : t.steady = s.steady) (i : Option Nat) :
    (t.withUnderEye i).steady = (s.withUnderEye i).steady := by
  show t.steady.withUnderEye i = s.steady.withUnderEye i
  rw [h]

theorem moves_entryMarks {s : State} {b : Board} {id : Nat} {p : Prop} [Decidable p] (f : TxFrame) :
    Moves s (if b.handed.isSome then queueOrDrop f (if p then addMark id 8 s else s) else (if p then addMark id 8 s else s)) :=
  (Moves.ite p (moves_addMark id 8 s) (.refl s)).trans (.ite _ (moves_queueOrDrop f _) (.refl _))

/-- Settles O12. -/
theorem entryTrailingEdgeMeasuresTheBoard : Obligations.EntryTrailingEdgeMeasuresTheBoard := by
  refine ⟨fun s id b hu hb => ⟨_, underEye_board hu hb, ?_⟩, fun s u v id m b hu hb hm h1 h2 => ?_, fun s h => ?_⟩
  · have hid := board_id hb
    subst hid
    exact steady_withUnderEye (moves_entryMarks _).steady none
  · rw [underEye_board hu hb, measureBoard_eq hb hm h1 h2]
  · show execEntryTrailingEdge s = _
    unfold execEntryTrailingEdge
    rw [h]

/-! ## Commits without an effect of their own (R23, R154, R159) -/

theorem committed_plain {s : State} (h : s.bus.frameStart.isSome = true) (kind src dst : Nat) (payload : List Byte) :
    committed kind src dst payload (fun _ s => s) s = .next (s.afterCommit (s.ownsFrame kind src dst payload) src) := by
  obtain ⟨start, e⟩ := Option.isSome_iff_exists.1 h
  unfold committed
  rw [e]
  rfl

/-- Settles O43. -/
theorem doneReportAndNoKindHaveTheCommonPartAlone : Obligations.DoneReportAndNoKindHaveTheCommonPartAlone :=
  fun _ _ _ h => ⟨fun _ => committed_plain h .., fun _ _ _ => committed_plain h .., fun _ _ => committed_plain h ..⟩

end Sys2Proof.Machine
end

section
/-! PROOFS. STALL_TIMER_EXPIRY, FEED_RUN_EXPIRY, and how the pumps and the feeder follow (O31). -/

namespace Sys2Proof.Machine

open Sys2Proof

/-! ## The two expiries (R18, R100) -/

theorem execStallTimerExpiry_runs {s : State} (h : s.tracker.stall.isRunning = true) : exec .stallTimerExpiry s =
    .next (settle (raiseHeld 19 0 { s with tracker := { s.tracker with stall := .expired } })) := if_pos h

theorem execStallTimerExpiry_stopped {s : State} (h : s.tracker.stall.isRunning = false) : exec .stallTimerExpiry s = .next s :=
  if_neg (by rw [h]; exact Bool.false_ne_true)

theorem execFeedRunExpiry_runs {s : State} (h : s.pot.feeding = true) (k : s.pot.feedTimer.isRunning = true) :
    exec .feedRunExpiry s = .next
      (settle (occurrence 22 s.pot.level { s with pot := { s.pot with feeding := false, feedTimer := .stopped } })) :=
  if_pos (by rw [h, k]; rfl)

theorem execFeedRunExpiry_none {s : State} (h : s.pot.feeding = false ∨ s.pot.feedTimer.isRunning = false) :
    exec .feedRunExpiry s = .next s :=
  if_neg (by rcases h with h | h <;> simp [h])

theorem moves_stallExpires (s : State) : Moves s (settle (raiseHeld 19 0 (s.withStall .expired))) :=
  (((follows_withStall .expired s).trans (follows_raiseHeld 19 0 _)).trans (follows_settle _)).toMoves

theorem moves_feedExpires (s : State) :
    Moves s (settle (occurrence 22 s.pot.level { s with pot := { s.pot with feeding := false, feedTimer := .stopped } })) :=
  (moves_feeder (fun _ _ => rfl)).trans ((follows_occurrence 22 _ _).trans (follows_settle _)).toMoves

/-! ## The pumps' requests (R89, R90) -/

theorem nextPump_cases (locked allowed : Bool) (request : Option Nat) (settle : Nat) (p : Pump) :
    (locked = true → nextPump locked allowed request settle p = ⟨.locked, 0, 0, .stopped⟩) ∧
    (locked = false → request = none ∨ allowed = false → nextPump locked allowed request settle p =
      ⟨if p.speed = 0 then .down else .lowering, p.speed, request.getD 0, .stopped⟩) ∧
    (∀ t, locked = false → request = some t → allowed = true →
      (p.state = .raising ∨ p.state = .up → p.target = t → nextPump locked allowed request settle p = p) ∧
      ((p.state ≠ .raising ∧ p.state ≠ .up) ∨ p.target ≠ t → nextPump locked allowed request settle p =
        if p.speed ≠ t then ⟨.raising, p.speed, t, .stopped⟩
        else if settle = 0 then ⟨.up, p.speed, t, .stopped⟩ else ⟨.raising, p.speed, t, .running settle⟩)) := by
  refine ⟨fun h => ?_, fun h k => ?_, fun t h hr ha => ?_⟩
  · subst h
    rfl
  · subst h
    exact nextPump_lowers k settle p
  · subst h hr ha
    exact ⟨nextPump_keeps, nextPump_raises⟩

theorem requests_by_mode (s : State) :
    (s.control.mode = .idle → s.mainRequest = none ∧ s.chipRequest = none) ∧
    (s.control.mode = .run →
      s.mainRequest = (s.requestSlot (·.mainWave)).map (fun body => body.mainSpeed * 256 / 255) ∧
      s.chipRequest = (s.requestSlot (·.chipWave)).map (fun body => body.chipSpeed * 256 / 255)) ∧
    (s.control.mode = .service →
      s.mainRequest = (if s.control.service.getLsbD 16 = true then some 256 else none) ∧
      s.chipRequest = (if s.control.service.getLsbD 17 = true then some 256 else none)) := by
  unfold State.mainRequest State.chipRequest State.raiseRequest
  refine ⟨fun h => ?_, fun h => ?_, fun h => ?_⟩ <;> rw [h] <;> exact ⟨rfl, rfl⟩

/-- Settles O31. -/
theorem stallAndFeedRunExpiry : Obligations.StallAndFeedRunExpiry :=
  ⟨fun s h => ⟨_, execStallTimerExpiry_runs h, (moves_stallExpires s).steady, rfl⟩,
    fun _ h => execStallTimerExpiry_stopped h,
    fun s h k => ⟨_, execFeedRunExpiry_runs h k, (moves_feedExpires s).steady, rfl⟩,
    fun _ h => execFeedRunExpiry_none h,
    fun _ _ _ hu hv => potUpdate_eq hu hv,
    fun _ _ _ hu => setMain_eq hu,
    fun _ _ _ hu => setChip_eq hu,
    nextPump_cases,
    lockCondition_iff,
    raiseAllowed_iff,
    fun _ => rfl,
    requests_by_mode,
    fun _ _ => ⟨requestSlot_none, fun _ _ _ hb hz hs hf first => requestSlot_first hb hz hs hf first⟩,
    inContactZone_iff,
    feederAllowed_iff,
    feederForced_iff,
    fun _ => ⟨feederUpdate_starts, feederUpdate_off, feederUpdate_stops, feederUpdate_runs⟩⟩

end Sys2Proof.Machine
end

section
/-! PROOFS. What the entry of an alarm shows in its record, and FRAME_OUTCOME and BUS_STUCK (O41). -/

namespace Sys2Proof.Machine

open Sys2Proof

/-! ## An entry to ACTIVE (R110, R112) -/

/-- What an alarm record shows, its announcements apart, and the causes. -/
def State.shown (s : State) : List (AlarmState × Int) × List Cause :=
  (s.alarms.records.map (fun r => (r.state, r.value)), s.alarms.causes)

theorem record_of_shown {s t : State} (h : t.shown = s.shown) (i : Nat) :
    t.alarmState i = s.alarmState i ∧ (t.record i).value = (s.record i).value ∧ t.cause i = s.cause i := by
  have face (x : State) : (x.alarmState i, (x.record i).value) = x.shown.1.getD i (.quiet, 0) := by
    show _ = (x.alarms.records.map _).getD i ((fun r : AlarmRecord => (r.state, r.value)) AlarmRecord.blank)
    rw [List.getD_eq_getElem?_getD, List.getElem?_map]
    unfold State.alarmState State.record
    rw [List.getD_eq_getElem?_getD]
    cases x.alarms.records[i]? <;> rfl
  have e := (face t).trans ((congrArg (fun x => x.1.getD i (.quiet, 0)) h).trans (face s).symm)
  exact ⟨congrArg Prod.fst e, congrArg Prod.snd e, congrArg (fun x => x.2.getD (i - 16) ⟨false, 0⟩) h⟩

theorem shown_of_alarms {s t : State} (h : t.alarms = s.alarms) : t.shown = s.shown := by
  unfold State.shown
  rw [h]

theorem shown_of_calm {s t : State} (h : t.calm = s.calm) : t.shown = s.shown :=
  shown_of_alarms (congrArg (fun x => x.2.2.2.2.1) h)

theorem shown_ite {s t u : State} (c : Prop) [Decidable c] (h : t.shown = s.shown) (k : u.shown = s.shown) :
    (if c then t else u).shown = s.shown := by
  split
  · exact h
  · exact k

theorem shown_updateRecord {i : Nat} {f : AlarmRecord → AlarmRecord} (h : ∀ r, (f r).state = r.state ∧ (f r).value = r.value)
    (s : State) : (updateRecord i f s).shown = s.shown := by
  refine Prod.ext ?_ rfl
  show (s.alarms.records.modify i f).map _ = s.alarms.records.map _
  refine List.ext_getElem? fun k => ?_
  rw [List.getElem?_map, List.getElem?_modify, List.getElem?_map]
  cases s.alarms.records[k]? with
  | none => rfl
  | some r =>
    by_cases hk : i = k <;> simp [hk, h]

theorem shown_recondition (s : State) : (recondition s).shown = s.shown := by
  have e : (senseTrip s).shown = s.shown := shown_of_alarms (senseTrip_spec s).2.2.2.1
  unfold recondition
  refine shown_ite _ ?_ ?_
  · exact (shown_of_calm ((calm_potUpdate _).trans (calm_sprayUpdate _))).trans e
  · exact (shown_of_calm (calm_setCondition _ _)).trans e

theorem shown_withActivity (l : List Activity) (s : State) : (withActivity l s).shown = s.shown := by
  unfold withActivity
  exact (shown_of_calm (calm_foldl (fun u c => calm_markBoards _ c u) _ _)).trans rfl

theorem shown_addActivity (a : Activity) (s : State) : (addActivity a s).shown = s.shown :=
  shown_ite _ rfl (shown_withActivity _ s)

theorem shown_announce (i : Nat) (s : State) : (announce i s).shown = s.shown := by
  unfold announce
  refine shown_ite _ ?_ (shown_ite _ ?_ ?_)
  · exact shown_updateRecord (by intro _; exact ⟨rfl, rfl⟩) s
  · exact (shown_updateRecord (by intro _; exact ⟨rfl, rfl⟩) _).trans rfl
  · exact shown_updateRecord (by intro _; exact ⟨rfl, rfl⟩) s

/-- After the record has taken ACTIVE and its value, an entry changes no more of what is shown (R112, R113). -/
theorem shown_enterActive (i : Nat) (v : Int) (s : State) : (enterActive i v s).shown =
    (updateRecord i (fun r => { r with state := .active, matchCount := 0, value := v }) s).shown := by
  unfold enterActive
  refine (shown_recondition _).trans ?_
  have h1 : (if s.alarmAction i = .trip then
        firstOutEntry i v (updateRecord i (fun r => { r with state := .active, matchCount := 0, value := v }) s)
      else updateRecord i (fun r => { r with state := .active, matchCount := 0, value := v }) s).shown =
      (updateRecord i (fun r => { r with state := .active, matchCount := 0, value := v }) s).shown :=
    shown_ite _ (shown_ite _ rfl rfl) rfl
  have h2 (u : State) : (if s.ownSetTakes i then addActivity ⟨s.alarmGroup i, s.dir.own, i⟩ u else u).shown = u.shown :=
    shown_ite _ (shown_addActivity _ u) rfl
  have h3 (u : State) : (if s.needsAnnouncing i then announce i u else u).shown = u.shown :=
    shown_ite _ (shown_announce i u) rfl
  have h4 (u : State) : (if s.alarmMark i = 0 then u else markBoards (fun _ => true) (s.alarmMark i) u).shown = u.shown :=
    shown_ite _ rfl (shown_of_calm (calm_markBoards _ _ u))
  exact (h4 _).trans ((h3 _).trans ((h2 _).trans h1))

theorem enterActive_record {i : Nat} {s : State} (h : i < s.alarms.records.length) (v : Int) :
    (enterActive i v s).alarmState i = .active ∧ ((enterActive i v s).record i).value = v ∧
    (enterActive i v s).cause i = s.cause i := by
  obtain ⟨h1, h2, h3⟩ := record_of_shown (shown_enterActive i v s) i
  have e := record_updateRecord i i (fun r => { r with state := .active, matchCount := 0, value := v }) s
  rw [if_pos ⟨rfl, h⟩] at e
  exact ⟨h1.trans (congrArg AlarmRecord.state e), h2.trans (congrArg AlarmRecord.value e), h3⟩

theorem enterActive_cause (i : Nat) (v : Int) (s : State) (k : Nat) : (enterActive i v s).cause k = s.cause k :=
  (record_of_shown (shown_enterActive i v s) k).2.2

/-- A raise of a cause that was released: the cause is raised with its value, and the record of a JOINED station goes from QUIET to
ACTIVE with it (R110, R111). -/
theorem raiseHeld_new {i : Nat} {s : State} (v : Int) (hi : 16 ≤ i) (hl : i < 16 + s.alarms.causes.length)
    (h : (s.cause i).raised = false) :
    (raiseHeld i v s).cause i = ⟨true, recordValue v⟩ ∧
    (s.joined = true → s.alarmState i = .quiet → i < s.alarms.records.length →
      (raiseHeld i v s).alarmState i = .active ∧ ((raiseHeld i v s).record i).value = recordValue v) := by
  generalize hu : updateCause i (fun c => if c.raised then c else ⟨true, recordValue v⟩) s = u
  have e : raiseHeld i v s = takeCause i u := by rw [← hu]; rfl
  have hc : u.cause i = ⟨true, recordValue v⟩ := by
    rw [← hu, cause_updateCause _ _ _ _ hi, if_pos ⟨rfl, hl⟩, h]
    rfl
  rw [e, takeCause_eq, hc]
  refine ⟨?_, fun j q hr => ?_⟩
  · split
    · rw [enterActive_cause, hc]
    · exact hc
  · have ju : u.joined = true := by rw [← hu]; exact j
    have qu : u.alarmState i = .quiet := by rw [← hu]; exact q
    have ru : i < u.alarms.records.length := by rw [← hu]; exact hr
    rw [if_pos ⟨ju, rfl, qu⟩]
    obtain ⟨h1, h2, _⟩ := enterActive_record ru (recordValue v)
    exact ⟨h1, h2⟩

theorem recordValue_small {n : Nat} (h : n < 32768) : recordValue n = n := by
  rw [recordValue_eq]
  have e : (n : Int).emod 65536 = n := Int.emod_eq_of_lt (by omega) (by omega)
  rw [e, if_pos (by omega)]

theorem kind_small (b : TxBody) : b.kind < 32768 := by
  cases b <;> simp [TxBody.kind]

/-! ## What an attempt leaves of the bus (R169) -/

/-- The line bus interface without its transmit queue and the failed-frame count. -/
def State.busRest (s : State) : Bus := { s.bus with queue := [], failed := 0 }

theorem Moves.busRest {s t : State} (h : Moves s t) : t.busRest = s.busRest := h.read State.busRest (fun _ => rfl)

theorem busRest_fields {s t : State} (h : t.busRest = s.busRest) : t.bus.stuck = s.bus.stuck ∧ t.bus.footing = s.bus.footing ∧
    t.bus.stuckCount = s.bus.stuckCount ∧ t.bus.onWire = s.bus.onWire ∧ t.bus.frameStart = s.bus.frameStart ∧
    t.bus.answer = s.bus.answer ∧ t.bus.reservation = s.bus.reservation := by
  unfold State.busRest at h
  simp only [Bus.mk.injEq] at h
  obtain ⟨_, h1, h2, h3, h4, h5, h6, _, _, _, h7⟩ := h
  exact ⟨h4, h3, h7, h1, h2, h5, h6⟩

theorem busRest_handoverCheck (id : Nat) (s : State) : (handoverCheck id s).busRest = s.busRest := by
  unfold handoverCheck
  split
  · split
    · split <;> rfl
    · rfl
  · rfl

theorem busRest_failedKind (f : TxFrame) (s : State) : (failedKind f s).busRest = s.busRest := by
  unfold failedKind
  split
  · exact busRest_handoverCheck _ s
  all_goals rfl

theorem busRest_countAttempt (f : TxFrame) (p : TxPhase) (s : State) : (countAttempt f p s).busRest = s.busRest := by
  unfold countAttempt
  split
  · unfold failFrame
    rw [busRest_failedKind, (follows_raiseHeld 26 _ _).busRest]
    rfl
  · rfl

theorem onBusFrame_stuck {s : State} {f : TxFrame} (r : s.receives = true) (k : s.bus.stuck = false)
    (h : s.onBusFrame = some f) : exec .busStuck s = .next (settle (countAttempt f .waiting { s with bus :=
      { s.bus with stuck := true, footing := false
                   stuckCount := if s.bus.stuckCount < 65535 then s.bus.stuckCount + 1 else 65535
                   onWire := none, frameStart := none, answer := ⟨false, false, false⟩, reservation := none } })) := by
  show execBusStuck s = _
  unfold execBusStuck
  rw [r, k, h]
  rfl

theorem noFrame_stuck {s : State} (r : s.receives = true) (k : s.bus.stuck = false) (h : s.onBusFrame = none) :
    exec .busStuck s = .next { s with bus :=
      { s.bus with stuck := true, footing := false
                   stuckCount := if s.bus.stuckCount < 65535 then s.bus.stuckCount + 1 else 65535
                   onWire := none, frameStart := none, answer := ⟨false, false, false⟩, reservation := none } } := by
  show execBusStuck s = _
  unfold execBusStuck
  rw [r, k, h]
  rfl

theorem execBusStuck_none {s : State} (h : s.receives = false ∨ s.bus.stuck = true) : exec .busStuck s = .next s :=
  if_pos (by rcases h with h | h <;> simp [h])

/-- A stuck bus, with the fields of the bus that neither the counted attempt nor what follows it changes. -/
theorem execBusStuck_own {s : State} {f : TxFrame} (r : s.receives = true) (k : s.bus.stuck = false)
    (h : s.onBusFrame = some f) : ∃ t, exec .busStuck s = .next t ∧
    t = settle (countAttempt f .waiting { s with bus :=
      { s.bus with stuck := true, footing := false
                   stuckCount := if s.bus.stuckCount < 65535 then s.bus.stuckCount + 1 else 65535
                   onWire := none, frameStart := none, answer := ⟨false, false, false⟩, reservation := none } }) ∧
    t.bus.stuck = true ∧ t.bus.footing = false ∧
    t.bus.stuckCount = (if s.bus.stuckCount < 65535 then s.bus.stuckCount + 1 else 65535) ∧
    t.bus.onWire = none ∧ t.bus.frameStart = none ∧ t.bus.answer = ⟨false, false, false⟩ ∧ t.bus.reservation = none := by
  refine ⟨_, onBusFrame_stuck r k h, rfl, ?_⟩
  exact busRest_fields ((follows_settle _).busRest.trans (busRest_countAttempt f .waiting _))

/-! ## Outcomes (R162, R169) -/

theorem execFrameOutcome_others {x : Slots} {s : State} (h : s.bus.frameStart.isSome = true) (k : s.onBusFrame = none)
    (o : x.veto = true ∨ x.busy = true ∨ x.ack = false) : exec (.frameOutcome x) s = .next (endFrame s) := by
  show execFrameOutcome x s = _
  have ends : othersOutcome x = true := by
    unfold othersOutcome
    rcases o with o | o | o <;> simp [o]
  unfold execFrameOutcome
  rw [if_neg (by simpa [Option.isSome_iff_ne_none] using h), k]
  exact if_pos ends

theorem execFrameOutcome_own {x : Slots} {s : State} {f : TxFrame} (h : s.bus.frameStart.isSome = true)
    (k : s.onBusFrame = some f) (o : ownCommits f x = false) :
    exec (.frameOutcome x) s = .next (settle (ownOutcome f x (endFrame s))) := by
  show execFrameOutcome x s = _
  unfold execFrameOutcome
  rw [if_neg (by simpa [Option.isSome_iff_ne_none] using h), k]
  exact if_neg (by rw [o]; exact Bool.false_ne_true)

theorem execFrameOutcome_none {x : Slots} {s : State} (h : s.bus.frameStart = none) : exec (.frameOutcome x) s = .next s :=
  if_pos (by rw [h]; rfl)

theorem ownOutcome_cases (s : State) (f : TxFrame) (x : Slots) :
    (x.veto = true → ownOutcome f x s = countAttempt f .waiting s) ∧
    (x.veto = false → x.busy = true → f.body ≠ .claim →
      ownOutcome f x s = countAttempt f (if s.cfg.busyBackoff = 0 then .waiting else .backoff s.cfg.busyBackoff) s) ∧
    (x.veto = false → x.busy = true → f.body = .claim → s.control.station = .claiming → ownOutcome f x s =
      { s with
        control := { s.control with station := .claimFail }
        dir := { s.dir with claimListen := .stopped }
        bus := { s.bus with queue := [], onWire := none } }) ∧
    (x.veto = false → x.busy = false → ownOutcome f x s = declineFrame f s) := by
  unfold ownOutcome refuseFrame
  refine ⟨fun v => ?_, fun v b c => ?_, fun v b c k => ?_, fun v b => ?_⟩
  · rw [v]; rfl
  · rw [v, b]
    exact if_neg c
  · rw [v, b]
    exact (if_pos c).trans (if_pos k)
  · rw [v, b]; rfl

theorem countAttempt_counts {f : TxFrame} (s : State) (p : TxPhase) (h : f.attempts + 1 < 16) : countAttempt f p s = s.withTx
    (s.bus.queue.map (fun g => if g.phase = .onBus then { g with attempts := g.attempts + 1, phase := p } else g)) :=
  if_neg (by omega)

theorem countAttempt_fails {f : TxFrame} {s u : State} (p : TxPhase) (h : 16 ≤ f.attempts + 1)
    (hu : u = raiseHeld 26 f.body.kind { s with bus :=
      { s.bus with
        queue := s.bus.queue.filter (fun g => g.phase != .onBus)
        failed := if s.bus.failed < 65535 then s.bus.failed + 1 else 65535 } }) :
    countAttempt f p s = failedKind f u := by
  subst hu
  exact if_pos h

theorem declineFrame_eq {f : TxFrame} {s u : State} (hu : u = s.withTx (s.bus.queue.filter (fun g => g.phase != .onBus))) :
    declineFrame f s = declinedKind f u := by
  subst hu
  rfl

theorem setHeld_parts (h : Nat) (s : State) : (setHeld h s).shares = { s.shares with held := h } ∧
    { setHeld h s with shares := s.shares, heater := s.heater } = s := by
  unfold setHeld
  constructor <;> (split <;> rfl)

/-- A DECLINED frame by the rule of its kind (R10, R23, R78, R80). -/
theorem declinedKind_cases (f : TxFrame) (u : State) :
    (∀ id, f.body = .hand id → declinedKind f u = updateBoard id (fun b => { b with heldBack := true }) u) ∧
    (∀ line pos count, f.body = .done line pos count → declinedKind f u = countUnreported u) ∧
    (f.body = .returnShares → declinedKind f u = surrender f.dst u) ∧
    (f.body = .recallShares → declinedKind f u = reclaim f.dst u) ∧
    (f.body.kind ∉ [6, 7, 8, 10] → declinedKind f u = u) := by
  unfold declinedKind
  refine ⟨fun id h => by rw [h], fun line pos count h => by rw [h], fun h => by rw [h], fun h => by rw [h], fun h => ?_⟩
  cases e : f.body <;> simp [e, TxBody.kind] at h ⊢

theorem surrender_parts (peer : Nat) (s : State) :
    (surrender peer s).shares = { s.shares with
      held := s.shares.held - loanOf peer s.shares.borrowed, borrowed := s.shares.borrowed.filter (fun r => r.peer != peer) } ∧
    { surrender peer s with shares := s.shares, heater := s.heater } = s := by
  have e := setHeld_parts (s.shares.held - loanOf peer s.shares.borrowed) (s.withBorrowed (dropLoan peer s.shares.borrowed))
  rw [(reclaim_eq peer s).2]
  exact ⟨e.1, congrArg (fun x : State => { x with shares := s.shares }) e.2⟩

theorem reclaim_parts (peer : Nat) (s : State) :
    (reclaim peer s).shares = { s.shares with
      held := s.shares.held + loanOf peer s.shares.lent, lent := s.shares.lent.filter (fun r => r.peer != peer) } ∧
    { reclaim peer s with shares := s.shares, heater := s.heater } = s := by
  have e := setHeld_parts (s.shares.held + loanOf peer s.shares.lent) (s.withLent (dropLoan peer s.shares.lent))
  rw [(reclaim_eq peer s).1]
  exact ⟨e.1, congrArg (fun x : State => { x with shares := s.shares }) e.2⟩

/-- BUS_DELIVERY carries the code of the kind (R169). -/
theorem raiseHeld_kind {s : State} (f : TxFrame) (hl : 10 < s.alarms.causes.length) (h : (s.cause 26).raised = false) :
    (raiseHeld 26 f.body.kind s).cause 26 = ⟨true, f.body.kind⟩ ∧
    (s.joined = true → s.alarmState 26 = .quiet → 26 < s.alarms.records.length →
      (raiseHeld 26 f.body.kind s).alarmState 26 = .active ∧ ((raiseHeld 26 f.body.kind s).record 26).value = f.body.kind) := by
  have e := raiseHeld_new (i := 26) (f.body.kind : Int) (by omega) (by omega) h
  rwa [recordValue_small (kind_small f.body)] at e

/-- Settles O41. -/
theorem frameOutcomeAndBusStuck : Obligations.FrameOutcomeAndBusStuck := by
  refine ⟨fun _ _ h k o => execFrameOutcome_others h k o, fun _ _ _ h k o => execFrameOutcome_own h k o,
    fun _ _ h => execFrameOutcome_none h, fun _ r k h => noFrame_stuck r k h, fun _ _ r k h => execBusStuck_own r k h,
    fun _ h => execBusStuck_none h, ownOutcome_cases, fun s _ p h => countAttempt_counts s p h, fun s u f p h hu => ?_,
    fun _ f hl h => raiseHeld_kind f hl h, fun s u f hu => ?_, ownCommits_iff, endFrame_eq⟩
  · rw [countAttempt_fails p h hu]
    unfold failedKind
    cases f.body <;> rfl
  · rw [declineFrame_eq hu]
    obtain ⟨hand, done, returns, recalls, others⟩ := declinedKind_cases f u
    refine ⟨hand, done, fun h => ?_, fun h => ?_, others⟩
    · rw [returns h]
      have e := surrender_parts f.dst u
      rw [hu] at e ⊢
      exact e
    · rw [recalls h]
      have e := reclaim_parts f.dst u
      rw [hu] at e ⊢
      exact e

end Sys2Proof.Machine
end

section
/-! PROOFS. The answers in the ACK slot, kind by kind (O38). -/

namespace Sys2Proof.Machine

open Sys2Proof

/-! ## Which answer a frame gets (R159, R161) -/

theorem isPanel_iff (src : Station) : isPanel src.toNat = true ↔ src = 30 ∨ src = 31 := by
  have h : ∀ x : Station, isPanel x.toNat = true ↔ x = 30 ∨ x = 31 := by decide
  exact h src

theorem answerTo_own {f : RawFrame} {s : State} {w : WireFrame} (h : s.bus.onWire = some w) :
    answerTo f s = (⟨false, false, faultyOwn w f⟩, none) := by
  unfold answerTo
  rw [h]
  show (if faultyOwn w f then vetoAnswer else noAnswer, none) = _
  cases faultyOwn w f <;> rfl

theorem answerTo_faulty {f : RawFrame} {s : State} (h : s.bus.onWire = none) (k : faultyFrame f = true) :
    answerTo f s = (⟨false, false, true⟩, none) := by
  unfold answerTo
  rw [h]
  exact if_pos k

theorem answerTo_elsewhere {f : RawFrame} {s : State} (h : s.bus.onWire = none) (k : faultyFrame f = false) (d : f.dst ≠ 0)
    (o : f.dst.toNat ≠ s.dir.own) : answerTo f s = (⟨false, false, false⟩, none) := by
  unfold answerTo
  rw [h, k]
  exact (if_neg d).trans (if_neg o)

theorem answerTo_broadcast {f : RawFrame} {s : State} (h : s.bus.onWire = none) (k : faultyFrame f = false) (d : f.dst = 0) :
    answerTo f s = (broadcastAnswer f.kind.toNat f.src.toNat f.payload s, none) := by
  unfold answerTo
  rw [h, k]
  exact if_pos d

theorem answerTo_asked {f : RawFrame} {s : State} {kind : BitVec 5} (h : s.Asked f kind) :
    answerTo f s = directedAnswer kind.toNat f.src.toNat f.payload s := by
  obtain ⟨wire, sound, directed, own, rfl⟩ := h
  unfold answerTo
  rw [wire, sound]
  exact (if_neg directed).trans (if_pos own)

theorem broadcastAnswer_slots (kind src : Nat) (l : List Byte) (s : State) :
    (broadcastAnswer kind src l s).ack = false ∧ (broadcastAnswer kind src l s).veto = false := by
  unfold broadcastAnswer
  split <;> exact ⟨rfl, rfl⟩

theorem broadcastAnswer_other {kind : Nat} (h : kind ≠ 17) (k : kind ≠ 1) (src : Nat) (l : List Byte) (s : State) :
    broadcastAnswer kind src l s = noAnswer := by
  unfold broadcastAnswer
  split
  · exact absurd rfl h
  · exact absurd rfl k
  · rfl

theorem directedAnswer_other {kind : Nat} (h : kind ∉ [5, 6, 7, 8, 19, 20, 22, 23, 24, 25]) (src : Nat) (l : List Byte)
    (s : State) : directedAnswer kind src l s = (noAnswer, none) := by
  unfold directedAnswer
  split
  case h_11 => rfl
  all_goals exact absurd (by decide) h

theorem answerTo_otherKind {f : RawFrame} {s : State} {kind : BitVec 5} (h : s.Asked f kind)
    (k : kind ∉ [(5 : BitVec 5), 6, 7, 8, 19, 20, 22, 23, 24, 25]) : answerTo f s = (⟨false, false, false⟩, none) := by
  have codes : ∀ x : BitVec 5, x ∉ [(5 : BitVec 5), 6, 7, 8, 19, 20, 22, 23, 24, 25] →
      x.toNat ∉ [5, 6, 7, 8, 19, 20, 22, 23, 24, 25] := by decide
  rw [answerTo_asked h, directedAnswer_other (codes kind k)]
  rfl

/-! ## HAND (R12) -/

theorem noRepeats_iff (l : List (Nat × Nat)) : noRepeats l = true ↔ l.Nodup := by
  induction l with
  | nil => simp [noRepeats]
  | cons p ps ih => simp [noRepeats, ih]

theorem pairwise_range {R : Nat → Nat → Prop} (k : Nat) :
    (List.range k).Pairwise R ↔ ∀ i j, i < j → j < k → R i j := by
  rw [List.pairwise_iff_getElem]
  constructor
  · intro h i j hij hj
    have e := h i j (by rw [List.length_range]; omega) (by rw [List.length_range]; exact hj) hij
    rwa [List.getElem_range, List.getElem_range] at e
  · intro h i j _ hj hij
    rw [List.getElem_range, List.getElem_range]
    rw [List.length_range] at hj
    exact h i j hij hj

theorem pairsAt_nodup (l : List Byte) (k : Nat) : (pairsAt l k).Nodup ↔ ∀ i j, i < j → j < k →
    ¬(byteAt l (11 + 2 * i) = byteAt l (11 + 2 * j) ∧ byteAt l (12 + 2 * i) = byteAt l (12 + 2 * j)) := by
  unfold pairsAt List.Nodup
  rw [List.pairwise_map, pairwise_range]
  simp only [ne_eq, Prod.mk.injEq]

theorem pairsAt_ok (l : List Byte) (k : Nat) : (pairsAt l k).all (fun p => pairOk p.1 p.2) = true ↔ ∀ i, i < k →
    1 ≤ byteAt l (11 + 2 * i) ∧ byteAt l (11 + 2 * i) ≤ 29 ∧
      ((1 ≤ byteAt l (12 + 2 * i) ∧ byteAt l (12 + 2 * i) ≤ 12) ∨
        (16 ≤ byteAt l (12 + 2 * i) ∧ byteAt l (12 + 2 * i) ≤ 63)) := by
  unfold pairsAt
  simp only [List.all_eq_true, List.forall_mem_map, List.mem_range, pairOk_iff]

theorem handInRange_iff (l : List Byte) : handInRange l = true ↔
    l.length = 11 + 2 * byteAt l 10 ∧ halfAt l 0 ≠ 0 ∧ halfAt l 4 ≠ 0 ∧ byteAt l 9 < 8 ∧ byteAt l 10 ≤ 4 ∧
    (∀ i, i < byteAt l 10 → 1 ≤ byteAt l (11 + 2 * i) ∧ byteAt l (11 + 2 * i) ≤ 29 ∧
      ((1 ≤ byteAt l (12 + 2 * i) ∧ byteAt l (12 + 2 * i) ≤ 12) ∨
        (16 ≤ byteAt l (12 + 2 * i) ∧ byteAt l (12 + 2 * i) ≤ 63))) ∧
    (∀ i j, i < j → j < byteAt l 10 →
      ¬(byteAt l (11 + 2 * i) = byteAt l (11 + 2 * j) ∧ byteAt l (12 + 2 * i) = byteAt l (12 + 2 * j))) := by
  unfold handInRange
  simp only [Bool.and_eq_true, beq_iff_eq, bne_iff_ne, decide_eq_true_eq, and_assoc, pairsAt_ok, noRepeats_iff, pairsAt_nodup]
  exact ⟨fun ⟨a, b, c, d, e, r⟩ => ⟨a, b, c, e, d, r⟩, fun ⟨a, b, c, d, e, r⟩ => ⟨a, b, c, e, d, r⟩⟩

theorem handAnswer_none {l : List Byte} {s : State} (h : s.joined = false ∨ handInRange l = false) :
    handAnswer l s = (⟨false, false, false⟩, none) :=
  if_pos (by rcases h with h | h <;> simp [h])

theorem handAnswer_taken {l : List Byte} {s : State} (j : s.joined = true) (r : handInRange l = true) : handAnswer l s =
    if (s.board (halfAt l 0)).isSome = true then (⟨true, false, false⟩, none)
    else if 1 ≤ s.freePlaces then (⟨true, false, false⟩, some .boardPlace) else (⟨false, true, false⟩, none) :=
  if_neg (by simp [j, r])

theorem answer_hand {f : RawFrame} {s : State} (h : s.Asked f 8) :
    (s.joined = false ∨ handInRange f.payload = false → answerTo f s = (⟨false, false, false⟩, none)) ∧
    (s.joined = true → handInRange f.payload = true →
      ((s.board (halfAt f.payload 0)).isSome = true → answerTo f s = (⟨true, false, false⟩, none)) ∧
      (s.board (halfAt f.payload 0) = none → 1 ≤ s.freePlaces →
        answerTo f s = (⟨true, false, false⟩, some .boardPlace)) ∧
      (s.board (halfAt f.payload 0) = none → s.freePlaces = 0 → answerTo f s = (⟨false, true, false⟩, none))) := by
  have e : answerTo f s = handAnswer f.payload s := answerTo_asked h
  rw [e]
  refine ⟨handAnswer_none, fun j r => ?_⟩
  rw [handAnswer_taken j r]
  refine ⟨fun k => if_pos k, fun k p => ?_, fun k p => ?_⟩
  · rw [k]
    exact (if_neg Bool.false_ne_true).trans (if_pos p)
  · rw [k, p]
    rfl

/-! ## ADMIT (R34) -/

theorem findSlot_isNone (n : Nat) (s : State) : (s.findSlot (Slot.isCurrent n)).isNone = true ↔
    ¬∃ sl ∈ s.recipes.slots, sl.state = .current ∧ sl.number = n := by
  unfold State.findSlot
  rw [Option.isNone_iff_eq_none, List.findIdx?_eq_none_iff]
  simp only [Bool.eq_false_iff, ne_eq, (isCurrent_iff n _).1, not_exists, not_and]

/-- What an ADMIT must meet to be answered at all. -/
def State.admitFits (s : State) (f : RawFrame) : Prop :=
  s.joined = true ∧ s.cfg.roles.entry = true ∧ (f.src = 30 ∨ f.src = 31) ∧ f.payload.length = 4 ∧ halfAt f.payload 1 ≠ 0 ∧
    byteAt f.payload 3 ≠ 0 ∧ ∃ sl ∈ s.recipes.slots, sl.state = .current ∧ sl.number = byteAt f.payload 0

theorem admitAnswer_eq (f : RawFrame) (s : State) :
    (s.admitFits f → admitAnswer f.src.toNat f.payload s =
      if 4 ≤ s.tracker.admissions.length then (busyAnswer true, none) else (ackAnswer true, none)) ∧
    (¬s.admitFits f → admitAnswer f.src.toNat f.payload s = (noAnswer, none)) := by
  have first : (!s.joined || !s.cfg.roles.entry || !isPanel f.src.toNat || f.payload.length != 4) = true ↔
      ¬(s.joined = true ∧ s.cfg.roles.entry = true ∧ (f.src = 30 ∨ f.src = 31) ∧ f.payload.length = 4) := by
    rw [← isPanel_iff]
    simp only [Bool.or_eq_true, Bool.not_eq_true', bne_iff_ne, ← Bool.not_eq_true, Classical.not_and_iff_not_or_not, ne_eq,
      or_assoc]
  have second : (halfAt f.payload 1 == 0 || byteAt f.payload 3 == 0 ||
      (s.findSlot (Slot.isCurrent (byteAt f.payload 0))).isNone) = true ↔
      ¬(halfAt f.payload 1 ≠ 0 ∧ byteAt f.payload 3 ≠ 0 ∧
        ∃ sl ∈ s.recipes.slots, sl.state = .current ∧ sl.number = byteAt f.payload 0) := by
    simp only [Bool.or_eq_true, beq_iff_eq, findSlot_isNone, Classical.not_and_iff_not_or_not, Classical.not_not, or_assoc, ne_eq]
  unfold admitAnswer State.admitFits
  constructor
  · rintro ⟨a, b, c, d, e, g, h⟩
    rw [if_neg (fun x => first.1 x ⟨a, b, c, d⟩), if_neg (fun x => second.1 x ⟨e, g, h⟩)]
  · intro h
    by_cases x : s.joined = true ∧ s.cfg.roles.entry = true ∧ (f.src = 30 ∨ f.src = 31) ∧ f.payload.length = 4
    · rw [if_neg (fun y => first.1 y x), if_pos (second.2 fun y => h ⟨x.1, x.2.1, x.2.2.1, x.2.2.2, y⟩)]
    · rw [if_pos (first.2 x)]

theorem answer_admit {f : RawFrame} {s : State} (h : s.Asked f 19) :
    ((answerTo f s).1.ack = true ↔ s.joined = true ∧ s.cfg.roles.entry = true ∧ (f.src = 30 ∨ f.src = 31) ∧
      f.payload.length = 4 ∧ halfAt f.payload 1 ≠ 0 ∧ byteAt f.payload 3 ≠ 0 ∧
      (∃ sl ∈ s.recipes.slots, sl.state = .current ∧ sl.number = byteAt f.payload 0) ∧ s.tracker.admissions.length < 4) ∧
    ((answerTo f s).1.busy = true ↔ s.joined = true ∧ s.cfg.roles.entry = true ∧ (f.src = 30 ∨ f.src = 31) ∧
      f.payload.length = 4 ∧ halfAt f.payload 1 ≠ 0 ∧ byteAt f.payload 3 ≠ 0 ∧
      (∃ sl ∈ s.recipes.slots, sl.state = .current ∧ sl.number = byteAt f.payload 0) ∧ 4 ≤ s.tracker.admissions.length) ∧
    (answerTo f s).1.veto = false ∧ (answerTo f s).2 = none := by
  have e : answerTo f s = admitAnswer f.src.toNat f.payload s := answerTo_asked h
  obtain ⟨fits, unfit⟩ := admitAnswer_eq f s
  rw [e]
  have spelled (p : Prop) : (s.joined = true ∧ s.cfg.roles.entry = true ∧ (f.src = 30 ∨ f.src = 31) ∧
      f.payload.length = 4 ∧ halfAt f.payload 1 ≠ 0 ∧ byteAt f.payload 3 ≠ 0 ∧
      (∃ sl ∈ s.recipes.slots, sl.state = .current ∧ sl.number = byteAt f.payload 0) ∧ p) ↔ s.admitFits f ∧ p := by
    unfold State.admitFits
    simp only [and_assoc]
  rw [spelled, spelled]
  by_cases k : s.admitFits f
  · rw [fits k]
    by_cases a : 4 ≤ s.tracker.admissions.length
    · rw [if_pos a]
      simp [k, a, busyAnswer]
    · rw [if_neg a]
      simp [k, Nat.lt_of_not_le a, ackAnswer]
  · rw [unfit k]
    simp [k, noAnswer]

/-! ## LEND, RETURN, RECALL (R75, R78, R80) -/

/-- What a LEND must meet to be acknowledged. -/
def State.lendFits (s : State) (f : RawFrame) : Prop :=
  s.joined = true ∧ 1 ≤ f.src.toNat ∧ f.src.toNat ≤ 29 ∧ f.payload.length = 2 ∧
    s.shares.state = .seated ∧ s.shares.needTimer.isRunning = true ∧
    (hasLoan f.src.toNat s.shares.borrowed = true ∨ s.shares.borrowed.length < 8) ∧
    s.shares.held + halfAt f.payload 0 ≤ s.cfg.cap ∧ halfAt f.payload 0 ≠ 0

theorem lendAnswer_eq (f : RawFrame) (s : State) :
    (s.lendFits f → lendAnswer f.src.toNat f.payload s =
      (ackAnswer true, if hasLoan f.src.toNat s.shares.borrowed then none else some .borrowedPlace)) ∧
    (¬s.lendFits f → lendAnswer f.src.toNat f.payload s = (noAnswer, none)) := by
  have sender : (!s.joined || !(decide (1 ≤ f.src.toNat) && decide (f.src.toNat ≤ 29)) || f.payload.length != 2) = true ↔
      ¬(s.joined = true ∧ 1 ≤ f.src.toNat ∧ f.src.toNat ≤ 29 ∧ f.payload.length = 2) := by
    simp only [Bool.or_eq_true, Bool.not_eq_true', bne_iff_ne, ← Bool.not_eq_true, Bool.and_eq_true, decide_eq_true_eq,
      Classical.not_and_iff_not_or_not, ne_eq, or_assoc]
  have asks : (!s.seated || !s.needOutstanding) = true ↔
      ¬(s.shares.state = .seated ∧ s.shares.needTimer.isRunning = true) := by
    unfold State.seated State.needOutstanding
    simp only [Bool.or_eq_true, Bool.not_eq_true', beq_eq_false_iff_ne, Classical.not_and_iff_not_or_not, Bool.not_eq_true, ne_eq]
  have place : (!hasLoan f.src.toNat s.shares.borrowed && decide (8 ≤ s.shares.borrowed.length)) = true ↔
      ¬(hasLoan f.src.toNat s.shares.borrowed = true ∨ s.shares.borrowed.length < 8) := by
    simp only [Bool.and_eq_true, Bool.not_eq_true', decide_eq_true_eq, not_or, Bool.not_eq_true, Nat.not_lt]
  have amount : (decide (s.cfg.cap < s.shares.held + halfAt f.payload 0) || halfAt f.payload 0 == 0) = true ↔
      ¬(s.shares.held + halfAt f.payload 0 ≤ s.cfg.cap ∧ halfAt f.payload 0 ≠ 0) := by
    simp only [Bool.or_eq_true, decide_eq_true_eq, beq_iff_eq, Classical.not_and_iff_not_or_not, Nat.not_le, ne_eq, Classical.not_not]
  unfold lendAnswer State.lendFits
  constructor
  · rintro ⟨a, b, c, d, e, g, h, i, j⟩
    rw [if_neg fun x => sender.1 x ⟨a, b, c, d⟩, if_neg fun x => asks.1 x ⟨e, g⟩, if_neg fun x => place.1 x h,
      if_neg fun x => amount.1 x ⟨i, j⟩]
  · intro unfit
    by_cases a : s.joined = true ∧ 1 ≤ f.src.toNat ∧ f.src.toNat ≤ 29 ∧ f.payload.length = 2
    · by_cases b : s.shares.state = .seated ∧ s.shares.needTimer.isRunning = true
      · by_cases c : hasLoan f.src.toNat s.shares.borrowed = true ∨ s.shares.borrowed.length < 8
        · have d : ¬(s.shares.held + halfAt f.payload 0 ≤ s.cfg.cap ∧ halfAt f.payload 0 ≠ 0) := fun d =>
            unfit ⟨a.1, a.2.1, a.2.2.1, a.2.2.2, b.1, b.2, c, d⟩
          rw [if_neg fun x => sender.1 x a, if_neg fun x => asks.1 x b, if_neg fun x => place.1 x c, if_pos (amount.2 d)]
        · rw [if_neg fun x => sender.1 x a, if_neg fun x => asks.1 x b, if_pos (place.2 c)]
      · rw [if_neg fun x => sender.1 x a, if_pos (asks.2 b)]
    · rw [if_pos (sender.2 a)]

theorem answer_lend {f : RawFrame} {s : State} (h : s.Asked f 5) :
    ((answerTo f s).1.ack = true ↔ s.lendFits f) ∧
    (answerTo f s).1.busy = false ∧ (answerTo f s).1.veto = false ∧
    (answerTo f s).2 = if (answerTo f s).1.ack && !hasLoan f.src.toNat s.shares.borrowed then some .borrowedPlace else none := by
  have e : answerTo f s = lendAnswer f.src.toNat f.payload s := answerTo_asked h
  obtain ⟨fits, unfit⟩ := lendAnswer_eq f s
  rw [e]
  by_cases k : s.lendFits f
  · rw [fits k]
    cases hasLoan f.src.toNat s.shares.borrowed <;> simp [k, ackAnswer]
  · rw [unfit k]
    simp [k, noAnswer]

theorem answer_loan {f : RawFrame} {s : State} {kind : BitVec 5} {list : List Loan} (h : s.Asked f kind)
    (k : (kind = 6 ∧ list = s.shares.lent) ∨ (kind = 7 ∧ list = s.shares.borrowed)) :
    ((answerTo f s).1.ack = true ↔ s.joined = true ∧ 1 ≤ f.src.toNat ∧ f.src.toNat ≤ 29 ∧ f.payload.length = 2 ∧
      ∃ r ∈ list, r.peer = f.src.toNat) ∧
    (answerTo f s).1.busy = false ∧ (answerTo f s).1.veto = false ∧ (answerTo f s).2 = none := by
  have e : answerTo f s = loanAnswer f.src.toNat f.payload list s := by
    rw [answerTo_asked h]
    rcases k with ⟨rfl, rfl⟩ | ⟨rfl, rfl⟩ <;> rfl
  rw [e]
  unfold loanAnswer ackAnswer
  simp only [Bool.and_eq_true, decide_eq_true_eq, beq_iff_eq, and_assoc, hasLoan_exists, and_self]

/-! ## ACKNOWLEDGE, WATCH, QUERY (R117, R119, R153) -/

theorem answer_acknowledge {f : RawFrame} {s : State} (h : s.Asked f 20) :
    ((answerTo f s).1.ack = true ↔ s.joined = true ∧ (f.src = 30 ∨ f.src = 31) ∧ f.payload.length = 1) ∧
    (answerTo f s).1.busy = false ∧ (answerTo f s).1.veto = false ∧ (answerTo f s).2 = none := by
  have e : answerTo f s = (ackAnswer (s.joined && isPanel f.src.toNat && f.payload.length == 1), none) := answerTo_asked h
  rw [e]
  unfold ackAnswer
  simp only [Bool.and_eq_true, beq_iff_eq, and_assoc, isPanel_iff, and_self]

/-- A WATCH in range names a quantity, a comparison, a chain and mode byte, a persistence, an action, a group and a mark in
range, or the action 0 (R119). -/
theorem watchInRange_iff (l : List Byte) : watchInRange l = true ↔
    byteAt l 9 = 0 ∨ (byteAt l 9 ≤ 4 ∧ byteAt l 1 < 30 ∧ byteAt l 2 < 2 ∧ byteAt l 7 / 8 % 16 = 0 ∧ 1 ≤ byteAt l 8 ∧
      byteAt l 8 ≤ 15 ∧ byteAt l 10 ≤ 8 ∧ (byteAt l 11 = 0 ∨ (16 ≤ byteAt l 11 ∧ byteAt l 11 ≤ 63))) := by
  unfold watchInRange
  rw [Bool.or_eq_true, beq_iff_eq, watchAt_isSome_iff]
  by_cases z : byteAt l 9 = 0
  · simp [z]
  · have p : 1 ≤ byteAt l 9 := Nat.one_le_iff_ne_zero.2 z
    simp only [z, p, false_or, true_and, Nat.reduceAdd]
    omega

theorem answer_watch {f : RawFrame} {s : State} (h : s.Asked f 22) :
    ((answerTo f s).1.ack = true ↔ s.joined = true ∧ (f.src = 30 ∨ f.src = 31) ∧ f.payload.length = 12 ∧
      byteAt f.payload 0 ≤ 15 ∧ (∀ d, s.watch (byteAt f.payload 0) ≠ .fixed d) ∧
      (byteAt f.payload 9 = 0 ∨ (byteAt f.payload 9 ≤ 4 ∧ byteAt f.payload 1 < 30 ∧ byteAt f.payload 2 < 2 ∧
        byteAt f.payload 7 / 8 % 16 = 0 ∧ 1 ≤ byteAt f.payload 8 ∧ byteAt f.payload 8 ≤ 15 ∧ byteAt f.payload 10 ≤ 8 ∧
        (byteAt f.payload 11 = 0 ∨ (16 ≤ byteAt f.payload 11 ∧ byteAt f.payload 11 ≤ 63))))) ∧
    (answerTo f s).1.busy = false ∧ (answerTo f s).1.veto = false ∧ (answerTo f s).2 = none := by
  have e : answerTo f s = watchAnswer f.src.toNat f.payload s := answerTo_asked h
  rw [e, ← watchInRange_iff, ← isPanel_iff]
  refine ⟨?_, rfl, rfl, rfl⟩
  show (_ && !_) = true ↔ _
  cases s.watch (byteAt f.payload 0) <;> simp [and_assoc]

theorem admits_one (s : State) : s.admits 1 = true ↔ s.txUsed + 5 ≤ 16 := by
  have e : s.admits 1 = decide (5 ≤ 16 - s.txUsed) := rfl
  rw [e, decide_eq_true_eq]
  omega

theorem answer_query {f : RawFrame} {s : State} (h : s.Asked f 23) :
    (¬(s.joined = true ∧ (f.src = 30 ∨ f.src = 31) ∧ f.payload.length = 2 ∧
        queryInRange (byteAt f.payload 0) (byteAt f.payload 1) = true) → answerTo f s = (⟨false, false, false⟩, none)) ∧
    (s.joined = true → (f.src = 30 ∨ f.src = 31) → f.payload.length = 2 →
      queryInRange (byteAt f.payload 0) (byteAt f.payload 1) = true →
      answerTo f s = if s.txUsed + 5 ≤ 16 then (⟨true, false, false⟩, some .txPlace) else (⟨false, true, false⟩, none)) := by
  have e : answerTo f s = queryAnswer f.src.toNat f.payload s := answerTo_asked h
  have asks : (!s.joined || !isPanel f.src.toNat || f.payload.length != 2 ||
      !queryInRange (byteAt f.payload 0) (byteAt f.payload 1)) = true ↔
      ¬(s.joined = true ∧ (f.src = 30 ∨ f.src = 31) ∧ f.payload.length = 2 ∧
        queryInRange (byteAt f.payload 0) (byteAt f.payload 1) = true) := by
    rw [← isPanel_iff]
    simp only [Bool.or_eq_true, Bool.not_eq_true', bne_iff_ne, ← Bool.not_eq_true, Classical.not_and_iff_not_or_not, ne_eq,
      or_assoc]
  rw [e]
  unfold queryAnswer
  refine ⟨fun k => if_pos (asks.2 k), fun j p l q => ?_⟩
  rw [if_neg fun x => asks.1 x ⟨j, p, l, q⟩]
  exact ite_congr (propext (admits_one s)) (fun _ => rfl) (fun _ => rfl)

theorem queryInRange_iff (code item : Nat) : queryInRange code item = true ↔
    code = 1 ∨ (code = 2 ∧ 1 ≤ item ∧ item ≤ 31) ∨ ((code = 3 ∨ code = 4 ∨ code = 5) ∧ item ≤ 7) ∨
      (code = 6 ∧ item ≤ 15) ∨ code = 7 ∨ code = 8 ∨ (code = 9 ∧ item ≤ 1) ∨ (code = 10 ∧ 1 ≤ item ∧ item ≤ 8) := by
  unfold queryInRange
  split <;> simp_all

/-! ## Broadcasts: RECIPE and CLAIM (R30, R178) -/

theorem someSlotFree_not (s : State) : (!s.someSlotFree) = true ↔ ∀ sl ∈ s.recipes.slots, sl.state ≠ .free := by
  unfold State.someSlotFree
  simp

theorem slotInUse_iff (s : State) (cur : Slot) : s.slotInUse cur = true ↔
    0 < cur.refs ∨ (s.cfg.roles.entry = true ∧ cur.isDefault = true) := by
  unfold State.slotInUse
  simp

theorem posted_iff (s : State) (n v : Nat) : s.recipes.slots.any (Slot.holdsVersion n v) = true ↔
    ∃ sl ∈ s.recipes.slots, sl.state ≠ .free ∧ sl.number = n ∧ sl.version = v := by
  unfold Slot.holdsVersion Slot.holds
  simp [and_assoc]

/-- BUSY for a RECIPE in range: its version is not posted, and there is no place for it, or it would be a third version (R30). -/
theorem recipeBusy_iff (s : State) (n v : Nat) : s.recipeBusy n v = true ↔
    (∀ sl ∈ s.recipes.slots, ¬(sl.state ≠ .free ∧ sl.number = n ∧ sl.version = v)) ∧
    ((s.recipes.slots.find? (Slot.isCurrent n) = none ∧
        (2 ≤ (s.recipes.slots.filter (Slot.isRetiring n)).length ∨ ∀ sl ∈ s.recipes.slots, sl.state ≠ .free)) ∨
      ∃ cur, s.recipes.slots.find? (Slot.isCurrent n) = some cur ∧
        (0 < cur.refs ∨ (s.cfg.roles.entry = true ∧ cur.isDefault = true)) ∧
        (1 ≤ (s.recipes.slots.filter (Slot.isRetiring n)).length ∨ ∀ sl ∈ s.recipes.slots, sl.state ≠ .free)) := by
  have posted : (∀ sl ∈ s.recipes.slots, ¬(sl.state ≠ .free ∧ sl.number = n ∧ sl.version = v)) ↔
      ¬s.recipes.slots.any (Slot.holdsVersion n v) = true := by
    rw [posted_iff]
    simp only [not_exists, not_and]
  rw [posted]
  simp only [← slotInUse_iff, ← someSlotFree_not]
  unfold State.recipeBusy State.recipeCase
  by_cases h : s.recipes.slots.any (Slot.holdsVersion n v) = true
  · simp [h]
  · rw [if_neg h]
    generalize (s.recipes.slots.filter (Slot.isRetiring n)).length = k
    cases s.recipes.slots.find? (Slot.isCurrent n) with
    | none =>
      match k with
      | 0 | 1 | k + 2 => simp [h]
    | some cur =>
      match k with
      | 0 | k + 1 => cases u : s.slotInUse cur <;> simp [h, u]

theorem answer_recipe {f : RawFrame} {s : State} (w : s.bus.onWire = none) (k : faultyFrame f = false) (d : f.dst = 0)
    (h : f.kind = 17) : (answerTo f s).1.busy = true ↔ s.joined = true ∧ (f.src = 30 ∨ f.src = 31) ∧ f.payload.length = 28 ∧
      recipeInRange (byteAt f.payload 0) (byteAt f.payload 2) (byteAt f.payload 23) (byteAt f.payload 24) = true ∧
      s.recipeBusy (byteAt f.payload 0) (byteAt f.payload 1) = true := by
  rw [answerTo_broadcast w k d, h]
  show (_ && _ && recipeInRangeAt f.payload && _) = true ↔ _
  unfold recipeInRangeAt
  simp only [Bool.and_eq_true, beq_iff_eq, and_assoc, isPanel_iff]

theorem answer_claim {f : RawFrame} {s : State} (w : s.bus.onWire = none) (k : faultyFrame f = false) (d : f.dst = 0)
    (h : f.kind = 1) : (answerTo f s).1.busy = true ↔ s.joined = true ∧ f.payload.length = 14 ∧ 1 ≤ byteAt f.payload 6 ∧
      byteAt f.payload 6 ≤ 29 ∧ byteAt f.payload 6 = s.dir.own ∧ uidAt f.payload 0 ≠ s.uid.toNat := by
  rw [answerTo_broadcast w k d, h]
  show s.defends f.payload = true ↔ _
  unfold State.defends
  simp only [Bool.and_eq_true, beq_iff_eq, bne_iff_ne, decide_eq_true_eq, and_assoc]

theorem recipeInRange_iff (number flags pulse pitch : Nat) : recipeInRange number flags pulse pitch = true ↔
    number ≠ 0 ∧ flags < 8 ∧ 1 ≤ pulse ∧ pulse ≤ 50 ∧ pitch ≠ 0 := by
  unfold recipeInRange
  simp only [Bool.and_eq_true, bne_iff_ne, decide_eq_true_eq, and_assoc]

theorem answer_otherBroadcast {f : RawFrame} {s : State} (w : s.bus.onWire = none) (k : faultyFrame f = false) (d : f.dst = 0)
    (h : f.kind ≠ 17) (h1 : f.kind ≠ 1) : answerTo f s = (⟨false, false, false⟩, none) := by
  rw [answerTo_broadcast w k d, broadcastAnswer_other (fun e => h (BitVec.eq_of_toNat_eq e)) (fun e => h1 (BitVec.eq_of_toNat_eq e))]
  rfl

/-- Settles O38. -/
theorem theAckSlotAnswers : Obligations.TheAckSlotAnswers := by
  refine ⟨fun _ _ h => if_pos h, fun _ _ h => if_neg (by rw [h]; exact Bool.false_ne_true), fun _ _ => answerTo_faulty,
    fun _ _ _ => answerTo_own, fun _ _ => answerTo_elsewhere, fun f s w k d => ?_, fun _ _ => answer_hand, handInRange_iff,
    fun _ _ => answer_admit, fun _ _ => answer_lend, fun _ _ _ _ => answer_loan, fun _ _ => answer_acknowledge,
    fun _ _ => answer_watch, fun _ _ => answer_query, queryInRange_iff, fun _ _ _ => answerTo_otherKind,
    fun f s w k d h => ?_, recipeInRange_iff, fun _ _ => answer_claim, fun _ _ => answer_otherBroadcast, faultyFrame_iff,
    faultyOwn_iff, frameCheck_eq, uidAt_eq⟩
  · rw [answerTo_broadcast w k d]
    exact ⟨(broadcastAnswer_slots _ _ _ s).1, (broadcastAnswer_slots _ _ _ s).2, rfl⟩
  · rw [answer_recipe w k d h, recipeBusy_iff]

end Sys2Proof.Machine
end

section
/-! PROOFS. The position event, check by check, and one due dot (O21). -/

namespace Sys2Proof.Machine

open Sys2Proof

/-! ## A change of one record, seen in that record -/

theorem board_addMark {s : State} {id : Nat} {b : Board} (code : Nat) (h : s.board id = some b) :
    ∃ line, (addMark id code s).board id = some { b with line := line } ∧
      (s.inWindow b = true → (⟨s.dir.own, code⟩ : Mark) ∈ line.marks ∨ line.markOverflow = true) := by
  rw [addMark_eq code h]
  by_cases k : s.inWindow b = true ∧ (⟨s.dir.own, code⟩ : Mark) ∉ b.line.marks
  · rw [if_pos k, queueOrDrop_board]
    have e := board_updateBoard_same (f := fun x => { x with line := addPair ⟨s.dir.own, code⟩ x.line })
      (fun x => addPair_id _ x.line) h
    refine ⟨_, e, fun _ => ?_⟩
    rw [addPair_eq, if_neg k.2]
    split
    · exact .inl (List.mem_append_right _ (List.mem_singleton_self _))
    · exact .inr rfl
  · rw [if_neg k]
    exact ⟨b.line, h, fun w => .inl (Classical.not_not.1 fun m => k ⟨w, m⟩)⟩

theorem spray_addMark (id code : Nat) (s : State) : (addMark id code s).spray = s.spray := by
  unfold addMark queueOrDrop
  (repeat' split) <;> rfl

theorem spray_markNotFluxed (id : Nat) (s : State) : (markNotFluxed id s).spray = s.spray := by
  cases h : s.board id with
  | none => rw [markNotFluxed_none h]
  | some b =>
    rw [markNotFluxed_eq h]
    split
    · rfl
    · exact spray_addMark id 1 s

/-- NOT_FLUXED for a record: the flag stands, and where it is new the mark is added in the window (R41, R19). -/
theorem board_markNotFluxed {s : State} {id : Nat} {b : Board} (h : s.board id = some b) :
    ∃ line, (markNotFluxed id s).board id = some { b with line := line, notFluxed := true } ∧
      (b.notFluxed = true → line = b.line) ∧
      (b.notFluxed = false → s.inWindow b = true → (⟨s.dir.own, 1⟩ : Mark) ∈ line.marks ∨ line.markOverflow = true) := by
  rw [markNotFluxed_eq h]
  cases k : b.notFluxed with
  | true => exact ⟨b.line, by rw [if_pos rfl, h, ← k], fun _ => rfl, fun e => Bool.noConfusion e⟩
  | false =>
    obtain ⟨line, e, m⟩ := board_addMark 1 h
    exact ⟨line, board_updateBoard_same (f := fun x => { x with notFluxed := true }) (fun _ => rfl) e,
      fun k => Bool.noConfusion k, fun _ => m⟩

/-! ## One due dot (R41) -/

/-- What case 1, 2 or 3 of R41 does before the dot is counted as handled. -/
def State.dotTaken (s : State) (id : Nat) (b : Board) : State :=
  match s.slotOf b with
  | none => markNotFluxed id s
  | some sl =>
    if s.stationInhibit then markNotFluxed id s
    else if s.spray.oneShots.any Option.isSome then updateBoard id (fun b => { b with dotsSkipped := bump b.dotsSkipped }) s
    else fireDot id b sl.body s

theorem handleDot_eq {s : State} {id : Nat} {b : Board} (k : Nat) (h : s.board id = some b) :
    handleDot id k s = advanceDot id k (s.dotTaken id b) := by
  unfold handleDot
  rw [h]
  rfl

theorem dotTaken_inhibited {s : State} {id : Nat} {b : Board} (h : s.slotOf b = none ∨ s.stationInhibit = true) :
    s.dotTaken id b = markNotFluxed id s := by
  unfold State.dotTaken
  rcases h with h | h
  · rw [h]
  · cases s.slotOf b with
    | none => rfl
    | some sl => exact if_pos h

theorem dotTaken_skipped {s : State} {id : Nat} {b : Board} {sl : Slot} (h : s.slotOf b = some sl) (hi : s.stationInhibit = false)
    (ho : s.spray.oneShots.any Option.isSome = true) :
    s.dotTaken id b = updateBoard id (fun b => { b with dotsSkipped := bump b.dotsSkipped }) s := by
  unfold State.dotTaken
  rw [h]
  show (if s.stationInhibit = true then _ else _) = _
  rw [if_neg (Bool.eq_false_iff.1 hi), if_pos ho]

theorem dotTaken_fired {s : State} {id : Nat} {b : Board} {sl : Slot} (h : s.slotOf b = some sl) (hi : s.stationInhibit = false)
    (ho : s.spray.oneShots.any Option.isSome = false) : s.dotTaken id b = fireDot id b sl.body s := by
  unfold State.dotTaken
  rw [h]
  show (if s.stationInhibit = true then _ else _) = _
  rw [if_neg (Bool.eq_false_iff.1 hi), if_neg (Bool.eq_false_iff.1 ho)]

theorem board_fireDot {s : State} {id : Nat} {b : Board} (body : RecipeBody) (h : s.board id = some b) :
    (fireDot id b body s).board id = some { b with dotsFired := bump b.dotsFired } := by
  unfold fireDot
  refine board_updateBoard_same (f := fun b => { b with dotsFired := bump b.dotsFired }) (fun _ => rfl) ?_
  split <;> exact h

theorem spray_fireDot (s : State) (id : Nat) (b : Board) (body : RecipeBody) :
    (fireDot id b body s).spray.oneShots = s.spray.oneShots.mapIdx (fun n o =>
      if (s.selected body).contains n then some (.board id) else o) ∧
    (fireDot id b body s).spray.counting = if b.dotsFired = 0 then some id else s.spray.counting := by
  unfold fireDot
  by_cases z : b.dotsFired = 0
  · simp only [if_pos z]
    exact ⟨rfl, rfl⟩
  · simp only [if_neg z]
    exact ⟨rfl, rfl⟩

theorem board_advanceDot {s : State} {id : Nat} {b : Board} (k : Nat) (h : s.board id = some b) :
    (advanceDot id k s).board id = some { b with nextDot := k + 1, phase := .spraying } :=
  board_updateBoard_same (f := fun b => { b with nextDot := k + 1, phase := .spraying }) (fun _ => rfl) h

/-- A due dot is inhibited, skipped or fired, and is then counted as handled (R40, R41). -/
theorem handleDot_cases (s : State) (id k : Nat) (b : Board) (h : s.board id = some b) :
    ∃ x, (handleDot id k s).board id = some x ∧ x.nextDot = k + 1 ∧ x.phase = .spraying ∧
      (s.slotOf b = none ∨ s.stationInhibit = true →
        (handleDot id k s).spray = s.spray ∧ x.notFluxed = true ∧ x.dotsFired = b.dotsFired ∧ x.dotsSkipped = b.dotsSkipped ∧
          (b.notFluxed = true → x.line = b.line) ∧
          (b.notFluxed = false → s.inWindow b = true →
            (⟨s.dir.own, 1⟩ : Mark) ∈ x.line.marks ∨ x.line.markOverflow = true)) ∧
      (∀ sl, s.slotOf b = some sl → s.stationInhibit = false →
        (s.spray.oneShots.any Option.isSome = true →
          (handleDot id k s).spray = s.spray ∧ x.dotsFired = b.dotsFired ∧ x.dotsSkipped = bump b.dotsSkipped ∧
            x.notFluxed = b.notFluxed) ∧
        (s.spray.oneShots.any Option.isSome = false →
          (handleDot id k s).spray.oneShots = s.spray.oneShots.mapIdx (fun n o =>
            if (s.selected sl.body).contains n then some (.board id) else o) ∧
          (handleDot id k s).spray.counting = (if b.dotsFired = 0 then some id else s.spray.counting) ∧
          x.dotsFired = bump b.dotsFired ∧ x.dotsSkipped = b.dotsSkipped ∧ x.notFluxed = b.notFluxed)) := by
  rw [handleDot_eq k h]
  have spray (u : State) : (advanceDot id k u).spray = u.spray := rfl
  simp only [spray]
  by_cases c : s.slotOf b = none ∨ s.stationInhibit = true
  · obtain ⟨line, e, old, new⟩ := board_markNotFluxed h
    rw [dotTaken_inhibited c]
    refine ⟨_, board_advanceDot k e, rfl, rfl, fun _ => ⟨spray_markNotFluxed id s, rfl, rfl, rfl, old, new⟩, fun sl hs hi => ?_⟩
    rcases c with c | c
    · cases c.symm.trans hs
    · cases c.symm.trans hi
  · obtain ⟨hn, hi⟩ := not_or.1 c
    obtain ⟨sl, hs⟩ := Option.ne_none_iff_exists'.1 hn
    have hi : s.stationInhibit = false := Bool.eq_false_iff.2 hi
    cases ho : s.spray.oneShots.any Option.isSome with
    | true =>
      rw [dotTaken_skipped hs hi ho]
      refine ⟨_, board_advanceDot k (board_updateBoard_same (f := fun b => { b with dotsSkipped := bump b.dotsSkipped })
        (fun _ => rfl) h), rfl, rfl, fun k => absurd k c, fun _ _ _ => ⟨fun _ => ⟨rfl, rfl, rfl, rfl⟩, fun k => Bool.noConfusion k⟩⟩
    | false =>
      rw [dotTaken_fired hs hi ho]
      obtain ⟨shots, counting⟩ := spray_fireDot s id b sl.body
      refine ⟨_, board_advanceDot k (board_fireDot sl.body h), rfl, rfl, fun k => absurd k c, fun sl' hs' _ =>
        ⟨fun k => Bool.noConfusion k, fun _ => ?_⟩⟩
      cases hs.symm.trans hs'
      exact ⟨shots, counting, rfl, rfl, rfl⟩

/-! ## The checks of a position event (R5) -/

theorem positionEvents_eq {ids : List Nat} {s s1 s2 s3 : State} (h : ids ≠ [])
    (h1 : s1 = ids.foldl (fun s id => noRecipeMark id s) (ids.foldl (fun s id => missingCheck id s) s))
    (h2 : s2 = ids.foldl (fun s id => contactCheck id s) (ids.foldl (fun s id => sprayEnd id s) (sprayRecords ids s1)))
    (h3 : s3 = ids.foldl (fun s id => releaseCheck id s)
      (ids.foldl (fun s id => handoverCheck id s) (ids.foldl (fun s id => standingMarks id s) s2))) :
    positionEvents ids s = workRequests s3 := by
  subst h1 h2 h3
  show (if ids.isEmpty = true then _ else _) = _
  rw [if_neg (mt List.isEmpty_iff.1 h)]
  rfl

theorem sprayDots_eq {s : State} {id : Nat} {b : Board} (h : s.board id = some b) :
    sprayDots id s = (s.dueDots b).foldl (fun s k => handleDot id k s) s := by
  unfold sprayDots
  rw [h]

theorem sprayEnd_over {s : State} {id : Nat} {b : Board} (h : s.board id = some b) (hf : s.cfg.roles.flux = true)
    (hp : b.phase = .waiting ∨ b.phase = .spraying)
    (hs : ∀ sl, s.slotOf b = some sl → s.cfg.sprayPos + b.line.length < s.pos b + 10 * sl.body.margin)
    (hn : s.slotOf b = none → 1 ≤ b.nextDot) :
    sprayEnd id s = flowCheck id (updateBoard id (fun b => { b with phase := .ended }) s) := by
  rw [sprayEnd_eq h, if_pos ((sprayOver_iff s b).2 ⟨hf, hp, hs, hn⟩)]

theorem sprayEnd_goesOn {s : State} {id : Nat} {b : Board} (h : s.board id = some b)
    (hn : s.cfg.roles.flux = false ∨ (b.phase ≠ .waiting ∧ b.phase ≠ .spraying) ∨
      (∃ sl, s.slotOf b = some sl ∧ s.pos b + 10 * sl.body.margin ≤ s.cfg.sprayPos + b.line.length) ∨
      (s.slotOf b = none ∧ b.nextDot = 0)) : sprayEnd id s = s := by
  rw [sprayEnd_eq h, if_neg]
  intro k
  obtain ⟨flux, phase, bound, unbound⟩ := (sprayOver_iff s b).1 k
  rcases hn with n | ⟨w, p⟩ | ⟨sl, hs, le⟩ | ⟨hs, z⟩
  · cases n.symm.trans flux
  · exact phase.elim w p
  · exact absurd (bound sl hs) (Nat.not_lt.2 le)
  · exact absurd (unbound hs) (by omega)

theorem contactCheck_wave {s : State} {id : Nat} {b : Board} (h : s.board id = some b) (hp : s.cfg.roles.pot = true)
    (hw : b.waveContact = false) (hl : s.cfg.wavePos ≤ s.pos b) : contactCheck id s =
      if ∃ sl ∈ s.slotOf b, (sl.body.mainWave = true ∧ s.pot.main.state ≠ .up) ∨
          (sl.body.chipWave = true ∧ s.pot.chip.state ≠ .up) then
        addMark id 5 (updateBoard id (fun b => { b with waveContact := true }) s)
      else updateBoard id (fun b => { b with waveContact := true }) s := by
  rw [contactCheck_eq h hp hw hl]
  exact ite_congr (propext (waveMissing_iff s b)) (fun _ => rfl) (fun _ => rfl)

theorem releaseCheck_eq {s : State} {id : Nat} {b : Board} (h : s.board id = some b) :
    releaseCheck id s = if s.cfg.winEnd + b.line.length < s.pos b then releaseBoard b s else s := by
  unfold releaseCheck
  rw [h]

/-! ## A release (R22, R23) -/

theorem panel_beforeReport (b : Board) (s : State) : (beforeReport b s).panel = s.panel := by
  obtain ⟨_, dir, _⟩ := beforeReport_keeps b s
  exact panel_of_dir dir

theorem admits_beforeReport (b : Board) (s : State) (c : Nat) :
    (beforeReport b s).admits c = (s.withTx (releasedQueue b.line.id s)).admits c := by
  obtain ⟨bus, _⟩ := beforeReport_keeps b s
  exact admits_of_bus bus c

theorem beforeReport_parts (b : Board) (s : State) : (beforeReport b s).bus.queue = releasedQueue b.line.id s ∧
    (beforeReport b s).tracker.unreported = s.tracker.unreported := by
  obtain ⟨bus, _, tracker, _⟩ := beforeReport_keeps b s
  rw [bus, tracker]
  exact ⟨rfl, rfl⟩

/-- What a release makes of the queues, the slots and the unreported count (R22, R23). -/
theorem releaseBoard_parts (s : State) (b : Board) (q : List TxFrame)
    (hq : q = s.bus.queue.filter (fun f => f.phase == .onBus || !(f.body == .hand b.line.id || f.body == .amendPosition b.line.id))) :
    (releaseBoard b s).tracker.queue = s.tracker.queue.filter (fun x => x.line.id != b.line.id) ∧
    (releaseBoard b s).tracker.underEye = (if s.tracker.underEye = some b.line.id then none else s.tracker.underEye) ∧
    (releaseBoard b s).recipes.slots = (match b.slot with
      | some i => s.recipes.slots.modify i (fun sl =>
          if sl.state = .retiring ∧ sl.refs - 1 = 0 then .blank else { sl with refs := sl.refs - 1 })
      | none => s.recipes.slots) ∧
    (b.handed.isSome = true → (releaseBoard b s).bus.queue = q ∧
      (releaseBoard b s).tracker.unreported = s.tracker.unreported) ∧
    (∀ p, b.handed = none → s.panel = some p → (s.withTx q).admits 1 = true →
      (releaseBoard b s).bus.queue = q ++ [newFrame 1 p (.done b.line b.anchorPos b.anchorCount)] ∧
      (releaseBoard b s).tracker.unreported = s.tracker.unreported) ∧
    (b.handed = none → s.panel = none ∨ (s.withTx q).admits 1 = false → (releaseBoard b s).bus.queue = q ∧
      (releaseBoard b s).tracker.unreported =
        if s.tracker.unreported < 65535 then s.tracker.unreported + 1 else 65535) := by
  subst hq
  obtain ⟨tracker, bus, slots⟩ := releaseBoard_tracker b s
  obtain ⟨queue, eye, recipes⟩ := reportBoard_keeps b (beforeReport b s)
  obtain ⟨_, _, before, beforeSlots⟩ := beforeReport_keeps b s
  obtain ⟨frames, unreported⟩ := beforeReport_parts b s
  rw [tracker, bus, slots, queue, eye, recipes, before]
  refine ⟨rfl, rfl, beforeSlots, fun hh => ?_, fun p hh hp ha => ?_, fun hh hp => ?_⟩
  · rw [reportBoard_handed hh]
    exact ⟨frames, unreported⟩
  · rw [reportBoard_done hh ((panel_beforeReport b s).trans hp) ((admits_beforeReport b s 1).trans ha)]
    exact ⟨congrArg (· ++ _) frames, unreported⟩
  · rw [reportBoard_unreported hh (hp.imp (panel_beforeReport b s).trans (admits_beforeReport b s 1).trans)]
    exact ⟨frames, congrArg bump unreported⟩

/-- Settles O21: each clause is the equation of one check. -/
theorem positionEventsAndDueDots : Obligations.PositionEventsAndDueDots := by
  refine ⟨fun forward s u hu => ?_, fun s => ⟨stallCounted_active, stallCounted_inactive⟩, fun _ => rfl,
    fun s u b => mem_movedBoards s u b.line.id, positionEvents_nil, fun _ _ _ _ _ => positionEvents_eq, sprayRecords_order,
    fun s id b h => ⟨sprayDots_eq h, dueDots_rise s b⟩,
    fun s b => ⟨dueDots_none, fun hf hp => ⟨fun k sl => mem_dueDots hf hp, fun k => mem_dueDots_unbound hf hp⟩⟩,
    fun s id eye b => missingCheck_eq, fun s id => missingCheck_blind, fun s id b h => ⟨sprayEnd_over h, sprayEnd_goesOn h⟩,
    fun s id b h => ⟨contactCheck_wave h, contactCheck_none h⟩, fun s id dest start b => handoverCheck_eq,
    fun s id => handoverCheck_alone, fun s id b => releaseCheck_eq, releaseBoard_parts,
    fun s b => ⟨releaseBoard_spray b s, releaseBoard_holdOver b s⟩, fun s => ⟨governing_empty, fun b rest => governing_head⟩,
    fun s b slot => joinQueue_eq, resolve_eq, insertByPos_splits, fun s id b => noRecipeMark_eq, standingMarks_eq, mem_alarmMarks,
    stationInhibit_iff, inWindow_iff, panel_cases, handleDot_cases⟩
  subst hu
  rfl

end Sys2Proof.Machine
end

section
/-! PROOFS. What becomes of the board records: `Bears s t` where every record stays, `Sheds s t` where a release check may also have
taken some. -/

namespace Sys2Proof.Machine

open Sys2Proof

/-! ## One record -/

/-- What of a record the checks of an event leave as it is: the line record without its marks, the anchor, HANDED, the
confirmation, and the admitted length. -/
def boardCore (b : Board) : LineRecord × Nat × BitVec 32 × Option Nat × Bool × Option Nat :=
  ({ b.line with marks := [], markOverflow := false }, b.anchorPos, b.anchorCount, b.handed, b.confirmed, b.admitted)

/-- `x` is the record `b` later in the same event: its core is the same, its marks stand, and new ones may follow (R19). -/
structure Board.Grows (b x : Board) : Prop where
  core     : boardCore x = boardCore b
  marks    : b.line.marks <+: x.line.marks
  overflow : b.line.markOverflow = true → x.line.markOverflow = true

theorem Board.Grows.refl (b : Board) : b.Grows b := ⟨rfl, List.prefix_rfl, id⟩

theorem Board.Grows.trans {b x y : Board} (h : b.Grows x) (k : x.Grows y) : b.Grows y :=
  ⟨k.core.trans h.core, h.marks.trans k.marks, fun o => k.overflow (h.overflow o)⟩

theorem Board.Grows.fields {b x : Board} (h : b.Grows x) : x.line.id = b.line.id ∧ x.line.recipe = b.line.recipe ∧
    x.line.version = b.line.version ∧ x.line.length = b.line.length ∧ x.line.unannounced = b.line.unannounced ∧
    x.line.lengthFinal = b.line.lengthFinal ∧ x.anchorPos = b.anchorPos ∧ x.anchorCount = b.anchorCount ∧
    x.handed = b.handed ∧ x.confirmed = b.confirmed ∧ x.admitted = b.admitted := by
  have core := h.core
  simp only [boardCore, Prod.mk.injEq, LineRecord.mk.injEq] at core
  obtain ⟨⟨id, recipe, version, length, unannounced, lengthFinal, _⟩, anchorPos, anchorCount, handed, confirmed, admitted⟩ := core
  exact ⟨id, recipe, version, length, unannounced, lengthFinal, anchorPos, anchorCount, handed, confirmed, admitted⟩

theorem Board.Grows.id_eq {b x : Board} (h : b.Grows x) : x.line.id = b.line.id := by
  obtain ⟨e, _⟩ := h.fields
  exact e

/-- A pair joins the marks behind the others, or MARK_OVERFLOW stands (R19). -/
theorem addPair_grows (m : Mark) (b : Board) : b.Grows { b with line := addPair m b.line } := by
  rw [addPair_eq]
  split
  · exact .refl b
  · split
    · exact ⟨rfl, List.prefix_append _ _, id⟩
    · exact ⟨rfl, List.prefix_rfl, fun _ => rfl⟩

/-! ## Every record stays -/

/-- The board tracker without its records and the stall timer. -/
def State.shelf (s : State) : Tracker := { s.tracker with queue := [], stall := .stopped }

/-- The records of `m` are those of `l` in their places, later in the same event. -/
inductive Grown : List Board → List Board → Prop where
  | nil : Grown [] []
  | cons {b x : Board} {l m : List Board} (head : b.Grows x) (tail : Grown l m) : Grown (b :: l) (x :: m)

theorem Grown.refl (l : List Board) : Grown l l := by
  induction l with
  | nil => exact .nil
  | cons b _ ih => exact .cons (.refl b) ih

theorem Grown.map {f : Board → Board} (h : ∀ b : Board, b.Grows (f b)) (l : List Board) : Grown l (l.map f) := by
  induction l with
  | nil => exact .nil
  | cons b _ ih => exact .cons (h b) ih

theorem Grown.trans {l m n : List Board} (h : Grown l m) (k : Grown m n) : Grown l n := by
  induction h generalizing n with
  | nil => exact k
  | cons e _ ih =>
    cases k with
    | cons e' k' => exact .cons (e.trans e') (ih k')

theorem Grown.length_eq {l m : List Board} (h : Grown l m) : m.length = l.length := by
  induction h with
  | nil => rfl
  | cons _ _ ih => rw [List.length_cons, List.length_cons, ih]

theorem Grown.ids {l m : List Board} (h : Grown l m) : m.map (fun b => b.line.id) = l.map (fun b => b.line.id) := by
  induction h with
  | nil => rfl
  | cons e _ ih => rw [List.map_cons, List.map_cons, ih, e.id_eq]

theorem Grown.mem_right {l m : List Board} (h : Grown l m) {x : Board} (hx : x ∈ m) : ∃ b ∈ l, b.Grows x := by
  induction h with
  | nil => cases hx
  | cons e _ ih =>
    rcases List.mem_cons.1 hx with rfl | hx
    · exact ⟨_, List.mem_cons_self .., e⟩
    · obtain ⟨b, hb, g⟩ := ih hx
      exact ⟨b, List.mem_cons_of_mem _ hb, g⟩

theorem Grown.mem_left {l m : List Board} (h : Grown l m) {b : Board} (hb : b ∈ l) : ∃ x ∈ m, b.Grows x := by
  induction h with
  | nil => cases hb
  | cons e _ ih =>
    rcases List.mem_cons.1 hb with rfl | hb
    · exact ⟨_, List.mem_cons_self .., e⟩
    · obtain ⟨x, hx, g⟩ := ih hb
      exact ⟨x, List.mem_cons_of_mem _ hx, g⟩

/-- Every record stays in its place, later in the same event; the rest of the tracker is kept, the stall timer apart. -/
structure Bears (s t : State) : Prop where
  loader : t.loader = s.loader
  shelf  : t.shelf = s.shelf
  boards : Grown s.tracker.queue t.tracker.queue

/-- An operation that does not touch the tracker. -/
theorem Bears.of_tracker {s t : State} (h : t.loader = s.loader) (k : t.tracker = s.tracker) : Bears s t :=
  ⟨h, by unfold State.shelf; rw [k], by rw [k]; exact .refl _⟩

theorem Bears.refl (s : State) : Bears s s := .of_tracker rfl rfl

theorem Bears.trans {s t u : State} (h : Bears s t) (k : Bears t u) : Bears s u :=
  ⟨k.loader.trans h.loader, k.shelf.trans h.shelf, h.boards.trans k.boards⟩

theorem Bears.ite {s t u : State} (c : Prop) [Decidable c] (h : Bears s t) (k : Bears s u) : Bears s (if c then t else u) := by
  split
  · exact h
  · exact k

theorem Bears.foldl {α : Type} {f : State → α → State} (h : ∀ s a, Bears s (f s a)) (l : List α) (s : State) :
    Bears s (l.foldl f s) := by
  induction l generalizing s with
  | nil => exact .refl s
  | cons a l ih => exact (h s a).trans (ih _)

theorem Bears.cfg {s t : State} (h : Bears s t) : t.cfg = s.cfg := by unfold State.cfg; rw [h.loader]

theorem Bears.tracker {s t : State} (h : Bears s t) : t.tracker.count = s.tracker.count ∧ t.tracker.nextId = s.tracker.nextId ∧
    t.tracker.underEye = s.tracker.underEye ∧ t.tracker.admissions = s.tracker.admissions := by
  have e := h.shelf
  simp only [State.shelf, Tracker.mk.injEq] at e
  obtain ⟨_, admissions, count, nextId, underEye, _⟩ := e
  exact ⟨count, nextId, underEye, admissions⟩

theorem Bears.boardIds {s t : State} (h : Bears s t) : t.boardIds = s.boardIds := h.boards.ids

/-! ### Records, marks and frames -/

theorem bears_updateBoard {id : Nat} {f : Board → Board} (h : ∀ b : Board, b.Grows (f b)) (s : State) : Bears s (updateBoard id f s) := by
  refine ⟨rfl, rfl, .map (fun b => ?_) _⟩
  split
  · exact h b
  · exact .refl b

/-- A change of the fields that are no part of the core. -/
theorem bears_updateLocal {id : Nat} {f : Board → Board} (h : ∀ b, boardCore (f b) = boardCore b ∧ (f b).line = b.line)
    (s : State) : Bears s (updateBoard id f s) :=
  bears_updateBoard (fun b => by
    obtain ⟨core, line⟩ := h b
    have same : b.line.marks = (f b).line.marks := by rw [line]
    exact ⟨core, same ▸ List.prefix_rfl, fun o => by rw [line]; exact o⟩) s

theorem bears_withTx (q : List TxFrame) (s : State) : Bears s (s.withTx q) := .of_tracker rfl rfl

theorem bears_queueOrDrop (f : TxFrame) (s : State) : Bears s (queueOrDrop f s) := .ite _ (bears_withTx _ s) (.refl s)

theorem bears_addMark (id code : Nat) (s : State) : Bears s (addMark id code s) := by
  unfold addMark
  split
  · exact .refl s
  · exact .ite _ (.refl s) ((bears_updateBoard (addPair_grows _) s).trans (bears_queueOrDrop _ _))

theorem bears_markBoards (p : Board → Bool) (code : Nat) (s : State) : Bears s (markBoards p code s) :=
  .foldl (fun s id => bears_addMark id code s) _ s

theorem bears_withStall (x : Timer) (s : State) : Bears s (s.withStall x) :=
  ⟨rfl, rfl, .refl _⟩

/-! ### The spray unit -/

theorem bears_withShots (l : List (Option Owner)) (s : State) : Bears s (s.withShots l) := .of_tracker rfl rfl

theorem bears_dropCounting (id : Nat) (s : State) : Bears s (dropCounting id s) := .ite _ (.of_tracker rfl rfl) (.refl s)

theorem bears_flowCheck (id : Nat) (s : State) : Bears s (flowCheck id s) := by
  unfold flowCheck
  split
  · exact .refl s
  · exact .ite _ (((bears_updateLocal (by intro _; exact ⟨rfl, rfl⟩) s).trans (bears_dropCounting id _)).trans
      (.foldl (fun s c => bears_addMark id c s) _ _)) (.refl s)

theorem bears_markNotFluxed (id : Nat) (s : State) : Bears s (markNotFluxed id s) := by
  unfold markNotFluxed
  split
  · exact .refl s
  · exact .ite _ (.refl s) ((bears_addMark id 1 s).trans (bears_updateLocal (by intro _; exact ⟨rfl, rfl⟩) _))

theorem bears_truncateShots (s : State) : Bears s (truncateShots s) :=
  (bears_withShots _ s).trans (.foldl (fun s id =>
    (bears_updateLocal (by intro _; exact ⟨rfl, rfl⟩) s).trans (bears_markNotFluxed id (restartLag id s))) _ _)

theorem bears_sprayUpdate (s : State) : Bears s (sprayUpdate s) :=
  ((Bears.ite _ (bears_truncateShots s) (.refl s)).trans (bears_withShots _ _)).trans
    (.foldl (fun s id => bears_flowCheck id s) _ _)

/-! ### The pot unit, the heater unit and state control -/

theorem bears_leftUp (a b : Pump) (s : State) : Bears s (leftUp a b s) := .ite _ (bears_markBoards _ 6 s) (.refl s)

theorem bears_setMain (p : Pump) (s : State) : Bears s (setMain p s) :=
  Bears.trans (t := { s with pot := { s.pot with main := p } }) (.of_tracker rfl rfl) (bears_leftUp _ _ _)

theorem bears_setChip (p : Pump) (s : State) : Bears s (setChip p s) :=
  Bears.trans (t := { s with pot := { s.pot with chip := p } }) (.of_tracker rfl rfl) (bears_leftUp _ _ _)

theorem bears_feederUpdate (s : State) : Bears s (feederUpdate s) :=
  .ite _ (.ite _ (.of_tracker rfl rfl) (.refl s)) (.ite _ (.of_tracker rfl rfl) (.refl s))

theorem bears_potUpdate (s : State) : Bears s (potUpdate s) :=
  ((bears_setMain _ s).trans (bears_setChip _ _)).trans (bears_feederUpdate _)

theorem bears_workRequests (s : State) : Bears s (workRequests s) := .of_tracker rfl rfl

theorem bears_forcedFalls (s : State) : Bears s (forcedFalls s) := .ite _ (.of_tracker rfl rfl) (.refl s)

theorem bears_conditionMarks (c : Condition) (s : State) : Bears s (conditionMarks c s) := by
  unfold conditionMarks
  split
  · exact bears_markBoards _ 11 s
  · exact bears_markBoards _ 11 s
  · exact (Bears.ite _ (bears_markBoards _ 12 s) (.refl s)).trans (.ite _ (bears_markBoards _ 12 _) (.refl _))
  · exact .refl s

theorem bears_control (c : Control) (s : State) : Bears s { s with control := c } := .of_tracker rfl rfl

theorem bears_setCondition (c : Condition) (s : State) : Bears s (setCondition c s) :=
  (((((bears_control _ s).trans (bears_sprayUpdate _)).trans (bears_forcedFalls _)).trans (bears_potUpdate _)).trans
    (bears_conditionMarks c _)).trans (.ite _ (.refl _) (bears_queueOrDrop _ _))

theorem bears_senseTrip (s : State) : Bears s (senseTrip s) := .ite _ (.refl s) (bears_control _ s)

theorem bears_recondition (s : State) : Bears s (recondition s) := by
  unfold recondition
  exact (bears_senseTrip s).trans (.ite _ ((bears_sprayUpdate _).trans (bears_potUpdate _)) (bears_setCondition _ _))

/-! ### The alarm and group units -/

theorem bears_alarms (a : Alarms) (s : State) : Bears s { s with alarms := a } := .of_tracker rfl rfl

theorem bears_updateRecord (i : Nat) (f : AlarmRecord → AlarmRecord) (s : State) : Bears s (updateRecord i f s) := bears_alarms _ s

theorem bears_withActivity (l : List Activity) (s : State) : Bears s (withActivity l s) :=
  Bears.trans (t := { s with groups := { s.groups with activity := l } }) (.of_tracker rfl rfl)
    (.foldl (fun s c => bears_markBoards _ c s) _ _)

theorem bears_addActivity (a : Activity) (s : State) : Bears s (addActivity a s) := .ite _ (.refl s) (bears_withActivity _ s)

theorem bears_removeActivity (p : Activity → Bool) (s : State) : Bears s (removeActivity p s) := bears_withActivity _ s

theorem bears_announce (i : Nat) (s : State) : Bears s (announce i s) :=
  .ite _ (bears_updateRecord i _ s) (.ite _ ((bears_withTx _ s).trans (bears_updateRecord i _ _)) (bears_updateRecord i _ s))

theorem bears_clearAnnounced (i : Nat) (s : State) : Bears s (clearAnnounced i s) := by
  unfold clearAnnounced
  refine .ite _ ?_ (bears_updateRecord i _ s)
  have queued (u : State) : Bears u (queueClear i u) := .ite _ (bears_withTx _ u) (bears_updateRecord i _ u)
  exact ((bears_withTx _ s).trans (.ite _ (queued _) (.refl _))).trans (bears_updateRecord i _ _)

theorem bears_firstOutEntry (i : Nat) (v : Int) (s : State) : Bears s (firstOutEntry i v s) :=
  .ite _ (bears_alarms _ s) (bears_alarms _ s)

theorem bears_enterActive (i : Nat) (v : Int) (s : State) : Bears s (enterActive i v s) := by
  unfold enterActive
  refine Bears.trans ?_ (bears_recondition _)
  have h1 := bears_updateRecord i (fun r => { r with state := .active, matchCount := 0, value := v }) s
  have h2 := h1.trans (.ite (s.alarmAction i = .trip) (bears_firstOutEntry i v _) (.refl _))
  have h3 := h2.trans (.ite (s.ownSetTakes i = true) (bears_addActivity ⟨s.alarmGroup i, s.dir.own, i⟩ _) (.refl _))
  have h4 := h3.trans (.ite (s.needsAnnouncing i = true) (bears_announce i _) (.refl _))
  exact h4.trans (.ite _ (.refl _) (bears_markBoards _ _ _))

theorem bears_returnQuiet (i : Nat) (s : State) : Bears s (returnQuiet i s) := by
  unfold returnQuiet
  exact (((bears_updateRecord i _ s).trans (bears_removeActivity _ _)).trans (bears_clearAnnounced i _)).trans (bears_recondition _)

theorem bears_releaseRecord (i : Nat) (s : State) : Bears s (releaseRecord i s) := by
  unfold releaseRecord
  split
  · exact .ite _ (bears_updateRecord i _ s) (bears_returnQuiet i s)
  · exact bears_returnQuiet i s
  all_goals exact .refl s

theorem bears_updateCause (i : Nat) (f : Cause → Cause) (s : State) : Bears s (updateCause i f s) := bears_alarms _ s

theorem bears_raiseHeld (i : Nat) (v : Int) (s : State) : Bears s (raiseHeld i v s) :=
  (bears_updateCause i _ s).trans (.ite _ (bears_enterActive i _ _) (.refl _))

theorem bears_releaseHeld (i : Nat) (s : State) : Bears s (releaseHeld i s) :=
  .ite _ ((bears_updateCause i _ s).trans (bears_releaseRecord i _)) (.refl s)

theorem bears_occurrence (i : Nat) (v : Int) (s : State) : Bears s (occurrence i v s) :=
  .ite _ ((bears_enterActive i _ s).trans (bears_releaseRecord i _)) (.refl s)

/-! ### What follows every change -/

theorem bears_sensePermit (s : State) : Bears s (sensePermit s) := by
  unfold sensePermit
  refine .ite _ (.refl s) ((bears_control { s.control with permitSensed := s.permitLevel } s).trans ?_)
  exact .ite _ (bears_withStall _ _) ((bears_withStall _ _).trans (bears_releaseHeld 19 _))

theorem bears_settle (s : State) : Bears s (settle s) :=
  ((((Bears.ite _ (bears_raiseHeld 16 _ s) (bears_releaseHeld 16 s)).trans (bears_sprayUpdate _)).trans (bears_potUpdate _)).trans
    (bears_sensePermit _)).trans (bears_sensePermit _)

/-! ### The checks of a position event and of a take-in -/

theorem bears_missingCheck (id : Nat) (s : State) : Bears s (missingCheck id s) := by
  unfold missingCheck
  split
  · exact .ite _ (((bears_updateLocal (by intro _; exact ⟨rfl, rfl⟩) s).trans (bears_addMark id 9 _)).trans
      (bears_occurrence _ _ _)) (.refl s)
  · exact .refl s

theorem bears_noRecipeMark (id : Nat) (s : State) : Bears s (noRecipeMark id s) := by
  unfold noRecipeMark
  split
  · exact .refl s
  · exact .ite _ ((bears_addMark id 7 s).trans (bears_updateLocal (by intro _; exact ⟨rfl, rfl⟩) _)) (.refl s)

theorem bears_contactCheck (id : Nat) (s : State) : Bears s (contactCheck id s) := by
  unfold contactCheck
  split
  · exact .refl s
  · have noted : Bears s (updateBoard id (fun b => { b with waveContact := true }) s) :=
      bears_updateLocal (by intro _; exact ⟨rfl, rfl⟩) s
    exact .ite _ (.ite _ (noted.trans (bears_addMark id 5 _)) noted) (.refl s)

theorem bears_standingMarks (id : Nat) (s : State) : Bears s (standingMarks id s) :=
  .foldl (fun s c => bears_addMark id c s) _ s

theorem bears_handleDot (id k : Nat) (s : State) : Bears s (handleDot id k s) := by
  unfold handleDot
  split
  · exact .refl s
  · refine Bears.trans ?_ (bears_updateLocal (by intro _; exact ⟨rfl, rfl⟩) _)
    split
    · exact bears_markNotFluxed id s
    · refine .ite _ (bears_markNotFluxed id s) (.ite _ (bears_updateLocal (by intro _; exact ⟨rfl, rfl⟩) s) ?_)
      unfold fireDot
      refine Bears.trans ?_ (bears_updateLocal (by intro _; exact ⟨rfl, rfl⟩) _)
      exact .ite _ (.of_tracker rfl rfl) (bears_withShots _ s)

theorem bears_sprayDots (id : Nat) (s : State) : Bears s (sprayDots id s) := by
  unfold sprayDots
  split
  · exact .refl s
  · exact .foldl (fun s k => bears_handleDot id k s) _ s

theorem bears_sprayRecords (ids : List Nat) (s : State) : Bears s (sprayRecords ids s) := by
  obtain ⟨order, n, _, e⟩ := sprayRecords_order ids s
  rw [e]
  exact Bears.trans (t := { s with free := n }) (.of_tracker rfl rfl) (.foldl (fun s id => bears_sprayDots id s) _ _)

theorem bears_sprayEnd (id : Nat) (s : State) : Bears s (sprayEnd id s) := by
  unfold sprayEnd
  split
  · exact .refl s
  · exact .ite _ ((bears_updateLocal (by intro _; exact ⟨rfl, rfl⟩) s).trans (bears_flowCheck id _)) (.refl s)

theorem bears_sprayPassOver (id : Nat) (s : State) : Bears s (sprayPassOver id s) := by
  unfold sprayPassOver
  split
  · exact .refl s
  · exact .ite _ (((bears_updateLocal (by intro _; exact ⟨rfl, rfl⟩) s).trans (bears_markNotFluxed id _)).trans
      (bears_flowCheck id _)) (.refl s)

theorem bears_takeInChecks (id : Nat) (s : State) : Bears s (takeInChecks id s) :=
  (((bears_sprayPassOver id s).trans (bears_noRecipeMark id _)).trans (bears_contactCheck id _)).trans (bears_standingMarks id _)

theorem bears_handoverCheck (id : Nat) (s : State) : Bears s (handoverCheck id s) := by
  unfold handoverCheck
  split
  · exact .ite _ (.ite _ (bears_withTx _ s) (bears_updateLocal (by intro _; exact ⟨rfl, rfl⟩) s)) (.refl s)
  · exact .refl s

/-! ### The common part of a commit -/

theorem bears_leaveIsolation (s : State) : Bears s (leaveIsolation s) := by
  have joins (u : State) : Bears u (queueJoin u) := .ite _ (bears_withTx _ u) (.of_tracker rfl rfl)
  exact ((bears_releaseHeld 27 s).trans (.ite _ (.refl _) (joins _))).trans (bears_settle _)

theorem bears_restartContact (own : Bool) (s : State) : Bears s (restartContact own s) := by
  have timed : Bears s (if own then { s with bus := { s.bus with ownContact := s.contactTimer } }
      else { s with bus := { s.bus with peerContact := s.contactTimer } }) := .ite _ (.of_tracker rfl rfl) (.of_tracker rfl rfl)
  exact .ite _ (.refl s) (.ite _ (timed.trans (bears_leaveIsolation _)) timed)

theorem bears_deliverOwn (s : State) : Bears s (deliverOwn s) :=
  .ite _ ((bears_releaseHeld 26 s).trans (bears_settle _)) (.refl s)

theorem bears_touch (src : Nat) (s : State) : Bears s (touch src s) := by
  unfold touch
  refine .ite _ ?_ (.refl s)
  split <;> exact .of_tracker rfl rfl

theorem bears_commitFrame (own : Bool) (src : Nat) (s : State) : Bears s (commitFrame own src s) := by
  unfold commitFrame
  have closed : Bears s (closeFrame (if own then removeOnBus s else keepOnBus s)) := by
    cases own <;> exact .of_tracker rfl rfl
  exact .ite _ ((closed.trans (bears_restartContact true _)).trans (bears_deliverOwn _))
    ((closed.trans (.ite _ (.refl _) (bears_restartContact false _))).trans (bears_touch src _))

theorem bears_dropReservation (s : State) : Bears s (dropReservation s) := .of_tracker rfl rfl

/-! ## Records may be released -/

/-- No record of this id has its span beyond the window's end (R22). -/
def State.Within (s : State) (id : Nat) : Prop := s.eachBoard id (fun b => s.pos b ≤ s.cfg.winEnd + b.line.length)

/-- Every record of `t` is one of `s` later in the same event, and every record of `s` within the window is still held. -/
structure Sheds (s t : State) : Prop where
  loader : t.loader = s.loader
  count  : t.tracker.count = s.tracker.count
  source : ∀ x ∈ t.tracker.queue, ∃ b ∈ s.tracker.queue, b.Grows x
  kept   : ∀ b ∈ s.tracker.queue, s.Within b.line.id → ∃ x ∈ t.tracker.queue, b.Grows x

theorem Bears.sheds {s t : State} (h : Bears s t) : Sheds s t where
  loader := h.loader
  count := by obtain ⟨e, _⟩ := h.tracker; exact e
  source _ hx := h.boards.mem_right hx
  kept _ hb _ := h.boards.mem_left hb

theorem Sheds.refl (s : State) : Sheds s s := (Bears.refl s).sheds

theorem Sheds.cfg {s t : State} (h : Sheds s t) : t.cfg = s.cfg := by unfold State.cfg; rw [h.loader]

theorem Sheds.pos {s t : State} (h : Sheds s t) {b x : Board} (g : b.Grows x) : t.pos x = s.pos b := by
  obtain ⟨_, _, _, _, _, _, anchorPos, anchorCount, _⟩ := g.fields
  unfold State.pos
  rw [h.cfg, h.count, anchorPos, anchorCount]

theorem Sheds.within {s t : State} (h : Sheds s t) {id : Nat} (k : s.Within id) : t.Within id := by
  intro x hx hid
  obtain ⟨b, hb, g⟩ := h.source x hx
  obtain ⟨sameId, _, _, sameLength, _⟩ := g.fields
  rw [h.pos g, h.cfg, sameLength]
  exact k b hb (sameId.symm.trans hid)

theorem Sheds.trans {s t u : State} (h : Sheds s t) (k : Sheds t u) : Sheds s u where
  loader := k.loader.trans h.loader
  count := k.count.trans h.count
  source x hx := by
    obtain ⟨y, hy, g⟩ := k.source x hx
    obtain ⟨b, hb, f⟩ := h.source y hy
    exact ⟨b, hb, f.trans g⟩
  kept b hb w := by
    obtain ⟨y, hy, f⟩ := h.kept b hb w
    obtain ⟨x, hx, g⟩ := k.kept y hy (by rw [f.id_eq]; exact h.within w)
    exact ⟨x, hx, f.trans g⟩

theorem Sheds.ite {s t u : State} (c : Prop) [Decidable c] (h : Sheds s t) (k : Sheds s u) : Sheds s (if c then t else u) := by
  split
  · exact h
  · exact k

theorem Sheds.foldl {α : Type} {f : State → α → State} (h : ∀ s a, Sheds s (f s a)) (l : List α) (s : State) :
    Sheds s (l.foldl f s) := by
  induction l generalizing s with
  | nil => exact .refl s
  | cons a l ih => exact (h s a).trans (ih _)

theorem loader_releaseBoard (b : Board) (s : State) : (releaseBoard b s).loader = s.loader :=
  (keeps_releaseBoard b s).loader

/-- A record whose span has left the window is released, and no other (R22). -/
theorem sheds_releaseCheck (id : Nat) (s : State) : Sheds s (releaseCheck id s) := by
  unfold releaseCheck
  cases hb : s.board id with
  | none => exact .refl s
  | some b =>
    by_cases left : s.cfg.winEnd + b.line.length < s.pos b
    · show Sheds s (if _ then _ else _)
      rw [if_pos left]
      have queue : (releaseBoard b s).tracker.queue = s.tracker.queue.filter (fun x => x.line.id != b.line.id) := by
        obtain ⟨tracker, _⟩ := releaseBoard_tracker b s
        obtain ⟨reported, _⟩ := reportBoard_keeps b (beforeReport b s)
        obtain ⟨_, _, before, _⟩ := beforeReport_keeps b s
        rw [tracker, reported, before]
      refine ⟨loader_releaseBoard b s, (keeps_releaseBoard b s).count, fun x hx => ?_, fun x hx w => ?_⟩
      · rw [queue] at hx
        exact ⟨x, (List.mem_filter.1 hx).1, .refl x⟩
      · refine ⟨x, ?_, .refl x⟩
        rw [queue, List.mem_filter, bne_iff_ne]
        refine ⟨hx, fun same => ?_⟩
        exact absurd left (Nat.not_lt.2 (w b (List.mem_of_find?_eq_some hb) same.symm))
    · show Sheds s (if _ then _ else _)
      rw [if_neg left]
      exact .refl s

theorem sheds_positionEvents (ids : List Nat) (s : State) : Sheds s (positionEvents ids s) := by
  unfold positionEvents
  have each {f : Nat → State → State} (h : ∀ id s, Bears s (f id s)) (s : State) : Bears s (eachBoard f ids s) :=
    .foldl (fun s id => h id s) ids s
  have noted := (((((each bears_missingCheck s).trans (each bears_noRecipeMark _)).trans (bears_sprayRecords ids _)).trans
    (each bears_sprayEnd _)).trans (each bears_contactCheck _)).trans (each bears_standingMarks _)
  exact ((noted.trans (each bears_handoverCheck _)).sheds.trans (.foldl (fun s id => sheds_releaseCheck id s) ids _)).trans
    (.ite _ (.refl _) (bears_workRequests _).sheds)

theorem sheds_settle (s : State) : Sheds s (settle s) := (bears_settle s).sheds

end Sys2Proof.Machine
end

section
/-! PROOFS. The choice at an eye, a record found or anchored anew, and EYE_LEADING_EDGE (O13). -/

namespace Sys2Proof.Machine

open Sys2Proof

/-! ## The choice at an eye (R16) -/

/-- The record at place `i` of the queue is the first of the nearest candidates. -/
def State.NearestAt (s : State) (eye i : Nat) (b : Board) : Prop :=
  s.tracker.queue[i]? = some b ∧ s.eyeCandidate eye b = true ∧
    ∀ (j : Nat) (x : Board), s.tracker.queue[j]? = some x → s.eyeCandidate eye x = true →
      eyeDistance eye (s.pos b) ≤ eyeDistance eye (s.pos x) ∧ (j < i → eyeDistance eye (s.pos b) < eyeDistance eye (s.pos x))

/-- A place in a filtered list comes from a place in the list, and what meets the filter before the one stands before the other. -/
theorem place_of_filter {p : Board → Bool} {q : List Board} {i : Nat} {y : Board} (h : (q.filter p)[i]? = some y) :
    ∃ k, q[k]? = some y ∧ p y = true ∧
      ∀ (j : Nat) (x : Board), j < k → q[j]? = some x → p x = true → ∃ j' < i, (q.filter p)[j']? = some x := by
  obtain ⟨hi, hy⟩ := List.getElem?_eq_some_iff.1 h
  have split : q.filter p = (q.filter p).take i ++ y :: (q.filter p).drop (i + 1) := by
    rw [← hy, ← List.drop_eq_getElem_cons hi, List.take_append_drop]
  obtain ⟨front, back, rfl, hfront, hback⟩ := List.filter_eq_append_iff.1 split
  obtain ⟨gap, rest, rfl, hgap, hp, _⟩ := List.filter_eq_cons_iff.1 hback
  refine ⟨(front ++ gap).length, ?_, hp, fun j x hj hx px => ?_⟩
  · rw [← List.append_assoc, List.getElem?_append_right (Nat.le_refl _), Nat.sub_self]
    rfl
  · rw [← List.append_assoc, List.getElem?_append_left hj] at hx
    have early : x ∈ front := by
      rcases List.mem_append.1 (List.mem_of_getElem? hx) with m | m
      · exact m
      · exact absurd px (hgap x m)
    obtain ⟨j', hj', e⟩ := List.mem_take_iff_getElem.1 (hfront ▸ List.mem_filter.2 ⟨early, px⟩)
    exact ⟨j', by omega, by rw [List.getElem?_eq_getElem (by omega), e]⟩

theorem nearestAt_of_chosen {s : State} {eye : Nat} {b : Board} (h : s.chooseAtEye eye = some b) : ∃ i, s.NearestAt eye i b := by
  rcases chooseAtEye_spec s eye with ⟨_, e⟩ | ⟨i, y, e, hy, near, first⟩
  · cases e.symm.trans h
  · cases e.symm.trans h
    obtain ⟨k, hk, candidate, early⟩ := place_of_filter hy
    refine ⟨k, hk, candidate, fun j x hx hc => ⟨?_, fun hj => ?_⟩⟩
    · exact near x (List.mem_filter.2 ⟨List.mem_of_getElem? hx, hc⟩)
    · obtain ⟨j', hj', e'⟩ := early j x hj hx hc
      exact first j' x hj' e'

/-- Only one record is the first of the nearest. -/
theorem nearestAt_unique {s : State} {eye i k : Nat} {b y : Board} (h : s.NearestAt eye i b) (h' : s.NearestAt eye k y) : b = y := by
  obtain ⟨hb, cb, nb⟩ := h
  obtain ⟨hy, cy, ny⟩ := h'
  obtain ⟨by_le, by_lt⟩ := nb k y hy cy
  obtain ⟨yb_le, yb_lt⟩ := ny i b hb cb
  rcases Nat.lt_trichotomy i k with lt | rfl | lt
  · exact absurd (yb_lt lt) (Nat.not_lt.2 by_le)
  · exact Option.some.inj (hb.symm.trans hy)
  · exact absurd (by_lt lt) (Nat.not_lt.2 yb_le)

theorem chooseAtEye_iff (s : State) (eye : Nat) (b : Board) : s.chooseAtEye eye = some b ↔ ∃ i, s.NearestAt eye i b := by
  refine ⟨nearestAt_of_chosen, fun ⟨i, h⟩ => ?_⟩
  cases e : s.chooseAtEye eye with
  | none =>
    obtain ⟨hb, cb, _⟩ := h
    cases ((chooseAtEye_none s eye).1 e b (List.mem_of_getElem? hb)).symm.trans cb
  | some y =>
    obtain ⟨k, h'⟩ := nearestAt_of_chosen e
    rw [nearestAt_unique h h']

/-- Of two candidates at one distance the one with the greater L is chosen, where the queue is in order (R3, R16). -/
theorem chosen_foremost {s : State} {eye : Nat} {b x : Board} (order : (s.tracker.queue.map s.pos).Pairwise (fun p q => q ≤ p))
    (h : s.chooseAtEye eye = some b) (hx : x ∈ s.tracker.queue) (hc : s.eyeCandidate eye x = true)
    (e : eyeDistance eye (s.pos x) = eyeDistance eye (s.pos b)) : s.pos x ≤ s.pos b := by
  obtain ⟨i, hb, _, near⟩ := nearestAt_of_chosen h
  obtain ⟨j, hj, rfl⟩ := List.mem_iff_getElem.1 hx
  obtain ⟨_, early⟩ := near j _ (List.getElem?_eq_getElem hj) hc
  have ij : i ≤ j := Nat.le_of_not_lt fun lt => absurd (early lt) (by omega)
  obtain ⟨hi, rfl⟩ := List.getElem?_eq_some_iff.1 hb
  rcases Nat.lt_or_eq_of_le ij with lt | rfl
  · exact List.pairwise_iff_getElem.1 (List.pairwise_map.1 order) i j hi hj lt
  · exact Nat.le_refl _

/-! ## Records in the queue -/

theorem mem_reorder (s : State) (b : Board) : b ∈ (reorder s).tracker.queue ↔ b ∈ s.tracker.queue :=
  (orderBoards_perm s.pos s.tracker.queue).mem_iff

/-- After a change of the records of an id: what the changed records meet. -/
theorem eachBoard_updateBoard {s : State} {id : Nat} {f : Board → Board} {p : Board → Prop}
    (h : ∀ b ∈ s.tracker.queue, b.line.id = id → p (f b)) : (updateBoard id f s).eachBoard id p := by
  intro x hx hid
  obtain ⟨b, hb, rfl⟩ := List.mem_map.1 hx
  by_cases e : b.line.id = id
  · rw [if_pos (beq_iff_eq.2 e)]
    exact h b hb e
  · rw [if_neg (mt beq_iff_eq.1 e)] at hid
    exact absurd hid e

theorem eachBoard_reorder {s : State} {id : Nat} {p : Board → Prop} (h : s.eachBoard id p) : (reorder s).eachBoard id p :=
  fun b hb => h b ((mem_reorder s b).1 hb)

/-- A property that a record keeps through an event holds after it. -/
theorem Sheds.eachBoard {s t : State} {id : Nat} {p q : Board → Prop} (h : Sheds s t) (k : s.eachBoard id p)
    (grow : ∀ b x : Board, b.Grows x → p b → q x) : t.eachBoard id q := by
  intro x hx hid
  obtain ⟨b, hb, g⟩ := h.source x hx
  exact grow b x g (k b hb (g.id_eq.symm.trans hid))

/-- A record within the window is still held (R22). -/
theorem Sheds.held {s t : State} {id : Nat} (h : Sheds s t) (hid : id ∈ s.boardIds) (w : s.Within id) : id ∈ t.boardIds := by
  obtain ⟨b, hb, rfl⟩ := List.mem_map.1 hid
  obtain ⟨x, hx, g⟩ := h.kept b hb w
  exact List.mem_map.2 ⟨x, hx, g.id_eq⟩

/-! ## A record anchored anew (R6, R16, R21) -/

/-- The records of an id take an anchor, and the queue is put back into order. -/
def anchored (id : Nat) (f : Board → Board) (s : State) : State := reorder (updateBoard id f s)

section
variable {f : Board → Board} {id pos : Nat} {count : BitVec 32} (hf : ∀ b, (f b).line = b.line)
include hf

theorem boardIds_updateBoard (s : State) : (updateBoard id f s).boardIds = s.boardIds := by
  show (s.tracker.queue.map _).map _ = _
  rw [List.map_map]
  refine List.map_congr_left fun b _ => ?_
  simp only [Function.comp]
  split
  · rw [hf]
  · rfl

theorem boardIds_anchored (s : State) (n : Nat) : n ∈ (anchored id f s).boardIds ↔ n ∈ s.boardIds := by
  have perm : (anchored id f s).boardIds.Perm (updateBoard id f s).boardIds := (orderBoards_perm _ _).map _
  rw [perm.mem_iff, boardIds_updateBoard hf]

/-- The records of the id are within the window as soon as the new anchor and their lengths say so. -/
theorem within_anchored {s : State} (hp : ∀ b, (f b).anchorPos = pos) (hc : ∀ b, (f b).anchorCount = count)
    (h : s.eachBoard id (fun b =>
      leadingEdge s.cfg.countsPerMetre pos s.tracker.count count ≤ s.cfg.winEnd + b.line.length)) :
    (anchored id f s).Within id := by
  refine eachBoard_reorder (eachBoard_updateBoard fun b hb hid => ?_)
  show leadingEdge _ (f b).anchorPos _ (f b).anchorCount ≤ _ + (f b).line.length
  rw [hp, hc, hf]
  exact h b hb hid

end

/-! ## One occurrence that latches (R110, R111) -/

theorem record_place {s : State} {i : Nat} (h : s.alarmState i ≠ .quiet) : i < s.alarms.records.length := by
  refine Nat.lt_of_not_le fun k => h ?_
  unfold State.alarmState State.record
  rw [List.getD_eq_getElem?_getD, List.getElem?_eq_none k]
  rfl

theorem occurrence_none {s : State} {i : Nat} (v : Int) (h : s.alarmState i ≠ .quiet) : occurrence i v s = s := by
  rw [occurrence_eq, if_neg (fun k => h k.2)]

/-- The record of a latching built-in condition goes from QUIET to LATCHED with the value of the occurrence. -/
theorem occurrence_latched {s : State} {i : Nat} (v : Int) (hi : i ∈ [17, 18, 19, 20, 22, 23, 24]) (hj : s.joined = true)
    (hq : s.alarmState i = .quiet) (hl : i < s.alarms.records.length) :
    (occurrence i v s).alarmState i = .latched ∧ ((occurrence i v s).record i).value = recordValue v := by
  obtain ⟨active, value, _⟩ := enterActive_record hl (recordValue v)
  have place : i < (enterActive i (recordValue v) s).alarms.records.length := record_place (by rw [active]; decide)
  rw [occurrence_eq, if_pos ⟨hj, hq⟩, releaseRecord_active active, if_pos ((alarmLatches_iff _ _).2 (.inr (.inl hi)))]
  unfold State.alarmState
  rw [record_updateRecord, if_pos ⟨rfl, place⟩]
  exact ⟨rfl, value⟩

/-- Settling leaves every record but those of HAND_LATE and CONVEYOR_STALL (R11, R18). -/
theorem record_settle {k : Nat} (h16 : k ≠ 16) (h19 : k ≠ 19) (s : State) : (settle s).record k = s.record k :=
  (spares_settle (p := fun k => k = 16 ∨ k = 19) (.inl rfl) (.inr rfl) s).record k (not_or.2 ⟨h16, h19⟩)

/-- UNTRACKED_BOARD is one occurrence, and nothing of the steady part changes (R16, R17). -/
theorem untracked_board (s : State) : (settle (occurrence 17 s.tracker.queue.length s)).steady = s.steady ∧
    (s.alarmState 17 ≠ .quiet → (settle (occurrence 17 s.tracker.queue.length s)).record 17 = s.record 17) ∧
    (s.joined = true → s.alarmState 17 = .quiet → 17 < s.alarms.records.length → s.tracker.queue.length ≤ 8 →
      (settle (occurrence 17 s.tracker.queue.length s)).alarmState 17 = .latched ∧
      ((settle (occurrence 17 s.tracker.queue.length s)).record 17).value = s.tracker.queue.length) := by
  refine ⟨((follows_occurrence 17 _ s).trans (follows_settle _)).steady, fun h => ?_, fun hj hq hl h8 => ?_⟩
  · rw [record_settle (by decide) (by decide), occurrence_none _ h]
  · obtain ⟨latched, value⟩ := occurrence_latched (s.tracker.queue.length : Int) (by decide) hj hq hl
    unfold State.alarmState
    rw [record_settle (by decide) (by decide), value, recordValue_small (by omega)]
    exact ⟨latched, rfl⟩

/-! ## EYE_LEADING_EDGE (R16, R17) -/

theorem eye_none {s : State} (h : s.cfg.eyePos = none ∨ s.joined = false ∨ s.cfg.roles.entry = true) :
    exec .eyeLeadingEdge s = .next s := by
  show execEyeLeadingEdge s = _
  unfold execEyeLeadingEdge
  split
  · rfl
  · next e =>
    refine if_pos ?_
    rcases h with h | h | h
    · cases e.symm.trans h
    · simp [h]
    · simp [h]

theorem eye_looks {s : State} {eye : Nat} (he : s.cfg.eyePos = some eye) (hj : s.joined = true) (hr : s.cfg.roles.entry = false) :
    exec .eyeLeadingEdge s = match s.chooseAtEye eye with
      | some b => .next (settle (confirmBoard b.line.id eye s))
      | none => .next (settle (occurrence 17 s.tracker.queue.length s)) := by
  show execEyeLeadingEdge s = _
  unfold execEyeLeadingEdge
  rw [he]
  refine (if_neg ?_).trans ?_
  · simp [hj, hr]
  · rfl

theorem eye_confirms {s : State} {eye : Nat} {b : Board} (he : s.cfg.eyePos = some eye) (hj : s.joined = true)
    (hr : s.cfg.roles.entry = false) (hb : s.chooseAtEye eye = some b) :
    exec .eyeLeadingEdge s = .next (settle (confirmBoard b.line.id eye s)) := by
  rw [eye_looks he hj hr, hb]

theorem eye_untracked {s : State} {eye : Nat} (he : s.cfg.eyePos = some eye) (hj : s.joined = true)
    (hr : s.cfg.roles.entry = false) (hn : s.chooseAtEye eye = none) :
    exec .eyeLeadingEdge s = .next (settle (occurrence 17 s.tracker.queue.length s)) := by
  rw [eye_looks he hj hr, hn]

/-- What the edge makes of the chosen record (R16). -/
def confirmedAt (eye : Nat) (count : BitVec 32) (b : Board) : Board :=
  { b with anchorPos := eye, anchorCount := count, confirmed := true }

theorem confirmBoard_sheds (id eye : Nat) (s : State) :
    Sheds (anchored id (confirmedAt eye s.tracker.count) s) (settle (confirmBoard id eye s)) :=
  (((bears_queueOrDrop _ _).sheds.trans (sheds_positionEvents _ _)).trans (bears_workRequests _).sheds).trans (sheds_settle _)

theorem far_confirmBoard (id eye : Nat) (s : State) : (settle (confirmBoard id eye s)).far = s.far := by
  rw [far_settle]
  unfold confirmBoard
  rw [far_workRequests, far_positionEvents, far_queueOrDrop]
  rfl

/-- Settles O13. -/
theorem eyeLeadingEdgeConfirmsABoard : Obligations.EyeLeadingEdgeConfirmsABoard := by
  refine ⟨fun s eye b he hj hr hb => ⟨_, eye_confirms he hj hr hb, far_confirmBoard _ _ s, ?_, fun w => ?_⟩,
    fun s eye he hj hr hn => ⟨_, eye_untracked he hj hr hn, ?_⟩, fun s u v eye b he hj hr hb hu hv => ?_, eyeCandidate_iff,
    eyeDistance_eq, chooseAtEye_none, chooseAtEye_iff, fun s eye b x order h => chosen_foremost order h, fun s => eye_none⟩
  · have set : (anchored b.line.id (confirmedAt eye s.tracker.count) s).eachBoard b.line.id
        (fun x => x.anchorPos = eye ∧ x.anchorCount = s.tracker.count ∧ x.confirmed = true) :=
      eachBoard_reorder (eachBoard_updateBoard fun _ _ _ => ⟨rfl, rfl, rfl⟩)
    refine (confirmBoard_sheds b.line.id eye s).eachBoard set fun y x g h => ?_
    obtain ⟨_, _, _, _, _, _, anchorPos, anchorCount, _, confirmed, _⟩ := g.fields
    rwa [anchorPos, anchorCount, confirmed]
  · have chosen : b.line.id ∈ s.boardIds := by
      obtain ⟨i, place, _⟩ := nearestAt_of_chosen hb
      exact List.mem_map.2 ⟨b, List.mem_of_getElem? place, rfl⟩
    exact (confirmBoard_sheds b.line.id eye s).held ((boardIds_anchored (f := confirmedAt eye s.tracker.count) (fun _ => rfl) s _).2 chosen)
      (within_anchored (f := confirmedAt eye s.tracker.count) (fun _ => rfl) (fun _ => rfl) (fun _ => rfl) w)
  · obtain ⟨steady, stands, latches⟩ := untracked_board s
    exact ⟨steady, rfl, stands, latches hj⟩
  · subst hu hv
    exact eye_confirms he hj hr hb

end Sys2Proof.Machine
end

section
/-! PROOFS. HAND at its sender (O16) and at its destination (O17), and the AMENDs of other stations (O18). -/

namespace Sys2Proof.Machine

open Sys2Proof

/-! ## The common part of a commit -/

theorem far_commitFrame (own : Bool) (src : Nat) (s : State) : (commitFrame own src s).far = s.far :=
  State.far_of_still (still_commitFrame own src s) (commitFrame_read own src s (fun x => x.spray.flowCount) (fun _ => rfl))

theorem board_commitFrame_isSome (own : Bool) (src : Nat) (s : State) (id : Nat) :
    ((commitFrame own src s).board id).isSome = (s.board id).isSome := by
  rw [Bool.eq_iff_iff, board_isSome_iff, board_isSome_iff, boardIds_commitFrame]

theorem length_commitFrame (own : Bool) (src : Nat) (s : State) :
    (commitFrame own src s).tracker.queue.length = s.tracker.queue.length :=
  (bears_commitFrame own src s).boards.length_eq

theorem count_commitFrame (own : Bool) (src : Nat) (s : State) : (commitFrame own src s).tracker.count = s.tracker.count :=
  (keeps_commitFrame own src s).count

theorem cfg_commitFrame (own : Bool) (src : Nat) (s : State) : (commitFrame own src s).cfg = s.cfg :=
  (bears_commitFrame own src s).cfg

/-! ## A change of the records of an id, seen in the still part -/

/-- The same change of records on states with the same still part. -/
theorem still_updateBoard {s t : State} {id : Nat} {f : Board → Board} (hf : ∀ b, boardKeep (f (boardKeep b)) = boardKeep (f b))
    (h : t.still = s.still) : (updateBoard id f t).still = (updateBoard id f s).still := by
  have queue (u : State) : ((u.tracker.queue.map (fun b => if b.line.id == id then f b else b)).map boardKeep) =
      u.still.tracker.queue.map (fun b => if b.line.id == id then boardKeep (f b) else b) := by
    show _ = (u.tracker.queue.map boardKeep).map _
    rw [List.map_map, List.map_map]
    refine List.map_congr_left fun b _ => ?_
    show boardKeep (if b.line.id == id then f b else b) = if b.line.id == id then boardKeep (f (boardKeep b)) else boardKeep b
    rw [hf]
    exact apply_ite boardKeep _ _ _
  have parts (u : State) : (updateBoard id f u).still = { u.still with tracker := { u.still.tracker with
      queue := u.still.tracker.queue.map (fun b => if b.line.id == id then boardKeep (f b) else b) } } := by
    rw [← queue]
    rfl
  rw [parts, parts, h]

/-! ## HAND at its sender (R10) -/

theorem execHand_sent {src dst : Station} {f : HandFields} {s : State} (h : s.Sends 8 src.toNat dst.toNat (handBytes f)) :
    exec (.hand src dst f) s = .next (dropReservation (settle (handDelivered f.board.toNat dst.toNat
      (commitFrame true src.toNat s)))) := by
  show execHand src dst f s = _
  obtain ⟨start, e⟩ := committed_sent h
  unfold execHand
  rw [e]
  exact congrArg (fun u => Host.Outcome.next (dropReservation u)) (if_pos rfl)

theorem neighbour_commitFrame (own : Bool) (src : Nat) (s : State) :
    (commitFrame own src s).tracker.neighbour = s.tracker.neighbour :=
  commitFrame_read own src s (fun x => x.tracker.neighbour) (fun _ => rfl)

/-- HANDED is kept, and so is the set of records, through an event that keeps every record. -/
theorem Bears.handed {s t : State} (h : Bears s t) (id : Nat) :
    t.eachBoard id (fun x => s.someBoard id (fun b => x.handed = b.handed)) := by
  intro x hx hid
  obtain ⟨b, hb, g⟩ := h.boards.mem_right hx
  obtain ⟨sameId, _, _, _, _, _, _, _, handed, _⟩ := g.fields
  exact ⟨b, hb, sameId.symm.trans hid, handed⟩

/-- While the destination is still the neighbour, HANDED names it (R10). -/
theorem execHand_delivered {src dst : Station} {f : HandFields} {s : State}
    (h : s.Sends 8 src.toNat dst.toNat (handBytes f)) (hn : s.tracker.neighbour = some dst.toNat) :
    exec (.hand src dst f) s = .next (dropReservation (settle (updateBoard f.board.toNat
      (fun b => { b with handed := some dst.toNat }) (commitFrame true src.toNat s)))) := by
  have e : handDelivered f.board.toNat dst.toNat (commitFrame true src.toNat s) =
      updateBoard f.board.toNat (fun b => { b with handed := some dst.toNat }) (commitFrame true src.toNat s) :=
    if_pos ((neighbour_commitFrame true src.toNat s).trans hn)
  rw [execHand_sent h, e]

/-- Otherwise the record is checked again toward the present neighbour (R9, R10). -/
theorem execHand_checked {src dst : Station} {f : HandFields} {s : State}
    (h : s.Sends 8 src.toNat dst.toNat (handBytes f)) (hn : s.tracker.neighbour ≠ some dst.toNat) :
    exec (.hand src dst f) s =
      .next (dropReservation (settle (handoverCheck f.board.toNat (commitFrame true src.toNat s)))) := by
  have e : handDelivered f.board.toNat dst.toNat (commitFrame true src.toNat s) =
      handoverCheck f.board.toNat (commitFrame true src.toNat s) :=
    if_neg fun k => hn ((neighbour_commitFrame true src.toNat s).symm.trans k)
  rw [execHand_sent h, e]

theorem still_dropReservation (s : State) : (dropReservation s).still = s.still := rfl

theorem far_dropReservation (s : State) : (dropReservation s).far = s.far := rfl

theorem still_settle (s : State) : (settle s).still = s.still := (follows_settle s).toMoves.still

theorem still_delivered (src id dst : Nat) (s : State) :
    (dropReservation (settle (updateBoard id (fun b => { b with handed := some dst }) (commitFrame true src s)))).still =
      (updateBoard id (fun b => { b with handed := some dst }) s).still := by
  rw [still_dropReservation, still_settle]
  exact still_updateBoard (by intro _; rfl) (still_commitFrame true src s)

theorem bears_checked (src id : Nat) (s : State) :
    Bears s (dropReservation (settle (handoverCheck id (commitFrame true src s)))) :=
  (((bears_commitFrame true src s).trans (bears_handoverCheck id _)).trans (bears_settle _)).trans (bears_dropReservation _)

theorem far_checked (src id : Nat) (s : State) :
    (dropReservation (settle (handoverCheck id (commitFrame true src s)))).far = s.far := by
  rw [far_dropReservation, far_settle, far_handoverCheck, far_commitFrame]

/-- Settles O16. -/
theorem handCommitsAtItsSender : Obligations.HandCommitsAtItsSender :=
  ⟨fun _ _ _ s h hn => ⟨_, execHand_delivered h hn, still_delivered _ _ _ s, rfl⟩, fun _ _ _ s h hn =>
    ⟨_, execHand_checked h hn, rfl, far_checked _ _ s, (bears_checked _ _ s).boardIds, (bears_checked _ _ s).handed⟩⟩

/-! ## A record that joins the queue (R3) -/

theorem mem_joinQueue (b x : Board) (s : State) : x ∈ (joinQueue b s).tracker.queue ↔
    x = { b with slot := s.resolve b.line.recipe b.line.version } ∨ x ∈ s.tracker.queue := by
  rw [joinQueue_eq rfl]
  exact (insertByPos_perm _ _ _).mem_iff.trans List.mem_cons

theorem joinQueue_parts (b : Board) (s : State) : (joinQueue b s).loader = s.loader ∧
    (joinQueue b s).tracker = { s.tracker with queue := (joinQueue b s).tracker.queue } := by
  rw [joinQueue_eq rfl]
  exact ⟨rfl, rfl⟩

theorem boardIds_joinQueue (b : Board) (s : State) (n : Nat) :
    n ∈ (joinQueue b s).boardIds ↔ n = b.line.id ∨ n ∈ s.boardIds := by
  unfold State.boardIds
  simp only [List.mem_map, mem_joinQueue]
  constructor
  · rintro ⟨x, rfl | hx, rfl⟩
    · exact .inl rfl
    · exact .inr ⟨x, hx, rfl⟩
  · rintro (rfl | ⟨x, hx, rfl⟩)
    · exact ⟨_, .inl rfl, rfl⟩
    · exact ⟨x, .inr hx, rfl⟩

/-- Of an id that no record held, the record that joined is the only one. -/
theorem eachBoard_joinQueue {b : Board} {s : State} {p : Board → Prop} (h : b.line.id ∉ s.boardIds)
    (k : p { b with slot := s.resolve b.line.recipe b.line.version }) : (joinQueue b s).eachBoard b.line.id p := by
  intro x hx hid
  rcases (mem_joinQueue b x s).1 hx with rfl | hx
  · exact k
  · exact absurd (List.mem_map.2 ⟨x, hx, hid⟩) h

/-! ## The merge of a HAND (R13) -/

/-- The pairs of a HAND join behind the marks of a record, or MARK_OVERFLOW stands. -/
theorem mergePairs_grows (l : List Mark) (b : Board) : b.Grows { b with line := mergePairs l b.line } := by
  induction l generalizing b with
  | nil => exact .refl b
  | cons m l ih => exact (addPair_grows m b).trans (ih { b with line := addPair m b.line })

theorem addPair_has (m : Mark) (r : LineRecord) : m ∈ (addPair m r).marks ∨ (addPair m r).markOverflow = true := by
  rw [addPair_eq]
  split
  · exact .inl ‹_›
  · split
    · exact .inl (List.mem_append_right _ (List.mem_singleton_self m))
    · exact .inr rfl

theorem Board.Grows.has {b x : Board} {m : Mark} (g : b.Grows x) (h : m ∈ b.line.marks ∨ b.line.markOverflow = true) :
    m ∈ x.line.marks ∨ x.line.markOverflow = true :=
  h.imp (fun k => g.marks.subset k) g.overflow

theorem mergePairs_has {m : Mark} {l : List Mark} (h : m ∈ l) (b : Board) :
    m ∈ (mergePairs l b.line).marks ∨ (mergePairs l b.line).markOverflow = true := by
  induction l generalizing b with
  | nil => cases h
  | cons a l ih =>
    rcases List.mem_cons.1 h with rfl | h
    · exact (mergePairs_grows l { b with line := addPair m b.line }).has (addPair_has m b.line)
    · exact ih h { b with line := addPair a b.line }

/-- A held record with the fields of a HAND, before its pairs join. -/
def handFields (f : LineRecord) (b : Board) : Board :=
  { b with line := { b.line with
      length := if f.lengthFinal then f.length else b.line.length
      lengthFinal := b.line.lengthFinal || f.lengthFinal
      unannounced := b.line.unannounced || f.unannounced
      markOverflow := b.line.markOverflow || f.markOverflow } }

theorem mergeLine_grows (f : LineRecord) (b : Board) : (handFields f b).Grows { b with line := mergeLine f b.line } :=
  mergePairs_grows f.marks (handFields f b)

theorem mergeLine_has {m : Mark} {f : LineRecord} (h : m ∈ f.marks) (b : Board) :
    m ∈ (mergeLine f b.line).marks ∨ (mergeLine f b.line).markOverflow = true :=
  mergePairs_has h (handFields f b)

/-! ## HAND at its destination (R13) -/

theorem execHand_heard {src dst : Station} {f : HandFields} {s : State} {start : BitVec 32} (h : s.Hears start) :
    exec (.hand src dst f) s = .next (dropReservation (if ((s.bus.answer.ack && dst.toNat == s.dir.own) && s.joined) = true then
      settle (takeHand start f (commitFrame false src.toNat s)) else commitFrame false src.toNat s)) := by
  show execHand src dst f s = _
  unfold execHand
  rw [committed_heard h, ← commitFrame_joined false src.toNat s]
  rfl

theorem execHand_taken {src dst : Station} {f : HandFields} {s : State} {start : BitVec 32} (h : s.Hears start)
    (a : s.Accepts dst) (j : s.joined = true) : exec (.hand src dst f) s =
      .next (dropReservation (settle (takeHand start f (commitFrame false src.toNat s)))) := by
  rw [execHand_heard h, if_pos]
  obtain ⟨ack, own⟩ := a
  simp [ack, own, j]

theorem execHand_notTaken {src dst : Station} {f : HandFields} {s : State} {start : BitVec 32} (h : s.Hears start)
    (n : s.bus.answer.ack = false ∨ dst.toNat ≠ s.dir.own ∨ s.joined = false) :
    exec (.hand src dst f) s = .next (s.afterCommit false src.toNat) := by
  rw [execHand_heard h, if_neg]
  · rfl
  · rcases n with n | n | n <;> simp [n]

theorem takeHand_unknown {s : State} {f : HandFields} (start : BitVec 32) (h : s.board f.board.toNat = none)
    (l : s.tracker.queue.length < 8) : takeHand start f s = positionEvents [f.board.toNat] (takeInChecks f.board.toNat
      (joinQueue (freshBoard (handLine f) f.pos.toNat start) s)) := by
  refine (if_neg ?_).trans (if_pos l)
  show ¬(s.board f.board.toNat).isSome = true
  rw [h]
  exact Bool.false_ne_true

theorem takeHand_known {s : State} {f : HandFields} (start : BitVec 32) (h : (s.board f.board.toNat).isSome = true) :
    takeHand start f s = positionEvents [f.board.toNat] (updateLine f.board.toNat (mergeLine (handLine f)) s) :=
  if_pos h

theorem joined_sheds (f : HandFields) (b : Board) (s : State) : Sheds (joinQueue b s) (dropReservation (settle
    (positionEvents [f.board.toNat] (takeInChecks f.board.toNat (joinQueue b s))))) :=
  (((bears_takeInChecks _ _).sheds.trans (sheds_positionEvents _ _)).trans (sheds_settle _)).trans (bears_dropReservation _).sheds

/-- The line record of an unknown board, its anchor, and its marks at the head of the list (R13). -/
theorem hand_fresh {f : HandFields} {s : State} {start : BitVec 32} (h : f.board.toNat ∉ s.boardIds) :
    (dropReservation (settle (positionEvents [f.board.toNat] (takeInChecks f.board.toNat
      (joinQueue (freshBoard (handLine f) f.pos.toNat start) s))))).eachBoard f.board.toNat (fun b =>
        b.anchorPos = f.pos.toNat ∧ b.anchorCount = start ∧ b.handed = none ∧
        b.line.recipe = f.recipe.toNat ∧ b.line.version = f.version.toNat ∧ b.line.length = f.length.toNat ∧
        b.line.unannounced = bitOf f.flags.toNat 0 ∧ b.line.lengthFinal = bitOf f.flags.toNat 1 ∧
        (bitOf f.flags.toNat 2 = true → b.line.markOverflow = true) ∧ b.confirmed = false ∧
        f.marks.map (fun p => (⟨p.1.toNat, p.2.toNat⟩ : Mark)) <+: b.line.marks) := by
  have joins := eachBoard_joinQueue (b := freshBoard (handLine f) f.pos.toNat start) (s := s)
    (p := fun x => (freshBoard (handLine f) f.pos.toNat start).Grows x) h ⟨rfl, List.prefix_rfl, id⟩
  refine (joined_sheds f _ s).eachBoard joins fun b x g fresh => ?_
  have grown := fresh.trans g
  obtain ⟨_, recipe, version, length, unannounced, lengthFinal, anchorPos, anchorCount, handed, confirmed, _⟩ := grown.fields
  exact ⟨anchorPos, anchorCount, handed, recipe, version, length, unannounced, lengthFinal, grown.overflow, confirmed, grown.marks⟩

theorem hand_fresh_held {f : HandFields} {s : State} {start : BitVec 32} (h : f.board.toNat ∉ s.boardIds)
    (w : leadingEdge s.cfg.countsPerMetre f.pos.toNat s.tracker.count start ≤ s.cfg.winEnd + f.length.toNat) :
    f.board.toNat ∈ (dropReservation (settle (positionEvents [f.board.toNat] (takeInChecks f.board.toNat
      (joinQueue (freshBoard (handLine f) f.pos.toNat start) s))))).boardIds := by
  refine (joined_sheds f _ s).held ((boardIds_joinQueue _ s _).2 (.inl rfl)) ?_
  refine eachBoard_joinQueue (b := freshBoard (handLine f) f.pos.toNat start) h ?_
  obtain ⟨loader, tracker⟩ := joinQueue_parts (freshBoard (handLine f) f.pos.toNat start) s
  have cfg : (joinQueue (freshBoard (handLine f) f.pos.toNat start) s).cfg = s.cfg := by unfold State.cfg; rw [loader]
  unfold State.pos
  rw [cfg, tracker]
  exact w

theorem boardIds_updateLine {g : LineRecord → LineRecord} (hg : ∀ r, (g r).id = r.id) (id : Nat) (s : State) :
    (updateLine id g s).boardIds = s.boardIds := by
  show (s.tracker.queue.map _).map _ = _
  rw [List.map_map]
  refine List.map_congr_left fun b _ => ?_
  show LineRecord.id (Board.line (if b.line.id == id then _ else b)) = _
  split
  · exact hg b.line
  · rfl

theorem merged_sheds (f : HandFields) (s : State) : Sheds (updateLine f.board.toNat (mergeLine (handLine f)) s) (dropReservation
    (settle (positionEvents [f.board.toNat] (updateLine f.board.toNat (mergeLine (handLine f)) s)))) :=
  ((sheds_positionEvents _ _).trans (sheds_settle _)).trans (bears_dropReservation _).sheds

/-- A record of the id at the commit, with the record that it was before (R163). -/
theorem source_commitFrame {s : State} {src id : Nat} {z : Board} (hz : z ∈ (commitFrame false src s).tracker.queue)
    (hid : z.line.id = id) : ∃ b ∈ s.tracker.queue, b.line.id = id ∧ b.Grows z := by
  obtain ⟨b, hb, g⟩ := (bears_commitFrame false src s).sheds.source z hz
  exact ⟨b, hb, g.id_eq.symm.trans hid, g⟩

/-- A held record with a HAND merged into it (R13). -/
theorem hand_merged (src : Nat) (f : HandFields) (s : State) : (dropReservation (settle (positionEvents [f.board.toNat]
    (updateLine f.board.toNat (mergeLine (handLine f)) (commitFrame false src s))))).eachBoard f.board.toNat (fun x =>
      s.someBoard f.board.toNat (fun b => x.anchorPos = b.anchorPos ∧
        x.anchorCount = b.anchorCount ∧ x.line.recipe = b.line.recipe ∧ x.line.version = b.line.version ∧
        x.line.lengthFinal = (b.line.lengthFinal || bitOf f.flags.toNat 1) ∧
        x.line.unannounced = (b.line.unannounced || bitOf f.flags.toNat 0) ∧
        ((b.line.markOverflow || bitOf f.flags.toNat 2) = true → x.line.markOverflow = true) ∧
        b.line.marks <+: x.line.marks ∧
        (∀ p ∈ f.marks, (⟨p.1.toNat, p.2.toNat⟩ : Mark) ∈ x.line.marks ∨ x.line.markOverflow = true) ∧
        x.line.length = if bitOf f.flags.toNat 1 then f.length.toNat else b.line.length)) := by
  refine (merged_sheds f (commitFrame false src s)).eachBoard (p := fun y => ∃ z ∈ (commitFrame false src s).tracker.queue,
    z.line.id = f.board.toNat ∧ y = { z with line := mergeLine (handLine f) z.line })
    (eachBoard_updateBoard fun z hz hid => ⟨z, hz, hid, rfl⟩) ?_
  rintro _ x g ⟨z, hz, hid, rfl⟩
  obtain ⟨b, hb, hb', old⟩ := source_commitFrame hz hid
  have grown := (mergeLine_grows (handLine f) z).trans g
  obtain ⟨_, recipe, version, length, unannounced, lengthFinal, anchorPos, anchorCount, _⟩ := grown.fields
  obtain ⟨_, recipe', version', length', unannounced', lengthFinal', anchorPos', anchorCount', _⟩ := old.fields
  refine ⟨b, hb, hb', anchorPos.trans anchorPos', anchorCount.trans anchorCount', recipe.trans recipe', version.trans version',
    lengthFinal.trans ?_, unannounced.trans ?_, fun o => grown.overflow ?_, old.marks.trans grown.marks, fun p hp => ?_,
    length.trans ?_⟩
  · rw [← lengthFinal']
    rfl
  · rw [← unannounced']
    rfl
  · rcases Bool.or_eq_true_iff.1 o with o | o
    · exact Bool.or_eq_true_iff.2 (.inl (old.overflow o))
    · exact Bool.or_eq_true_iff.2 (.inr o)
  · exact g.has (mergeLine_has (f := handLine f) (List.mem_map.2 ⟨p, hp, rfl⟩) z)
  · rw [← length']
    rfl

theorem hand_merged_held {src : Nat} {f : HandFields} {s : State} (h : f.board.toNat ∈ s.boardIds)
    (w : s.eachBoard f.board.toNat (fun b =>
      s.pos b ≤ s.cfg.winEnd + (if bitOf f.flags.toNat 1 then f.length.toNat else b.line.length))) :
    f.board.toNat ∈ (dropReservation (settle (positionEvents [f.board.toNat]
      (updateLine f.board.toNat (mergeLine (handLine f)) (commitFrame false src s))))).boardIds := by
  refine (merged_sheds f _).held ?_ (eachBoard_updateBoard fun z hz hid => ?_)
  · rw [boardIds_updateLine (mergeLine_id (handLine f)), boardIds_commitFrame]
    exact h
  · obtain ⟨b, hb, hb', old⟩ := source_commitFrame hz hid
    have bound := w b hb hb'
    obtain ⟨_, _, _, length, _⟩ := (mergeLine_grows (handLine f) z).fields
    obtain ⟨_, _, _, length', _⟩ := old.fields
    have shown : (commitFrame false src s).pos z ≤ (commitFrame false src s).cfg.winEnd + (handFields (handLine f) z).line.length := by
      rw [(bears_commitFrame false src s).sheds.pos old, cfg_commitFrame]
      show s.pos b ≤ s.cfg.winEnd + (if bitOf f.flags.toNat 1 = true then f.length.toNat else z.line.length)
      rw [length']
      exact bound
    rw [← length] at shown
    exact shown

theorem far_takenUnknown (id src : Nat) (b : Board) (s : State) : (dropReservation (settle (positionEvents [id]
    (takeInChecks id (joinQueue b (commitFrame false src s)))))).far = s.far := by
  rw [far_dropReservation, far_settle, far_positionEvents, far_takeInChecks, far_joinQueue, far_commitFrame]

theorem far_takenKnown (id src : Nat) (g : LineRecord → LineRecord) (s : State) : (dropReservation (settle (positionEvents [id]
    (updateLine id g (commitFrame false src s))))).far = s.far := by
  rw [far_dropReservation, far_settle, far_positionEvents]
  exact far_commitFrame false src s

theorem execHand_unknown {src dst : Station} {f : HandFields} {s : State} {start : BitVec 32} (h : s.Hears start)
    (a : s.Accepts dst) (j : s.joined = true) (n : s.board f.board.toNat = none) (l : s.tracker.queue.length < 8) :
    exec (.hand src dst f) s = .next (dropReservation (settle (positionEvents [f.board.toNat] (takeInChecks f.board.toNat
      (joinQueue (freshBoard (handLine f) f.pos.toNat start) (commitFrame false src.toNat s)))))) := by
  have unknown : (commitFrame false src.toNat s).board f.board.toNat = none := by
    rw [← Option.isNone_iff_eq_none, ← Option.not_isSome, board_commitFrame_isSome, n]
    rfl
  rw [execHand_taken h a j, takeHand_unknown start unknown (by rw [length_commitFrame]; exact l)]

theorem execHand_known {src dst : Station} {f : HandFields} {s : State} {start : BitVec 32} (h : s.Hears start)
    (a : s.Accepts dst) (j : s.joined = true) (n : (s.board f.board.toNat).isSome = true) :
    exec (.hand src dst f) s = .next (dropReservation (settle (positionEvents [f.board.toNat]
      (updateLine f.board.toNat (mergeLine (handLine f)) (commitFrame false src.toNat s))))) := by
  rw [execHand_taken h a j, takeHand_known start (by rw [board_commitFrame_isSome]; exact n)]

theorem board_none_iff (s : State) (id : Nat) : s.board id = none ↔ id ∉ s.boardIds := by
  rw [← board_isSome_iff, Option.not_isSome_iff_eq_none]

/-- Settles O17. -/
theorem handCommitsAtItsDestination : Obligations.HandCommitsAtItsDestination := by
  refine ⟨fun src dst f s start h a j n l => ?_, fun src dst f s start h a j n => ?_, fun _ => rfl, fun _ _ => rfl,
    fun m rest x => ⟨rfl, mergePairs_cons m rest x⟩, fun src dst f s start h n => execHand_notTaken h n, takeInChecks_eq,
    fun s id margin b hb hm => sprayPassOver_eq hb hm, freshBoard_eq⟩
  · have unknown : f.board.toNat ∉ (commitFrame false src.toNat s).boardIds := by
      rw [boardIds_commitFrame]
      exact (board_none_iff s _).1 n
    refine ⟨_, execHand_unknown h a j n l, far_takenUnknown _ _ _ s, hand_fresh unknown, rfl, fun w => hand_fresh_held unknown ?_⟩
    rw [cfg_commitFrame, count_commitFrame]
    exact w
  · exact ⟨_, execHand_known h a j n, far_takenKnown _ _ _ s, hand_merged src.toNat f s, rfl,
      hand_merged_held ((board_isSome_iff s _).1 n)⟩

/-! ## AMEND (R21) -/

theorem still_updateLine {s t : State} {id : Nat} {g : LineRecord → LineRecord}
    (hg : ∀ b : Board, boardKeep { boardKeep b with line := g (boardKeep b).line } = boardKeep { b with line := g b.line })
    (h : t.still = s.still) : (updateLine id g t).still = (updateLine id g s).still := still_updateBoard hg h

/-- An AMEND that the station takes no part in: not JOINED, or its own number (R21, log entry 28). -/
theorem takesAmend_not {c : Commit} {src : Station} {s : State} (h : s.joined = false ∨ src.toNat = s.dir.own) :
    takesAmend c src (commitFrame false src.toNat s) = false := by
  unfold takesAmend
  rw [commitFrame_own, commitFrame_joined]
  rcases h with h | h <;> simp [h]

theorem dropped_if_not {p : Bool} (t : State → State) (s : State) (src : Nat) (h : p = false) :
    (Host.Outcome.next (dropReservation (if p = true then t (commitFrame false src s) else commitFrame false src s)) : Result) =
      .next (s.afterCommit false src) := by
  rw [h]
  rfl

theorem execAmendMark_outOfRange {src : Station} {board : Half} {station code : Byte} {s : State} {start : BitVec 32}
    (h : s.Hears start) (k : pairOk station.toNat code.toNat = false) :
    exec (.amendMark src board station code) s = .next (s.afterCommit false src.toNat) := by
  show execAmendMark src board station code s = _
  unfold execAmendMark
  rw [committed_heard h]
  exact dropped_if_not _ s src.toNat (by rw [k, Bool.and_false])

theorem execAmendLength_zero {src : Station} {board : Half} {s : State} {start : BitVec 32} (h : s.Hears start) :
    exec (.amendLength src board 0) s = .next (s.afterCommit false src.toNat) := by
  show execAmendLength src board 0 s = _
  unfold execAmendLength
  rw [committed_heard h]
  exact dropped_if_not _ s src.toNat (Bool.and_false _)

theorem execAmend_notTaken {src : Station} {board length : Half} {station code : Byte} {pos : Pos} {s : State} {start : BitVec 32}
    (h : s.Hears start) (k : s.joined = false ∨ src.toNat = s.dir.own) :
    exec (.amendMark src board station code) s = .next (s.afterCommit false src.toNat) ∧
    exec (.amendLength src board length) s = .next (s.afterCommit false src.toNat) ∧
    exec (.amendPosition src board pos) s = .next (s.afterCommit false src.toNat) := by
  refine ⟨?_, ?_, ?_⟩
  · show execAmendMark src board station code s = _
    unfold execAmendMark
    rw [committed_heard h]
    exact dropped_if_not _ s src.toNat (by rw [takesAmend_not k, Bool.false_and])
  · show execAmendLength src board length s = _
    unfold execAmendLength
    rw [committed_heard h]
    exact dropped_if_not _ s src.toNat (by rw [takesAmend_not k, Bool.false_and])
  · show execAmendPosition src board pos s = _
    unfold execAmendPosition
    rw [committed_heard h]
    exact dropped_if_not (fun u => settle (reanchor board.toNat pos.toNat start u)) s src.toNat (by rw [takesAmend_not k, Bool.false_and])

/-- The pair of an AMEND MARK is held, or the record's marks are full (R19, R21). -/
theorem amendMark_held {src id : Nat} {m : Mark} {s : State} (h : (s.board id).isSome = true) :
    ∃ b, (dropReservation (updateLine id (addPair m) (commitFrame false src s))).board id = some b ∧
      (m ∈ b.line.marks ∨ b.line.markOverflow = true) := by
  obtain ⟨z, hz⟩ := Option.isSome_iff_exists.1 ((board_commitFrame_isSome false src s id).trans h)
  exact ⟨_, board_updateBoard_same (f := fun b => { b with line := addPair m b.line }) (fun b => addPair_id m b.line) hz,
    addPair_has m z.line⟩

theorem still_amendMark (src id : Nat) (m : Mark) (s : State) :
    (dropReservation (updateLine id (addPair m) (commitFrame false src s))).still = s.still := by
  rw [still_dropReservation, (moves_updateLine (addPair_keep m) _).still, still_commitFrame]

theorem still_amendLength (src id length : Nat) (s : State) :
    (dropReservation (updateLine id (fun r => { r with length := length, lengthFinal := true }) (commitFrame false src s))).still =
      (updateLine id (fun r => { r with length := length, lengthFinal := true }) s).still := by
  rw [still_dropReservation]
  exact still_updateLine (by intro _; rfl) (still_commitFrame false src s)

/-- What AMEND POSITION makes of a record (R6, R21). -/
def anchoredAt (pos : Nat) (start : BitVec 32) (b : Board) : Board := { b with anchorPos := pos, anchorCount := start }

theorem reanchored_sheds (id pos : Nat) (start : BitVec 32) (s : State) : Sheds (anchored id (anchoredAt pos start) s)
    (dropReservation (settle (positionEvents [id] (anchored id (anchoredAt pos start) s)))) :=
  ((sheds_positionEvents _ _).trans (sheds_settle _)).trans (bears_dropReservation _).sheds

theorem far_reanchored (src id pos : Nat) (start : BitVec 32) (s : State) :
    (dropReservation (settle (positionEvents [id] (anchored id (anchoredAt pos start) (commitFrame false src s))))).far = s.far := by
  rw [far_dropReservation, far_settle, far_positionEvents]
  exact far_commitFrame false src s

theorem amendPosition_anchor (id pos : Nat) (start : BitVec 32) (s : State) :
    (dropReservation (settle (positionEvents [id] (anchored id (anchoredAt pos start) s)))).eachBoard id
      (fun b => b.anchorPos = pos ∧ b.anchorCount = start) := by
  have set : (anchored id (anchoredAt pos start) s).eachBoard id (fun b => b.anchorPos = pos ∧ b.anchorCount = start) :=
    eachBoard_reorder (eachBoard_updateBoard fun _ _ _ => ⟨rfl, rfl⟩)
  refine (reanchored_sheds id pos start s).eachBoard set fun b x g h => ?_
  obtain ⟨_, _, _, _, _, _, anchorPos, anchorCount, _⟩ := g.fields
  rwa [anchorPos, anchorCount]

theorem amendPosition_held {src id pos : Nat} {start : BitVec 32} {s : State} (h : id ∈ s.boardIds)
    (w : s.eachBoard id (fun b =>
      leadingEdge s.cfg.countsPerMetre pos s.tracker.count start ≤ s.cfg.winEnd + b.line.length)) :
    id ∈ (dropReservation (settle (positionEvents [id]
      (anchored id (anchoredAt pos start) (commitFrame false src s))))).boardIds := by
  refine (reanchored_sheds id pos start _).held ((boardIds_anchored (f := anchoredAt pos start) (fun _ => rfl) _ _).2 ?_)
    (within_anchored (f := anchoredAt pos start) (fun _ => rfl) (fun _ => rfl) (fun _ => rfl) fun z hz hid => ?_)
  · rw [boardIds_commitFrame]
    exact h
  · obtain ⟨b, hb, hb', g⟩ := source_commitFrame hz hid
    obtain ⟨_, _, _, length, _⟩ := g.fields
    rw [cfg_commitFrame, count_commitFrame, length]
    exact w b hb hb'

/-- Settles O18. -/
theorem amendsOfOtherStations : Obligations.AmendsOfOtherStations :=
  ⟨fun _ _ _ _ s _ h j o l k => ⟨_, execAmendMark_taken h j o l, still_amendMark _ _ _ s, rfl, amendMark_held k⟩,
    fun _ _ _ _ _ _ h k => execAmendMark_outOfRange h k,
    fun _ _ _ s _ h j o l => ⟨_, execAmendLength_taken h j o l, still_amendLength _ _ _ s, rfl⟩,
    fun _ _ _ _ h => execAmendLength_zero h,
    fun _ _ _ s start h j o l => ⟨_, execAmendPosition_taken h j o l, far_reanchored _ _ _ start s, rfl,
      amendPosition_anchor _ _ start _, amendPosition_held ((board_isSome_iff s _).1 l)⟩,
    fun _ _ _ _ _ _ _ _ h k => execAmend_notTaken h k, fun _ _ _ _ _ _ _ _ h k => execAmend_absent h k, addPair_eq, updateLine_eq,
    pairOk_iff, execAmend_own⟩

end Sys2Proof.Machine
end

section
/-! PROOFS. ENTRY_LEADING_EDGE (O11). -/

namespace Sys2Proof.Machine

open Sys2Proof

/-! ## The record that enters (R14) -/

/-- The id that the next board takes. -/
def State.nextBoard (s : State) : Nat := freshId s.boardIds 9 s.tracker.nextId

/-- The state with the id taken: the sequence goes on, and the board is under the eye. -/
def State.numbered (s : State) : State :=
  { s with tracker := { s.tracker with nextId := nextBoardId s.nextBoard, underEye := some s.nextBoard } }

/-- The record has joined the queue, and the head admission has counted it. -/
def State.entered (s : State) : State := useAdmission (joinQueue (s.entryBoard s.nextBoard) s.numbered)

/-- The record as it stands in the queue. -/
def State.enteredBoard (s : State) : Board :=
  { s.entryBoard s.nextBoard with slot := s.numbered.resolve s.entryData.1 s.entryData.2.1 }

/-- NO_RECIPE is marked and raised where the board has neither admission nor default. -/
def State.enteredNoted (s : State) : State :=
  if s.entryData.2.2.2.2 = true then occurrence 20 s.nextBoard (addMark s.nextBoard 7 s.entered) else s.entered

theorem enterBoard_eq (s : State) : enterBoard s = settle (workRequests (takeInChecks s.nextBoard s.enteredNoted)) := rfl

theorem useAdmission_parts (s : State) : (useAdmission s).loader = s.loader ∧ (useAdmission s).control = s.control ∧
    (useAdmission s).alarms = s.alarms ∧ (useAdmission s).dir = s.dir ∧
    (useAdmission s).tracker = { s.tracker with admissions := (useAdmission s).tracker.admissions } := by
  obtain ⟨none, some⟩ := useAdmission_cases s
  cases e : s.tracker.admissions with
  | nil =>
    rw [none e]
    exact ⟨rfl, rfl, rfl, rfl, rfl⟩
  | cons a rest =>
    obtain ⟨counts, last⟩ := some a rest e
    by_cases k : 1 < a.count
    · rw [counts k]
      exact ⟨rfl, rfl, rfl, rfl, rfl⟩
    · rw [last (by omega)]
      cases s.resolve a.recipe a.version <;> exact ⟨rfl, rfl, rfl, rfl, rfl⟩

theorem useAdmission_admissions (s : State) : (s.tracker.admissions = [] → (useAdmission s).tracker.admissions = []) ∧
    ∀ (a : Admission) (rest : List Admission), s.tracker.admissions = a :: rest → (useAdmission s).tracker.admissions =
      if 1 < a.count then { a with count := a.count - 1 } :: rest else rest := by
  obtain ⟨none, some⟩ := useAdmission_cases s
  refine ⟨fun e => by rw [none e, e], fun a rest e => ?_⟩
  obtain ⟨counts, last⟩ := some a rest e
  by_cases k : 1 < a.count
  · rw [counts k, if_pos k]
  · rw [last (by omega), if_neg k]
    cases s.resolve a.recipe a.version <;> rfl

theorem joinQueue_rest (b : Board) (s : State) : (joinQueue b s).control = s.control ∧ (joinQueue b s).alarms = s.alarms ∧
    (joinQueue b s).dir = s.dir := by
  rw [joinQueue_eq rfl]
  exact ⟨rfl, rfl, rfl⟩

theorem entered_parts (s : State) : s.entered.loader = s.loader ∧ s.entered.control = s.control ∧ s.entered.alarms = s.alarms ∧
    s.entered.dir = s.dir := by
  obtain ⟨loader, control, alarms, dir, _⟩ := useAdmission_parts (joinQueue (s.entryBoard s.nextBoard) s.numbered)
  obtain ⟨loader', _⟩ := joinQueue_parts (s.entryBoard s.nextBoard) s.numbered
  obtain ⟨control', alarms', dir'⟩ := joinQueue_rest (s.entryBoard s.nextBoard) s.numbered
  exact ⟨loader.trans loader', control.trans control', alarms.trans alarms', dir.trans dir'⟩

theorem entered_tracker (s : State) : s.entered.tracker.count = s.tracker.count ∧
    s.entered.tracker.nextId = nextBoardId s.nextBoard ∧ s.entered.tracker.underEye = some s.nextBoard ∧
    s.entered.tracker.queue = (joinQueue (s.entryBoard s.nextBoard) s.numbered).tracker.queue := by
  obtain ⟨_, _, _, _, tracker⟩ := useAdmission_parts (joinQueue (s.entryBoard s.nextBoard) s.numbered)
  obtain ⟨_, tracker'⟩ := joinQueue_parts (s.entryBoard s.nextBoard) s.numbered
  unfold State.entered
  rw [tracker, tracker']
  exact ⟨rfl, rfl, rfl, rfl⟩

theorem entered_admissions (s : State) : (s.tracker.admissions = [] → s.entered.tracker.admissions = []) ∧
    ∀ (a : Admission) (rest : List Admission), s.tracker.admissions = a :: rest → s.entered.tracker.admissions =
      if 1 < a.count then { a with count := a.count - 1 } :: rest else rest := by
  have same : (joinQueue (s.entryBoard s.nextBoard) s.numbered).tracker.admissions = s.tracker.admissions := by
    obtain ⟨_, tracker⟩ := joinQueue_parts (s.entryBoard s.nextBoard) s.numbered
    rw [tracker]
    rfl
  rw [← same]
  exact useAdmission_admissions _

theorem mem_entered (s : State) (x : Board) : x ∈ s.entered.tracker.queue ↔ x = s.enteredBoard ∨ x ∈ s.tracker.queue := by
  obtain ⟨_, _, _, queue⟩ := entered_tracker s
  rw [queue]
  exact mem_joinQueue _ _ _

theorem boardIds_entered (s : State) (n : Nat) : n ∈ s.entered.boardIds ↔ n = s.nextBoard ∨ n ∈ s.boardIds := by
  obtain ⟨_, _, _, queue⟩ := entered_tracker s
  unfold State.boardIds
  rw [queue]
  exact boardIds_joinQueue _ _ _

/-- A place is free, so the id that is taken is not held (R14). -/
theorem nextBoard_fresh {s : State} (h : s.freePlaces ≠ 0) : s.nextBoard ∉ s.boardIds := by
  refine freshId_not_held ?_ _
  rw [freePlaces_eq] at h
  unfold State.boardIds
  rw [List.length_map]
  omega

theorem board_entered {s : State} (h : s.freePlaces ≠ 0) : s.entered.board s.nextBoard = some s.enteredBoard := by
  cases e : s.entered.board s.nextBoard with
  | none => exact absurd ((boardIds_entered s _).2 (.inl rfl)) ((board_none_iff _ _).1 e)
  | some x =>
    rcases (mem_entered s x).1 (board_mem e) with rfl | hx
    · rfl
    · exact absurd (List.mem_map.2 ⟨x, hx, board_id e⟩) (nextBoard_fresh h)

/-! ## What follows the entry -/

theorem bears_enteredNoted (s : State) : Bears s.entered s.enteredNoted :=
  .ite _ ((bears_addMark _ 7 _).trans (bears_occurrence 20 _ _)) (.refl _)

theorem bears_taken (id : Nat) (s : State) : Bears s (settle (workRequests (takeInChecks id s))) :=
  ((bears_takeInChecks id s).trans (bears_workRequests _)).trans (bears_settle _)

theorem bears_enterBoard (s : State) : Bears s.entered (enterBoard s) := by
  rw [enterBoard_eq]
  exact (bears_enteredNoted s).trans (bears_taken _ _)

/-- The fields of the record that entered, at any later moment of the event (R2, R14). -/
theorem enteredBoard_grown {s : State} {x : Board} (g : s.enteredBoard.Grows x) : x.line.id = s.nextBoard ∧ x.anchorPos = 0 ∧
    x.anchorCount = s.tracker.count ∧ x.confirmed = true ∧ x.line.recipe = s.entryData.1 ∧ x.line.version = s.entryData.2.1 ∧
    x.line.length = s.entryData.2.2.1 ∧ x.admitted = s.entryData.2.2.2.1 ∧ x.line.unannounced = s.tracker.admissions.isEmpty := by
  obtain ⟨id, recipe, version, length, unannounced, _, anchorPos, anchorCount, _, confirmed, admitted⟩ := g.fields
  exact ⟨id, anchorPos, anchorCount, confirmed, recipe, version, length, admitted, unannounced⟩

theorem enterBoard_makes (s : State) : (enterBoard s).tracker.nextId = nextBoardId s.nextBoard ∧
    (enterBoard s).tracker.underEye = some s.nextBoard ∧
    (∀ n, n ∈ (enterBoard s).boardIds ↔ n = s.nextBoard ∨ n ∈ s.boardIds) ∧
    (enterBoard s).someBoard s.nextBoard (fun b =>
      b.anchorPos = 0 ∧ b.anchorCount = s.tracker.count ∧ b.confirmed = true ∧ b.line.recipe = s.entryData.1 ∧
      b.line.version = s.entryData.2.1 ∧ b.line.length = s.entryData.2.2.1 ∧ b.admitted = s.entryData.2.2.2.1 ∧
      b.line.unannounced = s.tracker.admissions.isEmpty) ∧
    (s.tracker.admissions = [] → (enterBoard s).tracker.admissions = []) ∧
    (∀ (a : Admission) (rest : List Admission), s.tracker.admissions = a :: rest →
      (enterBoard s).tracker.admissions = if 1 < a.count then { a with count := a.count - 1 } :: rest else rest) := by
  obtain ⟨_, nextId, underEye, admissions⟩ := (bears_enterBoard s).tracker
  obtain ⟨_, nextId', underEye', _⟩ := entered_tracker s
  refine ⟨nextId.trans nextId', underEye.trans underEye', fun n => ?_, ?_, ?_⟩
  · rw [(bears_enterBoard s).boardIds, boardIds_entered]
  · obtain ⟨x, hx, g⟩ := (bears_enterBoard s).boards.mem_left ((mem_entered s _).2 (.inl rfl))
    obtain ⟨id, fields⟩ := enteredBoard_grown g
    exact ⟨x, hx, id, fields⟩
  · rw [admissions]
    exact entered_admissions s

/-! ## NO_RECIPE at the entry (R14, R29) -/

theorem calm_takeInChecks (id : Nat) (s : State) : (takeInChecks id s).calm = s.calm := by
  have passed : (sprayPassOver id s).calm = s.calm := by
    unfold sprayPassOver
    split
    · rfl
    · exact calm_ite _ ((calm_flowCheck _ _).trans (calm_markNotFluxed _ _)) rfl
  have noted (u : State) : (noRecipeMark id u).calm = u.calm := by
    unfold noRecipeMark
    split
    · rfl
    · exact calm_ite _ (calm_addMark id 7 u) rfl
  have contact (u : State) : (contactCheck id u).calm = u.calm := by
    unfold contactCheck
    split
    · rfl
    · exact calm_ite _ (calm_ite _ (calm_addMark id 5 _) rfl) rfl
  rw [takeInChecks_eq]
  exact (calm_foldl (fun s c => calm_addMark id c s) _ _).trans ((contact _).trans ((noted _).trans passed))

theorem record_of_calm {s t : State} (h : t.calm = s.calm) (i : Nat) : t.record i = s.record i :=
  (Spares.of_calm (p := fun _ => False) h).record i id

theorem record_workRequests (s : State) (i : Nat) : (workRequests s).record i = s.record i := rfl

/-- After the entry only NO_RECIPE itself may have changed its record (R14). -/
theorem record_taken {k : Nat} (h16 : k ≠ 16) (h19 : k ≠ 19) (id : Nat) (s : State) :
    (settle (workRequests (takeInChecks id s))).record k = s.record k := by
  rw [record_settle h16 h19, record_workRequests]
  exact record_of_calm (calm_takeInChecks id s) k

theorem record_entered (s : State) (i : Nat) : s.entered.record i = s.record i := by
  obtain ⟨_, _, alarms, _⟩ := entered_parts s
  unfold State.record
  rw [alarms]

theorem enteredNoted_known {s : State} (h : s.entryData.2.2.2.2 = false) : s.enteredNoted = s.entered :=
  if_neg (by rw [h]; exact Bool.false_ne_true)

theorem record_enterBoard_known {s : State} (h : s.entryData.2.2.2.2 = false) : (enterBoard s).record 20 = s.record 20 := by
  rw [enterBoard_eq, record_taken (by decide) (by decide), enteredNoted_known h, record_entered]

/-- With an admission, or with a default recipe, the board has a recipe (R14). -/
theorem entryData_known {s : State} (h : s.tracker.admissions ≠ [] ∨ ∃ sl ∈ s.recipes.slots, sl.isDefault = true) :
    s.entryData.2.2.2.2 = false := by
  obtain ⟨admitted, default, _⟩ := entryData_cases s
  cases e : s.tracker.admissions with
  | cons a rest => rw [admitted a rest e]
  | nil =>
    obtain ⟨sl, hsl, hd⟩ := h.resolve_left (fun k => k e)
    obtain ⟨x, hx⟩ := Option.isSome_iff_exists.1 (List.find?_isSome.2 ⟨sl, hsl, hd⟩)
    rw [default x e hx]

theorem record_marked (s : State) (i : Nat) : (addMark s.nextBoard 7 s.entered).record i = s.record i := by
  rw [record_of_calm (calm_addMark _ 7 _), record_entered]

/-- NO_RECIPE 7 is added to the record where the window takes it in (R19, R29). -/
theorem marked_board {s : State} (hp : s.freePlaces ≠ 0) : ∃ y ∈ (addMark s.nextBoard 7 s.entered).tracker.queue, s.enteredBoard.Grows y ∧
    (s.cfg.winStart = 0 → (⟨s.dir.own, 7⟩ : Mark) ∈ y.line.marks) := by
  by_cases z : s.cfg.winStart = 0
  · obtain ⟨loader, _, _, dir⟩ := entered_parts s
    have cfg : s.entered.cfg = s.cfg := by unfold State.cfg; rw [loader]
    have seen : s.entered.inWindow s.enteredBoard = true := by
      refine (inWindow_iff _ _).2 ⟨by rw [cfg, z]; exact Nat.zero_le _, ?_⟩
      obtain ⟨count, _⟩ := entered_tracker s
      have atEye : s.entered.pos s.enteredBoard = 0 := by
        show leadingEdge _ 0 s.entered.tracker.count s.tracker.count = 0
        unfold leadingEdge
        rw [count, BitVec.sub_self]
        simp [clampNat]
      rw [atEye]
      exact Nat.zero_le _
    have marked : (addMark s.nextBoard 7 s.entered).board s.nextBoard =
        some { s.enteredBoard with line := addPair ⟨s.entered.dir.own, 7⟩ s.enteredBoard.line } := by
      rw [addMark_added (board_entered hp) seen List.not_mem_nil, queueOrDrop_board]
      exact board_updateBoard_same (f := fun b => { b with line := addPair ⟨s.entered.dir.own, 7⟩ b.line })
        (fun b => addPair_id _ b.line) (board_entered hp)
    refine ⟨_, board_mem marked, addPair_grows _ _, fun _ => ?_⟩
    rw [dir]
    exact List.mem_singleton_self _
  · obtain ⟨y, hy, g⟩ := (bears_addMark s.nextBoard 7 s.entered).boards.mem_left ((mem_entered s _).2 (.inl rfl))
    exact ⟨y, hy, g, fun k => absurd k z⟩

section
variable {s : State} (h : s.entryData.2.2.2.2 = true)
include h

theorem enteredNoted_unknown : s.enteredNoted = occurrence 20 s.nextBoard (addMark s.nextBoard 7 s.entered) := if_pos h

theorem record_enterBoard_stands (k : s.alarmState 20 ≠ .quiet) : (enterBoard s).record 20 = s.record 20 := by
  rw [enterBoard_eq, record_taken (by decide) (by decide), enteredNoted_unknown h, occurrence_none, record_marked s]
  unfold State.alarmState
  rw [record_marked s]
  exact k

theorem record_enterBoard_latched (hj : s.joined = true) (k : s.alarmState 20 = .quiet) (l : 20 < s.alarms.records.length) :
    (enterBoard s).alarmState 20 = .latched ∧ ((enterBoard s).record 20).value = recordValue s.nextBoard := by
  obtain ⟨_, control, alarms, _⟩ := entered_parts s
  have calm := calm_addMark s.nextBoard 7 s.entered
  simp only [State.calm, Prod.mk.injEq] at calm
  obtain ⟨_, control', _, _, alarms', _⟩ := calm
  have joined : (addMark s.nextBoard 7 s.entered).joined = true := by
    unfold State.joined
    rw [control', control]
    exact hj
  have quiet : (addMark s.nextBoard 7 s.entered).alarmState 20 = .quiet := by
    unfold State.alarmState
    rw [record_marked s]
    exact k
  have latched := occurrence_latched (s.nextBoard : Int) (by decide) joined quiet (by rw [alarms', alarms]; exact l)
  unfold State.alarmState at latched ⊢
  rw [enterBoard_eq, record_taken (by decide) (by decide), enteredNoted_unknown h]
  exact latched

theorem enterBoard_marked (hp : s.freePlaces ≠ 0) : ∃ x ∈ (enterBoard s).tracker.queue, s.enteredBoard.Grows x ∧
    (s.cfg.winStart = 0 → (⟨s.dir.own, 7⟩ : Mark) ∈ x.line.marks) := by
  obtain ⟨y, hy, g, m⟩ := marked_board hp
  have later : Bears (addMark s.nextBoard 7 s.entered) (enterBoard s) := by
    rw [enterBoard_eq, enteredNoted_unknown h]
    exact (bears_occurrence 20 _ _).trans (bears_taken _ _)
  obtain ⟨x, hx, g'⟩ := later.boards.mem_left hy
  exact ⟨x, hx, g.trans g', fun z => g'.marks.subset (m z)⟩

end

/-! ## The command -/

theorem entry_enters {s : State} (hj : s.joined = true) (hr : s.cfg.roles.entry = true) (hp : s.freePlaces ≠ 0) :
    exec .entryLeadingEdge s = .next (enterBoard s) := by
  show execEntryLeadingEdge s = _
  unfold execEntryLeadingEdge
  rw [if_neg (by simp [hj]), if_neg (by simp [hr]), if_neg hp]

theorem entry_full {s : State} (hj : s.joined = true) (hr : s.cfg.roles.entry = true) (hp : s.freePlaces = 0) :
    exec .entryLeadingEdge s = .next (settle (occurrence 17 s.tracker.queue.length (s.withUnderEye none))) := by
  show execEntryLeadingEdge s = _
  unfold execEntryLeadingEdge
  rw [if_neg (by simp [hj]), if_neg (by simp [hr]), if_pos hp]

theorem entry_unjoined {s : State} (hj : s.joined = false) : exec .entryLeadingEdge s = .next (s.withUnderEye none) :=
  if_pos (by rw [hj]; rfl)

theorem entry_elsewhere {s : State} (hj : s.joined = true) (hr : s.cfg.roles.entry = false) :
    exec .entryLeadingEdge s = .next s := by
  show execEntryLeadingEdge s = _
  unfold execEntryLeadingEdge
  rw [if_neg (by simp [hj]), if_pos (by simp [hr])]

/-- A board with neither admission nor default recipe (R14, R29). -/
theorem enterBoard_unknown {s : State} (hj : s.joined = true) (hp : s.freePlaces ≠ 0) (ha : s.tracker.admissions = [])
    (hd : ∀ sl ∈ s.recipes.slots, sl.isDefault = false) :
    (enterBoard s).someBoard s.nextBoard (fun b => b.line.recipe = 0 ∧ b.line.version = 0 ∧ b.line.length = 1 ∧
      (s.cfg.winStart = 0 → (⟨s.dir.own, 7⟩ : Mark) ∈ b.line.marks)) ∧
    (s.alarmState 20 ≠ .quiet → (enterBoard s).record 20 = s.record 20) ∧
    (s.alarmState 20 = .quiet → 20 < s.alarms.records.length → (enterBoard s).alarmState 20 = .latched ∧
      ((enterBoard s).record 20).value = recordValue s.nextBoard) := by
  obtain ⟨_, _, unknown⟩ := entryData_cases s
  have data := unknown ha hd
  have noted : s.entryData.2.2.2.2 = true := by rw [data]
  refine ⟨?_, record_enterBoard_stands noted, record_enterBoard_latched noted hj⟩
  obtain ⟨x, hx, g, marked⟩ := enterBoard_marked noted hp
  obtain ⟨id, _, _, _, recipe, version, length, _⟩ := enteredBoard_grown g
  rw [data] at recipe version length
  exact ⟨x, hx, id, recipe, version, length, marked⟩

/-- Settles O11. -/
theorem entryLeadingEdgeMakesABoard : Obligations.EntryLeadingEdgeMakesABoard := by
  refine ⟨fun s hj hr hp => ⟨nextBoard_fresh hp, _, entry_enters hj hr hp, far_enterBoard s, enterBoard_makes s⟩,
    fun s hj hr hp => ⟨_, entry_full hj hr hp, ?_⟩, fun s => entry_unjoined, fun s => entry_elsewhere,
    fun s hj hr hp => ⟨_, entry_enters hj hr hp, fun known => record_enterBoard_known (entryData_known known),
      enterBoard_unknown hj hp⟩, entryData_cases, freshId_cases, nextBoardId_eq, freePlaces_eq, useAdmission_cases, dropRef_cases,
    execEntryLeadingEdge_enters⟩
  obtain ⟨steady, stands, latches⟩ := untracked_board (s.withUnderEye none)
  exact ⟨steady, rfl, stands, latches hj⟩

end Sys2Proof.Machine
end

section
/-! PROOFS. RECIPE, DROP and ADMIT at their commits (O19). -/

namespace Sys2Proof.Machine

open Sys2Proof

/-! ## The case of a RECIPE (R30) -/

theorem unposted_iff (s : State) (n v : Nat) :
    (∀ sl ∈ s.recipes.slots, ¬(sl.state ≠ .free ∧ sl.number = n ∧ sl.version = v)) ↔
      ¬s.recipes.slots.any (Slot.holdsVersion n v) = true := by
  rw [posted_iff]
  simp only [not_exists, not_and]

theorem recipeCase_posted {s : State} {n v : Nat} (h : s.recipes.slots.any (Slot.holdsVersion n v) = true) :
    s.recipeCase n v = .a := if_pos h

/-- No CURRENT slot has the number: case B with at most one RETIRING slot, case G with two. -/
theorem recipeCase_new {s : State} {n v : Nat} (h : ¬s.recipes.slots.any (Slot.holdsVersion n v) = true)
    (new : s.recipes.slots.findIdx? (Slot.isCurrent n) = none) :
    s.recipeCase n v = if (s.recipes.slots.filter (Slot.isRetiring n)).length ≤ 1 then .b else .g := by
  unfold State.recipeCase
  rw [if_neg h, List.find?_eq_bind_findIdx?_getElem?, new]
  generalize (s.recipes.slots.filter (Slot.isRetiring n)).length = k
  match k with
  | 0 | 1 | k + 2 => simp

/-- The CURRENT slot of the number decides between replacing and retiring, by whether it is in use. -/
theorem recipeCase_current {s : State} {n v old : Nat} {cur : Slot}
    (h : ¬s.recipes.slots.any (Slot.holdsVersion n v) = true)
    (found : s.recipes.slots.findIdx? (Slot.isCurrent n) = some old) (held : s.recipes.slots[old]? = some cur) :
    s.recipeCase n v = if (s.recipes.slots.filter (Slot.isRetiring n)).length = 0
      then if s.slotInUse cur = true then .d else .c
      else if s.slotInUse cur = true then .f else .e := by
  unfold State.recipeCase
  rw [if_neg h, List.find?_eq_bind_findIdx?_getElem?, found, Option.bind_some, held]
  generalize (s.recipes.slots.filter (Slot.isRetiring n)).length = k
  match k with
  | 0 | k + 1 => simp

/-! ## The slots after a RECIPE (R31) -/

theorem modify_const {α : Type} (l : List α) (i : Nat) (a : α) : l.modify i (fun _ => a) = l.set i a :=
  @List.modify_eq_set α ⟨a⟩ (fun _ => a) i l

theorem modify_at {α : Type} {l : List α} {i : Nat} {a : α} (f : α → α) (h : l[i]? = some a) : l.modify i f = l.set i (f a) := by
  rw [@List.modify_eq_set α ⟨a⟩ f i l, h, Option.getD_some]

theorem fillFree_eq (n v : Nat) (d : Bool) (body : RecipeBody) (s : State) : fillFree n v d body s =
    match s.recipes.slots.findIdx? (fun sl => sl.state == .free) with
    | some new => s.withSlots (s.recipes.slots.set new ⟨.current, n, v, 0, d, body⟩)
    | none => s := by
  unfold fillFree State.findSlot
  cases s.recipes.slots.findIdx? (fun sl => sl.state == .free) with
  | none => rfl
  | some new => exact congrArg s.withSlots (modify_const _ _ _)

/-- A slot that leaves CURRENT is FREE at once where nothing refers to it (R28). -/
theorem freeIfRetired_retired (cur : Slot) : freeIfRetired { cur with state := .retiring, isDefault := false } =
    if cur.refs = 0 then .blank else { cur with state := .retiring, isDefault := false } := by
  unfold freeIfRetired
  simp

/-- Case D: the CURRENT slot retires as a FREE slot takes the new version with its DEFAULT flag. -/
theorem postRecipe_retires {s : State} {n v old : Nat} {cur : Slot} (body : RecipeBody) (h : s.recipeCase n v = .d)
    (found : s.recipes.slots.findIdx? (Slot.isCurrent n) = some old) (held : s.recipes.slots[old]? = some cur) :
    postRecipe n v body s = match s.recipes.slots.findIdx? (fun sl => sl.state == .free) with
      | some new => s.withSlots ((s.recipes.slots.set new ⟨.current, n, v, 0, cur.isDefault, body⟩).set old
          (if cur.refs = 0 then .blank else { cur with state := .retiring, isDefault := false }))
      | none => s := by
  unfold postRecipe State.findSlot
  rw [h, found]
  cases free : s.recipes.slots.findIdx? (fun sl => sl.state == .free) with
  | none => rfl
  | some new =>
    have apart : new ≠ old := by
      rintro rfl
      obtain ⟨_, isFree, _⟩ := List.findIdx?_eq_some_iff_getElem.1 free
      obtain ⟨_, isCurrent, _⟩ := List.findIdx?_eq_some_iff_getElem.1 found
      simp_all [Slot.isCurrent]
    have kept : (s.recipes.slots.set new ⟨.current, n, v, 0, cur.isDefault, body⟩)[old]? = some cur := by
      rw [List.getElem?_set_ne apart, held]
    have flag : (s.slot old).isDefault = cur.isDefault := by
      unfold State.slot
      rw [List.getD_eq_getElem?_getD, held]
      rfl
    show s.withSlots ((s.recipes.slots.modify new _).modify old _) = _
    rw [modify_const, flag, modify_at _ kept, freeIfRetired_retired]

/-- A RECIPE for a number without a CURRENT slot, and a repeat (R31). -/
theorem postRecipe_new (n v : Nat) (body : RecipeBody) (s : State) :
    ((∃ sl ∈ s.recipes.slots, sl.state ≠ .free ∧ sl.number = n ∧ sl.version = v) → postRecipe n v body s = s) ∧
    ((∀ sl ∈ s.recipes.slots, ¬(sl.state ≠ .free ∧ sl.number = n ∧ sl.version = v)) →
      s.recipes.slots.findIdx? (Slot.isCurrent n) = none →
      ((s.recipes.slots.filter (Slot.isRetiring n)).length ≤ 1 →
        postRecipe n v body s = match s.recipes.slots.findIdx? (fun sl => sl.state == .free) with
          | some new => s.withSlots (s.recipes.slots.set new ⟨.current, n, v, 0, false, body⟩)
          | none => s) ∧
      (2 ≤ (s.recipes.slots.filter (Slot.isRetiring n)).length → postRecipe n v body s = s)) := by
  refine ⟨fun h => ?_, fun h new => ?_⟩
  · unfold postRecipe
    rw [recipeCase_posted ((posted_iff s n v).2 h)]
  · have c := recipeCase_new ((unposted_iff s n v).1 h) new
    refine ⟨fun few => ?_, fun many => ?_⟩
    · rw [← fillFree_eq]
      unfold postRecipe
      rw [c, if_pos few]
    · unfold postRecipe
      rw [c, if_neg (by omega)]

/-- A new version of a number that has a CURRENT slot (R31). -/
theorem postRecipe_current (n v old : Nat) (cur : Slot) (body : RecipeBody) (s : State)
    (found : s.recipes.slots.findIdx? (Slot.isCurrent n) = some old) (held : s.recipes.slots[old]? = some cur)
    (h : ∀ sl ∈ s.recipes.slots, ¬(sl.state ≠ .free ∧ sl.number = n ∧ sl.version = v)) :
    (cur.refs = 0 → (s.cfg.roles.entry = false ∨ cur.isDefault = false) →
      postRecipe n v body s = s.withSlots (s.recipes.slots.map (fun sl =>
        if sl.isCurrent n then { sl with version := v, body := body } else sl))) ∧
    (0 < cur.refs ∨ (s.cfg.roles.entry = true ∧ cur.isDefault = true) →
      ((s.recipes.slots.filter (Slot.isRetiring n)).length = 0 →
        postRecipe n v body s = match s.recipes.slots.findIdx? (fun sl => sl.state == .free) with
          | some new => s.withSlots ((s.recipes.slots.set new ⟨.current, n, v, 0, cur.isDefault, body⟩).set old
              (if cur.refs = 0 then .blank else { cur with state := .retiring, isDefault := false }))
          | none => s) ∧
      (0 < (s.recipes.slots.filter (Slot.isRetiring n)).length → postRecipe n v body s = s)) := by
  have c := recipeCase_current ((unposted_iff s n v).1 h) found held
  refine ⟨fun unreferred notDefault => ?_, fun used => ⟨fun noneRetiring => ?_, fun someRetiring => ?_⟩⟩
  · have unused : ¬s.slotInUse cur = true := by
      rw [slotInUse_iff]
      rcases notDefault with k | k <;> simp [unreferred, k]
    rw [if_neg unused, if_neg unused] at c
    unfold postRecipe
    split at c <;> rw [c] <;> rfl
  · rw [if_pos noneRetiring, if_pos ((slotInUse_iff s cur).2 used)] at c
    exact postRecipe_retires body c found held
  · rw [if_neg (Nat.ne_of_gt someRetiring), if_pos ((slotInUse_iff s cur).2 used)] at c
    unfold postRecipe
    rw [c]

/-! ## A RECIPE reads the store and the roles, and reaches the store alone -/

theorem fillFree_recipes {s t : State} (h : t.recipes = s.recipes) (n v : Nat) (d : Bool) (body : RecipeBody) :
    fillFree n v d body t = { t with recipes := (fillFree n v d body s).recipes } := by
  rw [fillFree_eq, fillFree_eq, h]
  cases s.recipes.slots.findIdx? (fun sl => sl.state == .free) with
  | none => rw [← h]
  | some new => unfold State.withSlots; rw [h]

theorem postRecipe_recipes {s t : State} (h : t.recipes = s.recipes) (hc : t.cfg = s.cfg) (n v : Nat) (body : RecipeBody) :
    postRecipe n v body t = { t with recipes := (postRecipe n v body s).recipes } := by
  have sameCase : t.recipeCase n v = s.recipeCase n v := by
    unfold State.recipeCase State.slotInUse
    rw [h, hc]
  unfold postRecipe
  rw [sameCase]
  cases s.recipeCase n v with
  | a | f | g => show t = { t with recipes := s.recipes }; rw [← h]
  | b => exact fillFree_recipes h n v false body
  | c | e => show updateCurrent n _ t = _; unfold updateCurrent State.withSlots; rw [h]
  | d =>
    unfold State.findSlot
    rw [h]
    cases s.recipes.slots.findIdx? (Slot.isCurrent n) with
    | none => show t = { t with recipes := s.recipes }; rw [← h]
    | some old =>
      cases s.recipes.slots.findIdx? (fun sl => sl.state == .free) with
      | none => show t = { t with recipes := s.recipes }; rw [← h]
      | some new => unfold updateSlot State.withSlots State.slot; rw [h]

theorem moveDefault_recipes {s t : State} (h : t.recipes = s.recipes) (n v : Nat) :
    moveDefault n v t = { t with recipes := (moveDefault n v s).recipes } := by
  unfold moveDefault State.findSlot State.withSlots
  rw [h]
  cases s.recipes.slots.findIdx? (fun sl => sl.isCurrent n && sl.version == v) with
  | none => rw [← h]
  | some i => rfl

theorem takeRecipe_outOfRange {f : RecipeFields} (h : recipeFieldsInRange f = false) (s : State) : takeRecipe f s = s :=
  if_neg (by rw [h]; exact Bool.false_ne_true)

/-- What an in-range RECIPE does, with and without its DEFAULT flag (R31, R32). -/
theorem takeRecipe_inRange (f : RecipeFields) (s : State) (h : recipeFieldsInRange f = true) :
    (bitOf f.flags.toNat 0 = false →
      takeRecipe f s = postRecipe f.number.toNat f.version.toNat (recipeBodyOf f) s) ∧
    (bitOf f.flags.toNat 0 = true →
      takeRecipe f s = moveDefault f.number.toNat f.version.toNat
        (postRecipe f.number.toNat f.version.toNat (recipeBodyOf f) s)) := by
  unfold takeRecipe
  rw [if_pos h]
  exact ⟨fun d => if_neg (by rw [d]; exact Bool.false_ne_true), fun d => if_pos d⟩

theorem takeRecipe_recipes {s t : State} (h : t.recipes = s.recipes) (hc : t.cfg = s.cfg) (f : RecipeFields) :
    takeRecipe f t = { t with recipes := (takeRecipe f s).recipes } := by
  cases r : recipeFieldsInRange f with
  | false =>
    rw [takeRecipe_outOfRange r, takeRecipe_outOfRange r, ← h]
  | true =>
    have posted := postRecipe_recipes h hc f.number.toNat f.version.toNat (recipeBodyOf f)
    have store : (postRecipe f.number.toNat f.version.toNat (recipeBodyOf f) t).recipes =
        (postRecipe f.number.toNat f.version.toNat (recipeBodyOf f) s).recipes := by rw [posted]
    obtain ⟨plainT, defaultT⟩ := takeRecipe_inRange f t r
    obtain ⟨plainS, defaultS⟩ := takeRecipe_inRange f s r
    cases d : bitOf f.flags.toNat 0 with
    | false => rw [plainT d, plainS d, posted]
    | true =>
      rw [defaultT d, defaultS d, moveDefault_recipes store, posted]

/-! ## The three commits -/

/-- A change that the still part follows comes out the same after the common part of a commit as before it. -/
theorem still_afterCommit {g : State → State} (h : ∀ x : State, (g x).still = g x.still) (src : Nat) (s : State) :
    (dropReservation (g (commitFrame false src s))).still = (g s).still := by
  rw [still_dropReservation, h, still_commitFrame, ← h]

theorem still_takeRecipe (f : RecipeFields) (s : State) : (takeRecipe f s).still = takeRecipe f s.still := by
  rw [takeRecipe_recipes (s := s) (t := s) rfl rfl, takeRecipe_recipes (s := s) (t := s.still) rfl rfl]
  rfl

theorem still_recipe (f : RecipeFields) (src : Nat) (s : State) :
    (dropReservation (takeRecipe f (commitFrame false src s))).still = { s with recipes := (takeRecipe f s).recipes }.still := by
  rw [still_afterCommit (still_takeRecipe f), takeRecipe_recipes (s := s) (t := s) rfl rfl]

theorem findSlot_commitFrame (own : Bool) (src : Nat) (s : State) (p : Slot → Bool) :
    (commitFrame own src s).findSlot p = s.findSlot p :=
  commitFrame_read own src s (fun x => x.findSlot p) (fun _ => rfl)

theorem takeAdmit_bound {n i : Nat} {s : State} (h : s.findSlot (Slot.isCurrent n) = some i) (length count : Nat) :
    takeAdmit n length count s = { s with
      recipes := { s.recipes with slots := s.recipes.slots.modify i (fun sl => { sl with refs := sl.refs + 1 }) }
      tracker := { s.tracker with
        admissions := s.tracker.admissions ++ [(⟨n, (s.slot i).version, length, count⟩ : Admission)] } } := by
  unfold takeAdmit
  rw [h]
  rfl

theorem takeAdmit_none {n : Nat} {s : State} (h : s.findSlot (Slot.isCurrent n) = none) (length count : Nat) :
    takeAdmit n length count s = s := by
  unfold takeAdmit
  rw [h]

theorem still_takeAdmit (n length count : Nat) (s : State) :
    (takeAdmit n length count s).still = takeAdmit n length count s.still := by
  have same : s.still.findSlot (Slot.isCurrent n) = s.findSlot (Slot.isCurrent n) := rfl
  cases h : s.findSlot (Slot.isCurrent n) with
  | none => rw [takeAdmit_none h, takeAdmit_none (same.trans h)]
  | some i =>
    rw [takeAdmit_bound h, takeAdmit_bound (same.trans h)]
    rfl

/-! ## Commits with the common part alone -/

theorem takesPanel_not {src : Station} {s : State} (h : s.joined = false ∨ (src.toNat ≠ 30 ∧ src.toNat ≠ 31)) :
    (commitFrame false src.toNat s).takesPanel src = false := by
  unfold State.takesPanel isPanel
  rw [commitFrame_joined]
  rcases h with h | ⟨h, k⟩
  · simp [h]
  · simp [h, k]

theorem execRecipe_plain {src : Station} {f : RecipeFields} {s : State} {start : BitVec 32} (h : s.Hears start)
    (k : recipeFieldsInRange f = false ∨ s.joined = false ∨ (src.toNat ≠ 30 ∧ src.toNat ≠ 31)) :
    exec (.recipe src f) s = .next (s.afterCommit false src.toNat) := by
  show execRecipe src f s = _
  unfold execRecipe panelFrame
  rw [committed_heard h]
  rcases k with range | k
  · rw [takeRecipe_outOfRange range, ite_self]
    rfl
  · exact dropped_if_not (takeRecipe f) s src.toNat (takesPanel_not k)

theorem execDrop_plain {src : Station} {n : Byte} {s : State} {start : BitVec 32} (h : s.Hears start)
    (k : s.joined = false ∨ (src.toNat ≠ 30 ∧ src.toNat ≠ 31)) :
    exec (.drop src n) s = .next (s.afterCommit false src.toNat) := by
  show execDrop src n s = _
  unfold execDrop panelFrame
  rw [committed_heard h]
  exact dropped_if_not (takeDrop n.toNat) s src.toNat (takesPanel_not k)

theorem execAdmit_plain {src dst : Station} {n count : Byte} {length : Half} {s : State} {start : BitVec 32} (h : s.Hears start)
    (k : s.bus.answer.ack = false ∨ dst.toNat ≠ s.dir.own ∨ s.findSlot (Slot.isCurrent n.toNat) = none) :
    exec (.admitBoards src dst n length count) s = .next (s.afterCommit false src.toNat) := by
  show execAdmit src dst n length count s = _
  unfold execAdmit panelFrame
  rw [committed_heard h]
  rcases or_assoc.2 k with notMine | noSlot
  · exact dropped_if_not (takeAdmit n.toNat length.toNat count.toNat) s src.toNat (not_forMe notMine)
  · rw [takeAdmit_none ((findSlot_commitFrame false src.toNat s _).trans noSlot), ite_self]
    rfl

/-- Settles O19. -/
theorem recipesArePostedAndBound : Obligations.RecipesArePostedAndBound := by
  refine ⟨fun src f s start h j k => ⟨_, execRecipe_heard src f s start h j k, rfl, still_recipe f src.toNat s⟩,
    takeRecipe_inRange, postRecipe_new, postRecipe_current, fun _ _ _ => rfl, fun src n s u start h j k hu => ?_,
    fun src dst n count length s u start i h a found hu => ?_, fun _ _ _ _ => execRecipe_plain, fun _ _ _ _ => execDrop_plain,
    fun _ _ _ _ _ _ _ => execAdmit_plain, recipeFields_eq, isCurrent_iff⟩
  · refine ⟨_, execDrop_heard src n s u start h j k hu, rfl, ?_⟩
    subst hu
    exact still_afterCommit (g := takeDrop n.toNat) (fun _ => rfl) src.toNat s
  · refine ⟨_, execAdmit_heard src dst n count length s u start i h a found hu, rfl, ?_⟩
    subst hu
    have kept := still_afterCommit (still_takeAdmit n.toNat length.toNat count.toNat) src.toNat s
    rw [takeAdmit_bound found, takeAdmit_bound ((findSlot_commitFrame false src.toNat s _).trans found)] at kept
    exact kept

end Sys2Proof.Machine
end

section
/-! PROOFS. HOLD_OVER_EXPIRY, SETTLE_EXPIRY, CLAIM_LISTEN_EXPIRY and BUSY_BACKOFF_END (O30). -/

namespace Sys2Proof.Machine

open Sys2Proof

theorem execHoldOverExpiry_eq (s : State) : exec .holdOverExpiry s = .next (if s.recipes.holdTimer.isRunning then
    { s with recipes := { s.recipes with holdOver := none, holdTimer := .stopped } } else s) := by
  show execHoldOverExpiry s = _
  unfold execHoldOverExpiry
  exact (apply_ite Host.Outcome.next _ _ _).symm

theorem settledPump_rises {p : Pump} (h : p.state = .raising) (k : p.settle.isRunning = true) :
    settledPump p = { p with state := .up, settle := .stopped } := if_pos ⟨h, k⟩

theorem settledPump_stays {p : Pump} (h : p.state ≠ .raising ∨ p.settle.isRunning = false) : settledPump p = p :=
  if_neg (by rintro ⟨raising, running⟩; rcases h with h | h <;> simp_all)

theorem execSettleExpiry_main (s : State) : exec (.settleExpiry .main) s =
    .next { s with pot := { s.pot with main := settledPump s.pot.main } } := rfl

theorem execSettleExpiry_chip (s : State) : exec (.settleExpiry .chip) s =
    .next { s with pot := { s.pot with chip := settledPump s.pot.chip } } := rfl

/-- CLAIM is queued in class 3, or dropped where the queue refuses it (R165, R176). -/
theorem execClaimListenExpiry_runs {s : State} (h : s.control.station = .claiming) (k : s.dir.claimListen.isRunning = true) :
    exec .claimListenExpiry s = .next
      { s with
        dir := { s.dir with claimListen := .expired }
        bus := { s.bus with queue := if s.admits 3 then s.bus.queue ++ [newFrame 3 0 .claim] else s.bus.queue } } := by
  show execClaimListenExpiry s = _
  unfold execClaimListenExpiry
  rw [if_pos ⟨h, k⟩, queueOrDrop_eq]
  show Host.Outcome.next (if s.admits 3 = true then _ else _) = _
  split <;> rfl

theorem execClaimListenExpiry_none {s : State} (h : s.control.station ≠ .claiming ∨ s.dir.claimListen.isRunning = false) :
    exec .claimListenExpiry s = .next s :=
  if_neg (by rintro ⟨claiming, running⟩; rcases h with h | h <;> simp_all)

/-- A frame changes its phase alone, and only out of backoff (R166). -/
theorem endBackoff_eq (f : TxFrame) : endBackoff f = { f with phase := match f.phase with
    | .backoff _ => .waiting
    | .waiting => .waiting
    | .onBus => .onBus } := by
  obtain ⟨cls, dst, body, attempts, phase⟩ := f
  cases phase <;> rfl

theorem execBusyBackoffEnd_eq (place : Fin 16) (s : State) : exec (.busyBackoffEnd place) s = .next
    { s with bus := { s.bus with queue := s.bus.queue.modify place (fun f =>
      { f with phase := match f.phase with
        | .backoff _ => .waiting
        | .waiting => .waiting
        | .onBus => .onBus }) } } :=
  congrArg (fun g => Host.Outcome.next (s.withTx (s.bus.queue.modify place g))) (funext endBackoff_eq)

/-- Settles O30. -/
theorem timersThatChangeTheirOwnUnitAlone : Obligations.TimersThatChangeTheirOwnUnitAlone := by
  refine ⟨execHoldOverExpiry_eq, fun s h k => ?_, fun s h k => ?_, fun s h => ?_, fun s h => ?_,
    fun _ => execClaimListenExpiry_runs, fun _ => execClaimListenExpiry_none, execBusyBackoffEnd_eq⟩
  · rw [execSettleExpiry_main, settledPump_rises h k]
  · rw [execSettleExpiry_chip, settledPump_rises h k]
  · rw [execSettleExpiry_main, settledPump_stays h]
  · rw [execSettleExpiry_chip, settledPump_stays h]

end Sys2Proof.Machine
end

section
/-! PROOFS. FLOW_PULSE (O10), PULSE_END and FLOW_LAG_EXPIRY with the check they may make, and how the nozzles follow (O20). -/

namespace Sys2Proof.Machine

open Sys2Proof

/-! ## Flow meter pulses (R47) -/

theorem execFlowPulse_idle {s : State} (h : s.spray.counting = none) :
    exec .flowPulse s = .next { s with spray := { s.spray with flowCount := s.spray.flowCount + 1 } } := by
  show execFlowPulse s = _
  unfold execFlowPulse
  rw [h]

theorem execFlowPulse_counting {s : State} {id : Nat} (h : s.spray.counting = some id) : exec .flowPulse s =
    .next (updateBoard id (fun b => { b with flowPulses := bump b.flowPulses })
      { s with spray := { s.spray with flowCount := s.spray.flowCount + 1 } }) := by
  show execFlowPulse s = _
  unfold execFlowPulse
  rw [h]

/-- Settles O10. -/
theorem flowPulseIsCounted : Obligations.FlowPulseIsCounted :=
  ⟨fun _ h => execFlowPulse_idle h, fun _ _ h => execFlowPulse_counting h⟩

/-! ## The check of a record (R48) -/

theorem dropCounting_eq (id : Nat) (s : State) : dropCounting id s =
    { s with spray := { s.spray with counting := if s.spray.counting = some id then none else s.spray.counting } } := by
  unfold dropCounting
  split <;> rfl

theorem board_dropCounting (id : Nat) (s : State) (n : Nat) : (dropCounting id s).board n = s.board n := by
  rw [dropCounting_eq]
  rfl

theorem ownsOpen_eq_false_iff (s : State) (id : Nat) :
    s.ownsOpen id = false ↔ ∀ o ∈ s.spray.oneShots, o ≠ some (.board id) := by
  unfold State.ownsOpen
  simp only [List.any_eq_false, beq_iff_eq, ne_eq]

theorem checkDue_iff (s : State) (b : Board) : s.checkDue b = true ↔ s.cfg.roles.flux = true ∧ b.phase = .ended ∧
    (∀ o ∈ s.spray.oneShots, o ≠ some (.board b.line.id)) ∧ b.flowLag.isRunning = false := by
  unfold State.checkDue
  simp only [Bool.and_eq_true, Bool.not_eq_true', beq_iff_eq, ownsOpen_eq_false_iff, and_assoc]

theorem flowCheck_due {s : State} {id : Nat} {b : Board} (h : s.board id = some b) (due : s.checkDue b = true) :
    flowCheck id s = (s.checkMarks b).foldl (fun s code => addMark id code s)
      (dropCounting id (updateBoard id (fun b => { b with phase := .checked }) s)) := by
  unfold flowCheck
  rw [h]
  exact if_pos due

theorem flowCheck_notDue {s : State} {id : Nat} {b : Board} (h : s.board id = some b) (due : ¬s.checkDue b = true) :
    flowCheck id s = s := by
  unfold flowCheck
  rw [h]
  exact if_neg due

theorem flowCheck_eq {s : State} {id : Nat} {b : Board} (h : s.board id = some b) : flowCheck id s =
    if s.checkDue b = true then
      (s.checkMarks b).foldl (fun s code => addMark id code s)
        (updateBoard id (fun b => { b with phase := .checked })
          { s with spray := { s.spray with counting := if s.spray.counting = some id then none else s.spray.counting } })
    else s := by
  by_cases due : s.checkDue b = true
  · rw [if_pos due, flowCheck_due h due, dropCounting_eq]
    rfl
  · rw [if_neg due, flowCheck_notDue h due]

/-- Marks change the line record alone (R19). -/
theorem board_addMarks {id : Nat} (codes : List Nat) {s : State} {b : Board} (h : s.board id = some b) :
    ∃ line, (codes.foldl (fun s code => addMark id code s) s).board id = some { b with line := line } := by
  induction codes generalizing s b with
  | nil => exact ⟨b.line, h⟩
  | cons code codes ih =>
    obtain ⟨line, e, _⟩ := board_addMark code h
    obtain ⟨line', e'⟩ := ih e
    exact ⟨line', e'⟩

/-- A check that is due takes the phase to CHECKED; all else it leaves of the record is the line record's marks (R48). -/
theorem board_flowCheck {s : State} {id : Nat} {b : Board} (h : s.board id = some b) :
    ∃ line, (flowCheck id s).board id =
      some { b with line := line, phase := if s.checkDue b = true then .checked else b.phase } := by
  by_cases due : s.checkDue b = true
  · have checked := board_updateBoard_same (f := fun b => { b with phase := .checked }) (fun _ => rfl) h
    obtain ⟨line, e⟩ := board_addMarks (s.checkMarks b) ((board_dropCounting id _ id).trans checked)
    rw [flowCheck_due h due, if_pos due]
    exact ⟨line, e⟩
  · rw [flowCheck_notDue h due, if_neg due]
    exact ⟨b.line, h⟩

/-! ## PULSE_END (R39) -/

theorem execPulseEnd_board {nozzle : Fin 8} {s : State} {id : Nat} (h : s.oneShot nozzle = some (.board id)) :
    exec (.pulseEnd nozzle) s = .next (endPulse id s) := by
  show execPulseEnd nozzle s = _
  unfold execPulseEnd
  rw [h]

theorem execPulseEnd_released {nozzle : Fin 8} {s : State} {id : Nat} (h : s.oneShot nozzle = some (.released id)) :
    exec (.pulseEnd nozzle) s = .next (closeShots (.released id) s) := by
  show execPulseEnd nozzle s = _
  unfold execPulseEnd
  rw [h]

theorem execPulseEnd_none {nozzle : Fin 8} {s : State} (h : s.oneShot nozzle = none ∨ s.oneShot nozzle = some .service) :
    exec (.pulseEnd nozzle) s = .next s := by
  show execPulseEnd nozzle s = _
  unfold execPulseEnd
  rcases h with h | h <;> rw [h]

theorem moves_endPulse (id : Nat) (s : State) : Moves s (endPulse id s) :=
  ((moves_closeShots (.board id) s).trans (moves_restartLag id _)).trans (moves_flowCheck id _)

theorem oneShots_endPulse (id : Nat) (s : State) : (endPulse id s).spray.oneShots =
    s.spray.oneShots.map (fun o => if o = some (.board id) then none else o) :=
  oneShots_flowCheck id (restartLag id (closeShots (.board id) s))

/-! ## FLOW_LAG_EXPIRY (R48) -/

/-- The flow lag timer of the record has expired. -/
def lagExpired (id : Nat) (s : State) : State := updateBoard id (fun b => { b with flowLag := .expired }) s

theorem execFlowLagExpiry_runs {board : Half} {s : State} {b : Board} (h : s.board board.toNat = some b)
    (running : b.flowLag.isRunning = true) :
    exec (.flowLagExpiry board) s = .next (flowCheck board.toNat (lagExpired board.toNat s)) := by
  show execFlowLagExpiry board s = _
  unfold execFlowLagExpiry
  rw [h]
  exact if_pos running

theorem execFlowLagExpiry_none {board : Half} {s : State}
    (h : ∀ b, s.board board.toNat = some b → b.flowLag.isRunning = false) : exec (.flowLagExpiry board) s = .next s := by
  show execFlowLagExpiry board s = _
  unfold execFlowLagExpiry
  cases e : s.board board.toNat with
  | none => rfl
  | some b => exact if_neg (Bool.eq_false_iff.1 (h b e))

theorem moves_lagExpires (id : Nat) (s : State) : Moves s (flowCheck id (lagExpired id s)) :=
  (moves_updateBoard (fun _ => by rfl) s).trans (moves_flowCheck id _)

theorem board_lagExpired {s : State} {id : Nat} {b : Board} (h : s.board id = some b) :
    (lagExpired id s).board id = some { b with flowLag := .expired } :=
  board_updateBoard_same (f := fun b => { b with flowLag := .expired }) (fun _ => rfl) h

/-- Once the lag has run out, the check waits for the phase and the one-shots alone (R48). -/
theorem checkDue_lagExpired {s : State} {id : Nat} {b : Board} (h : s.board id = some b) :
    (lagExpired id s).checkDue { b with flowLag := .expired } =
      (s.cfg.roles.flux && b.phase == .ended && !s.ownsOpen id) := by
  rw [← board_id h]
  exact Bool.and_true _

theorem phase_lagExpires {s : State} {id : Nat} {b : Board} (h : s.board id = some b) :
    ∃ x, (flowCheck id (lagExpired id s)).board id = some x ∧
      x.phase = if s.cfg.roles.flux && b.phase == .ended && !s.ownsOpen id then .checked else b.phase := by
  obtain ⟨line, e⟩ := board_flowCheck (board_lagExpired h)
  rw [checkDue_lagExpired h] at e
  exact ⟨_, e, rfl⟩

/-- Settles O20: one clause per event, one for the check, and the words that these and `sprayUpdate` use. -/
theorem pulseEndAndFlowLagExpiry : Obligations.PulseEndAndFlowLagExpiry :=
  ⟨fun _ s id h => ⟨_, execPulseEnd_board h, (moves_endPulse id s).steady, oneShots_endPulse id s, rfl⟩,
    fun _ _ _ h => execPulseEnd_released h,
    fun _ _ h => execPulseEnd_none h,
    fun _ s _ h running => ⟨_, execFlowLagExpiry_runs h running, (moves_lagExpires _ s).steady, rfl, phase_lagExpires h⟩,
    fun _ _ h => execFlowLagExpiry_none h,
    fun _ _ _ h => flowCheck_eq h,
    checkDue_iff,
    fun _ _ _ h => by subst h; rfl,
    fun _ _ h => sprayUpdate_eq h rfl,
    fun _ _ h => truncateShots_eq h,
    fun _ _ => ⟨markNotFluxed_none, fun _ h => markNotFluxed_eq h⟩,
    serviceShots_eq,
    serviceOpens_iff,
    fun _ n h => nozzlesShut h n,
    selected_eq,
    proven_iff⟩

end Sys2Proof.Machine
end

section
/-! PROOFS. The grants: that every step keeps them within the held shares (O56), and which duty is granted (O24). The slot of the
heater period: an idle step (O2), and the heater edges with the output they make (O23). -/

namespace Sys2Proof.Machine

open Sys2Proof

/-! ## Grants (R58) -/

/-- Settles O56: what every step keeps, read for the grants; the rest of the command queue is not among what they depend on. -/
theorem theGrantsStayWithinTheHeldShares : Obligations.TheGrantsStayWithinTheHeldShares := by
  intro s t fit h
  obtain ⟨_, k⟩ := lasts_step h
  exact k.grants fit

/-- The cost is the least whole number of shares not below rated times duty over 256. -/
theorem dutyCost_le_iff (rated d k : Nat) : dutyCost rated d ≤ k ↔ rated * d ≤ k * 256 := by
  unfold dutyCost
  omega

theorem grantOf_le_demand (rated remaining demand : Nat) : grantOf rated remaining demand ≤ demand := by
  unfold grantOf
  split
  · exact Nat.le_refl _
  · exact Nat.min_le_left _ _

/-- No duty up to the demand whose cost fits is above the grant. -/
theorem le_grantOf {rated remaining demand d : Nat} (hd : d ≤ demand) (fits : dutyCost rated d ≤ remaining) :
    d ≤ grantOf rated remaining demand := by
  unfold grantOf
  split
  · exact hd
  · next unrated =>
    have bound : d * rated ≤ remaining * 256 := Nat.mul_comm rated d ▸ (dutyCost_le_iff rated d remaining).1 fits
    exact Nat.le_min.2 ⟨hd, (Nat.le_div_iff_mul_le (Nat.pos_of_ne_zero unrated)).2 bound⟩

/-- Settles O24. -/
theorem theGrantIsTheLargestDutyThatFits : Obligations.TheGrantIsTheLargestDutyThatFits :=
  fun rated remaining demand => ⟨grantOf_le_demand rated remaining demand, dutyCost_grantOf rated remaining demand,
    fun _ => le_grantOf, dutyCost_le_iff rated⟩

/-! ## The slot of the period (R52, R60, log entry 2) -/

theorem step_idle {s : State} (idle : s.pending = []) : step s = .next (tick s) := by
  unfold step
  rw [idle]

/-- Settles O2. -/
theorem anIdleStepIsOnePeriodSlot : Obligations.AnIdleStepIsOnePeriodSlot := fun _ idle => step_idle idle

theorem toSlot_runs {s : State} (k : Nat) (h : s.heater.periodTimer.isRunning = true) :
    toSlot k s = { s with heater := { s.heater with slot := max s.heater.slot k } } := if_pos h

theorem toSlot_stopped {s : State} (k : Nat) (h : s.heater.periodTimer.isRunning = false) : toSlot k s = s :=
  if_neg (Bool.not_eq_true _ ▸ h)

theorem execHeaterOnEdge_pulse {n : Fin 8} {s : State} (used : s.inUse n = true) (pulse : 0 < (s.channel n).pulse) :
    exec (.heaterOnEdge n) s = .next (toSlot (s.channelConfig n).phase s) :=
  if_pos (Bool.and_eq_true_iff.2 ⟨used, decide_eq_true pulse⟩)

theorem execHeaterOnEdge_none {n : Fin 8} {s : State} (h : s.inUse n = false ∨ (s.channel n).pulse = 0) :
    exec (.heaterOnEdge n) s = .next s := by
  refine if_neg (fun k => ?_)
  obtain ⟨used, pulse⟩ := Bool.and_eq_true_iff.1 k
  rcases h with unused | off
  · exact Bool.noConfusion (used.symm.trans unused)
  · exact Nat.ne_of_gt (of_decide_eq_true pulse) off

theorem execHeaterOffEdge_pulse {n : Fin 8} {s : State} {k : Nat} (used : s.inUse n = true) (ends : s.offSlot n = some k) :
    exec (.heaterOffEdge n) s = .next (toSlot k s) := by
  show execHeaterOffEdge n s = _
  unfold execHeaterOffEdge
  rw [ends]
  exact if_pos used

theorem execHeaterOffEdge_none {n : Fin 8} {s : State} (h : s.inUse n = false ∨ s.offSlot n = none) :
    exec (.heaterOffEdge n) s = .next s := by
  show execHeaterOffEdge n s = _
  unfold execHeaterOffEdge
  split
  · next ends =>
    rcases h with unused | endless
    · exact if_neg (fun used => Bool.noConfusion (used.symm.trans unused))
    · cases ends.symm.trans endless
  · rfl

/-- While the period timer is stopped, an edge of either kind leaves the slot. -/
theorem execHeaterEdge_stopped {s : State} (h : s.heater.periodTimer.isRunning = false) (n : Fin 8) :
    exec (.heaterOnEdge n) s = .next s ∧ exec (.heaterOffEdge n) s = .next s := by
  constructor
  · show execHeaterOnEdge n s = _
    unfold execHeaterOnEdge
    rw [toSlot_stopped _ h, ite_self]
  · show execHeaterOffEdge n s = _
    unfold execHeaterOffEdge
    split
    · rw [toSlot_stopped _ h, ite_self]
    · rfl

/-- A pulse of 256 slots is on from its phase offset to the end of the period (R60). -/
theorem heaterOutput_full {n : Nat} {s : State} (full : 256 ≤ (s.channel n).pulse)
    (begun : (s.channelConfig n).phase ≤ s.heater.slot) : s.heaterOutput n = true :=
  (heaterOutput_iff rfl rfl).2 (.inl ⟨begun, .inr full⟩)

/-- Settles O23: an edge moves the slot where its channel is in use, its pulse has that edge, and the period timer runs. -/
theorem heaterEdgesSetTheSlot : Obligations.HeaterEdgesSetTheSlot := by
  refine ⟨fun n s used pulse runs => ?_, fun n s h => ?_, fun n s k used ends runs => ?_, fun n s h => ?_,
    fun _ _ _ _ hc hp => ⟨heaterOutput_iff hc hp, offSlot_eq hc hp⟩, fun _ _ => heaterOutput_full⟩
  · rw [execHeaterOnEdge_pulse used pulse, toSlot_runs _ runs]
  · rcases h with unused | off | stopped
    · exact execHeaterOnEdge_none (.inl unused)
    · exact execHeaterOnEdge_none (.inr off)
    · exact (execHeaterEdge_stopped stopped n).1
  · rw [execHeaterOffEdge_pulse used ends, toSlot_runs k runs]
  · rcases h with unused | endless | stopped
    · exact execHeaterOffEdge_none (.inl unused)
    · exact execHeaterOffEdge_none (.inr endless)
    · exact (execHeaterEdge_stopped stopped n).2

end Sys2Proof.Machine
end

section
/-! PROOFS. PERIOD_START (O22): the heater unit's work channel by channel, the share unit's work after it, and what both leave. -/

namespace Sys2Proof.Machine

open Sys2Proof

/-! ## The work of the heater unit (R53, R55..R58, R60, R61, R63) -/

theorem setpointOf_eq (s : State) (n : Nat) : s.setpointOf n =
    if s.stopped = true ∨ s.standbyHeat = true then (s.channelConfig n).standby
    else match s.governing, (s.channelConfig n).zone with
      | some g, .preheat k => if g.zones.getD (k - 1) 0 = 0 then (s.channelConfig n).standby else g.zones.getD (k - 1) 0
      | some g, .pot => if g.pot = 0 then (s.channelConfig n).standby else g.pot
      | _, _ => (s.channelConfig n).standby := by
  unfold State.setpointOf recipeSetpoint
  refine ite_congr (Bool.or_eq_true ..) (fun _ => rfl) (fun _ => ?_)
  cases s.governing with
  | none => rfl
  | some g =>
    cases (s.channelConfig n).zone with
    | preheat k =>
      simp only [List.getD_eq_getElem?_getD]
      cases g.zones[k - 1]? with
      | none => rfl
      | some v => exact apply_ite (fun o : Option Int => o.getD (s.channelConfig n).standby) _ _ _
    | pot => exact apply_ite (fun o : Option Int => o.getD (s.channelConfig n).standby) _ _ _
    | _ => rfl

/-- The three cases of a channel at a period start: open, forced by SERVICE, regulated. -/
theorem regulate_eq {s : State} {n integral : Nat} {sp e : Int} {c : Channel} (hsp : sp = s.setpointOf n)
    (he : e = sp - (s.quantity n).value)
    (hi : integral = (if c.regulated = true ∧ (c.grant < c.demand ∨ (c.demand = 256 ∧ 0 < e) ∨ (c.demand = 0 ∧ e < 0))
      then c.integral else (max 0 (min 256 ((c.integral : Int) + Int.tdiv ((s.channelConfig n).ki * e) 256))).toNat)) :
    regulate s n c =
      if s.channelOpen n = true then ⟨some sp, 0, 0, 0, false, c.pulse, c.runOn⟩
      else if s.control.mode = .service then
        ⟨some sp, if s.line n = true ∧ s.stopped = false then 256 else 0, c.grant, c.integral, false, c.pulse, c.runOn⟩
      else ⟨some sp, (max 0 (min 256 (Int.tdiv ((s.channelConfig n).kp * e) 16 + integral))).toNat, c.grant, integral, true,
        c.pulse, c.runOn⟩ := by
  subst hsp
  split
  · exact regulate_open c ‹_›
  · next closed =>
    have closed : s.channelOpen n = false := Bool.eq_false_iff.2 closed
    split
    · exact regulate_service c closed ‹_›
    · exact regulate_regulated c closed ‹_› he hi

theorem regulate_setpoint (s : State) (n : Nat) (c : Channel) : (regulate s n c).setpoint = some (s.setpointOf n) := by
  rw [regulate_eq rfl rfl rfl]
  split
  · rfl
  · split <;> rfl

theorem regulate_pulse (s : State) (n : Nat) (c : Channel) : (regulate s n c).pulse = c.pulse := by
  rw [regulate_eq rfl rfl rfl]
  split
  · rfl
  · split <;> rfl

/-- A channel in use is regulated, and then takes what the allocation from the new demands gives it. -/
theorem heaterPeriod_channel {s : State} {n : Nat} (hn : n < s.heater.channels.length) (used : s.inUse n = true) :
    (heaterPeriod s).channel n =
      startPulse (s.channelConfig n).phase ((mapInUse (regulate s) s).allotted n) (regulate s n (s.channel n)) := by
  have hn' : n < (mapInUse (regulate s) s).heater.channels.length := by
    show n < (s.heater.channels.mapIdx _).length
    rwa [List.length_mapIdx]
  show (mapInUse (fun n c => startPulse (s.channelConfig n).phase ((mapInUse (regulate s) s).allotted n) c)
    (mapInUse (regulate s) s)).channel n = _
  rw [channel_mapInUse _ (mapInUse (regulate s) s) n used, if_pos hn', channel_mapInUse _ s n used, if_pos hn]

/-- The pulses leave the demands, so the cost is that of the regulated channels. -/
theorem heaterPeriod_cost (s : State) : (heaterPeriod s).heater.cost = (mapInUse (regulate s) s).demandCost :=
  demandCost_mapInUse (f := fun n c => startPulse (s.channelConfig n).phase ((mapInUse (regulate s) s).allotted n) c)
    (fun _ _ => rfl) (mapInUse (regulate s) s)

theorem heaterPeriod_setpoint {s : State} {n : Nat} (hn : n < s.heater.channels.length) (used : s.inUse n = true) :
    ((heaterPeriod s).channel n).setpoint = some (s.setpointOf n) := by
  rw [heaterPeriod_channel hn used]
  exact regulate_setpoint s n _

/-! ## The work of the share unit (R71, R77, R84) -/

theorem queueReturn_none {s : State} (h : s.shares.borrowed = []) : queueReturn s = s := by
  unfold queueReturn
  rw [h]

theorem budgetShort_met {s : State} (h : s.heater.shortfall = 0) :
    budgetShort s = releaseHeld 28 { s with shares := { s.shares with shortPeriods := 0 } } := if_pos h

theorem budgetShort_short {s : State} {n : Nat} (hn : n = min 10 (s.shares.shortPeriods + 1)) (h : 0 < s.heater.shortfall) :
    budgetShort s =
      if n = 10 then raiseHeld 28 (min s.heater.shortfall 32767 : Nat) { s with shares := { s.shares with shortPeriods := n } }
      else { s with shares := { s.shares with shortPeriods := n } } := by
  subst hn
  exact if_neg (Nat.ne_of_gt h)

theorem moves_queueNeed (s : State) : Moves s (queueNeed s) := Moves.ite _ (moves_queueOrDrop _ s) (Moves.refl s)

theorem moves_queueReturn (s : State) : Moves s (queueReturn s) := by
  unfold queueReturn
  split
  · exact Moves.refl s
  · exact Moves.ite _ (moves_queueOrDrop _ s) (Moves.refl s)

/-- BUDGET_SHORT counts the shortfall periods, and what else it does follows from an alarm. -/
theorem budgetShort_moves (s : State) : ∃ k, Moves { s with shares := { s.shares with shortPeriods := k } } (budgetShort s) := by
  by_cases met : s.heater.shortfall = 0
  · rw [budgetShort_met met]
    exact ⟨0, (follows_releaseHeld 28 _).toMoves⟩
  · rw [budgetShort_short rfl (Nat.pos_of_ne_zero met)]
    exact ⟨min 10 (s.shares.shortPeriods + 1), Moves.ite _ (follows_raiseHeld 28 _ _).toMoves (Moves.refl _)⟩

/-- Of the steady part, the share unit's work changes the count of shortfall periods alone. -/
theorem shareHandOver_steady (s : State) : ∃ k, (shareHandOver s).steady =
    { s.steady with shares := { s.shares with shortPeriods := k } } := by
  have queued := (moves_queueNeed s).trans (moves_queueReturn _)
  obtain ⟨k, counted⟩ := budgetShort_moves (queueReturn (queueNeed s))
  refine ⟨k, counted.steady.trans ?_⟩
  rw [← queued.read (fun x => x.shares) (fun _ => rfl), ← queued.steady]
  rfl

/-! ## The extraction request (R125) -/

theorem setpoint_steady (s : State) (n : Nat) : (s.steady.channel n).setpoint = (s.channel n).setpoint := by
  show ((s.heater.channels.map channelKeep).getD n .blank).setpoint = (s.heater.channels.getD n .blank).setpoint
  rw [List.getD_eq_getElem?_getD, List.getD_eq_getElem?_getD, List.getElem?_map]
  cases s.heater.channels[n]? <;> rfl

theorem extractionCause_steady (s : State) : s.steady.extractionCause = s.extractionCause := by
  show (s.joined && (s.control.mode != .idle || (s.heater.channels.map channelKeep).any _)) = _
  rw [List.any_map]
  rfl

theorem moves_driveDucts (s : State) : Moves s (driveDucts s) :=
  ((moves_sprayUpdate s).trans (follows_holdWhile _ _ _ _).toMoves).trans (follows_holdWhile _ _ _ _).toMoves

theorem extraction_mapDucts {s t : State} (f : Nat → Duct → Duct) (hc : t.cfg = s.cfg) (he : t.extraction = s.extraction) :
    (mapDucts f t).extraction = (mapDucts f s).extraction := by
  unfold mapDucts State.ductEnabled
  rw [hc, he]

theorem extraction_requestOn {s t : State} (hc : t.cfg = s.cfg) (he : t.extraction = s.extraction) :
    (requestOn t).extraction = (requestOn s).extraction := by
  unfold requestOn State.proveTimer
  rw [hc, he]
  exact extraction_mapDucts _ hc rfl

theorem extraction_requestOff {s t : State} (hc : t.cfg = s.cfg) (he : t.extraction = s.extraction) :
    (requestOff t).extraction = (requestOff s).extraction := by
  unfold requestOff
  rw [extraction_driveDucts, extraction_driveDucts, he]
  exact extraction_mapDucts _ hc rfl

/-- What a test of the causes makes of the monitor depends on the cause, the monitor and the configuration alone. -/
theorem extraction_testRequest {s t : State} (cause : t.extractionCause = s.extractionCause) (hc : t.cfg = s.cfg)
    (he : t.extraction = s.extraction) : (testRequest t).extraction = (testRequest s).extraction := by
  unfold testRequest
  rw [cause, he, hc]
  split
  · split
    · rfl
    · exact extraction_requestOn hc he
  · split
    · split
      · exact extraction_requestOff hc he
      · rfl
    · exact he

/-- A test of the causes changes the monitor, and of the rest what follows from an alarm. -/
theorem testRequest_steady (s : State) : (testRequest s).steady = { s.steady with extraction := (testRequest s).extraction } := by
  unfold testRequest
  split
  · split <;> rfl
  · split
    · split
      · unfold requestOff
        rw [(moves_driveDucts _).steady, extraction_driveDucts]
        rfl
      · rfl
    · rfl

/-! ## The whole of a period start -/

/-- The state that PERIOD_START leaves while the period timer runs. -/
def State.newPeriod (s : State) : State := settle (periodWork s)

theorem newPeriod_eq (s : State) :
    s.newPeriod = settle (testRequest (budgetShort (queueReturn (queueNeed (heaterPeriod s))))) := rfl

theorem execPeriodStart_runs {s : State} (h : s.heater.periodTimer.isRunning = true) :
    exec .periodStart s = .next s.newPeriod := if_pos h

theorem execPeriodStart_stopped {s : State} (h : s.heater.periodTimer.isRunning = false) : exec .periodStart s = .next s :=
  if_neg (Bool.not_eq_true _ ▸ h)

theorem newPeriod_grantsFit (s : State) : s.newPeriod.GrantsFit := (follows_settle _).grants (grantsFit_periodWork s)

/-- After a period start the steady part is that of the heater unit's work, but for the count of shortfall periods and the
extraction monitor, which is tested as it stands after that work. -/
theorem newPeriod_steady (s : State) : ∃ k, s.newPeriod.steady =
    { (heaterPeriod s).steady with
      shares := { s.shares with shortPeriods := k }
      extraction := (testRequest (heaterPeriod s)).extraction } := by
  obtain ⟨k, shared⟩ := shareHandOver_steady (heaterPeriod s)
  have cause : (shareHandOver (heaterPeriod s)).extractionCause = (heaterPeriod s).extractionCause := by
    rw [← extractionCause_steady, shared]
    exact extractionCause_steady (heaterPeriod s)
  have monitor : (shareHandOver (heaterPeriod s)).extraction = (heaterPeriod s).extraction :=
    congrArg (fun x => x.extraction) shared
  have tested : (testRequest (shareHandOver (heaterPeriod s))).extraction = (testRequest (heaterPeriod s)).extraction :=
    extraction_testRequest cause (keeps_shareHandOver _).cfg monitor
  refine ⟨k, (follows_settle _).steady.trans ((testRequest_steady _).trans ?_)⟩
  rw [tested, shared]
  rfl

/-- What a period start makes of the three units, and that it leaves the rest. -/
theorem newPeriod_parts (s : State) :
    s.newPeriod.heater.slot = 0 ∧ s.newPeriod.heater.periodTimer = .running (s.cfg.heaterPeriod * 100) ∧
    (∀ n, (s.newPeriod.channel n).setpoint = ((heaterPeriod s).channel n).setpoint) ∧
    s.newPeriod.shares.held = s.shares.held ∧ s.newPeriod.shares.lent = s.shares.lent ∧
    s.newPeriod.shares.borrowed = s.shares.borrowed ∧
    s.newPeriod.extraction = (testRequest (heaterPeriod s)).extraction ∧
    { s.newPeriod.steady with
      heater := s.steady.heater, shares := s.steady.shares, extraction := s.steady.extraction } = s.steady := by
  obtain ⟨k, h⟩ := newPeriod_steady s
  generalize s.newPeriod = t at h ⊢
  have heater : t.steady.heater = (heaterPeriod s).steady.heater := congrArg (fun x => x.heater) h
  have shares : t.shares = { s.shares with shortPeriods := k } := congrArg (fun x => x.shares) h
  have slot : t.heater.slot = 0 := congrArg (fun x => x.slot) heater
  have timer : t.heater.periodTimer = .running (s.cfg.heaterPeriod * 100) := congrArg (fun x => x.periodTimer) heater
  refine ⟨slot, timer, fun n => ?_, ?_, ?_, ?_, congrArg (fun x => x.extraction) h, ?_⟩
  · rw [← setpoint_steady t, ← setpoint_steady (heaterPeriod s)]
    unfold State.channel
    rw [heater]
  · rw [shares]
  · rw [shares]
  · rw [shares]
  · rw [h]
    rfl

/-- Settles O22: the state as a whole, then its parts: setpoint, regulation, allocation and pulses, NEED, RETURN, BUDGET_SHORT. -/
theorem periodStartAllocatesTheHeldShares : Obligations.PeriodStartAllocatesTheHeldShares := by
  refine ⟨fun s runs => ?_, fun _ => execPeriodStart_stopped, setpointOf_eq,
    fun _ _ _ _ _ _ hsp he hi => regulate_eq hsp he hi, fun s u n p hn used hp hu => ?_,
    fun _ _ _ _ _ hg => by subst hg; exact ⟨rfl, rfl⟩, fun _ _ _ => rfl, queueNeed_eq,
    fun _ => ⟨queueReturn_none, fun _ _ => queueReturn_cons⟩, fun _ _ hn => ⟨budgetShort_met, budgetShort_short hn⟩, inUse_iff⟩
  · obtain ⟨slot, timer, setpoint, held, lent, borrowed, monitor, rest⟩ := newPeriod_parts s
    exact ⟨s.newPeriod, execPeriodStart_runs runs, slot, timer, newPeriod_grantsFit s,
      fun n hn used => (setpoint n).trans (heaterPeriod_setpoint hn used), held, lent, borrowed, monitor, newPeriod_eq s, rest⟩
  · subst hp hu
    refine ⟨?_, rfl, rfl, heaterPeriod_cost s, congrArg (· - s.shares.held) (heaterPeriod_cost s)⟩
    rw [heaterPeriod_channel hn used, ← regulate_pulse s n (s.channel n)]
    rfl

end Sys2Proof.Machine
end

section
/-! PROOFS. The share unit: that every step keeps the shares balanced (O59), NEED (O26), LEND (O27), RETURN and RECALL (O28) at
their commits, and NEED_EXPIRY (O29). -/

namespace Sys2Proof.Machine

open Sys2Proof

/-- Settles O59: what every step keeps, read for the share unit; a station at rest and a covered LEND are its premises. -/
theorem theSharesStayBalanced : Obligations.TheSharesStayBalanced := by
  rintro s t ⟨off, covered, balance⟩ h
  obtain ⟨rest, k⟩ := lasts_step h
  obtain ⟨balance', covered'⟩ := k.shares ⟨off, covered⟩ balance covered
  exact ⟨k.off off off, covered', balance'⟩

/-! ## A commit that changes the share unit -/

theorem shares_commitFrame (own : Bool) (src : Nat) (s : State) : (commitFrame own src s).shares = s.shares :=
  commitFrame_read own src s (fun x => x.shares) (fun _ => rfl)

/-- States with the same still part have it still when the share unit is replaced in both. -/
theorem still_withShares {s u : State} (h : u.still = s.still) (x : Shares) :
    ({ u with shares := x } : State).still = ({ s with shares := x } : State).still :=
  congrArg (fun y : State => { y with shares := x }) h

/-- A change of the share unit and the heater unit alone leaves the rest of the still part. -/
theorem still_of_shares_heater {s t u : State} (changed : { t with shares := u.shares, heater := u.heater } = u)
    (h : u.still = s.still) : t.still = ({ s with shares := t.shares, heater := t.heater } : State).still := by
  have whole : { u with shares := t.shares, heater := t.heater } = t :=
    congrArg (fun x : State => { x with shares := t.shares, heater := t.heater }) changed.symm
  have replaced := congrArg (fun y : State => { y with shares := t.shares, heater := t.still.heater }) h
  calc t.still = ({ u with shares := t.shares, heater := t.heater } : State).still := by rw [whole]
    _ = ({ s with shares := t.shares, heater := t.heater } : State).still := replaced

/-- The effect at the sender of a kind that has one there. -/
theorem committed_at_sender {kind src dst : Nat} {payload : List Byte} {s : State} (h : s.Sends kind src dst payload)
    (f : State → State) (g : Commit → State → State) :
    committed kind src dst payload (fun c u => if c.own then f u else g c u) s =
      .next (dropReservation (f (commitFrame true src s))) := by
  obtain ⟨start, e⟩ := committed_sent h
  rw [e]
  rfl

/-- A frame directed to this station and acknowledged by it is for it (R161). -/
theorem forMe_of_accepts {dst : Station} {s : State} (a : s.Accepts dst) :
    (s.bus.answer.ack && dst.toNat == s.dir.own) = true := by
  obtain ⟨ack, own⟩ := a
  simp [ack, own]

/-- The answer, the share unit, the whole state and the still part after a commit whose effect is one on the shares. -/
theorem shares_committed {r : Result} {own : Bool} {src : Nat} {s : State} {f : State → State} {x : Shares}
    (e : r = .next (dropReservation (f (commitFrame own src s)))) (shares : (f (commitFrame own src s)).shares = x)
    (changed : ∀ u : State, { f u with shares := u.shares, heater := u.heater } = u) :
    ∃ t, r = .next t ∧ t.shares = x ∧ t = dropReservation (f (commitFrame own src s)) ∧
      t.still = ({ s with shares := t.shares, heater := t.heater } : State).still := by
  refine ⟨_, e, shares, rfl, ?_⟩
  rw [still_dropReservation]
  exact still_of_shares_heater (changed _) (still_commitFrame own src s)

/-- H and the lent list replaced: the share unit's other fields stay, and outside it the heater unit alone follows (R67). -/
theorem setHeld_withLent_parts (h : Nat) (l : List Loan) (s : State) :
    (setHeld h (s.withLent l)).shares = { s.shares with held := h, lent := l } ∧
    { setHeld h (s.withLent l) with shares := s.shares, heater := s.heater } = s := by
  obtain ⟨shares, rest⟩ := setHeld_parts h (s.withLent l)
  exact ⟨shares, congrArg (fun x : State => { x with shares := s.shares }) rest⟩

/-- H and the borrowed list replaced. -/
theorem setHeld_withBorrowed_parts (h : Nat) (l : List Loan) (s : State) :
    (setHeld h (s.withBorrowed l)).shares = { s.shares with held := h, borrowed := l } ∧
    { setHeld h (s.withBorrowed l) with shares := s.shares, heater := s.heater } = s := by
  obtain ⟨shares, rest⟩ := setHeld_parts h (s.withBorrowed l)
  exact ⟨shares, congrArg (fun x : State => { x with shares := s.shares }) rest⟩

/-! ## LEND (R76) -/

theorem lendTo_parts (peer m : Nat) (s : State) :
    (lendTo peer m s).shares = { s.shares with held := s.shares.held - m, lent := growLoan peer m s.shares.lent } ∧
    { lendTo peer m s with shares := s.shares, heater := s.heater } = s :=
  setHeld_withLent_parts _ _ s

theorem borrowFrom_parts (peer m : Nat) (s : State) :
    (borrowFrom peer m s).shares =
      { s.shares with held := s.shares.held + m, borrowed := growLoan peer m s.shares.borrowed } ∧
    { borrowFrom peer m s with shares := s.shares, heater := s.heater } = s :=
  setHeld_withBorrowed_parts _ _ s

/-- A loan taken by a borrower that may need it (R76). -/
theorem meetNeed_borrowFrom_parts (peer m : Nat) (s : State) :
    (meetNeed m (borrowFrom peer m s)).shares = { s.shares with
      held := s.shares.held + m
      borrowed := growLoan peer m s.shares.borrowed
      needAmount := if s.shares.needTimer.isRunning then s.shares.needAmount - m else s.shares.needAmount
      needTimer := if s.shares.needTimer.isRunning && decide (s.shares.needAmount ≤ m) then .stopped
        else s.shares.needTimer } ∧
    { meetNeed m (borrowFrom peer m s) with shares := s.shares, heater := s.heater } = s := by
  obtain ⟨shares, rest⟩ := borrowFrom_parts peer m s
  rw [meetNeed_eq, shares]
  exact ⟨rfl, rest⟩

theorem execLend_sent {src dst : Station} {m : Half} {s : State} (h : s.Sends 5 src.toNat dst.toNat (byte2 m.toNat)) :
    exec (.lend src dst m) s = .next (dropReservation (lendTo dst.toNat m.toNat (commitFrame true src.toNat s))) := by
  show execLend src dst m s = _
  unfold execLend
  exact committed_at_sender h (lendTo dst.toNat m.toNat) _

theorem execLend_heard {src dst : Station} {m : Half} {s : State} {start : BitVec 32} (h : s.Hears start) :
    exec (.lend src dst m) s = .next (dropReservation (if ((s.bus.answer.ack && dst.toNat == s.dir.own) && s.seated) = true then
      meetNeed m.toNat (borrowFrom src.toNat m.toNat (commitFrame false src.toNat s)) else commitFrame false src.toNat s)) := by
  have seated : (commitFrame false src.toNat s).seated = s.seated := commitFrame_read _ _ _ State.seated (fun _ => rfl)
  show execLend src dst m s = _
  unfold execLend
  rw [committed_heard h, ← seated]
  rfl

theorem execLend_taken {src dst : Station} {m : Half} {s : State} {start : BitVec 32} (h : s.Hears start)
    (a : s.Accepts dst) (seated : s.shares.state = .seated) : exec (.lend src dst m) s =
      .next (dropReservation (meetNeed m.toNat (borrowFrom src.toNat m.toNat (commitFrame false src.toNat s)))) := by
  rw [execLend_heard h, if_pos]
  rw [forMe_of_accepts a, State.seated, seated]
  rfl

theorem execLend_notTaken {src dst : Station} {m : Half} {s : State} {start : BitVec 32} (h : s.Hears start)
    (n : s.bus.answer.ack = false ∨ dst.toNat ≠ s.dir.own ∨ s.shares.state ≠ .seated) :
    exec (.lend src dst m) s = .next (s.afterCommit false src.toNat) := by
  rw [execLend_heard h]
  refine dropped_if_not (fun u => meetNeed m.toNat (borrowFrom src.toNat m.toNat u)) s src.toNat ?_
  rcases or_assoc.2 n with notMine | unseated
  · rw [not_forMe notMine, Bool.false_and]
  · rw [State.seated, beq_eq_false_iff_ne.2 unseated, Bool.and_false]

/-- Settles O27: the lender, the borrower, the stations that take nothing, then the change of H and the lists. -/
theorem lendCommits : Obligations.LendCommits := by
  refine ⟨fun src dst m s h => ?_, fun src dst m s start h a seated => ?_, fun _ _ _ _ _ => execLend_notTaken,
    fun x m s => ⟨rfl, rfl, meetNeed_eq m s⟩, fun _ _ _ => setHeld_eq, demandCost_eq, hasLoan_exists, loanOf_cases, growLoan_eq,
    shrinkLoan_eq, dropLoan_eq⟩
  · refine shares_committed (execLend_sent h) ?_ (fun u => (lendTo_parts dst.toNat m.toNat u).2)
    rw [(lendTo_parts _ _ _).1, shares_commitFrame]
  · refine shares_committed (f := fun u => meetNeed m.toNat (borrowFrom src.toNat m.toNat u)) (execLend_taken h a seated) ?_
      (fun u => (meetNeed_borrowFrom_parts src.toNat m.toNat u).2)
    show (meetNeed _ _).shares = _
    rw [(meetNeed_borrowFrom_parts _ _ _).1, shares_commitFrame]

/-! ## RETURN and RECALL (R78, R80) -/

theorem giveBack_parts (peer m : Nat) (s : State) :
    (giveBack peer m s).shares = { s.shares with
      held := s.shares.held - min m (loanOf peer s.shares.borrowed), borrowed := shrinkLoan peer m s.shares.borrowed } ∧
    { giveBack peer m s with shares := s.shares, heater := s.heater } = s :=
  setHeld_withBorrowed_parts _ _ s

theorem takeBack_parts (peer m : Nat) (s : State) :
    (takeBack peer m s).shares = { s.shares with
      held := s.shares.held + min m (loanOf peer s.shares.lent), lent := shrinkLoan peer m s.shares.lent } ∧
    { takeBack peer m s with shares := s.shares, heater := s.heater } = s :=
  setHeld_withLent_parts _ _ s

/-- The state after `giveBack` at a commit, at whichever side it is made. -/
theorem giveBack_committed {r : Result} {own : Bool} {src : Nat} {s : State} {peer m : Nat}
    (e : r = .next (dropReservation (giveBack peer m (commitFrame own src s)))) : ∃ t, r = .next t ∧
      t.shares = { s.shares with
        held := s.shares.held - min m (loanOf peer s.shares.borrowed), borrowed := shrinkLoan peer m s.shares.borrowed } ∧
      t = dropReservation (giveBack peer m (commitFrame own src s)) ∧
      t.still = ({ s with shares := t.shares, heater := t.heater } : State).still :=
  shares_committed e (by rw [(giveBack_parts _ _ _).1, shares_commitFrame]) (fun u => (giveBack_parts peer m u).2)

/-- The state after `takeBack` at a commit, at whichever side it is made. -/
theorem takeBack_committed {r : Result} {own : Bool} {src : Nat} {s : State} {peer m : Nat}
    (e : r = .next (dropReservation (takeBack peer m (commitFrame own src s)))) : ∃ t, r = .next t ∧
      t.shares = { s.shares with
        held := s.shares.held + min m (loanOf peer s.shares.lent), lent := shrinkLoan peer m s.shares.lent } ∧
      t = dropReservation (takeBack peer m (commitFrame own src s)) ∧
      t.still = ({ s with shares := t.shares, heater := t.heater } : State).still :=
  shares_committed e (by rw [(takeBack_parts _ _ _).1, shares_commitFrame]) (fun u => (takeBack_parts peer m u).2)

theorem execReturn_sent {src dst : Station} {m : Half} {s : State} (h : s.Sends 6 src.toNat dst.toNat (byte2 m.toNat)) :
    exec (.returnShares src dst m) s = .next (dropReservation (giveBack dst.toNat m.toNat (commitFrame true src.toNat s))) := by
  show execReturn src dst m s = _
  unfold execReturn
  exact committed_at_sender h (giveBack dst.toNat m.toNat) _

theorem execRecall_sent {src dst : Station} {m : Half} {s : State} (h : s.Sends 7 src.toNat dst.toNat (byte2 m.toNat)) :
    exec (.recallShares src dst m) s = .next (dropReservation (takeBack dst.toNat m.toNat (commitFrame true src.toNat s))) := by
  show execRecall src dst m s = _
  unfold execRecall
  exact committed_at_sender h (takeBack dst.toNat m.toNat) _

theorem execReturn_heard {src dst : Station} {m : Half} {s : State} {start : BitVec 32} (h : s.Hears start) :
    exec (.returnShares src dst m) s = .next (dropReservation (if (s.bus.answer.ack && dst.toNat == s.dir.own) = true then
      takeBack src.toNat m.toNat (commitFrame false src.toNat s) else commitFrame false src.toNat s)) := by
  show execReturn src dst m s = _
  unfold execReturn
  rw [committed_heard h]
  rfl

theorem execRecall_heard {src dst : Station} {m : Half} {s : State} {start : BitVec 32} (h : s.Hears start) :
    exec (.recallShares src dst m) s = .next (dropReservation (if (s.bus.answer.ack && dst.toNat == s.dir.own) = true then
      giveBack src.toNat m.toNat (commitFrame false src.toNat s) else commitFrame false src.toNat s)) := by
  show execRecall src dst m s = _
  unfold execRecall
  rw [committed_heard h]
  rfl

/-- Settles O28: each frame at its sender and at its destination, the stations that take nothing, then the lists. -/
theorem returnAndRecallCommit : Obligations.ReturnAndRecallCommit := by
  refine ⟨fun src dst m s => ⟨fun h => giveBack_committed (execReturn_sent h), fun h => takeBack_committed (execRecall_sent h)⟩,
    fun src dst m s start h a => ⟨takeBack_committed ?_, giveBack_committed ?_⟩, fun src dst m s start h notMine => ?_,
    fun _ _ _ => ⟨rfl, rfl⟩, hasLoan_exists, loanOf_cases, shrinkLoan_eq⟩
  · rw [execReturn_heard h, if_pos (forMe_of_accepts a)]
  · rw [execRecall_heard h, if_pos (forMe_of_accepts a)]
  · rw [execReturn_heard h, execRecall_heard h]
    exact ⟨dropped_if_not (takeBack src.toNat m.toNat) s src.toNat (not_forMe notMine),
      dropped_if_not (giveBack src.toNat m.toNat) s src.toNat (not_forMe notMine)⟩

/-! ## NEED (R70, R72, R73) -/

theorem needInRange_iff (src amount : Nat) :
    needInRange src amount = true ↔ 1 ≤ src ∧ src ≤ 29 ∧ 1 ≤ amount ∧ amount ≤ 255 := by
  unfold needInRange
  simp only [Bool.and_eq_true, decide_eq_true_eq, and_assoc]

theorem execNeed_answered {src : Station} {amount : Half} {s : State} {start : BitVec 32} (h : s.Hears start)
    (j : s.joined = true) (range : needInRange src.toNat amount.toNat = true) (other : src.toNat ≠ s.dir.own) :
    exec (.need src amount) s =
      .next (dropReservation (answerNeed src.toNat amount.toNat (commitFrame false src.toNat s))) := by
  show execNeed src amount s = _
  unfold execNeed
  rw [committed_heard h]
  refine congrArg (fun u => Host.Outcome.next (dropReservation u)) ?_
  rw [commitFrame_joined, commitFrame_own, range, j]
  exact if_neg other

theorem execNeed_outOfRange {src : Station} {amount : Half} {s : State} {start : BitVec 32} (h : s.Hears start)
    (range : needInRange src.toNat amount.toNat = false) :
    exec (.need src amount) s = .next (s.afterCommit false src.toNat) := by
  show execNeed src amount s = _
  unfold execNeed
  rw [committed_heard h, range]
  rfl

/-- An answer to a NEED changes the transmit queue alone. -/
theorem moves_answerNeed (x a : Nat) (s : State) : Moves s (answerNeed x a s) :=
  Moves.ite _ (Moves.refl s)
    (Moves.ite _ (moves_withTx_le (Nat.le_of_eq (List.length_map ..))) (moves_queueOrDrop _ s))

/-- The five conditions under which a station lends (R73). -/
theorem lendsTo_iff (s : State) (x : Nat) : s.lendsTo x = true ↔
    s.shares.state = .seated ∧ s.shares.needTimer.isRunning = false ∧ (s.entry x).isSome = true ∧
      (hasLoan x s.shares.lent = true ∨ s.shares.lent.length < 8) ∧
      1 ≤ min ((s.shares.held : Int) - s.heater.cost - s.cfg.lendMargin) ((s.cfg.base : Int) - loanSum s.shares.lent) := by
  unfold State.lendsTo State.seated State.needOutstanding State.lendable
  simp only [Bool.and_eq_true, Bool.or_eq_true, Bool.not_eq_true', decide_eq_true_eq, beq_iff_eq, and_assoc]

/-- The waiting LEND to a station, said of one frame. -/
theorem waitingLendTo_iff (x : Nat) (f : TxFrame) :
    (f.phase != .onBus && f.isLendTo x) = true ↔ f.phase ≠ .onBus ∧ f.body.kind = 5 ∧ f.dst = x := by
  unfold TxFrame.isLendTo TxFrame.isKind
  simp only [Bool.and_eq_true, bne_iff_ne, beq_iff_eq]

theorem hasWaiting_lendTo_iff (x : Nat) (s : State) : s.hasWaiting (TxFrame.isLendTo x) = true ↔
    ∃ f ∈ s.bus.queue, f.phase ≠ .onBus ∧ f.body.kind = 5 ∧ f.dst = x := by
  unfold State.hasWaiting
  simp only [List.any_eq_true, waitingLendTo_iff]

theorem answerNeed_refused {x : Nat} {s : State} (a : Nat) (h : ¬ s.lendsTo x = true) : answerNeed x a s = s := by
  unfold answerNeed
  rw [if_pos (by simpa using h)]

theorem answerNeed_waiting {x : Nat} {s : State} (a : Nat) (h : s.lendsTo x = true)
    (w : s.hasWaiting (TxFrame.isLendTo x) = true) : answerNeed x a s = s.withTx (s.bus.queue.map (fun f =>
      if f.phase ≠ .onBus ∧ f.body.kind = 5 ∧ f.dst = x then { f with body := .lend a } else f)) := by
  unfold answerNeed
  rw [h, w]
  simp only [waitingLendTo_iff]
  rfl

theorem answerNeed_queued {x : Nat} {s : State} (a : Nat) (h : s.lendsTo x = true)
    (w : ¬ s.hasWaiting (TxFrame.isLendTo x) = true) : answerNeed x a s =
      s.withTx (if s.admits 2 then s.bus.queue ++ [newFrame 2 x (.lend a)] else s.bus.queue) := by
  have e : answerNeed x a s = queueOrDrop (newFrame 2 x (.lend a)) s := by
    unfold answerNeed
    rw [h]
    exact if_neg w
  rw [e, queueOrDrop_eq]
  split <;> rfl

/-- Settles O26: at the sender, at another station by the five conditions of R73, and where the common part alone remains. -/
theorem needCommits : Obligations.NeedCommits := by
  refine ⟨fun src amount s u h j source range hu => ?_, fun src amount s start h j source range other => ?_,
    fun x a s => ⟨fun refused => ?_, fun seated idle known place enough => ⟨fun waits => ?_, fun noneWaits => ?_⟩⟩,
    fun src amount s start h out => ?_, execNeed_no_effect⟩
  · refine ⟨_, execNeed_own src amount s u h j source range hu, rfl, ?_⟩
    subst hu
    rw [still_dropReservation, shares_commitFrame, cfg_commitFrame]
    exact still_withShares (still_commitFrame true src.toNat s) _
  · have inRange := (needInRange_iff src.toNat amount.toNat).2 ⟨source.1, source.2, range⟩
    refine ⟨_, execNeed_answered h j inRange other, ?_, rfl⟩
    rw [still_dropReservation, (moves_answerNeed _ _ _).still, still_commitFrame]
  · exact answerNeed_refused a fun k => refused ((lendsTo_iff s x).1 k)
  · exact answerNeed_waiting a ((lendsTo_iff s x).2 ⟨seated, idle, known, place, enough⟩) ((hasWaiting_lendTo_iff x s).2 waits)
  · refine answerNeed_queued a ((lendsTo_iff s x).2 ⟨seated, idle, known, place, enough⟩) fun waits => ?_
    obtain ⟨f, hf, lends⟩ := (hasWaiting_lendTo_iff x s).1 waits
    exact noneWaits f hf lends
  · refine execNeed_outOfRange h (Bool.eq_false_iff.2 fun k => out ?_)
    obtain ⟨low, high, range⟩ := (needInRange_iff src.toNat amount.toNat).1 k
    exact ⟨low, high, range⟩

/-! ## NEED_EXPIRY (R70, R79) -/

theorem execNeedExpiry_eq (s : State) : exec .needExpiry s =
    if s.shares.needTimer.isRunning = true then .next (queueRecall (endNeed s)) else .next s := rfl

theorem queueRecall_none {s : State} (h : s.shares.lent = []) : queueRecall s = s := by
  unfold queueRecall
  rw [h]
  rfl

/-- R79: RECALL goes to the borrower of the newest lent record. -/
theorem queueRecall_newest {s : State} {r : Loan} (h : s.shares.lent.getLast? = some r) : queueRecall s =
    if s.shares.state = .seated ∧ 0 < s.heater.shortfall ∧ s.hasFrame (TxFrame.isKind 7) = false ∧ s.admits 2 = true then
      s.withTx (s.bus.queue ++ [newFrame 2 r.peer .recallShares])
    else s := by
  unfold queueRecall State.seated
  simp only [h, queueOrDrop_eq, Bool.and_eq_true, Bool.not_eq_true', decide_eq_true_eq, beq_iff_eq, nested_if, and_assoc]

/-- Where R79 or the queue does not admit it, no RECALL is queued. -/
theorem queueRecall_idle {s : State} (h : s.shares.lent = [] ∨ s.shares.state ≠ .seated ∨ s.heater.shortfall = 0 ∨
    s.hasFrame (TxFrame.isKind 7) = true ∨ s.admits 2 = false) : queueRecall s = s := by
  cases newest : s.shares.lent.getLast? with
  | none => exact queueRecall_none (List.getLast?_eq_none_iff.1 newest)
  | some r =>
    rw [queueRecall_newest newest, if_neg]
    rintro ⟨seated, short, fresh, room⟩
    rcases h with empty | unseated | met | queued | full
    · rw [empty] at newest
      cases newest
    · exact unseated seated
    · exact Nat.ne_of_gt short met
    · exact Bool.noConfusion (fresh.symm.trans queued)
    · exact Bool.noConfusion (room.symm.trans full)

/-- A RECALL or none, the transmit queue alone may change. -/
theorem queueRecall_queue (s : State) : queueRecall s = s.withTx (queueRecall s).bus.queue := by
  cases newest : s.shares.lent.getLast? with
  | none =>
    rw [queueRecall_none (List.getLast?_eq_none_iff.1 newest)]
    rfl
  | some r =>
    rw [queueRecall_newest newest]
    split <;> rfl

/-- Settles O29: the need ends, and R79 is read in the state that it leaves. -/
theorem needExpiryRecalls : Obligations.NeedExpiryRecalls := by
  refine ⟨fun s running => ⟨queueRecall (endNeed s), (execNeedExpiry_eq s).trans (if_pos running), queueRecall_queue (endNeed s),
    fun r newest seated short fresh room => ?_, fun idle => ?_⟩,
    fun s stopped => (execNeedExpiry_eq s).trans (if_neg (by rw [stopped]; exact Bool.false_ne_true))⟩
  · have recalled := queueRecall_newest (s := endNeed s) newest
    rw [if_pos ⟨seated, short, fresh, room⟩] at recalled
    rw [recalled]
    rfl
  · rw [queueRecall_idle (s := endNeed s) idle]
    rfl

end Sys2Proof.Machine
end

section
/-! PROOFS. What the mode and the service word hand to the units: the pumps' requests, the extraction monitor, and what stays. -/

namespace Sys2Proof.Machine

open Sys2Proof

/-! ## The pumps' requests (R89) -/

/-- A request reads of the records what the steady part keeps. -/
theorem requestSlot_steady (flagOf : RecipeBody → Bool) (s : State) : s.steady.requestSlot flagOf = s.requestSlot flagOf := by
  show (s.tracker.queue.map boardKeep).findSome? _ = s.tracker.queue.findSome? _
  rw [List.findSome?_map]
  rfl

theorem raiseRequest_steady (flagOf : RecipeBody → Bool) (speedOf : RecipeBody → Nat) (line : Nat) (s : State) :
    s.steady.raiseRequest flagOf speedOf line = s.raiseRequest flagOf speedOf line := by
  unfold State.raiseRequest
  rw [requestSlot_steady]
  rfl

theorem workRequests_steady (s : State) : (workRequests s).steady = workRequests s.steady := by
  unfold workRequests State.mainRequest State.chipRequest
  rw [raiseRequest_steady, raiseRequest_steady]
  rfl

/-- Both pumps' requests are those that would be worked out now (R89). -/
def State.Requested (s : State) : Prop := s.pot.mainRequest = s.mainRequest ∧ s.pot.chipRequest = s.chipRequest

theorem requested_workRequests (s : State) : (workRequests s).Requested := ⟨rfl, rfl⟩

theorem requested_steady (s : State) : s.steady.Requested ↔ s.Requested := by
  unfold State.Requested State.mainRequest State.chipRequest
  rw [raiseRequest_steady, raiseRequest_steady]
  exact Iff.rfl

/-- The requests stay as worked out where, of the steady part, the extraction monitor alone changes. -/
theorem State.Requested.of_monitor {s t : State} {x : Extraction} (k : s.Requested)
    (h : t.steady = { s.steady with extraction := x }) : t.Requested := by
  have kept : ({ s.steady with extraction := x } : State).Requested := (requested_steady s).2 k
  rw [← h] at kept
  exact (requested_steady t).1 kept

theorem State.Requested.dropped {s : State} (k : s.Requested) : (dropReservation s).Requested := k

theorem Moves.requested {s t : State} (h : Moves s t) (k : s.Requested) : t.Requested := k.of_monitor h.steady

/-! ## The frame of a change of the mode or the service word -/

/-- The state with another mode, service word, pair of requests and extraction monitor. -/
def State.withOrders (m : Mode) (w : BitVec 32) (main chip : Option Nat) (x : Extraction) (s : State) : State :=
  { s with
    control := { s.control with mode := m, service := w }
    pot := { s.pot with mainRequest := main, chipRequest := chip }
    extraction := x }

/-- The state with another mode and service word, before any unit has followed. -/
def State.ordered (m : Mode) (w : BitVec 32) (s : State) : State :=
  { s with control := { s.control with mode := m, service := w } }

/-- The state with another heater unit. -/
def State.withHeater (h : Heater) (s : State) : State := { s with heater := h }

/-- The requests worked out after an event that changes no more than the heater unit. -/
theorem steady_requestsWorked {m : Mode} {w : BitVec 32} {s v : State} {h : Heater}
    (hv : v.steady = (s.ordered m w).steady.withHeater h) : (workRequests v).steady =
      (s.withOrders m w (s.ordered m w).mainRequest (s.ordered m w).chipRequest s.extraction).steady.withHeater h := by
  rw [workRequests_steady, hv]
  exact congrArg (State.withHeater h) (workRequests_steady (s.ordered m w)).symm

theorem still_withOrders {s u : State} (h : u.still = s.still) (m : Mode) (w : BitVec 32) (main chip : Option Nat)
    (x : Extraction) : (u.withOrders m w main chip x).still = (s.withOrders m w main chip x).still :=
  congrArg (State.withOrders m w main chip x) h

/-- The requests and the monitor that an event gives are the ones that its result shows. -/
theorem still_ordered {s t : State} {m : Mode} {w : BitVec 32} {main chip : Option Nat} {x : Extraction}
    (e : t.still = (s.withOrders m w main chip x).still) : t.extraction = x ∧
      t.still = (s.withOrders m w t.pot.mainRequest t.pot.chipRequest t.extraction).still := by
  have toMain : t.pot.mainRequest = main := congrArg (fun y : State => y.pot.mainRequest) e
  have toChip : t.pot.chipRequest = chip := congrArg (fun y : State => y.pot.chipRequest) e
  have monitor : t.extraction = x := congrArg (fun y : State => y.extraction) e
  refine ⟨monitor, ?_⟩
  rw [toMain, toChip, monitor, e]

end Sys2Proof.Machine
end

section
/-! PROOFS. SIGNAL: the answer, the four operations, and what a changed service word hands on (O40). -/

namespace Sys2Proof.Machine

open Sys2Proof

/-! ## The answer (R150) -/

theorem answer_signal {f : RawFrame} {s : State} (h : s.Asked f 24) :
    ((answerTo f s).1.ack = true ↔ s.joined = true ∧ (f.src = 30 ∨ f.src = 31) ∧ f.payload.length = 5 ∧
      s.control.mode = .service ∧ 1 ≤ byteAt f.payload 0 ∧ byteAt f.payload 0 ≤ 4) ∧
    (answerTo f s).1.busy = false ∧ (answerTo f s).1.veto = false := by
  have e : answerTo f s = signalAnswer f.src.toNat f.payload s := answerTo_asked h
  rw [e]
  unfold signalAnswer ackAnswer
  simp only [Bool.and_eq_true, beq_iff_eq, decide_eq_true_eq, and_assoc, isPanel_iff, and_self]

theorem execAckSlot_inFrame {f : RawFrame} {s : State} (h : s.bus.frameStart.isSome = true) : exec (.ackSlot f) s =
    .next { s with bus := { s.bus with answer := (answerTo f s).1, reservation := (answerTo f s).2 } } := if_pos h

/-- A directed frame that no slot answers is DECLINED (R162). -/
theorem unanswered_declined {f : TxFrame} (directed : f.dst ≠ 0) (s : State) :
    ownCommits f ⟨false, false, false⟩ = false ∧ ownOutcome f ⟨false, false, false⟩ s = declineFrame f s :=
  ⟨beq_eq_false_iff_ne.2 directed, rfl⟩

/-! ## The ducts (R128) -/

/-- The monitor after a proving test: each enabled duct that is not OFF goes to PROVING. -/
def State.provingMonitor (s : State) : Extraction :=
  { s.extraction with ducts := s.extraction.ducts.mapIdx (fun n d => if s.ductEnabled n = true ∧ d.state ≠ .off then
      { d with state := .proving, prove := 0
               timer := if s.cfg.proveTimeout = 0 then .stopped else .running s.cfg.proveTimeout }
      else d) }

theorem provingMonitor_of_steady {s t : State} (h : t.steady = s.steady) : t.provingMonitor = s.provingMonitor := by
  show t.steady.provingMonitor = s.steady.provingMonitor
  rw [h]

/-- A proving test changes the monitor, and of the rest what follows from an alarm. -/
theorem provingTest_steady (s : State) : (provingTest s).steady = { s.steady with extraction := s.provingMonitor } := by
  rw [provingTest_eq, (moves_driveDucts _).steady]
  rfl

/-- The monitor after a change of the service word: a proving test where the word sets line 19 from clear. -/
def State.signalledMonitor (w : BitVec 32) (s : State) : Extraction :=
  if w.getLsbD 19 = true ∧ s.control.service.getLsbD 19 = false then s.provingMonitor else s.extraction

/-! ## The new service word (R149, R150) -/

/-- The units that take the new word before the ducts (R149). -/
def State.signalled (w : BitVec 32) (s : State) : State :=
  potUpdate (workRequests (forcedFalls (sprayUpdate (s.ordered s.control.mode w))))

theorem signalled_eq (w : BitVec 32) (s : State) : s.signalled w = potUpdate (workRequests (forcedFalls (sprayUpdate
    { s with control := { s.control with service := w } }))) := rfl

theorem requested_signalled (w : BitVec 32) (s : State) : (s.signalled w).Requested :=
  (moves_potUpdate _).requested (requested_workRequests _)

theorem signalled_steady (w : BitVec 32) (s : State) : ∃ main chip,
    (s.signalled w).steady = (s.withOrders s.control.mode w main chip s.extraction).steady := by
  have followed := (moves_sprayUpdate (s.ordered s.control.mode w)).trans (moves_forcedFalls _)
  exact ⟨_, _, (moves_potUpdate _).steady.trans (steady_requestsWorked followed.steady)⟩

/-- The ducts take the word after the other units: of the steady part the monitor alone changes. -/
theorem setService_monitor {w : BitVec 32} {s : State} (changed : w ≠ s.control.service) :
    (setService w s).steady = { (s.signalled w).steady with extraction := s.signalledMonitor w } := by
  obtain ⟨main, chip, e⟩ := signalled_steady w s
  have proving := provingMonitor_of_steady e
  have present : (s.signalled w).steady = { (s.signalled w).steady with extraction := s.extraction } := by rw [e]; rfl
  rw [setService_changed changed rfl, (follows_settle _).steady, ← signalled_eq]
  unfold State.signalledMonitor
  split
  · rw [provingTest_steady, proving]
    rfl
  · exact present

theorem requested_setService {w : BitVec 32} {s : State} (changed : w ≠ s.control.service) : (setService w s).Requested :=
  (requested_signalled w s).of_monitor (setService_monitor changed)

theorem setService_steady (w : BitVec 32) (s : State) : ∃ main chip,
    (setService w s).steady = (s.withOrders s.control.mode w main chip (s.signalledMonitor w)).steady := by
  by_cases same : w = s.control.service
  · subst same
    have idle : s.signalledMonitor s.control.service = s.extraction := if_neg fun k => Bool.noConfusion (k.1.symm.trans k.2)
    rw [setService_same, idle]
    exact ⟨s.pot.mainRequest, s.pot.chipRequest, rfl⟩
  · obtain ⟨main, chip, e⟩ := signalled_steady w s
    rw [setService_monitor same, e]
    exact ⟨main, chip, rfl⟩

/-! ## The commit -/

theorem control_mode_commitFrame (own : Bool) (src : Nat) (s : State) :
    (commitFrame own src s).control.mode = s.control.mode :=
  commitFrame_read own src s (fun x => x.control.mode) (fun _ => rfl)

theorem control_service_commitFrame (own : Bool) (src : Nat) (s : State) :
    (commitFrame own src s).control.service = s.control.service :=
  commitFrame_read own src s (fun x => x.control.service) (fun _ => rfl)

/-- A SIGNAL of any of the four operations, `op` of the word as it stands. -/
theorem signal_taken {dst : Station} {s : State} {start : BitVec 32} (h : s.Hears start) (a : s.Accepts dst) (src : Nat)
    (op : BitVec 32 → BitVec 32) :
    committed 24 src dst.toNat [] (fun c u => if c.forMe then setService (op u.control.service) u else u) s =
      .next (dropReservation (setService (op s.control.service) (commitFrame false src s))) := by
  rw [committed_heard h, ← control_service_commitFrame false src s]
  exact congrArg (fun u => Host.Outcome.next (dropReservation u)) (if_pos (forMe_of_accepts a))

theorem signal_notTaken {dst : Station} {s : State} {start : BitVec 32} (h : s.Hears start)
    (n : s.bus.answer.ack = false ∨ dst.toNat ≠ s.dir.own) (src : Nat) (op : BitVec 32 → BitVec 32) :
    committed 24 src dst.toNat [] (fun c u => if c.forMe then setService (op u.control.service) u else u) s =
      .next (s.afterCommit false src) := by
  rw [committed_heard h]
  exact dropped_if_not (fun u => setService (op u.control.service) u) s src (not_forMe n)

/-- What a taken SIGNAL makes of the monitor, and that but for it, the word and the requests the still part stays. -/
theorem signalled_parts {t : State} {w : BitVec 32} {src : Nat} {s : State}
    (e : t = dropReservation (setService w (commitFrame false src s))) : t.extraction = s.signalledMonitor w ∧
      t.still = (s.withOrders s.control.mode w t.pot.mainRequest t.pot.chipRequest t.extraction).still := by
  subst e
  obtain ⟨main, chip, after⟩ := setService_steady w (commitFrame false src s)
  have monitor : (commitFrame false src s).signalledMonitor w = s.signalledMonitor w :=
    commitFrame_read false src s (State.signalledMonitor w) (fun _ => rfl)
  rw [control_mode_commitFrame, monitor] at after
  have parts : (dropReservation (setService w (commitFrame false src s))).still =
      (s.withOrders s.control.mode w main chip (s.signalledMonitor w)).still := by
    rw [still_dropReservation, State.still, after]
    exact still_withOrders (still_commitFrame false src s) ..
  exact still_ordered parts

/-- Settles O40: the answer, the four operations where the SIGNAL is taken and where it is not, then the operations. -/
theorem signalChangesTheServiceWord : Obligations.SignalChangesTheServiceWord := by
  refine ⟨fun f s started wire sound kind length directed own => ⟨_, execAckSlot_inFrame started, ?_⟩,
    fun _ s directed => unanswered_declined directed s, fun src dst value s start h a p hp => ?_,
    fun src dst value s start h n c hc => ?_,
    fun w s u => ⟨fun same => same ▸ setService_same s, fun changed hu => setService_changed changed hu⟩,
    fun _ _ => ⟨forcedFalls_none, forcedFalls_eq⟩, provingTest_eq⟩
  · have answer := answer_signal ⟨wire, sound, directed, own, kind⟩
    simpa only [length, true_and, State.joined, beq_iff_eq] using answer
  · have taken : exec p.1 s = .next (dropReservation (setService p.2 (commitFrame false src.toNat s))) := by
      simp only [List.mem_cons, List.not_mem_nil, or_false] at hp
      rcases hp with rfl | rfl | rfl | rfl
      · exact signal_taken h a src.toNat fun _ => value
      · exact signal_taken h a src.toNat fun w => w ||| value
      · exact signal_taken h a src.toNat fun w => w &&& ~~~value
      · exact signal_taken h a src.toNat fun w => w ^^^ value
    obtain ⟨monitor, kept⟩ := signalled_parts (t := dropReservation (setService p.2 (commitFrame false src.toNat s))) rfl
    have word := control_service_commitFrame false src.toNat s
    refine ⟨_, taken, kept, monitor, fun changed => (requested_setService (word.symm ▸ changed)).dropped,
      fun same => ?_, rfl⟩
    rw [same, ← word, setService_same]
    rfl
  · simp only [List.mem_cons, List.not_mem_nil, or_false] at hc
    rcases hc with rfl | rfl | rfl | rfl
    · exact signal_notTaken h n src.toNat fun _ => value
    · exact signal_notTaken h n src.toNat fun w => w ||| value
    · exact signal_notTaken h n src.toNat fun w => w &&& ~~~value
    · exact signal_notTaken h n src.toNat fun w => w ^^^ value

end Sys2Proof.Machine
end

section
/-! PROOFS. MODE: the mode is taken, and what R143 hands on (O48). -/

namespace Sys2Proof.Machine

open Sys2Proof

/-! ## The causes of the extraction request (R125) -/

/-- The causes are read from the setpoints alone of a heater unit. -/
theorem heatCause_of_setpoints {s t : State} (hc : t.cfg = s.cfg)
    (h : t.heater.channels.map (·.setpoint) = s.heater.channels.map (·.setpoint)) : t.heatCause = s.heatCause := by
  have read (u : State) : u.heatCause = (u.heater.channels.map (·.setpoint)).any (fun p => match p with
      | some v => decide (u.cfg.heatThreshold ≤ v)
      | none => false) := by
    rw [List.any_map]
    rfl
  rw [read, read, h, hc]

/-- Channels whose setpoint a change leaves. -/
theorem setpoints_mapInUse {f : Nat → Channel → Channel} (h : ∀ n c, (f n c).setpoint = c.setpoint) (s : State) :
    (mapInUse f s).heater.channels.map (·.setpoint) = s.heater.channels.map (·.setpoint) := by
  have each (n : Nat) (c : Channel) : (if s.inUse n then f n c else c).setpoint = c.setpoint := by
    split
    · exact h n c
    · rfl
  refine List.ext_getElem (by simp) fun i _ _ => ?_
  simp only [mapInUse_heater, List.getElem_map, List.getElem_mapIdx, each]

/-- Where the mode enters or leaves SERVICE, the heater unit alone changes. -/
theorem serviceBoundary_steady (s : State) :
    (serviceBoundary s).steady = s.steady.withHeater (serviceBoundary s).steady.heater := rfl

theorem extractionCause_serviceBoundary (s : State) : (serviceBoundary s).extractionCause = s.extractionCause :=
  congrArg (fun b => s.joined && (s.control.mode != .idle || b))
    (heatCause_of_setpoints rfl (setpoints_mapInUse (f := fun n c =>
      { zeroDemand (s.channelConfig n).phase s.heater.slot c with regulated := false }) (fun _ _ => rfl) s))

theorem extractionCause_of_steady {s t : State} (h : t.steady = s.steady) : t.extractionCause = s.extractionCause := by
  rw [← extractionCause_steady, h, extractionCause_steady]

/-! ## The new mode (R142, R143) -/

/-- The state with another mode and nothing else changed. -/
def State.inMode (m : Mode) (s : State) : State := { s with control := { s.control with mode := m } }

/-- The service word after a change of the mode: cleared on leaving SERVICE (R142). -/
def State.keptWord (s : State) : BitVec 32 := if s.control.mode = .service then 0 else s.control.service

/-- The nozzles and the heaters have followed the new mode. -/
def State.modeHeated (m : Mode) (s : State) : State :=
  if s.control.mode = .service ∨ m = .service then serviceBoundary (sprayUpdate (s.ordered m s.keptWord))
  else sprayUpdate (s.ordered m s.keptWord)

/-- The pumps and the feeder have followed too. -/
def State.modePumped (m : Mode) (s : State) : State := potUpdate (workRequests (s.modeHeated m))

theorem setMode_modePumped (m : Mode) (s : State) : setMode m s = queueStatus (testRequest (s.modePumped m)) := rfl

theorem requested_modePumped (m : Mode) (s : State) : (s.modePumped m).Requested :=
  (moves_potUpdate _).requested (requested_workRequests _)

/-- The nozzles and the heaters change, of the steady part, the heater unit alone. -/
theorem modeHeated_steady (m : Mode) (s : State) : ∃ h,
    (s.modeHeated m).steady = (s.ordered m s.keptWord).steady.withHeater h := by
  have sprayed := (moves_sprayUpdate (s.ordered m s.keptWord)).steady
  unfold State.modeHeated
  split
  · rw [← sprayed]
    exact ⟨_, serviceBoundary_steady _⟩
  · exact ⟨_, sprayed⟩

theorem modePumped_steady (m : Mode) (s : State) : ∃ main chip h,
    (s.modePumped m).steady = (s.withOrders m s.keptWord main chip s.extraction).steady.withHeater h := by
  obtain ⟨h, heated⟩ := modeHeated_steady m s
  exact ⟨_, _, h, (moves_potUpdate _).steady.trans (steady_requestsWorked heated)⟩

theorem extractionCause_modeHeated (m : Mode) (s : State) :
    (s.modeHeated m).extractionCause = (s.ordered m s.keptWord).extractionCause := by
  have sprayed := extractionCause_of_steady (moves_sprayUpdate (s.ordered m s.keptWord)).steady
  unfold State.modeHeated
  split
  · exact (extractionCause_serviceBoundary _).trans sprayed
  · exact sprayed

/-- A change that reaches no more than the heater unit leaves the configuration and the monitor. -/
theorem heated_same {s t : State} {h : Heater} (e : t.steady = s.steady.withHeater h) :
    t.cfg = s.cfg ∧ t.extraction = s.extraction := by
  show t.steady.cfg = (s.steady.withHeater h).cfg ∧ t.steady.extraction = (s.steady.withHeater h).extraction
  rw [e]
  exact ⟨rfl, rfl⟩

/-- The causes are tested as they stand in the new mode: no unit before the test changes one (R125, R128). -/
theorem extraction_modeTested (m : Mode) (s : State) : (testRequest (s.modePumped m)).extraction =
    (testRequest (s.inMode m)).extraction := by
  obtain ⟨main, chip, h, e⟩ := modePumped_steady m s
  obtain ⟨cfg, monitor⟩ := heated_same e
  have pumped := extractionCause_of_steady (moves_potUpdate (workRequests (s.modeHeated m))).steady
  have cause : (s.modePumped m).extractionCause = (s.inMode m).extractionCause := by
    unfold State.modePumped
    rw [pumped]
    exact extractionCause_modeHeated m s
  exact extraction_testRequest cause cfg monitor

/-- STATUS and what settles after a change of the mode touch nothing of the steady part. -/
theorem modeSettled_steady (m : Mode) (s : State) :
    (settle (setMode m s)).steady = (testRequest (s.modePumped m)).steady := by
  rw [(follows_settle _).steady, setMode_modePumped, (moves_queueStatus _).steady]

theorem requested_modeSettled (m : Mode) (s : State) : (settle (setMode m s)).Requested :=
  (requested_modePumped m s).of_monitor ((modeSettled_steady m s).trans (testRequest_steady _))

theorem setMode_steady (m : Mode) (s : State) : ∃ main chip h, (settle (setMode m s)).steady =
    (s.withOrders m s.keptWord main chip (testRequest (s.inMode m)).extraction).steady.withHeater h := by
  obtain ⟨main, chip, h, e⟩ := modePumped_steady m s
  refine ⟨main, chip, h, ?_⟩
  rw [modeSettled_steady, testRequest_steady, extraction_modeTested, e]
  rfl

/-! ## The commit -/

/-- A change that reaches no more than the heater unit, seen in the still part. -/
theorem still_heated {s t : State} {h : Heater} (e : t.steady = s.steady.withHeater h) :
    (dropReservation t).still = (s.withHeater (dropReservation t).heater).still := by
  have heater : t.steady.heater = h := congrArg (fun x : State => x.heater) e
  subst heater
  exact congrArg (fun x : State => { x with bus := .reset, dir := .reset, groups := .reset }) e

theorem still_withHeater {s u : State} (h : u.still = s.still) (x : Heater) : (u.withHeater x).still = (s.withHeater x).still :=
  congrArg (State.withHeater (State.still (s.withHeater x)).heater) h

/-- The monitor that a test in another mode gives is not one that the common part of a commit touches. -/
theorem extraction_testRequest_commitFrame (m : Mode) (own : Bool) (src : Nat) (s : State) :
    (testRequest ((commitFrame own src s).inMode m)).extraction =
      (testRequest (s.inMode m)).extraction := by
  refine extraction_testRequest ?_ (cfg_commitFrame own src s) (commitFrame_read own src s (fun x => x.extraction) (fun _ => rfl))
  exact commitFrame_read own src s
    (fun x => (x.inMode m).extractionCause) (fun x => extractionCause_steady (x.inMode m))

/-- What a taken MODE makes of the monitor, and that but for the units of R143 the still part stays. -/
theorem modeTaken_parts {t : State} {m : Mode} {src : Nat} {s : State}
    (e : t = dropReservation (settle (setMode m (commitFrame false src s)))) :
    t.extraction = (testRequest (s.inMode m)).extraction ∧ t.still = ((s.withHeater t.heater).withOrders m s.keptWord
      t.pot.mainRequest t.pot.chipRequest t.extraction).still := by
  obtain ⟨main, chip, h, after⟩ := setMode_steady m (commitFrame false src s)
  have word : (commitFrame false src s).keptWord = s.keptWord := commitFrame_read false src s State.keptWord (fun _ => rfl)
  rw [word, extraction_testRequest_commitFrame] at after
  have heated := still_heated after
  rw [← e] at heated
  have common := still_withOrders (still_commitFrame false src s) m s.keptWord main chip (testRequest (s.inMode m)).extraction
  exact still_ordered (s := s.withHeater t.heater) (heated.trans (still_withHeater common t.heater))

theorem execMode_taken {src : Station} {value : Byte} {m : Mode} {s : State} {start : BitVec 32} (h : s.Hears start)
    (j : s.joined = true) (panel : src.toNat = 30 ∨ src.toNat = 31) (code : Mode.ofCode value.toNat = some m)
    (new : m ≠ s.control.mode) :
    exec (.mode src value) s = .next (dropReservation (settle (setMode m (commitFrame false src.toNat s)))) := by
  show execMode src value s = _
  unfold execMode panelFrame
  rw [committed_heard h, code]
  refine congrArg (fun u => Host.Outcome.next (dropReservation u)) (if_pos ?_)
  rw [takesPanel_of ((commitFrame_joined ..).trans j) panel, control_mode_commitFrame]
  exact bne_iff_ne.2 new

theorem execMode_notTaken {src : Station} {value : Byte} {s : State} {start : BitVec 32} (h : s.Hears start)
    (n : Mode.ofCode value.toNat = none ∨ Mode.ofCode value.toNat = some s.control.mode ∨ s.joined = false ∨
      (src.toNat ≠ 30 ∧ src.toNat ≠ 31)) :
    exec (.mode src value) s = .next (s.afterCommit false src.toNat) := by
  show execMode src value s = _
  unfold execMode panelFrame
  rw [committed_heard h]
  cases code : Mode.ofCode value.toNat with
  | none => rfl
  | some m =>
    refine dropped_if_not (fun u => settle (setMode m u)) s src.toNat ?_
    rcases n with none | present | outside
    · rw [code] at none
      cases none
    · rw [code] at present
      cases present
      rw [control_mode_commitFrame, bne_self_eq_false, Bool.and_false]
    · rw [takesPanel_not outside, Bool.false_and]

/-- Settles O48: a taken MODE, its two parts, the MODEs without effect, the codes. -/
theorem modeIsTaken : Obligations.ModeIsTaken := by
  refine ⟨fun src value m s start h j panel code new => ?_, fun _ _ _ _ => setMode_eq, fun _ _ => serviceBoundary_eq,
    fun _ _ _ _ => execMode_notTaken, modeOfCode_cases⟩
  obtain ⟨t, e⟩ : ∃ t, t = dropReservation (settle (setMode m (commitFrame false src.toNat s))) := ⟨_, rfl⟩
  obtain ⟨monitor, kept⟩ := modeTaken_parts e
  have worked : t.Requested := by
    rw [e]
    exact (requested_modeSettled m (commitFrame false src.toNat s)).dropped
  exact ⟨t, by rw [e]; exact execMode_taken h j panel code new, kept, monitor, worked.1, worked.2, e⟩

end Sys2Proof.Machine
end

section
/-! PROOFS. What becomes of the frames in the transmit queue while an alarm moves: `Appends s t` where only the marks and STATUS
join it, `Retains s t` where ALARM frames may come and go. -/

namespace Sys2Proof.Machine

open Sys2Proof

/-! ## Frames that join the queue -/

/-- Every frame stays in the queue, and no ALARM joins it (R165). -/
structure Appends (s t : State) : Prop where
  kept  : ∀ f ∈ s.bus.queue, f ∈ t.bus.queue
  fresh : ∀ f ∈ t.bus.queue, f.body.kind = 11 → f ∈ s.bus.queue

theorem kind_of_isAlarmOf {f : TxFrame} {i : Nat} (h : f.isAlarmOf i = true) : f.body.kind = 11 := by
  unfold TxFrame.isAlarmOf at h
  split at h
  · rename_i e
    rw [e]
    rfl
  · cases h

/-- An operation that does not touch the queue. -/
theorem Appends.of_queue {s t : State} (h : t.bus.queue = s.bus.queue) : Appends s t :=
  ⟨fun _ hf => h ▸ hf, fun _ hf _ => h ▸ hf⟩

theorem Appends.refl (s : State) : Appends s s := .of_queue rfl

theorem Appends.trans {s t u : State} (h : Appends s t) (k : Appends t u) : Appends s u :=
  ⟨fun f hf => k.kept f (h.kept f hf), fun f hf ha => h.fresh f (k.fresh f hf ha) ha⟩

theorem Appends.ite {s t u : State} (c : Prop) [Decidable c] (h : Appends s t) (k : Appends s u) :
    Appends s (if c then t else u) := by
  split
  · exact h
  · exact k

theorem Appends.foldl {α : Type} {f : State → α → State} (h : ∀ s a, Appends s (f s a)) (l : List α) (s : State) :
    Appends s (l.foldl f s) := by
  induction l generalizing s with
  | nil => exact .refl s
  | cons a l ih => exact (h s a).trans (ih _)

theorem appends_push {f : TxFrame} (h : f.body.kind ≠ 11) (s : State) : Appends s (s.push f) :=
  ⟨fun _ hg => List.mem_append_left _ hg, fun g hg ha => by
    rcases List.mem_append.1 hg with k | k
    · exact k
    · rw [List.mem_singleton.1 k] at ha
      exact absurd ha h⟩

theorem appends_queueOrDrop {f : TxFrame} (h : f.body.kind ≠ 11) (s : State) : Appends s (queueOrDrop f s) :=
  .ite _ (appends_push h s) (.refl s)

theorem appends_queueStatus (s : State) : Appends s (queueStatus s) := .ite _ (.refl s) (appends_queueOrDrop (by decide) s)

theorem appends_queueJoin (s : State) : Appends s (queueJoin s) := .ite _ (appends_push (fun h => by cases h) s) (.of_queue rfl)

/-! ## Marks, nozzles, pumps and the condition -/

theorem appends_addMark (id code : Nat) (s : State) : Appends s (addMark id code s) := by
  unfold addMark
  split
  · exact .refl s
  · refine .ite _ (.refl s) (Appends.trans (t := updateLine id (addPair ⟨s.dir.own, code⟩) s) (.of_queue rfl) ?_)
    exact appends_queueOrDrop (f := newFrame 1 0 (.amendMark id s.dir.own code)) (fun h => by cases h) _

theorem appends_markBoards (p : Board → Bool) (code : Nat) (s : State) : Appends s (markBoards p code s) :=
  .foldl (fun s id => appends_addMark id code s) _ s

theorem appends_dropCounting (id : Nat) (s : State) : Appends s (dropCounting id s) := .ite _ (.of_queue rfl) (.refl s)

theorem appends_flowCheck (id : Nat) (s : State) : Appends s (flowCheck id s) := by
  unfold flowCheck
  split
  · exact .refl s
  · refine .ite _ (Appends.trans (t := updateBoard id (fun b => { b with phase := .checked }) s) (.of_queue rfl) ?_) (.refl s)
    exact (appends_dropCounting id _).trans (.foldl (fun s c => appends_addMark id c s) _ _)

theorem appends_markNotFluxed (id : Nat) (s : State) : Appends s (markNotFluxed id s) := by
  unfold markNotFluxed
  split
  · exact .refl s
  · exact .ite _ (.refl s) ((appends_addMark id 1 s).trans (.of_queue rfl))

theorem appends_truncateShots (s : State) : Appends s (truncateShots s) :=
  Appends.trans (t := closeBoardShots s) (.of_queue rfl) (.foldl (fun s id =>
    Appends.trans (t := restartLag id s) (.of_queue rfl) (appends_markNotFluxed id _)) _ _)

theorem appends_withShots (l : List (Option Owner)) (s : State) : Appends s (s.withShots l) := .of_queue rfl

theorem appends_sprayUpdate (s : State) : Appends s (sprayUpdate s) :=
  ((Appends.ite _ (appends_truncateShots s) (.refl s)).trans (appends_withShots _ _)).trans
    (.foldl (fun s id => appends_flowCheck id s) _ _)

theorem appends_leftUp (a b : Pump) (s : State) : Appends s (leftUp a b s) := .ite _ (appends_markBoards _ 6 s) (.refl s)

theorem appends_feederUpdate (s : State) : Appends s (feederUpdate s) :=
  .ite _ (.ite _ (.of_queue rfl) (.refl s)) (.ite _ (.of_queue rfl) (.refl s))

theorem appends_potUpdate (s : State) : Appends s (potUpdate s) := by
  have main (p : Pump) (s : State) : Appends s (setMain p s) :=
    Appends.trans (t := { s with pot := { s.pot with main := p } }) (.of_queue rfl) (appends_leftUp _ _ _)
  have chip (p : Pump) (s : State) : Appends s (setChip p s) :=
    Appends.trans (t := { s with pot := { s.pot with chip := p } }) (.of_queue rfl) (appends_leftUp _ _ _)
  exact ((main _ s).trans (chip _ _)).trans (appends_feederUpdate _)

theorem appends_conditionMarks (c : Condition) (s : State) : Appends s (conditionMarks c s) := by
  unfold conditionMarks
  split
  · exact appends_markBoards _ 11 s
  · exact appends_markBoards _ 11 s
  · exact (Appends.ite _ (appends_markBoards _ 12 s) (.refl s)).trans (.ite _ (appends_markBoards _ 12 _) (.refl _))
  · exact .refl s

theorem appends_setCondition (c : Condition) (s : State) : Appends s (setCondition c s) := by
  have falls (u : State) : Appends u (forcedFalls u) := .ite _ (.of_queue rfl) (.refl u)
  have taken : Appends s { s with control := { s.control with condition := c } } := .of_queue rfl
  exact ((((taken.trans (appends_sprayUpdate _)).trans (falls _)).trans (appends_potUpdate _)).trans
    (appends_conditionMarks c _)).trans (appends_queueStatus _)

theorem appends_recondition (s : State) : Appends s (recondition s) := by
  have sensed : Appends s (senseTrip s) := .ite _ (.refl s) (.of_queue rfl)
  unfold recondition
  exact sensed.trans (.ite _ ((appends_sprayUpdate _).trans (appends_potUpdate _)) (appends_setCondition _ _))

theorem appends_withActivity (l : List Activity) (s : State) : Appends s (withActivity l s) :=
  Appends.trans (t := { s with groups := { s.groups with activity := l } }) (.of_queue rfl)
    (.foldl (fun s c => appends_markBoards _ c s) _ _)

/-! ## ALARM frames may come and go -/

/-- Every frame that is no ALARM stays in the queue. -/
def Retains (s t : State) : Prop := ∀ f ∈ s.bus.queue, f.body.kind ≠ 11 → f ∈ t.bus.queue

theorem Appends.retains {s t : State} (h : Appends s t) : Retains s t := fun f hf _ => h.kept f hf

theorem Retains.refl (s : State) : Retains s s := (Appends.refl s).retains

/-- An operation that does not touch the queue. -/
theorem Retains.of_queue {s t : State} (h : t.bus.queue = s.bus.queue) : Retains s t := (Appends.of_queue h).retains

theorem Retains.trans {s t u : State} (h : Retains s t) (k : Retains t u) : Retains s u :=
  fun f hf ha => k f (h f hf ha) ha

theorem Retains.ite {s t u : State} (c : Prop) [Decidable c] (h : Retains s t) (k : Retains s u) :
    Retains s (if c then t else u) := by
  split
  · exact h
  · exact k

theorem retains_updateRecord (i : Nat) (f : AlarmRecord → AlarmRecord) (s : State) : Retains s (updateRecord i f s) :=
  .of_queue rfl

theorem retains_push (f : TxFrame) (s : State) : Retains s (s.push f) := fun _ hg _ => List.mem_append_left _ hg

theorem retains_withdrawAlarms (i : Nat) (s : State) : Retains s (withdrawFrames (TxFrame.isAlarmOf i) s) := by
  intro f hf ha
  refine List.mem_filter.2 ⟨hf, ?_⟩
  have other : f.isAlarmOf i = false := Bool.eq_false_iff.2 (fun h => ha (kind_of_isAlarmOf h))
  rw [other]
  exact Bool.or_true _

theorem retains_queueClear (i : Nat) (s : State) : Retains s (queueClear i s) :=
  .ite _ (retains_push _ s) (retains_updateRecord i _ s)

theorem retains_announce (i : Nat) (s : State) : Retains s (announce i s) :=
  .ite _ (retains_updateRecord i _ s) (.ite _ ((retains_push _ s).trans (retains_updateRecord i _ _)) (retains_updateRecord i _ s))

theorem retains_clearAnnounced (i : Nat) (s : State) : Retains s (clearAnnounced i s) := by
  unfold clearAnnounced
  refine .ite _ ?_ (retains_updateRecord i _ s)
  exact ((retains_withdrawAlarms i s).trans (.ite _ (retains_queueClear i _) (.refl _))).trans (retains_updateRecord i _ _)

theorem retains_firstOutEntry (i : Nat) (v : Int) (s : State) : Retains s (firstOutEntry i v s) :=
  .ite _ (.of_queue rfl) (.of_queue rfl)

theorem retains_addActivity (a : Activity) (s : State) : Retains s (addActivity a s) :=
  .ite _ (.refl s) (appends_withActivity _ s).retains

theorem retains_enterActive (i : Nat) (v : Int) (s : State) : Retains s (enterActive i v s) := by
  unfold enterActive
  refine Retains.trans ?_ (appends_recondition _).retains
  have h1 := retains_updateRecord i (fun r => { r with state := .active, matchCount := 0, value := v }) s
  have h2 := h1.trans (.ite (s.alarmAction i = .trip) (retains_firstOutEntry i v _) (.refl _))
  have h3 := h2.trans (.ite (s.ownSetTakes i = true) (retains_addActivity ⟨s.alarmGroup i, s.dir.own, i⟩ _) (.refl _))
  have h4 := h3.trans (.ite (s.needsAnnouncing i = true) (retains_announce i _) (.refl _))
  exact h4.trans (.ite _ (.refl _) (appends_markBoards _ _ _).retains)

theorem retains_returnQuiet (i : Nat) (s : State) : Retains s (returnQuiet i s) :=
  (((retains_updateRecord i _ s).trans (appends_withActivity _ _).retains).trans (retains_clearAnnounced i _)).trans
    (appends_recondition _).retains

theorem retains_releaseRecord (i : Nat) (s : State) : Retains s (releaseRecord i s) := by
  unfold releaseRecord
  split
  · exact .ite _ (retains_updateRecord i _ s) (retains_returnQuiet i s)
  · exact retains_returnQuiet i s
  all_goals exact .refl s

theorem retains_raiseHeld (i : Nat) (v : Int) (s : State) : Retains s (raiseHeld i v s) :=
  Retains.trans (t := updateCause i _ s) (.of_queue rfl) (.ite _ (retains_enterActive i _ _) (.refl _))

theorem retains_releaseHeld (i : Nat) (s : State) : Retains s (releaseHeld i s) :=
  .ite _ (Retains.trans (t := updateCause i _ s) (.of_queue rfl) (retains_releaseRecord i _)) (.refl s)

theorem retains_sensePermit (s : State) : Retains s (sensePermit s) := by
  unfold sensePermit
  refine .ite _ (.refl s) (.ite _ (.of_queue rfl) ?_)
  refine Retains.trans ?_ (retains_releaseHeld 19 _)
  exact .of_queue rfl

/-- Settling takes nothing but ALARM frames out of the queue (R11, R18, R115). -/
theorem retains_settle (s : State) : Retains s (settle s) :=
  ((((Retains.ite _ (retains_raiseHeld 16 _ s) (retains_releaseHeld 16 s)).trans (appends_sprayUpdate _).retains).trans
    (appends_potUpdate _).retains).trans (retains_sensePermit _)).trans (retains_sensePermit _)

end Sys2Proof.Machine
end

section
/-! PROOFS. What an alarm record holds after an entry, a return, a release and an acknowledgement (O44). -/

namespace Sys2Proof.Machine

open Sys2Proof

/-! ## An entry to ACTIVE (R112, R113) -/

theorem matchCount_announce (i k : Nat) (s : State) : ((announce i s).record k).matchCount = (s.record k).matchCount := by
  have same (f : AlarmRecord → AlarmRecord) (h : ∀ r, (f r).matchCount = r.matchCount) (u : State) :
      ((updateRecord i f u).record k).matchCount = (u.record k).matchCount := by
    rw [record_updateRecord]
    split
    · exact h _
    · rfl
  unfold announce
  split
  · exact same _ (by intro _; rfl) s
  · split
    · exact same _ (by intro _; rfl) (s.push _)
    · exact same _ (by intro _; rfl) s

theorem enterActive_matchCount {i : Nat} {s : State} (h : i < s.alarms.records.length) (v : Int) :
    ((enterActive i v s).record i).matchCount = 0 := by
  have captured (u : State) : (if s.alarmAction i = .trip then firstOutEntry i v u else u).record i = u.record i :=
    (Spares.ite (p := fun _ => False) _ (spares_firstOutEntry i v u) (.refl u)).record i id
  have taken (u : State) :
      (if s.ownSetTakes i then addActivity ⟨s.alarmGroup i, s.dir.own, i⟩ u else u).record i = u.record i :=
    (Spares.ite (p := fun _ => False) _ (spares_addActivity _ u) (.refl u)).record i id
  have announced (u : State) :
      ((if s.needsAnnouncing i then announce i u else u).record i).matchCount = (u.record i).matchCount := by
    split
    · exact matchCount_announce i i u
    · rfl
  have marked (u : State) :
      (if s.alarmMark i = 0 then u else markBoards (fun _ => true) (s.alarmMark i) u).record i = u.record i :=
    (Spares.ite (p := fun _ => False) _ (.refl u) (spares_markBoards _ _ u)).record i id
  unfold enterActive
  rw [(spares_recondition (p := fun _ => False) _).record i id, marked, announced, taken, captured, record_updateRecord,
    if_pos ⟨rfl, h⟩]

theorem steady_addActivity (a : Activity) (s : State) : (addActivity a s).steady = s.steady := by
  unfold addActivity
  split
  · rfl
  · exact (Moves.foldl (fun u c => moves_markBoards _ c u) _ { s with groups := { s.groups with activity := _ } }).steady

/-- An entry reaches no more than what follows an alarm, at a station that is not JOINED too. -/
theorem steady_enterActive (i : Nat) (v : Int) (s : State) : (enterActive i v s).steady = s.steady := by
  have captured (u : State) : (if s.alarmAction i = .trip then firstOutEntry i v u else u).steady = u.steady :=
    (Moves.ite _ (moves_firstOutEntry i v u) (.refl u)).steady
  have taken (u : State) : (if s.ownSetTakes i then addActivity ⟨s.alarmGroup i, s.dir.own, i⟩ u else u).steady = u.steady := by
    split
    · exact steady_addActivity _ u
    · rfl
  have announced (u : State) : (if s.needsAnnouncing i then announce i u else u).steady = u.steady :=
    (Moves.ite _ (follows_announce i u).toMoves (.refl u)).steady
  have marked (u : State) :
      (if s.alarmMark i = 0 then u else markBoards (fun _ => true) (s.alarmMark i) u).steady = u.steady :=
    (Moves.ite _ (.refl u) (moves_markBoards _ _ u)).steady
  unfold enterActive
  rw [(moves_recondition _).steady, marked, announced, taken, captured]
  rfl

/-! ## A return to QUIET (R112, R115, R116) -/

/-- A set that loses indices brings no mark code into force, so that no board is marked (R139). -/
theorem removeActivity_sets (p : Activity → Bool) (s : State) : removeActivity p s =
    { s with groups := { s.groups with activity := s.groups.activity.filter (fun a => !p a) } } := by
  rw [removeActivity_eq, withActivity_eq rfl]
  generalize hu : ({ s with groups := { s.groups with activity := s.groups.activity.filter (fun a => !p a) } } : State) = u
  have noneNew : u.markCodes.filter (fun c => !s.markCodes.contains c) = [] := by
    refine List.filter_eq_nil_iff.2 fun c hc => ?_
    subst hu
    obtain ⟨g, low, high, ⟨a, ha, hg⟩, marks, code, positive⟩ := (mem_markCodes _ c).1 hc
    have before : c ∈ s.markCodes :=
      (mem_markCodes s c).2 ⟨g, low, high, ⟨a, (List.mem_filter.1 ha).1, hg⟩, marks, code, positive⟩
    simpa using before
  rw [noneNew]
  rfl

/-- CLEAR is queued or owed, and the record shows no more of it than that it is owed. -/
theorem queueClear_record {i : Nat} {s : State} (h : i < s.alarms.records.length) :
    ∃ owed, (queueClear i s).record i = { s.record i with clearOwed := owed } := by
  rw [queueClear_eq]
  split
  · exact ⟨(s.record i).clearOwed, rfl⟩
  · exact ⟨true, by rw [record_updateRecord, if_pos ⟨rfl, h⟩]⟩

theorem queueClear_length (i : Nat) (s : State) : (queueClear i s).alarms.records.length = s.alarms.records.length := by
  rw [queueClear_eq]
  split
  · rfl
  · exact List.length_modify ..

theorem clearAnnounced_record {i : Nat} {s : State} (h : i < s.alarms.records.length) :
    ∃ owed, (clearAnnounced i s).record i = { s.record i with announced := false, delivered := false, clearOwed := owed } := by
  cases announced : (s.record i).announced with
  | false =>
    rw [clearAnnounced_none announced, record_updateRecord, if_pos ⟨rfl, h⟩]
    exact ⟨(s.record i).clearOwed, by rw [← announced]⟩
  | true =>
    obtain ⟨q, hq⟩ : ∃ q, q = s.bus.queue.filter (fun f => f.phase == .onBus || !f.isAlarmOf i) := ⟨_, rfl⟩
    by_cases seen : s.alarmOnBus i = true ∨ (s.record i).delivered = true
    · obtain ⟨owed, e⟩ := queueClear_record (s := s.withTx q) h
      rw [clearAnnounced_seen announced hq seen, record_updateRecord, if_pos ⟨rfl, (queueClear_length i _).symm ▸ h⟩, e]
      exact ⟨owed, rfl⟩
    · obtain ⟨bus, line⟩ := not_or.1 seen
      rw [clearAnnounced_unseen announced hq (Bool.eq_false_iff.2 bus) (Bool.eq_false_iff.2 line), record_updateRecord,
        if_pos ⟨rfl, h⟩]
      exact ⟨(s.record i).clearOwed, rfl⟩

/-- The state in which the own set has lost the index of an alarm that returns to QUIET, and its frames are still to come. -/
def State.quieted (s : State) (i : Nat) : State :=
  removeActivity (fun a => a.raiser == s.dir.own && a.index == i)
    (updateRecord i (fun r => { r with state := .quiet, matchCount := 0 }) s)

theorem returnQuiet_quieted (i : Nat) (s : State) : returnQuiet i s = recondition (clearAnnounced i (s.quieted i)) := rfl

theorem quieted_parts (i : Nat) (s : State) : (s.quieted i).bus = s.bus ∧ (s.quieted i).dir = s.dir ∧
    (s.quieted i).groups.activity = s.groups.activity.filter (fun a => !(a.raiser == s.dir.own && a.index == i)) ∧
    (s.quieted i).alarms = { s.alarms with
      records := s.alarms.records.modify i (fun r => { r with state := .quiet, matchCount := 0 }) } := by
  unfold State.quieted
  rw [removeActivity_sets]
  exact ⟨rfl, rfl, rfl, rfl⟩

theorem quieted_record {i : Nat} {s : State} (h : i < s.alarms.records.length) : i < (s.quieted i).alarms.records.length ∧
    (s.quieted i).record i = { s.record i with state := .quiet, matchCount := 0 } := by
  obtain ⟨_, _, _, alarms⟩ := quieted_parts i s
  have e := record_updateRecord i i (fun r => { r with state := .quiet, matchCount := 0 }) s
  rw [if_pos ⟨rfl, h⟩] at e
  refine ⟨by rw [alarms]; simpa using h, ?_⟩
  rw [← e]
  unfold State.record
  rw [alarms]
  rfl

theorem returnQuiet_record {i : Nat} {s : State} (h : i < s.alarms.records.length) : ∃ owed, (returnQuiet i s).record i =
    { s.record i with state := .quiet, matchCount := 0, announced := false, delivered := false, clearOwed := owed } := by
  obtain ⟨place, quiet⟩ := quieted_record h
  obtain ⟨owed, e⟩ := clearAnnounced_record place
  rw [returnQuiet_quieted, (spares_recondition (p := fun _ => False) _).record i id, e, quiet]
  exact ⟨owed, rfl⟩

theorem returnQuiet_quiet {i : Nat} {s : State} (h : s.alarmState i ≠ .quiet) : (returnQuiet i s).alarmState i = .quiet := by
  obtain ⟨owed, e⟩ := returnQuiet_record (record_place h)
  exact congrArg AlarmRecord.state e

/-! ## Release and acknowledgement (R110, R118) -/

/-- A record that is not QUIET takes the state that a change gives it. -/
theorem alarmState_updateRecord {i : Nat} {s : State} (h : s.alarmState i ≠ .quiet) (f : AlarmRecord → AlarmRecord) :
    (updateRecord i f s).alarmState i = (f (s.record i)).state := by
  unfold State.alarmState
  rw [record_updateRecord, if_pos ⟨rfl, record_place h⟩]

theorem alarmState_release_active {i : Nat} {s : State} (h : s.alarmState i = .active) :
    (releaseRecord i s).alarmState i = if s.alarmLatches i then .latched else .quiet := by
  rw [releaseRecord_active h]
  split
  · exact alarmState_updateRecord (by rw [h]; decide) _
  · exact returnQuiet_quiet (by rw [h]; decide)

theorem alarmState_release_acked {i : Nat} {s : State} (h : s.alarmState i = .activeAcked) :
    (releaseRecord i s).alarmState i = .quiet := by
  rw [releaseRecord_acked h]
  exact returnQuiet_quiet (by rw [h]; decide)

theorem releaseRecord_rests {i : Nat} {s : State}
    (h : s.alarmState i = .quiet ∨ s.alarmState i = .pending ∨ s.alarmState i = .latched) : releaseRecord i s = s := by
  unfold releaseRecord
  rcases h with h | h | h <;> rw [h]

theorem acknowledgeOne_active {i : Nat} {s : State} (h : s.alarmState i = .active) :
    acknowledgeOne i s = updateRecord i (fun r => { r with state := .activeAcked }) s := by
  unfold acknowledgeOne
  rw [h]

theorem acknowledgeOne_latched {i : Nat} {s : State} (h : s.alarmState i = .latched) : acknowledgeOne i s =
    if decide (16 ≤ i) && (s.cause i).raised then
      updateRecord i (fun r => { r with state := .active, value := (s.cause i).value }) s
    else returnQuiet i s := by
  unfold acknowledgeOne
  rw [h]

theorem acknowledgeOne_rests {i : Nat} {s : State}
    (h : s.alarmState i = .quiet ∨ s.alarmState i = .pending ∨ s.alarmState i = .activeAcked) : acknowledgeOne i s = s := by
  unfold acknowledgeOne
  rcases h with h | h | h <;> rw [h]

theorem alarmState_acknowledge_latched {i : Nat} {s : State} (h : s.alarmState i = .latched) :
    (acknowledgeOne i s).alarmState i = if decide (16 ≤ i) && (s.cause i).raised then .active else .quiet := by
  rw [acknowledgeOne_latched h]
  split
  · exact alarmState_updateRecord (by rw [h]; decide) _
  · exact returnQuiet_quiet (by rw [h]; decide)

/-- Settles O44: the four moves of a record, then each operation as the statement spells it. -/
theorem alarmRecordsMove : Obligations.AlarmRecordsMove := by
  refine ⟨fun s i v h => ?_, fun s i h => ⟨alarmState_release_active h, ?_⟩,
    fun s i h => ⟨alarmState_release_acked h, acknowledgeOne_rests (.inr (.inr h))⟩,
    fun s i h => ⟨releaseRecord_rests (.inr (.inr h)), alarmState_acknowledge_latched h⟩,
    fun s i h => ⟨releaseRecord_rests (h.imp_right .inl), acknowledgeOne_rests (h.imp_right .inl)⟩,
    fun s i => ⟨(follows_releaseRecord i s).steady, (follows_acknowledgeOne i s).steady⟩,
    recordValue_eq, fun _ _ _ _ => raiseHeld_eq, fun _ _ => ⟨releaseHeld_none, releaseHeld_eq⟩, occurrence_eq,
    fun _ _ => ⟨releaseRecord_active, releaseRecord_acked⟩, alarmLatches_iff, fun _ _ _ _ _ _ _ _ => enterActive_eq,
    fun _ _ _ => ⟨firstOutEntry_counts, firstOutEntry_captures⟩, addActivity_eq, removeActivity_eq,
    fun _ _ _ => withActivity_eq, mem_markCodes, fun _ _ => ⟨announce_waiting, announce_new⟩, fun _ _ _ => returnQuiet_eq,
    alarmOnBus_iff, fun _ _ => clearAnnounced_none,
    fun _ _ _ h hq => ⟨clearAnnounced_seen h hq, clearAnnounced_unseen h hq⟩, queueClear_eq, alarm_properties_watch,
    alarm_properties_builtin, stands_iff⟩
  · obtain ⟨active, value, _⟩ := enterActive_record h v
    exact ⟨active, value, enterActive_matchCount h v, steady_enterActive i v s⟩
  · rw [acknowledgeOne_active h]
    exact alarmState_updateRecord (by rw [h]; decide) _

end Sys2Proof.Machine
end

section
/-! PROOFS. ACKNOWLEDGE and RELEASE of a panel (O46), and ALARM and CLEAR at their sender and at the stations that hear them
(O45). -/

namespace Sys2Proof.Machine

open Sys2Proof

/-! ## ACKNOWLEDGE (R117, R118, R122) -/

theorem still_acknowledgeAlarms (index : Nat) (s : State) : (settle (acknowledgeAlarms index s)).still = s.still :=
  (still_settle _).trans (follows_acknowledgeAlarms index s).still

theorem execAcknowledge_taken {src dst : Station} {s : State} {start : BitVec 32} (h : s.Hears start) (j : s.joined = true)
    (panel : src.toNat = 30 ∨ src.toNat = 31) (here : dst = 0 ∨ s.Accepts dst) (index : Byte) :
    exec (.acknowledge src dst index) s =
      .next (dropReservation (settle (acknowledgeAlarms index.toNat (commitFrame false src.toNat s)))) := by
  show execAcknowledge src dst index s = _
  unfold execAcknowledge panelFrame
  rw [committed_heard h]
  refine congrArg (fun u => Host.Outcome.next (dropReservation u)) (if_pos ?_)
  rw [takesPanel_of ((commitFrame_joined ..).trans j) panel, Bool.true_and]
  rcases here with rfl | accepted
  · rfl
  · rw [forMe_of_accepts accepted, Bool.or_true]

theorem execAcknowledge_notPanel {src : Station} {s : State} {start : BitVec 32} (h : s.Hears start)
    (n : s.joined = false ∨ (src.toNat ≠ 30 ∧ src.toNat ≠ 31)) (dst : Station) (index : Byte) :
    exec (.acknowledge src dst index) s = .next (s.afterCommit false src.toNat) := by
  show execAcknowledge src dst index s = _
  unfold execAcknowledge panelFrame
  rw [committed_heard h]
  exact dropped_if_not (fun u => settle (acknowledgeAlarms index.toNat u)) s src.toNat (by rw [takesPanel_not n, Bool.false_and])

theorem execAcknowledge_notHere {dst : Station} {s : State} {start : BitVec 32} (h : s.Hears start) (directed : dst ≠ 0)
    (n : s.bus.answer.ack = false ∨ dst.toNat ≠ s.dir.own) (src : Station) (index : Byte) :
    exec (.acknowledge src dst index) s = .next (s.afterCommit false src.toNat) := by
  show execAcknowledge src dst index s = _
  unfold execAcknowledge panelFrame
  rw [committed_heard h]
  refine dropped_if_not (fun u => settle (acknowledgeAlarms index.toNat u)) s src.toNat ?_
  rw [not_forMe n, Bool.or_false, beq_eq_false_iff_ne.2 directed, Bool.and_false]

theorem acknowledgeAlarms_eq (index : Nat) (s : State) : acknowledgeAlarms index s =
    let s1 := (if index = 255 then List.range 29 else if index ≤ 28 then [index] else []).foldl
      (fun s i => acknowledgeOne i s) s
    if s1.derivedCondition = .tripped then s1 else { s1 with alarms := { s1.alarms with firstOut := none } } := rfl

/-! ## Sets that lose indices (R134, R135) -/

/-- The sets lose indices, the ORPHAN flags follow, and then the condition. -/
theorem still_deactivate (p : Activity → Bool) (q : Nat → Bool) (s : State) :
    (settle (recondition (clearEmptyOrphans q (removeActivity p s)))).still = s.still :=
  (still_settle _).trans ((moves_recondition _).still.trans (moves_removeActivity p s).still)

theorem execRelease_taken {src : Station} {group raiser : Byte} {s : State} {start : BitVec 32} (h : s.Hears start)
    (j : s.joined = true) (panel : src.toNat = 30 ∨ src.toNat = 31) (hg : group.toNat ≤ 8) (hr : raiser.toNat ≤ 31) :
    exec (.release src group raiser) s = .next (dropReservation (settle (recondition (clearEmptyOrphans (fun _ => true)
      (removeActivity (released group.toNat raiser.toNat s.dir.own) (commitFrame false src.toNat s)))))) := by
  show execRelease src group raiser s = _
  unfold execRelease panelFrame
  rw [committed_heard h, commitFrame_own]
  refine congrArg (fun u => Host.Outcome.next (dropReservation u)) (if_pos ?_)
  simp [takesPanel_of ((commitFrame_joined ..).trans j) panel, hg, hr]

theorem execRelease_notPanel {src : Station} {s : State} {start : BitVec 32} (h : s.Hears start)
    (n : s.joined = false ∨ (src.toNat ≠ 30 ∧ src.toNat ≠ 31)) (group raiser : Byte) :
    exec (.release src group raiser) s = .next (s.afterCommit false src.toNat) := by
  show execRelease src group raiser s = _
  unfold execRelease panelFrame
  rw [committed_heard h]
  exact dropped_if_not (fun u => settle (recondition (clearEmptyOrphans (fun _ => true)
    (removeActivity (released group.toNat raiser.toNat u.dir.own) u)))) s src.toNat (by rw [takesPanel_not n]; rfl)

theorem released_iff (group raiser own : Nat) (a : Activity) : released group raiser own a = true ↔
    (group = 0 ∨ a.group = group) ∧ (raiser = 0 ∨ a.raiser = raiser) ∧ a.raiser ≠ own := by
  unfold released
  simp only [Bool.and_eq_true, Bool.or_eq_true, beq_iff_eq, bne_iff_ne, and_assoc]

/-- Settles O46: the two frames where they are taken, then where they are not. -/
theorem acknowledgeAndReleaseCommit : Obligations.AcknowledgeAndReleaseCommit := by
  refine ⟨fun _ _ index _ _ h j panel here => ⟨_, execAcknowledge_taken h j panel here index, ?_, rfl⟩, acknowledgeAlarms_eq,
    fun _ _ _ _ _ h j panel hg hr => ⟨_, execRelease_taken h j panel hg hr, ?_, rfl⟩, released_iff,
    fun _ dst index group raiser _ _ h n => ⟨execAcknowledge_notPanel h n dst index, execRelease_notPanel h n group raiser⟩,
    fun src _ index _ _ h directed n => execAcknowledge_notHere h directed n src index, clearEmptyOrphans_eq,
    execRelease_out_of_range⟩
  · rw [still_dropReservation, still_acknowledgeAlarms, still_commitFrame]
  · rw [still_dropReservation, still_deactivate, still_commitFrame]

/-! ## Which records and causes the common part of a commit reaches (R169, R171) -/

/-- The records and the causes of the indices that do not meet `p` are not touched. -/
structure Leaves (p : Nat → Prop) (s t : State) : Prop where
  record : ∀ k, ¬p k → t.record k = s.record k
  cause  : ∀ k, 16 ≤ k → ¬p k → t.cause k = s.cause k

theorem Spares.leaves {p : Nat → Prop} {s t : State} (h : Spares p s t) : Leaves p s t := ⟨h.record, h.cause⟩

theorem Leaves.of_alarms {p : Nat → Prop} {s t : State} (h : t.alarms = s.alarms) : Leaves p s t :=
  ⟨fun _ _ => by unfold State.record; rw [h], fun _ _ _ => by unfold State.cause; rw [h]⟩

theorem Leaves.trans {p : Nat → Prop} {s t u : State} (h : Leaves p s t) (k : Leaves p t u) : Leaves p s u :=
  ⟨fun i hi => (k.record i hi).trans (h.record i hi), fun i hi hp => (k.cause i hi hp).trans (h.cause i hi hp)⟩

theorem Leaves.ite {p : Nat → Prop} {s t u : State} (c : Prop) [Decidable c] (h : Leaves p s t) (k : Leaves p s u) :
    Leaves p s (if c then t else u) := by
  split
  · exact h
  · exact k

/-- The indices whose records a restarted contact timer may reach: ISOLATED, and what settling reaches. -/
def contactIndex (k : Nat) : Prop := k = 16 ∨ k = 19 ∨ k = 27

theorem leaves_queueJoin {p : Nat → Prop} (s : State) : Leaves p s (queueJoin s) := .ite _ (.of_alarms rfl) (.of_alarms rfl)

theorem leaves_settle (s : State) : Leaves contactIndex s (settle s) := (spares_settle (.inl rfl) (.inr (.inl rfl)) s).leaves

theorem leaves_restartContact (own : Bool) (s : State) : Leaves contactIndex s (restartContact own s) := by
  have started : Leaves contactIndex s (if own then { s with bus := { s.bus with ownContact := s.contactTimer } }
      else { s with bus := { s.bus with peerContact := s.contactTimer } } : State) := by
    cases own <;> exact .of_alarms rfl
  have left (u : State) : Leaves contactIndex u (leaveIsolation u) :=
    ((spares_releaseHeld (.inr (.inr rfl)) u).leaves.trans (.ite _ (.of_alarms rfl) (leaves_queueJoin _))).trans (leaves_settle _)
  unfold restartContact
  exact .ite _ (.of_alarms rfl) (.ite _ (started.trans (left _)) started)

theorem alarms_touch (src : Nat) (s : State) : (touch src s).alarms = s.alarms := by
  unfold touch
  split
  · split <;> rfl
  · rfl

/-- The commit of another participant's frame reaches ISOLATED, HAND_LATE and CONVEYOR_STALL alone (R171). -/
theorem leaves_commitFrame_heard (src : Nat) (s : State) : Leaves contactIndex s (commitFrame false src s) := by
  have closed : Leaves contactIndex s (closeFrame (keepOnBus s)) := .of_alarms rfl
  have contact : Leaves contactIndex s (if s.joined && src == s.dir.own && src != 0 then closeFrame (keepOnBus s)
      else restartContact false (closeFrame (keepOnBus s))) :=
    .ite _ closed (closed.trans (leaves_restartContact false _))
  exact contact.trans (.of_alarms (alarms_touch src _))

/-! ## A release that is followed by CLEAR (R115, R116) -/

/-- The frames of index `i` that wait, withdrawn. -/
def State.unannounced (s : State) (i : Nat) : List TxFrame := s.bus.queue.filter (fun f => f.phase == .onBus || !f.isAlarmOf i)

/-- A return to QUIET of an alarm that the line may have seen: CLEAR is queued or owed before the condition follows. -/
theorem returnQuiet_seen {i : Nat} {s : State} (place : i < s.alarms.records.length) (announced : (s.record i).announced = true)
    (seen : s.alarmOnBus i = true ∨ (s.record i).delivered = true) : returnQuiet i s = recondition
      (updateRecord i (fun r => { r with announced := false, delivered := false })
        (queueClear i ((s.quieted i).withTx (s.unannounced i)))) := by
  obtain ⟨_, quiet⟩ := quieted_record place
  obtain ⟨bus, _, _, _⟩ := quieted_parts i s
  have onBus : (s.quieted i).alarmOnBus i = s.alarmOnBus i := by
    unfold State.alarmOnBus State.hasFrame
    rw [bus]
  rw [returnQuiet_quieted, clearAnnounced_seen (q := s.unannounced i) (by rw [quiet]; exact announced) (by rw [bus]; rfl)
    (by rw [onBus, quiet]; exact seen)]

/-- What the CLEAR of such a return reads: the class and the group of the ALARM, and the places that its withdrawal leaves. -/
theorem quieted_reads {i : Nat} {s : State} (place : i < s.alarms.records.length) (q : List TxFrame) :
    ((s.quieted i).withTx q).record i = { s.record i with state := .quiet, matchCount := 0 } ∧
    ((s.quieted i).withTx q).admits = (s.withTx q).admits := by
  obtain ⟨_, quiet⟩ := quieted_record place
  obtain ⟨bus, _, _, _⟩ := quieted_parts i s
  refine ⟨quiet, ?_⟩
  unfold State.admits State.txFree State.withTx
  rw [bus]

/-- With a place in the queue the CLEAR is queued. -/
theorem returnQuiet_queues {i : Nat} {s : State} (place : i < s.alarms.records.length) (announced : (s.record i).announced = true)
    (seen : s.alarmOnBus i = true ∨ (s.record i).delivered = true)
    (room : (s.withTx (s.unannounced i)).admits (s.record i).sentClass = true) :
    newFrame (s.record i).sentClass 0 (.clear i (s.record i).sentGroup) ∈ (returnQuiet i s).bus.queue := by
  obtain ⟨record, admits⟩ := quieted_reads place (s.unannounced i)
  rw [returnQuiet_seen place announced seen, queueClear_eq, record, admits, if_pos room]
  exact (appends_recondition _).kept _ (List.mem_append_right _ (List.mem_singleton.2 rfl))

/-- Without one it is owed. -/
theorem returnQuiet_owes {i : Nat} {s : State} (place : i < s.alarms.records.length) (announced : (s.record i).announced = true)
    (seen : s.alarmOnBus i = true ∨ (s.record i).delivered = true)
    (full : (s.withTx (s.unannounced i)).admits (s.record i).sentClass = false) :
    ((returnQuiet i s).record i).clearOwed = true := by
  obtain ⟨stays, _⟩ := quieted_record place
  obtain ⟨record, admits⟩ := quieted_reads place (s.unannounced i)
  rw [returnQuiet_seen place announced seen, queueClear_eq, record, admits, if_neg (by rw [full]; decide),
    (spares_recondition (p := fun _ => False) _).record i id, record_updateRecord, record_updateRecord]
  simp [State.withTx, updateRecord, stays]

/-- The alarm stands with its ALARM delivered, and its cause is raised. -/
structure Delivered (i : Nat) (s : State) : Prop where
  stands    : s.alarmState i = .active ∨ s.alarmState i = .activeAcked
  raised    : (s.cause i).raised = true
  announced : (s.record i).announced = true
  delivered : (s.record i).delivered = true

/-- The alarm has returned to QUIET, and its CLEAR is queued or owed. -/
structure Returned (i : Nat) (r : AlarmRecord) (s : State) : Prop where
  quiet : s.alarmState i = .quiet
  clear : newFrame r.sentClass 0 (.clear i r.sentGroup) ∈ s.bus.queue ∨ (s.record i).clearOwed = true

theorem Delivered.leaves {p : Nat → Prop} {i : Nat} {s t : State} (d : Delivered i s) (h : Leaves p s t) (hi : 16 ≤ i)
    (hp : ¬p i) : Delivered i t := by
  have record := h.record i hp
  have state : t.alarmState i = s.alarmState i := congrArg AlarmRecord.state record
  exact ⟨by rw [state]; exact d.stands, by rw [h.cause i hi hp]; exact d.raised, by rw [record]; exact d.announced,
    by rw [record]; exact d.delivered⟩

theorem Returned.retains {i : Nat} {r : AlarmRecord} {s t : State} (d : Returned i r s) (record : t.record i = s.record i)
    (h : Retains s t) : Returned i r t :=
  ⟨(congrArg AlarmRecord.state record).trans d.quiet,
    d.clear.imp (fun queued => h _ queued (fun k => by cases k)) (fun owed => by rw [record]; exact owed)⟩

theorem Returned.settle {i : Nat} {r : AlarmRecord} {s : State} (d : Returned i r s) (h16 : i ≠ 16) (h19 : i ≠ 19) :
    Returned i r (settle s) := d.retains (record_settle h16 h19 s) (retains_settle s)

/-- The release of a condition that does not latch (R110, R115). -/
theorem releaseHeld_returned {i : Nat} {s : State} (d : Delivered i s) (h : s.alarmLatches i = false) :
    Returned i (s.record i) (releaseHeld i s) := by
  rw [releaseHeld_eq d.raised]
  generalize hu : ({ s with alarms := { s.alarms with causes := s.alarms.causes.mapIdx (fun k c =>
    if k + 16 = i then { c with raised := false } else c) } } : State) = u
  have record : u.record i = s.record i := by rw [← hu]; rfl
  have state : u.alarmState i = s.alarmState i := congrArg AlarmRecord.state record
  have latches : u.alarmLatches i = false := by rw [← hu]; exact h
  have notQuiet : u.alarmState i ≠ .quiet := by
    rw [state]
    rcases d.stands with k | k <;> rw [k] <;> decide
  have returns : releaseRecord i u = returnQuiet i u := by
    rcases d.stands with k | k
    · rw [releaseRecord_active (state.trans k), if_neg (by rw [latches]; decide)]
    · exact releaseRecord_acked (state.trans k)
  rw [returns, ← record]
  refine ⟨returnQuiet_quiet notQuiet, ?_⟩
  have announced : (u.record i).announced = true := by rw [record]; exact d.announced
  have seen : u.alarmOnBus i = true ∨ (u.record i).delivered = true := .inr (by rw [record]; exact d.delivered)
  cases room : (u.withTx (u.unannounced i)).admits (u.record i).sentClass with
  | true => exact .inl (returnQuiet_queues (record_place notQuiet) announced seen room)
  | false => exact .inr (returnQuiet_owes (record_place notQuiet) announced seen room)

/-! ## The own ALARM commits and ends its cause (R114, R115, R169, R171) -/

/-- The state in which the own frame has left the queue and the bus is free, before the contact timer restarts. -/
def State.sentAway (s : State) : State :=
  { s with bus := { s.bus with
      queue := s.bus.queue.filter (fun f => f.phase != .onBus)
      onWire := none, frameStart := none, answer := ⟨false, false, false⟩ } }

theorem commitFrame_sentAway (src : Nat) (s : State) : commitFrame true src s =
    if ((restartContact true s.sentAway).cause 26).raised = true then settle (releaseHeld 26 (restartContact true s.sentAway))
    else restartContact true s.sentAway := commitFrame_own_eq src s _ rfl

theorem isolated_deliverOwn (s : State) : (deliverOwn s).isolated = s.isolated :=
  (Moves.ite _ ((follows_releaseHeld 26 s).trans (follows_settle _)).toMoves (.refl s)).read State.isolated (fun _ => rfl)

/-- BUS_DELIVERY is released at the commit of an own frame, its own ALARM too. -/
theorem ownAlarm_busDelivery {s : State} (d : Delivered 26 s) (src : Nat) :
    Returned 26 (s.record 26) (commitFrame true src s) := by
  have away : Leaves contactIndex s s.sentAway := .of_alarms rfl
  have contact := away.trans (leaves_restartContact true _)
  have other : ¬contactIndex 26 := by unfold contactIndex; omega
  have d' := d.leaves contact (by omega) other
  rw [commitFrame_sentAway, if_pos d'.raised, ← contact.record 26 other]
  exact (releaseHeld_returned d' rfl).settle (by decide) (by decide)

/-- The own-contact timer of a free bus has restarted. -/
def State.contacted (s : State) : State :=
  { s.sentAway with bus := { s.sentAway.bus with ownContact := .running (3 * s.cfg.presencePeriod) } }

theorem restartContact_sentAway {s : State} (joined : s.joined = true) :
    (s.contacted.isolated = true → restartContact true s.sentAway = s.contacted) ∧
    (s.isolated = true → s.contacted.isolated = false → restartContact true s.sentAway =
      settle (if (releaseHeld 27 s.contacted).hasFrame (TxFrame.isKind 2) = true then releaseHeld 27 s.contacted
        else queueJoin (releaseHeld 27 s.contacted))) := by
  obtain ⟨_, stays, leaves⟩ := restartContact_cases true s.sentAway s.contacted (releaseHeld 27 s.contacted) rfl rfl
  exact ⟨fun isolated => stays joined (.inr isolated), fun before free => leaves joined before free⟩

/-- The commit ends the isolation where the restarted timer does. -/
theorem contacted_free {s : State} {src : Nat} (joined : s.joined = true) (after : (commitFrame true src s).isolated = false) :
    s.contacted.isolated = false := by
  obtain ⟨stays, _⟩ := restartContact_sentAway joined
  refine Bool.eq_false_iff.2 fun isolated => ?_
  have kept : (commitFrame true src s).isolated = (restartContact true s.sentAway).isolated := isolated_deliverOwn _
  rw [stays isolated, after, isolated] at kept
  cases kept

/-- ISOLATED is released at the commit of an own frame that ends the isolation, its own ALARM too. -/
theorem ownAlarm_isolated {s : State} (d : Delivered 27 s) (before : s.isolated = true) (after : s.contacted.isolated = false)
    (src : Nat) : Returned 27 (s.record 27) (commitFrame true src s) := by
  obtain ⟨joined, _⟩ := (isolated_iff s).1 before
  obtain ⟨_, leaves⟩ := restartContact_sentAway joined
  have contact : Leaves (fun _ => False) s s.contacted := .of_alarms rfl
  have released := releaseHeld_returned (d.leaves contact (by decide) id) rfl
  rw [contact.record 27 id] at released
  have left : Returned 27 (s.record 27) (restartContact true s.sentAway) := by
    rw [leaves before after]
    refine Returned.settle ?_ (by decide) (by decide)
    split
    · exact released
    · exact released.retains ((leaves_queueJoin (p := fun _ => False) _).record 27 id) (appends_queueJoin _).retains
  rw [commitFrame_sentAway]
  split
  · exact (left.retains ((spares_releaseHeld (p := (· = 26)) rfl _).record 27 (by decide)) (retains_releaseHeld 26 _)).settle
      (by decide) (by decide)
  · exact left

/-! ## ALARM (R114, R133, R148) -/

theorem alarmDelivered_stands {i : Nat} {s : State} (h : s.stands i = true) :
    alarmDelivered i s = updateRecord i (fun r => { r with delivered := true }) s := if_pos h

theorem alarmDelivered_none {i : Nat} {s : State} (h : s.stands i = false) : alarmDelivered i s = s :=
  if_neg (by rw [h]; decide)

theorem alarmDelivered_bus (i : Nat) (s : State) : (alarmDelivered i s).bus = s.bus := by
  unfold alarmDelivered
  split <;> rfl

theorem captureLine_captures {src : Nat} {f : AlarmFields} {s : State} (j : s.joined = true)
    (opened : s.control.lineState = .opened) (trip : f.action = 4) (source : 1 ≤ src) (index : f.index.toNat ≤ 28) :
    captureLine src f s =
      { s with control := { s.control with lineState := .captured, lineValue := some (src, f.index.toNat) } } :=
  if_pos (by simp [j, opened, trip, source, index])

theorem captureLine_none {src : Nat} {f : AlarmFields} {s : State}
    (h : s.joined = false ∨ s.control.lineState ≠ .opened ∨ f.action ≠ 4) : captureLine src f s = s := by
  refine if_neg fun c => ?_
  simp only [Bool.and_eq_true, beq_iff_eq] at c
  obtain ⟨⟨⟨⟨joined, opened⟩, trip⟩, _⟩, _⟩ := c
  rcases h with h | h | h
  · rw [h] at joined
    cases joined
  · exact h opened
  · exact h trip

theorem Returned.captured {i : Nat} {r : AlarmRecord} {s : State} (d : Returned i r s) (src : Nat) (f : AlarmFields) :
    Returned i r (captureLine src f s) := by
  unfold captureLine
  split
  · exact ⟨d.quiet, d.clear⟩
  · exact d

theorem Returned.dropped {i : Nat} {r : AlarmRecord} {s : State} (d : Returned i r s) : Returned i r (dropReservation s) :=
  ⟨d.quiet, d.clear⟩

theorem still_captureLine (src : Nat) (f : AlarmFields) (s : State) : (captureLine src f s).still = s.still := still_ite _ rfl rfl

theorem execAlarm_sent {src : Station} {f : AlarmFields} {s : State} (h : s.Sends 11 src.toNat 0 (alarmBytes f)) :
    exec (.alarm src f) s = .next (dropReservation (captureLine src.toNat f
      (commitFrame true src.toNat (alarmDelivered f.index.toNat s)))) := by
  show execAlarm src f s = _
  obtain ⟨owns, seen⟩ := h
  have noted : noteDelivered src.toNat f s = alarmDelivered f.index.toNat s := if_pos (by rw [seen, owns]; rfl)
  have sends : (alarmDelivered f.index.toNat s).Sends 11 src.toNat 0 (alarmBytes f) := by
    unfold State.Sends State.ownsFrame
    rw [alarmDelivered_bus]
    exact ⟨owns, seen⟩
  obtain ⟨start, commits⟩ := committed_sent sends
  unfold execAlarm
  rw [noted, commits]
  rfl

/-- The own ALARM of a condition whose cause its commit ends: the record is QUIET, and CLEAR follows. -/
theorem ownAlarm_returned {s : State} {i : Nat} {src : Nat}
    (ends : i = 26 ∨ (i = 27 ∧ s.isolated = true ∧ (s.afterCommit true src).isolated = false))
    (stands : s.alarmState i = .active ∨ s.alarmState i = .activeAcked) (raised : (s.cause i).raised = true)
    (announced : (s.record i).announced = true) (place : i < s.alarms.records.length) :
    Returned i (s.record i) (commitFrame true src (alarmDelivered i s)) := by
  have standing : s.stands i = true := ((stands_iff s i).1).2 (by rcases stands with k | k <;> simp [k])
  rw [alarmDelivered_stands standing]
  have record := record_updateRecord i i (fun r => { r with delivered := true }) s
  rw [if_pos ⟨rfl, place⟩] at record
  have state := congrArg AlarmRecord.state record
  have delivered : Delivered i (updateRecord i (fun r => { r with delivered := true }) s) :=
    ⟨by rw [State.alarmState, state]; exact stands, raised, by rw [record]; exact announced, by rw [record]⟩
  have returned : Returned i ((updateRecord i (fun r => { r with delivered := true }) s).record i)
      (commitFrame true src (updateRecord i (fun r => { r with delivered := true }) s)) := by
    rcases ends with rfl | ⟨rfl, before, after⟩
    · exact ownAlarm_busDelivery delivered src
    · obtain ⟨joined, _⟩ := (isolated_iff s).1 before
      exact ownAlarm_isolated delivered before (contacted_free (s := s) joined after) src
  rw [record] at returned
  exact ⟨returned.quiet, returned.clear⟩

theorem execAlarm_returned {src : Station} {f : AlarmFields} {s : State} {i : Nat} (h : s.Sends 11 src.toNat 0 (alarmBytes f))
    (index : f.index.toNat = i)
    (ends : i = 26 ∨ (i = 27 ∧ s.isolated = true ∧ (s.afterCommit true src.toNat).isolated = false))
    (stands : s.alarmState i = .active ∨ s.alarmState i = .activeAcked) (raised : (s.cause i).raised = true)
    (announced : (s.record i).announced = true) (place : i < s.alarms.records.length) :
    ∃ t, exec (.alarm src f) s = .next t ∧ t.alarmState i = .quiet ∧
      (newFrame (s.record i).sentClass 0 (.clear i (s.record i).sentGroup) ∈ t.bus.queue ∨ (t.record i).clearOwed = true) := by
  refine ⟨_, execAlarm_sent h, ?_⟩
  rw [index]
  obtain ⟨quiet, clear⟩ := ((ownAlarm_returned ends stands raised announced place).captured src.toNat f).dropped
  exact ⟨quiet, clear⟩

theorem noteDelivered_heard {s : State} {start : BitVec 32} (h : s.Hears start) (src : Nat) (f : AlarmFields) :
    noteDelivered src f s = s := by
  obtain ⟨wire, _⟩ := h
  unfold noteDelivered State.ownsFrame
  rw [wire]
  exact if_neg (by simp)

/-- The scope of a heard ALARM as it is tested after the common part of the commit. -/
theorem inScope_heard (src : Nat) (f : AlarmFields) (s : State) :
    (captureLine src f (commitFrame false src s)).inScope src f = s.inScope src f := by
  obtain ⟨joined, dir⟩ := captureLine_same src f (commitFrame false src s)
  unfold State.inScope
  rw [joined, dir, commitFrame_joined, commitFrame_own]

theorem execAlarm_inScope {src : Station} {f : AlarmFields} {s : State} {start : BitVec 32} (h : s.Hears start)
    (scope : s.inScope src.toNat f = true) : exec (.alarm src f) s = .next (dropReservation (settle (recondition
      (addActivity ⟨f.group.toNat, src.toNat, f.index.toNat⟩ (captureLine src.toNat f (commitFrame false src.toNat s)))))) := by
  show execAlarm src f s = _
  unfold execAlarm
  rw [noteDelivered_heard h, committed_heard h]
  exact congrArg (fun u => Host.Outcome.next (dropReservation u)) (if_pos (by rw [inScope_heard, scope]; rfl))

theorem execAlarm_outOfScope {src : Station} {f : AlarmFields} {s : State} {start : BitVec 32} (h : s.Hears start)
    (scope : s.inScope src.toNat f = false) : exec (.alarm src f) s =
      .next (dropReservation (captureLine src.toNat f (commitFrame false src.toNat s))) := by
  show execAlarm src f s = _
  unfold execAlarm
  rw [noteDelivered_heard h, committed_heard h]
  exact congrArg (fun u => Host.Outcome.next (dropReservation u)) (if_neg (by rw [inScope_heard, scope]; exact Bool.false_ne_true))

/-- A heard ALARM in scope reaches the activity sets and what follows from them. -/
theorem still_inScope (a : Activity) (s : State) : (settle (recondition (addActivity a s))).still = s.still := by
  rw [still_settle, (moves_recondition _).still, State.still, steady_addActivity]
  rfl

/-! ## CLEAR (R134) -/

theorem execClear_held {src : Station} {index group : Byte} {s : State} {start : BitVec 32} (h : s.Hears start)
    (j : s.joined = true) (other : src.toNat ≠ s.dir.own)
    (held : (⟨group.toNat, src.toNat, index.toNat⟩ : Activity) ∈ (s.afterCommit false src.toNat).groups.activity) :
    exec (.clear src index group) s = .next (dropReservation (settle (recondition (clearEmptyOrphans (· == src.toNat)
      (removeActivity (· == ⟨group.toNat, src.toNat, index.toNat⟩) (commitFrame false src.toNat s)))))) := by
  have held' : (⟨group.toNat, src.toNat, index.toNat⟩ : Activity) ∈ (commitFrame false src.toNat s).groups.activity := held
  show execClear src index group s = _
  unfold execClear
  rw [committed_heard h]
  refine congrArg (fun u => Host.Outcome.next (dropReservation u)) (if_pos ?_)
  rw [commitFrame_joined, commitFrame_own]
  simp [j, other, held']

theorem execClear_sent {src : Station} {index group : Byte} {s : State} (h : s.Sends 12 src.toNat 0 [index, group]) :
    exec (.clear src index group) s = .next (s.afterCommit true src.toNat) := by
  show execClear src index group s = _
  obtain ⟨start, commits⟩ := committed_sent h
  unfold execClear
  rw [commits]
  rfl

/-- Settles O45: ALARM at its sender, in scope and out of scope, the line first-out record, then CLEAR. -/
theorem alarmAndClearCommit : Obligations.AlarmAndClearCommit := by
  refine ⟨fun src f s h => ⟨_, execAlarm_sent h, ?_, rfl⟩, fun _ _ => ⟨alarmDelivered_stands, alarmDelivered_none⟩,
    fun _ _ _ _ => execAlarm_returned, fun src f s start h j source other low high index member => ?_,
    fun src f s start h n => execAlarm_outOfScope h ?_, fun _ _ _ => captureLine_captures, fun _ _ _ => captureLine_none,
    fun src index group s start h j other held => ⟨_, execClear_held h j other held, ?_, rfl⟩, fun _ _ _ _ => execClear_sent,
    clearEmptyOrphans_eq, execAlarm_unstored, captureLine_not, execClear_not_held⟩
  · rw [still_dropReservation, still_captureLine, still_commitFrame]
    exact still_ite _ rfl rfl
  · have scope : s.inScope src.toNat f = true := by
      unfold State.inScope
      simp [j, source, other, low, high, index, member]
    refine ⟨_, execAlarm_inScope h scope, ?_, rfl⟩
    rw [still_dropReservation, still_inScope, still_captureLine, still_commitFrame]
  · unfold State.inScope
    rcases n with n | n | n <;> simp [n]
  · rw [still_dropReservation, still_deactivate, still_commitFrame]

end Sys2Proof.Machine
end

section
/-! PROOFS. A withdrawal, the chains that a WATCH affects, and WATCH at its commit (O47). -/

namespace Sys2Proof.Machine

open Sys2Proof

/-! ## A withdrawal (R112, R115, R120) -/

/-- Deriving the condition again reaches no alarm record and no set. -/
theorem recondition_parts (s : State) : (recondition s).alarms = s.alarms ∧ (recondition s).groups = s.groups := by
  obtain ⟨_, _, _, alarms, groups, _⟩ := senseTrip_spec s
  have calm : ∃ c, (recondition s).calm = { senseTrip s with control := c }.calm := by
    unfold recondition
    dsimp only
    split
    · exact ⟨(senseTrip s).control, (calm_potUpdate _).trans (calm_sprayUpdate _)⟩
    · exact ⟨_, calm_setCondition _ _⟩
  obtain ⟨c, e⟩ := calm
  simp only [State.calm, Prod.mk.injEq] at e
  obtain ⟨_, _, _, _, sameAlarms, sameGroups⟩ := e
  exact ⟨sameAlarms.trans alarms, sameGroups.trans groups⟩

theorem clearAnnounced_parts (i : Nat) (s : State) : (clearAnnounced i s).groups = s.groups ∧
    (clearAnnounced i s).alarms.records.length = s.alarms.records.length := by
  have queued (u : State) : (queueClear i u).groups = u.groups ∧
      (queueClear i u).alarms.records.length = u.alarms.records.length := by
    refine ⟨?_, queueClear_length i u⟩
    rw [queueClear_eq]
    split <;> rfl
  unfold clearAnnounced
  split
  · simp only [updateRecord_groups, updateRecord_alarms, List.length_modify]
    split
    · exact queued _
    · exact ⟨rfl, rfl⟩
  · exact ⟨rfl, List.length_modify ..⟩

theorem returnQuiet_parts (i : Nat) (s : State) :
    (returnQuiet i s).groups.activity = s.groups.activity.filter (fun a => !(a.raiser == s.dir.own && a.index == i)) ∧
    (returnQuiet i s).alarms.records.length = s.alarms.records.length := by
  obtain ⟨_, _, activity, quieted⟩ := quieted_parts i s
  obtain ⟨groups, length⟩ := clearAnnounced_parts i (s.quieted i)
  obtain ⟨alarms, sets⟩ := recondition_parts (clearAnnounced i (s.quieted i))
  rw [returnQuiet_quieted, alarms, sets, length, groups, activity, quieted]
  exact ⟨rfl, List.length_modify ..⟩

/-- What is left of the ALARMs of the index is on the bus (R115). -/
theorem clearAnnounced_alarms {i : Nat} {s : State} (announced : (s.record i).announced = true) {f : TxFrame}
    (hf : f ∈ (clearAnnounced i s).bus.queue) (alarm : f.isAlarmOf i = true) : f.phase = .onBus := by
  have queued (u : State) : Appends u (queueClear i u) :=
    .ite _ (appends_push (f := u.clearFrame i) (fun h => by cases h) u) (.of_queue rfl)
  have followed : Appends (withdrawFrames (TxFrame.isAlarmOf i) s) (clearAnnounced i s) := by
    unfold clearAnnounced
    rw [if_pos announced]
    exact (Appends.ite _ (queued _) (.refl _)).trans (.of_queue rfl)
  have left := followed.fresh f hf (kind_of_isAlarmOf alarm)
  rw [withdrawFrames_bus, List.mem_filter, alarm] at left
  simpa using left.2

theorem returnQuiet_alarms {i : Nat} {s : State} (place : i < s.alarms.records.length) (announced : (s.record i).announced = true)
    {f : TxFrame} (hf : f ∈ (returnQuiet i s).bus.queue) (alarm : f.isAlarmOf i = true) : f.phase = .onBus := by
  obtain ⟨_, quiet⟩ := quieted_record place
  rw [returnQuiet_quieted] at hf
  exact clearAnnounced_alarms (by rw [quiet]; exact announced) ((appends_recondition _).fresh f hf (kind_of_isAlarmOf alarm)) alarm

theorem withdrawAlarm_quiet {i : Nat} {s : State} (h : s.alarmState i = .quiet) : withdrawAlarm i s = s := if_pos h

theorem withdrawAlarm_stands {i : Nat} {s : State} (h : s.alarmState i ≠ .quiet) : withdrawAlarm i s =
    updateRecord i (fun r => { r with announceOwed := false, clearOwed := false }) (returnQuiet i s) := if_neg h

theorem withdrawAlarm_record {i : Nat} {s : State} (h : s.alarmState i ≠ .quiet) : (withdrawAlarm i s).record i =
    { s.record i with state := .quiet, matchCount := 0, announced := false, delivered := false, announceOwed := false,
                      clearOwed := false } := by
  obtain ⟨_, length⟩ := returnQuiet_parts i s
  obtain ⟨owed, e⟩ := returnQuiet_record (record_place h)
  rw [withdrawAlarm_stands h, record_updateRecord, if_pos ⟨rfl, length.symm ▸ record_place h⟩, e]

/-- What a withdrawal leaves of the sets and of the frames of the index. -/
theorem withdrawAlarm_frames {i : Nat} {s : State} (h : s.alarmState i ≠ .quiet) :
    (∀ a ∈ (withdrawAlarm i s).groups.activity, ¬(a.raiser = s.dir.own ∧ a.index = i)) ∧
    ((s.record i).announced = true → ∀ f ∈ (withdrawAlarm i s).bus.queue, f.isAlarmOf i = true → f.phase = .onBus) ∧
    ((s.record i).announced = true → (s.record i).delivered = true ∨ s.alarmOnBus i = true →
      (s.withTx (s.unannounced i)).admits (s.record i).sentClass = true →
      newFrame (s.record i).sentClass 0 (.clear i (s.record i).sentGroup) ∈ (withdrawAlarm i s).bus.queue) := by
  obtain ⟨activity, _⟩ := returnQuiet_parts i s
  have place := record_place h
  rw [withdrawAlarm_stands h, updateRecord_groups, updateRecord_bus, activity]
  refine ⟨fun a ha => ?_, fun announced f hf alarm => returnQuiet_alarms place announced hf alarm,
    fun announced seen room => returnQuiet_queues place announced seen.symm room⟩
  rintro ⟨raiser, index⟩
  simp [raiser, index] at ha

/-! ## The chains that a WATCH affects (R107, R120) -/

theorem holderFrom_lt (entries : List WatchEntry) (fuel : Nat) {i : Nat} (h : i < 16) : holderFrom entries fuel i < 16 := by
  induction fuel generalizing i with
  | zero => exact h
  | succ fuel ih =>
    show (if chained entries i = true then holderFrom entries fuel (i + 1) else i) < 16
    split
    · rename_i c
      obtain ⟨lt, _⟩ := (chained_iff entries i).1 c
      exact ih (by omega)
    · exact h

/-- The holder of the chain of an entry is an entry. -/
theorem holderOf_lt (entries : List WatchEntry) {i : Nat} (h : i < 16) : holderOf entries i < 16 := holderFrom_lt entries 16 h

/-- The watch entries replaced. -/
def State.withEntries (l : List WatchEntry) (s : State) : State := { s with alarms := { s.alarms with entries := l } }

theorem still_withEntries (l : List WatchEntry) (s : State) : (s.withEntries l).still = s.still.withEntries l := rfl

theorem entries_still (s : State) : s.still.alarms.entries = s.alarms.entries := rfl

/-- The holders that a WATCH of entry `i` affects: of the chain that held it, and of the one that holds it then. -/
def affected (i : Nat) (e : WatchEntry) (entries : List WatchEntry) : List Nat :=
  [holderOf entries i, holderOf (entries.set i e) i].eraseDups

theorem eraseDups_pair (a b : Nat) : [a, b].eraseDups = if a = b then [a] else [a, b] := by
  by_cases h : a = b
  · subst h
    simp [List.eraseDups_cons]
  · have h' : ¬b = a := fun x => h x.symm
    simp [List.eraseDups_cons, h, h']

theorem mem_affected (k i : Nat) (e : WatchEntry) (entries : List WatchEntry) :
    k ∈ affected i e entries ↔ k = holderOf entries i ∨ k = holderOf (entries.set i e) i := by
  unfold affected
  rw [eraseDups_pair]
  split
  · rename_i h
    simp [← h]
  · simp

/-- The affected holders withdrawn, in their order. -/
def State.withdrawn (s : State) (holders : List Nat) : State := holders.foldl (fun s h => withdrawAlarm h s) s

theorem installWatch_affected (i : Nat) (e : WatchEntry) (s : State) : installWatch i e s =
    (s.withdrawn (affected i e s.alarms.entries)).withEntries (s.alarms.entries.set i e) := rfl

theorem installWatch_eq {i : Nat} {e : WatchEntry} {s u : State} {before after : Nat}
    (hb : before = holderOf s.alarms.entries i) (ha : after = holderOf (s.alarms.entries.set i e) i)
    (hu : u = (if before = after then withdrawAlarm before s else withdrawAlarm after (withdrawAlarm before s))) :
    installWatch i e s = { u with alarms := { u.alarms with entries := s.alarms.entries.set i e } } := by
  have folded : s.withdrawn (affected i e s.alarms.entries) = u := by
    unfold affected State.withdrawn
    rw [eraseDups_pair, ← hb, ← ha, hu]
    split <;> rfl
  rw [installWatch_affected, folded]
  rfl

theorem spares_withdrawAlarm {p : Nat → Prop} {i : Nat} (h : p i) (s : State) : Spares p s (withdrawAlarm i s) :=
  .ite _ (.refl s) ((spares_returnQuiet h s).trans (spares_updateRecord h _ _))

/-- A withdrawn alarm is QUIET, and one that was QUIET stays so. -/
theorem withdrawAlarm_leaves_quiet {i k : Nat} {s : State} (h : k = i ∨ s.alarmState k = .quiet) :
    (withdrawAlarm i s).alarmState k = .quiet := by
  by_cases other : k = i
  · subst other
    by_cases quiet : s.alarmState k = .quiet
    · rw [withdrawAlarm_quiet quiet]
      exact quiet
    · exact congrArg AlarmRecord.state (withdrawAlarm_record quiet)
  · exact (congrArg AlarmRecord.state ((spares_withdrawAlarm (p := (· = i)) rfl s).record k other)).trans (h.resolve_left other)

theorem withdrawn_quiet {l : List Nat} {k : Nat} {s : State} (h : k ∈ l ∨ s.alarmState k = .quiet) :
    (s.withdrawn l).alarmState k = .quiet := by
  induction l generalizing s with
  | nil => exact h.resolve_left (List.not_mem_nil)
  | cons i l ih =>
    refine ih (s := withdrawAlarm i s) ?_
    rcases h with h | h
    · rcases List.mem_cons.1 h with rfl | later
      · exact .inr (withdrawAlarm_leaves_quiet (.inl rfl))
      · exact .inl later
    · exact .inr (withdrawAlarm_leaves_quiet (.inr h))

theorem withdrawn_spares (l : List Nat) (s : State) : Spares (· ∈ l) s (s.withdrawn l) :=
  .foldl (fun s _ ha => spares_withdrawAlarm ha s) s

/-! ## The commit -/

/-- A taken WATCH as the whole: the common part, the entry, the condition, and what settles. -/
def watchTaken (src i : Nat) (e : WatchEntry) (s : State) : State :=
  dropReservation (settle (recondition (installWatch i e (commitFrame false src s))))

theorem entries_commitFrame (own : Bool) (src : Nat) (s : State) : (commitFrame own src s).alarms.entries = s.alarms.entries :=
  commitFrame_read own src s (fun x => x.alarms.entries) (fun _ => rfl)

theorem still_installWatch (i : Nat) (e : WatchEntry) (s : State) :
    (installWatch i e s).still = s.still.withEntries (s.alarms.entries.set i e) := by
  have withdrawn : (s.withdrawn (affected i e s.alarms.entries)).still = s.still := (moves_foldl_withdraw _ s).still
  rw [installWatch_affected, still_withEntries, withdrawn]

theorem watchTaken_still (src i : Nat) (e : WatchEntry) (s : State) :
    (watchTaken src i e s).still = (s.withEntries (s.alarms.entries.set i e)).still := by
  unfold watchTaken
  rw [still_dropReservation, still_settle, (moves_recondition _).still, still_installWatch, entries_commitFrame,
    still_commitFrame, still_withEntries]

theorem watchTaken_entries (src i : Nat) (e : WatchEntry) (s : State) :
    (watchTaken src i e s).alarms.entries = s.alarms.entries.set i e := by
  rw [← entries_still, watchTaken_still]
  rfl

theorem record_dropReservation (s : State) (k : Nat) : (dropReservation s).record k = s.record k := rfl

theorem record_withEntries (l : List WatchEntry) (s : State) (k : Nat) : (s.withEntries l).record k = s.record k := rfl

/-- The record of a watch is not one that settling reaches. -/
theorem watchTaken_record {k : Nat} (hk : k < 16) (src i : Nat) (e : WatchEntry) (s : State) : (watchTaken src i e s).record k =
    ((commitFrame false src s).withdrawn (affected i e s.alarms.entries)).record k := by
  unfold watchTaken
  rw [record_dropReservation, record_settle (by omega) (by omega), (spares_recondition (p := fun _ => False) _).record k id,
    installWatch_affected, record_withEntries, entries_commitFrame]

theorem watchTaken_quiet {k : Nat} (hk : k < 16) {src i : Nat} {e : WatchEntry} {s : State}
    (h : k ∈ affected i e s.alarms.entries) : (watchTaken src i e s).alarmState k = .quiet :=
  (congrArg AlarmRecord.state (watchTaken_record hk src i e s)).trans (withdrawn_quiet (.inl h))

theorem watchTaken_spares {k : Nat} (hk : k < 16) {src i : Nat} {e : WatchEntry} {s : State}
    (h : k ∉ affected i e s.alarms.entries) : (watchTaken src i e s).record k = s.record k := by
  have other : ¬contactIndex k := by unfold contactIndex; omega
  rw [watchTaken_record hk, ← (leaves_commitFrame_heard src s).record k other]
  exact (withdrawn_spares _ _).record k h

/-- What a taken WATCH makes of the records and of the rest. -/
theorem watchTaken_parts (src i : Nat) (e : WatchEntry) (s : State) :
    (watchTaken src i e s).still = (s.withEntries (s.alarms.entries.set i e)).still ∧
    (i < 16 → (watchTaken src i e s).alarmState (holderOf s.alarms.entries i) = .quiet ∧
      (watchTaken src i e s).alarmState (holderOf (watchTaken src i e s).alarms.entries i) = .quiet) ∧
    ∀ k, k < 16 → k ≠ holderOf s.alarms.entries i → k ≠ holderOf (watchTaken src i e s).alarms.entries i →
      (watchTaken src i e s).record k = s.record k := by
  rw [watchTaken_entries]
  refine ⟨watchTaken_still src i e s, fun hi => ⟨?_, ?_⟩, fun k hk before after => watchTaken_spares hk ?_⟩
  · exact watchTaken_quiet (holderOf_lt _ hi) ((mem_affected ..).2 (.inl rfl))
  · exact watchTaken_quiet (holderOf_lt _ hi) ((mem_affected ..).2 (.inr rfl))
  · rw [mem_affected]
    exact not_or.2 ⟨before, after⟩

theorem execWatchInstall_taken {dst : Station} {f : WatchFields} {d : WatchDef} {s : State} {start : BitVec 32}
    (h : s.Hears start) (a : s.Accepts dst) (hd : watchDefOf f = some d) (src : Station) (index : Byte) :
    exec (.watchInstall src dst index f) s = .next (watchTaken src.toNat index.toNat (.panel d) s) := by
  show execWatchInstall src dst index f s = _
  unfold execWatchInstall panelFrame
  rw [committed_heard h, hd]
  exact congrArg (fun u => Host.Outcome.next (dropReservation u)) (if_pos (forMe_of_accepts a))

theorem execWatchEmpty_taken {dst : Station} {s : State} {start : BitVec 32} (h : s.Hears start) (a : s.Accepts dst)
    (src : Station) (index : Byte) :
    exec (.watchEmpty src dst index) s = .next (watchTaken src.toNat index.toNat .empty s) := by
  show execWatchEmpty src dst index s = _
  unfold execWatchEmpty panelFrame
  rw [committed_heard h]
  exact congrArg (fun u => Host.Outcome.next (dropReservation u)) (if_pos (forMe_of_accepts a))

theorem execWatch_notTaken {dst : Station} {s : State} {start : BitVec 32} (h : s.Hears start)
    (n : s.bus.answer.ack = false ∨ dst.toNat ≠ s.dir.own) (src : Station) (index : Byte) (f : WatchFields) :
    exec (.watchInstall src dst index f) s = .next (s.afterCommit false src.toNat) ∧
    exec (.watchEmpty src dst index) s = .next (s.afterCommit false src.toNat) := by
  have dropped (e : WatchEntry) := dropped_if_not (fun u => settle (recondition (installWatch index.toNat e u))) s src.toNat
    (not_forMe n)
  constructor
  · show execWatchInstall src dst index f s = _
    unfold execWatchInstall panelFrame
    rw [committed_heard h]
    cases watchDefOf f with
    | none => rfl
    | some d => exact dropped (.panel d)
  · show execWatchEmpty src dst index s = _
    unfold execWatchEmpty panelFrame
    rw [committed_heard h]
    exact dropped .empty

/-- Settles O47: WATCH where it is taken, the withdrawal of the affected chains, where it is not, and the entry's fields. -/
theorem watchInstallsOrEmptiesAnEntry : Obligations.WatchInstallsOrEmptiesAnEntry := by
  refine ⟨fun src dst index f d s start h a hd => ?_, fun src dst index s start h a => ?_,
    fun _ _ _ _ _ _ => installWatch_eq, fun _ _ => withdrawAlarm_quiet, fun i s q h _ hq => ?_,
    fun src _ index f _ _ h n => execWatch_notTaken h n src index f, chained_iff, holderOf_next, watchDefOf_isSome_iff,
    watchDefOf_fields⟩
  · obtain ⟨still, quiet, others⟩ := watchTaken_parts src.toNat index.toNat (.panel d) s
    exact ⟨_, execWatchInstall_taken h a hd src index, still, rfl, quiet, others⟩
  · obtain ⟨still, quiet, others⟩ := watchTaken_parts src.toNat index.toNat .empty s
    exact ⟨_, execWatchEmpty_taken h a src index, still, rfl, quiet, others⟩
  · obtain ⟨sets, alarms, clear⟩ := withdrawAlarm_frames h
    rw [State.alarmState, withdrawAlarm_record h]
    subst hq
    exact ⟨rfl, rfl, rfl, rfl, rfl, rfl, sets, alarms, clear⟩

end Sys2Proof.Machine
end

section
/-! PROOFS. SAMPLE_EVENT: the table, the histories and the open tests, and what each block makes of a sample (O25). -/

namespace Sys2Proof.Machine

open Sys2Proof

/-! ## What a sample event leaves (R102, log entry 24) -/

/-- The steady part without the four units that a sample event works on. -/
def State.unsampled (s : State) : State :=
  { s.steady with heater := .reset, pot := .reset, extraction := .reset, alarms := .reset }

/-- The table, the open tests, the two histories and the held level. -/
def State.readings (s : State) : List Quantity × List Bool × List Half × List (BitVec 32) × Int × Bool :=
  (s.alarms.table, s.alarms.sensorOpen, s.alarms.flowHist, s.alarms.countHist, s.pot.level, s.pot.established)

/-- `t` follows `s` in a sample event after the readings were written. -/
structure Reads (s t : State) : Prop where
  rest     : t.unsampled = s.unsampled
  readings : t.readings = s.readings

/-- Outside the four units the steady part is as before. -/
theorem steady_of_unsampled {s t : State} (h : t.unsampled = s.unsampled) : { t.steady with
    heater := s.steady.heater, pot := s.steady.pot, extraction := s.steady.extraction, alarms := s.steady.alarms } = s.steady :=
  congrArg (fun u : State => { u with
    heater := s.steady.heater, pot := s.steady.pot, extraction := s.steady.extraction, alarms := s.steady.alarms }) h

theorem Reads.refl (s : State) : Reads s s := ⟨rfl, rfl⟩

theorem Reads.trans {s t u : State} (h : Reads s t) (k : Reads t u) : Reads s u :=
  ⟨k.rest.trans h.rest, k.readings.trans h.readings⟩

theorem Reads.ite {s t u : State} (c : Prop) [Decidable c] (h : Reads s t) (k : Reads s u) : Reads s (if c then t else u) := by
  split
  · exact h
  · exact k

/-- What follows from an alarm, the condition or a mark is no reading. -/
theorem Moves.reads {s t : State} (h : Moves s t) : Reads s t :=
  ⟨congrArg (fun x : State => { x with heater := .reset, pot := .reset, extraction := .reset, alarms := .reset }) h.steady,
    h.read State.readings (fun _ => rfl)⟩

theorem reads_openChannels (l : List Nat) (s : State) : Reads s (openChannels l s) := .ite _ (.refl s) ⟨rfl, rfl⟩

theorem reads_sensorCondition (s : State) : Reads s (sensorCondition s) := (follows_holdWhile 21 _ _ s).toMoves.reads

theorem reads_potLow (s : State) : Reads s (potLow s) := .ite _ (follows_holdWhile 23 _ _ s).toMoves.reads (.refl s)

theorem reads_potUpdate (s : State) : Reads s (potUpdate s) := (moves_potUpdate s).reads

theorem reads_rampPumps (before : Pot) (s : State) : Reads s (rampPumps before s) := ⟨rfl, rfl⟩

theorem reads_samplePot (before : Pot) (s : State) : Reads s (samplePot before s) :=
  ((((reads_potUpdate s).trans (reads_potLow _)).trans (reads_potUpdate _)).trans (reads_rampPumps before _)).trans
    (reads_potUpdate _)

theorem reads_mapDucts (f : Nat → Duct → Duct) (s : State) : Reads s (mapDucts f s) := ⟨rfl, rfl⟩

theorem reads_ductSample (n : Nat) (s : State) : Reads s (ductSample n s) :=
  (reads_mapDucts _ s).trans (moves_driveDucts _).reads

theorem reads_sampleAlarms (s : State) : Reads s (sampleAlarms s) := by
  unfold sampleAlarms
  split
  · rename_i joined
    exact ((follows_watchSamples joined).trans (follows_retryAllOwed _)).toMoves.reads
  · exact .refl s

/-! ## The readings as they are written (R96, R97, R102..R104) -/

/-- The state in which the table and the level are written, and no block has followed. -/
def State.measured (s : State) (x : Samples) : State := writeLevel (levelSample (signedHalf x.level) (writeTable x s))

/-- The state after a sample event. -/
def State.afterSample (s : State) (x : Samples) : State :=
  settle (sampleAlarms (ductSample 1 (ductSample 0 (samplePot s.pot (sampleFields x s)))))

theorem execSampleEvent_runs {s : State} (h : s.loader.phase ≠ .pinHeld) (x : Samples) :
    exec (.sampleEvent x) s = .next (s.afterSample x) := if_neg h

theorem execSampleEvent_held {s : State} (h : s.loader.phase = .pinHeld) (x : Samples) :
    exec (.sampleEvent x) s = .next s := if_pos h

theorem sampleFields_measured (x : Samples) (s : State) :
    sampleFields x s = sensorCondition (openChannels (s.newlyOpen x) (s.measured x)) := rfl

/-- No block changes a reading after it was written. -/
theorem reads_afterSample (x : Samples) (s : State) : Reads (s.measured x) (s.afterSample x) := by
  unfold State.afterSample
  rw [sampleFields_measured]
  exact ((((((reads_openChannels _ (s.measured x)).trans (reads_sensorCondition _)).trans (reads_samplePot s.pot _)).trans
    (reads_ductSample 0 _)).trans (reads_ductSample 1 _)).trans (reads_sampleAlarms _)).trans (follows_settle _).toMoves.reads

theorem levelSample_rest (reading : Int) (s : State) :
    (levelSample reading s).alarms = s.alarms ∧ (levelSample reading s).unsampled = s.unsampled := by
  unfold levelSample
  split <;> exact ⟨rfl, rfl⟩

/-- A quantity as it is written from the state before the event. -/
def State.written (s : State) (x : Samples) (q : Nat) : Quantity :=
  if (s.sampled x q).isSome = true then ⟨(s.sampled x q).getD 0, true⟩ else ⟨(s.quantity q).value, false⟩

/-- LEVEL from the held level, or the value that it last had. -/
def State.heldLevel (s : State) (q : Quantity) : Quantity :=
  if s.pot.established = true then ⟨s.pot.level, true⟩ else ⟨q.value, false⟩

theorem measured_parts (x : Samples) (s : State) :
    (s.measured x).alarms.table = ((List.range 30).map (s.written x)).modify 24 (s.measured x).heldLevel ∧
    (s.measured x).alarms.sensorOpen = s.openResults x ∧
    (s.measured x).alarms.flowHist = (s.spray.flowCount :: s.alarms.flowHist).take 10 ∧
    (s.measured x).alarms.countHist = (s.tracker.count :: s.alarms.countHist).take 10 ∧
    (s.measured x).unsampled = s.unsampled := by
  obtain ⟨alarms, rest⟩ := levelSample_rest (signedHalf x.level) (writeTable x s)
  unfold State.measured
  generalize levelSample (signedHalf x.level) (writeTable x s) = u at alarms rest ⊢
  rw [writeLevel_eq]
  refine ⟨?_, ?_, ?_, ?_, rest⟩
  · show u.alarms.table.modify 24 u.heldLevel = _
    rw [alarms]
    rfl
  all_goals
    rw [alarms]
    rfl

/-- LEVEL keeps its value where the held level is not established: it was sampled as it stood. -/
theorem written_level (x : Samples) (s : State) : (s.written x 24).value = (s.quantity 24).value := by
  obtain ⟨level, _⟩ := sampled_level_held x s
  unfold State.written
  rw [level]
  cases (s.quantity 24).valid <;> rfl

theorem measured_quantity (x : Samples) (s : State) {q : Nat} (h : q < 30) : (s.measured x).quantity q =
    if q = 24 then (s.measured x).heldLevel (s.written x 24) else s.written x q := by
  obtain ⟨table, _⟩ := measured_parts x s
  unfold State.quantity
  rw [table, List.getD_eq_getElem?_getD, List.getElem?_modify, List.getElem?_map, List.getElem?_range h]
  by_cases level : q = 24
  · subst level
    rfl
  · have other : ¬24 = q := fun e => level e.symm
    simp [level, other]

/-- The table of the state after, with LEVEL as the held level gives it. -/
theorem afterSample_quantities (x : Samples) (s : State) :
    (∀ q, q < 30 → q ≠ 24 → (s.afterSample x).quantity q = s.written x q) ∧
    (s.afterSample x).quantity 24 = (s.afterSample x).heldLevel (s.quantity 24) := by
  have readings := (reads_afterSample x s).readings
  simp only [State.readings, Prod.mk.injEq] at readings
  obtain ⟨table, _, _, _, level, established⟩ := readings
  have quantity (q : Nat) : (s.afterSample x).quantity q = (s.measured x).quantity q := by
    unfold State.quantity
    rw [table]
  have held (q : Quantity) : (s.afterSample x).heldLevel q = (s.measured x).heldLevel q := by
    unfold State.heldLevel
    rw [level, established]
  refine ⟨fun q h other => ?_, ?_⟩
  · rw [quantity, measured_quantity x s h, if_neg other]
  · rw [quantity, measured_quantity x s (by decide), if_pos rfl, held]
    unfold State.heldLevel
    rw [written_level]

/-- The open tests, the histories, and what stays (R102..R104). -/
theorem afterSample_parts (x : Samples) (s : State) :
    (s.afterSample x).alarms.sensorOpen = s.openResults x ∧
    (s.afterSample x).alarms.flowHist = (s.spray.flowCount :: s.alarms.flowHist).take 10 ∧
    (s.afterSample x).alarms.countHist = (s.tracker.count :: s.alarms.countHist).take 10 ∧
    { (s.afterSample x).steady with heater := s.steady.heater, pot := s.steady.pot, extraction := s.steady.extraction
                                    alarms := s.steady.alarms } = s.steady := by
  obtain ⟨rest, readings⟩ := reads_afterSample x s
  obtain ⟨_, sensorOpen, flowHist, countHist, unsampled⟩ := measured_parts x s
  simp only [State.readings, Prod.mk.injEq] at readings
  obtain ⟨_, sameOpen, sameFlow, sameCount, _⟩ := readings
  exact ⟨sameOpen.trans sensorOpen, sameFlow.trans flowHist, sameCount.trans countHist,
    steady_of_unsampled (rest.trans unsampled)⟩

/-- The order of the blocks (log entry 24). -/
theorem afterSample_blocks {x : Samples} {s s1 s2 s3 s4 : State}
    (h1 : s1 = writeLevel (levelSample (signedHalf x.level) (writeTable x s)))
    (h2 : s2 = sensorCondition (openChannels (s.newlyOpen x) s1))
    (h3 : s3 = potUpdate (rampPumps s.pot (potUpdate (potLow (potUpdate s2)))))
    (h4 : s4 = ductSample 1 (ductSample 0 s3)) : s.afterSample x = settle (if s4.joined then
      (List.range 29).foldl (fun s i => retryOwed i s) ((List.range 16).foldl (fun s i => watchSample i s) s4) else s4) := by
  have measured : s.measured x = s1 := h1.symm
  have pumped : samplePot s.pot s2 = s3 := h3.symm
  unfold State.afterSample
  rw [sampleFields_measured, measured, ← h2, pumped, ← h4]
  rfl

/-! ## The blocks that follow (R91, R92, R106, R107, R127) -/

/-- A pump in LOWERING makes its step down (R92). -/
theorem rampStep_lowers {rate settle v : Nat} {before p : Pump} (h : p.state = .lowering)
    (hv : v = if rate = 0 then 0 else p.speed - rate) :
    rampStep rate settle before p = ⟨if v = 0 then .down else .lowering, v, p.target, .stopped⟩ := by
  rw [rampStep_lowering h, ← hv]
  rfl

/-- A pump in RAISING makes its step toward the target (R91). -/
theorem rampStep_raises {rate settle v : Nat} {before p : Pump} (h : p.state = .raising) (hb : before.state = .raising)
    (hs : p.speed ≠ p.target) (hv : v = if rate = 0 then p.target else if p.speed < p.target then min (p.speed + rate) p.target
      else max (p.speed - rate) p.target) : rampStep rate settle before p =
    if v ≠ p.target then ⟨.raising, v, p.target, .stopped⟩
    else if settle = 0 then ⟨.up, v, p.target, .stopped⟩ else ⟨.raising, v, p.target, .running settle⟩ := by
  have step : rampToward rate p.speed p.target = v := hv.symm
  rw [rampStep_raising h hb hs, step, raising_eq]

theorem ductSample_ducts {n : Nat} {s : State} (h : n < s.extraction.ducts.length) :
    (ductSample n s).duct n = (if s.ductEnabled n then sampleDuct s.cfg (s.quantity (25 + n)) (s.duct n) else s.duct n) ∧
    ∀ k, k ≠ n → (ductSample n s).duct k = s.duct k :=
  ⟨(duct_ductSample n n s h).trans (if_pos rfl), fun k hk => (duct_ductSample n k s h).trans (if_neg hk)⟩

theorem sampleDuct_off {c : StationConfig} {q : Quantity} {d : Duct} (h : d.state = .off) : sampleDuct c q d = d := by
  unfold sampleDuct
  rw [h]

theorem watchSample_eq (s : State) (i : Nat) : watchSample i s = match (s.watch i).def? with
    | some d => if chained s.alarms.entries i = true then s else takeResult i d (s.chainResult i) s
    | none => s := by
  unfold watchSample
  cases (s.watch i).def? <;> rfl

/-- What the record of a holder makes of its chain's result, state by state (R109). -/
theorem takeResult_cases (s : State) (i : Nat) (d : WatchDef) (r : TestResult) :
    (s.alarmState i = .quiet ∨ s.alarmState i = .pending →
      (r = .matches → (s.record i).matchCount + 1 < d.persistence →
        takeResult i d r s = updateRecord i (fun x => { x with state := .pending, matchCount := x.matchCount + 1 }) s) ∧
      (r = .matches → d.persistence ≤ (s.record i).matchCount + 1 →
        takeResult i d r s = enterActive i (max (-32768) (min 32767 (s.quantity d.quantity).value)) s) ∧
      (r ≠ .matches → takeResult i d r s = updateRecord i (fun x => { x with state := .quiet, matchCount := 0 }) s)) ∧
    (s.alarmState i = .active → r = .releases → i < 16 → takeResult i d r s =
      if s.alarmAction i = .hold ∨ s.alarmAction i = .trip then updateRecord i (fun x => { x with state := .latched }) s
      else returnQuiet i s) ∧
    (s.alarmState i = .activeAcked → r = .releases → takeResult i d r s = returnQuiet i s) ∧
    (s.alarmState i = .active ∨ s.alarmState i = .activeAcked → r ≠ .releases → takeResult i d r s = s) ∧
    (s.alarmState i = .latched → takeResult i d r s = s) := by
  refine ⟨fun h => ⟨fun e k => ?_, fun e k => ?_, takeResult_falls h⟩, fun h e hi => ?_, fun h e => ?_, takeResult_stands,
    takeResult_latched⟩
  · subst e
    exact takeResult_counts h k
  · subst e
    exact takeResult_enters h k
  · subst e
    exact takeResult_releases h hi
  · subst e
    exact takeResult_releases_acked h

/-- Settles O25: the state after a sample, the order of the blocks, then each block and each quantity. -/
theorem aSampleEventWritesTheTable : Obligations.ASampleEventWritesTheTable := by
  refine ⟨fun x s h => ?_, fun x s h => execSampleEvent_held h x, fun x s s1 s2 s3 s4 h h1 h2 h3 h4 => ?_, levelSample_eq,
    fun s => ⟨sensorCondition_closed, fun _ => sensorCondition_open⟩, potLow_eq, fun _ _ => rfl,
    fun rate settle v before p => ⟨rampStep_lowers, rampStep_raises, rampStep_waits, rampStep_rests⟩,
    fun _ _ => ductSample_ducts,
    fun c q d => ⟨sampleDuct_off, sampleDuct_keeps, sampleDuct_loses, sampleDuct_proves, sampleDuct_starts⟩,
    testEntry_eq, chainResult_eq, watchSample_eq, takeResult_cases, sampled_temp, sampled_dev, sampled_duct, sampled_level_held,
    sampled_rates_invalid, sampled_flowRate, sampled_speed, openResults_iff, newlyOpen_iff, openChannels_cases, writeTable_eq,
    writeLevel_eq, ductSample_eq, retryOwed_cases, chained_iff, holderOf_next⟩
  · obtain ⟨sensorOpen, flowHist, countHist, rest⟩ := afterSample_parts x s
    obtain ⟨table, level⟩ := afterSample_quantities x s
    exact ⟨_, execSampleEvent_runs h x, sensorOpen, flowHist, countHist, table, level, rest⟩
  · rw [execSampleEvent_runs h, afterSample_blocks h1 h2 h3 h4]

end Sys2Proof.Machine
end

section
/-! PROOFS. PROVE_TIMEOUT and RUN_ON_EXPIRY, the test of the causes of the extraction request, and what the ducts drive (O32). -/

namespace Sys2Proof.Machine

open Sys2Proof

/-! ## The monitor's own change (R126, R128) -/

/-- A duct that is not OFF stands in the list. -/
theorem duct_place {s : State} {n : Nat} (h : (s.duct n).state ≠ .off) : n < s.extraction.ducts.length := by
  refine Nat.lt_of_not_le fun beyond => h ?_
  unfold State.duct
  rw [List.getD_eq_getElem?_getD, List.getElem?_eq_none beyond]
  rfl

/-- Once the ducts drive the nozzles and their two conditions, the monitor is as it was changed, and of the rest only what follows
from an alarm may differ. -/
theorem settle_driveDucts_parts (x : Extraction) (s : State) :
    (settle (driveDucts { s with extraction := x })).extraction = x ∧
    (settle (driveDucts { s with extraction := x })).steady =
      { s with extraction := (settle (driveDucts { s with extraction := x })).extraction }.steady := by
  have moves : Moves { s with extraction := x } (settle (driveDucts { s with extraction := x })) :=
    (moves_driveDucts _).trans (follows_settle _).toMoves
  have monitor : (settle (driveDucts { s with extraction := x })).extraction = x :=
    moves.read (fun y => y.extraction) (fun _ => rfl)
  exact ⟨monitor, by rw [monitor, moves.steady]⟩

theorem duct_of_extraction {s t : State} (h : t.extraction = s.extraction) (n : Nat) : t.duct n = s.duct n := by
  unfold State.duct
  rw [h]

/-! ## The two expiries (R125, R128) -/

theorem execProveTimeout_rests {n : Fin 2} {s : State}
    (h : s.ductEnabled n = false ∨ (s.duct n).state ≠ .proving ∨ (s.duct n).timer.isRunning = false) :
    exec (.proveTimeout n) s = .next s :=
  if_neg (by rcases h with h | h | h <;> simp [h])

/-- The duct whose prove timer has run out is FAILED with its counts kept, and the monitor's other fields stay. -/
theorem settle_failDuct_parts {n : Nat} {s : State} (enabled : s.ductEnabled n = true) (proving : (s.duct n).state = .proving) :
    (settle (failDuct n s)).duct n = { s.duct n with state := .failed, timer := .stopped } ∧
    (settle (failDuct n s)).steady = { s with extraction := (settle (failDuct n s)).extraction }.steady := by
  have place : n < s.extraction.ducts.length := duct_place (by rw [proving]; decide)
  obtain ⟨monitor, rest⟩ := settle_driveDucts_parts (mapDucts (fun k d =>
    if k = n then { d with state := .failed, timer := .stopped } else d) s).extraction s
  refine ⟨(duct_of_extraction monitor n).trans ?_, rest⟩
  exact (duct_mapDucts _ n s place).trans (by rw [if_pos enabled, if_pos rfl])

theorem execRunOnExpiry_runs {s : State} (h : s.extraction.runOn.isRunning = true) :
    exec .runOnExpiry s = .next (settle (requestOff s)) := if_pos h

theorem execRunOnExpiry_rests {s : State} (h : s.extraction.runOn.isRunning = false) : exec .runOnExpiry s = .next s :=
  if_neg (by rw [h]; decide)

theorem requestOff_eq (s : State) : requestOff s = driveDucts { s with extraction := ⟨false, .stopped,
    s.extraction.ducts.mapIdx (fun n d => if s.ductEnabled n then ⟨.off, 0, 0, .stopped⟩ else d)⟩ } := rfl

/-- The request is off, its run-on timer stopped, and every enabled duct OFF with its counts 0. -/
theorem settle_requestOff_parts (s : State) :
    (settle (requestOff s)).extraction.request = false ∧ (settle (requestOff s)).extraction.runOn = .stopped ∧
    (∀ n, n < s.extraction.ducts.length → s.ductEnabled n = true →
      (settle (requestOff s)).duct n = ⟨.off, 0, 0, .stopped⟩) ∧
    (settle (requestOff s)).steady = { s with extraction := (settle (requestOff s)).extraction }.steady := by
  rw [requestOff_eq]
  obtain ⟨monitor, rest⟩ := settle_driveDucts_parts ⟨false, .stopped,
    s.extraction.ducts.mapIdx (fun n d => if s.ductEnabled n then ⟨.off, 0, 0, .stopped⟩ else d)⟩ s
  refine ⟨congrArg Extraction.request monitor, congrArg Extraction.runOn monitor, fun n place enabled => ?_, rest⟩
  refine (congrArg (fun x : Extraction => x.ducts.getD n .blank) monitor).trans ?_
  rw [List.getD_eq_getElem?_getD, List.getElem?_mapIdx, List.getElem?_eq_getElem place]
  exact if_pos enabled

/-! ## The test of the causes (R125, R128) -/

theorem requestOn_eq (s : State) : requestOn s = { s with extraction := ⟨true, .stopped,
    s.extraction.ducts.mapIdx (fun n d => if s.ductEnabled n = true ∧ d.state = .off then
      { d with state := .proving, prove := 0
               timer := if s.cfg.proveTimeout = 0 then .stopped else .running s.cfg.proveTimeout }
    else d)⟩ } := by
  have e : (fun (n : Nat) (d : Duct) => if s.ductEnabled n = true then
      (if d.state = .off then provingDuct s.proveTimer d else d) else d) =
      (fun (n : Nat) (d : Duct) => if s.ductEnabled n = true ∧ d.state = .off then provingDuct s.proveTimer d else d) := by
    funext n d
    exact nested_if _ _
  exact congrArg (fun f : Nat → Duct → Duct =>
    { s with extraction := ⟨true, .stopped, s.extraction.ducts.mapIdx f⟩ }) e

/-- A cause keeps or turns the request on; without one the request runs on, or goes off at a run-on time of 0. -/
theorem testRequest_eq (s : State) : testRequest s =
    if s.joined = true ∧ (s.control.mode ≠ .idle ∨ ∃ c ∈ s.heater.channels, ∃ v ∈ c.setpoint, s.cfg.heatThreshold ≤ v) then
      if s.extraction.request = true then { s with extraction := { s.extraction with runOn := .stopped } }
      else { s with extraction := ⟨true, .stopped, s.extraction.ducts.mapIdx (fun n d =>
        if s.ductEnabled n = true ∧ d.state = .off then
          { d with state := .proving, prove := 0
                   timer := if s.cfg.proveTimeout = 0 then .stopped else .running s.cfg.proveTimeout }
        else d)⟩ }
    else if s.extraction.request = true ∧ s.extraction.runOn.isRunning = false then
      if s.cfg.runOnTime = 0 then requestOff s
      else { s with extraction := { s.extraction with runOn := .running (s.cfg.runOnTime * 1000) } }
    else s := by
  rw [← requestOn_eq]
  cases cause : s.extractionCause with
  | true => rw [if_pos ((extractionCause_iff s).1 cause), testRequest_cause cause]
  | false =>
    rw [if_neg (fun h => by rw [(extractionCause_iff s).2 h] at cause; cases cause)]
    by_cases ends : s.extraction.request = true ∧ s.extraction.runOn.isRunning = false
    · obtain ⟨request, timer⟩ := ends
      rw [if_pos ⟨request, timer⟩, testRequest_ends cause request timer]
    · rw [if_neg ends]
      refine testRequest_none cause ?_
      cases request : s.extraction.request with
      | false => exact .inl rfl
      | true => exact .inr (eq_true_of_ne_false fun timer => ends ⟨request, timer⟩)

/-! ## What the ducts drive (R46, R129) -/

/-- The nozzles first, then EXTRACT_FAILED, then EXTRACT_LOST. -/
theorem driveDucts_eq {s u v : State} (hu : u = sprayUpdate s)
    (hv : v = (match u.ductIn .failed with
      | some n => raiseHeld 24 n u
      | none => releaseHeld 24 u)) :
    driveDucts s = match v.ductIn .lost with
      | some n => raiseHeld 25 n v
      | none => releaseHeld 25 v := by
  have failed : holdWhile 24 ((u.ductIn .failed).getD 0) (u.ductIn .failed).isSome u = v := by
    rw [hv]
    cases u.ductIn .failed <;> rfl
  have drive : driveDucts s = holdWhile 25 ((v.ductIn .lost).getD 0) (v.ductIn .lost).isSome v := by
    rw [← failed, hu]
    rfl
  rw [drive]
  cases v.ductIn .lost <;> rfl

theorem ductIn_eq (s : State) (st : DuctState) : s.ductIn st =
    if s.ductEnabled 0 = true ∧ (s.duct 0).state = st then some 0
    else if s.ductEnabled 1 = true ∧ (s.duct 1).state = st then some 1 else none := by
  unfold State.ductIn
  by_cases first : s.ductEnabled 0 = true ∧ (s.duct 0).state = st
  · rw [if_pos first]
    exact List.find?_cons_of_pos (by simp [first])
  · rw [if_neg first, List.find?_cons_of_neg (by simpa using first)]
    by_cases second : s.ductEnabled 1 = true ∧ (s.duct 1).state = st
    · rw [if_pos second]
      exact List.find?_cons_of_pos (by simp [second])
    · rw [if_neg second]
      exact List.find?_cons_of_neg (by simpa using second)

/-- Settles O32: each expiry with the whole state after and its frame, then the test of the causes and what the ducts drive. -/
theorem proveTimeoutAndRunOnExpiry : Obligations.ProveTimeoutAndRunOnExpiry := by
  refine ⟨fun n s enabled proving timer => ?_, fun _ _ => execProveTimeout_rests, fun s timer => ?_,
    fun _ => execRunOnExpiry_rests, testRequest_eq, requestOff_eq, fun _ _ _ => driveDucts_eq, ductIn_eq⟩
  · obtain ⟨failed, rest⟩ := settle_failDuct_parts enabled proving
    exact ⟨_, execProveTimeout_fails enabled proving timer, failed, congrArg settle (failDuct_eq enabled), rest⟩
  · obtain ⟨request, runOn, ducts, rest⟩ := settle_requestOff_parts s
    exact ⟨_, execRunOnExpiry_runs timer, rfl, request, runOn, ducts, rest⟩

end Sys2Proof.Machine
end

section
/-! PROOFS. The common part of a commit: what it changes, at the sender and at a hearer, and the end of an isolation (O42). -/

namespace Sys2Proof.Machine

open Sys2Proof

/-! ## What a restarted contact timer leaves (R171) -/

/-- The steady part without the two contact timers: what a restarted contact timer and what follows it leave. -/
def State.common (s : State) : State :=
  { s.steady with bus := { s.steady.bus with ownContact := .stopped, peerContact := .stopped } }

theorem Moves.common {s t : State} (h : Moves s t) : t.common = s.common := by
  unfold State.common
  rw [h.steady]

theorem common_read {s t : State} (h : t.common = s.common) {α : Type} (g : State → α) (hg : ∀ x : State, g x.common = g x) :
    g t = g s := by
  rw [← hg t, h, hg s]

theorem steady_queueJoin (s : State) : (queueJoin s).steady = s.steady := by
  rw [queueJoin_eq]
  split <;> rfl

/-- The contact timer of the station's own commits, or that of the others', has started again. -/
def State.startContact (own : Bool) (s : State) : State :=
  if own = true then { s with bus := { s.bus with ownContact := .running (3 * s.cfg.presencePeriod) } }
  else { s with bus := { s.bus with peerContact := .running (3 * s.cfg.presencePeriod) } }

theorem common_startContact (own : Bool) (s : State) : (s.startContact own).common = s.common := by
  unfold State.startContact
  split <;> rfl

/-- The exit from isolation changes what an alarm may change, the queue and JOIN owed. -/
theorem steady_leaveIsolation (s : State) : (leaveIsolation s).steady = s.steady := by
  have queued (u : State) : (if u.hasFrame (TxFrame.isKind 2) then u else queueJoin u).steady = u.steady := by
    split
    · rfl
    · exact steady_queueJoin u
  exact (follows_settle _).steady.trans ((queued _).trans (follows_releaseHeld 27 s).steady)

theorem restartContact_offline {own : Bool} {s : State} (h : s.joined = false) : restartContact own s = s :=
  if_pos (by rw [h]; rfl)

/-- At a JOINED station the timer runs again, and ISOLATED is left where the other timer is not expired. -/
theorem restartContact_joined {own : Bool} {s : State} (h : s.joined = true) : restartContact own s =
    if s.isolated = true ∧ (s.startContact own).isolated = false then leaveIsolation (s.startContact own)
    else s.startContact own := by
  obtain ⟨_, stays, leaves⟩ := restartContact_cases own s (s.startContact own) (releaseHeld 27 (s.startContact own)) rfl rfl
  split
  · rename_i ends
    obtain ⟨before, after⟩ := ends
    exact leaves h before after
  · rename_i rests
    cases before : s.isolated with
    | false => exact stays h (.inl before)
    | true => exact stays h (.inr (eq_true_of_ne_false fun after => rests ⟨before, after⟩))

theorem steady_restartContact {own : Bool} {s : State} (h : s.joined = true) :
    (restartContact own s).steady = (s.startContact own).steady := by
  rw [restartContact_joined h]
  split
  · exact steady_leaveIsolation _
  · rfl

theorem common_restartContact (own : Bool) (s : State) : (restartContact own s).common = s.common := by
  cases joined : s.joined with
  | false => rw [restartContact_offline joined]
  | true =>
    have sides : (restartContact own s).common = (s.startContact own).common := by
      unfold State.common
      rw [steady_restartContact joined]
    exact sides.trans (common_startContact own s)

/-! ## The sender and the hearers (R163, R174) -/

/-- The release of BUS_DELIVERY and what follows it. -/
theorem moves_deliverOwn (s : State) : Moves s (deliverOwn s) :=
  .ite _ ((follows_releaseHeld 26 s).trans (follows_settle _)).toMoves (.refl s)

theorem common_commitFrame_own (src : Nat) (s : State) : (commitFrame true src s).common = s.sentAway.common :=
  (moves_deliverOwn _).common.trans (common_restartContact true s.sentAway)

/-- The state in which a frame of another has ended: an own frame on the bus waits again, and the bus is free. -/
def State.heardAway (s : State) : State :=
  { s with bus := { s.bus with
      queue := s.bus.queue.map (fun f => if f.phase = .onBus then { f with phase := .waiting } else f)
      onWire := none, frameStart := none, answer := ⟨false, false, false⟩ } }

/-- The state after that, once the peer-contact timer has restarted; a frame with the own number does not restart it. -/
def State.contactHeard (src : Nat) (s : State) : State :=
  if s.joined = true ∧ src = s.dir.own ∧ src ≠ 0 then s.heardAway else restartContact false s.heardAway

theorem common_contactHeard (src : Nat) (s : State) : (s.contactHeard src).common = s.heardAway.common := by
  unfold State.contactHeard
  split
  · rfl
  · exact common_restartContact false _

theorem commitFrame_touches (src : Nat) (s : State) : commitFrame false src s = touch src (s.contactHeard src) := by
  unfold commitFrame State.contactHeard
  simp only [Bool.false_eq_true, if_false, Bool.and_eq_true, beq_iff_eq, bne_iff_ne, and_assoc]
  rfl

/-- A touch reaches the directory and the ORPHAN flags alone. -/
theorem touch_parts (src : Nat) (s : State) :
    touch src s = { s with dir := (touch src s).dir, groups := (touch src s).groups } := by
  unfold touch
  split
  · split <;> rfl
  · rfl

theorem bus_touch (src : Nat) (s : State) : (touch src s).bus = s.bus := by
  rw [touch_parts]

theorem bus_commitFrame_heard (src : Nat) (s : State) : (commitFrame false src s).bus = (s.contactHeard src).bus := by
  rw [commitFrame_touches, bus_touch]

/-- The frame has ended at the station, with its answers. -/
theorem commitFrame_ended (own : Bool) (src : Nat) (s : State) : (commitFrame own src s).bus.onWire = none ∧
    (commitFrame own src s).bus.frameStart = none ∧ (commitFrame own src s).bus.answer = ⟨false, false, false⟩ := by
  cases own with
  | true =>
    have h := common_commitFrame_own src s
    exact ⟨common_read h (fun x => x.bus.onWire) (fun _ => rfl), common_read h (fun x => x.bus.frameStart) (fun _ => rfl),
      common_read h (fun x => x.bus.answer) (fun _ => rfl)⟩
  | false =>
    have h := common_contactHeard src s
    rw [bus_commitFrame_heard]
    exact ⟨common_read h (fun x => x.bus.onWire) (fun _ => rfl), common_read h (fun x => x.bus.frameStart) (fun _ => rfl),
      common_read h (fun x => x.bus.answer) (fun _ => rfl)⟩

theorem commitFrame_ownContact {s : State} (joined : s.joined = true) (src : Nat) :
    (commitFrame true src s).bus.ownContact = .running (3 * s.cfg.presencePeriod) := by
  have steady : (commitFrame true src s).steady = (s.sentAway.startContact true).steady :=
    (moves_deliverOwn _).steady.trans (steady_restartContact joined)
  exact congrArg (fun x : State => x.bus.ownContact) steady

theorem commitFrame_peerContact {s : State} {src : Nat} (joined : s.joined = true) (other : src = 0 ∨ src ≠ s.dir.own) :
    (commitFrame false src s).bus.peerContact = .running (3 * s.cfg.presencePeriod) := by
  have restarts : s.contactHeard src = restartContact false s.heardAway :=
    if_neg fun h => by
      obtain ⟨_, own, some⟩ := h
      exact other.elim some (fun n => n own)
  have steady : (s.contactHeard src).steady = (s.heardAway.startContact false).steady := by
    rw [restarts]
    exact steady_restartContact joined
  rw [bus_commitFrame_heard]
  exact congrArg (fun x : State => x.bus.peerContact) steady

/-! ## The source's entry (R137, R174) -/

theorem learnsFrom_contactHeard (src n : Nat) (s : State) : (s.contactHeard src).learnsFrom n = s.learnsFrom n :=
  common_read (common_contactHeard src s) (fun x => x.learnsFrom n) (fun _ => rfl)

theorem entries_contactHeard (src : Nat) (s : State) : (s.contactHeard src).dir.entries = s.dir.entries :=
  common_read (common_contactHeard src s) (fun x => x.dir.entries) (fun _ => rfl)

theorem entry_of_entries {s t : State} (h : t.dir.entries = s.dir.entries) (n : Nat) : t.entry n = s.entry n := by
  unfold State.entry
  rw [h]

/-- A number with an entry has a place. -/
theorem entry_place {s : State} {n : Nat} {e : DirEntry} (h : s.entry n = some e) : n < s.dir.entries.length := by
  refine Nat.lt_of_not_le fun beyond => ?_
  unfold State.entry at h
  rw [List.getD_eq_getElem?_getD, List.getElem?_eq_none beyond] at h
  cases h

theorem entry_setEntry {s : State} {n : Nat} (place : n < s.dir.entries.length) (e : Option DirEntry) :
    (setEntry n e s).entry n = e := by
  show (s.dir.entries.set n e).getD n none = e
  rw [List.getD_eq_getElem?_getD, List.getElem?_set_self place]
  rfl

theorem touch_known {s : State} {src : Nat} {e : DirEntry} (learned : s.learnsFrom src = true) (known : s.entry src = some e) :
    touch src s = setEntry src (some { e with touched := true }) s := by
  unfold touch
  rw [if_pos learned, known]

theorem touch_new {s : State} {src : Nat} (learned : s.learnsFrom src = true) (new : s.entry src = none) :
    touch src s = clearOrphan src (setEntry src (some (freshEntry src)) s) := by
  unfold touch
  rw [if_pos learned, new]

theorem touch_unlearned {s : State} {src : Nat} (h : s.learnsFrom src = false) : touch src s = s :=
  if_neg (by rw [h]; exact Bool.false_ne_true)

theorem freshEntry_eq (n : Nat) : freshEntry n = ⟨none, if n = 30 ∨ n = 31 then 16 else 0, none, none, false, true, none⟩ := by
  have panel : isPanel n = true ↔ n = 30 ∨ n = 31 := by
    unfold isPanel
    simp only [Bool.or_eq_true, beq_iff_eq]
  unfold freshEntry
  simp only [panel]

theorem entry_commitFrame_known {s : State} {src : Nat} {e : DirEntry} (learned : s.learnsFrom src = true)
    (known : s.entry src = some e) : (commitFrame false src s).entry src = some { e with touched := true } := by
  have same : (s.contactHeard src).entry src = some e := (entry_of_entries (entries_contactHeard src s) src).trans known
  rw [commitFrame_touches, touch_known ((learnsFrom_contactHeard src src s).trans learned) same]
  exact entry_setEntry (entry_place same) _

/-- An entry that the commit creates, and its ORPHAN flag is gone. -/
theorem entry_commitFrame_new {s : State} {src : Nat} (learned : s.learnsFrom src = true) (new : s.entry src = none)
    (place : src < s.dir.entries.length) : (commitFrame false src s).entry src = some (freshEntry src) ∧
      src ∉ (commitFrame false src s).groups.orphans := by
  have none : (s.contactHeard src).entry src = none := (entry_of_entries (entries_contactHeard src s) src).trans new
  rw [commitFrame_touches, touch_new ((learnsFrom_contactHeard src src s).trans learned) none]
  refine ⟨entry_setEntry (by rw [entries_contactHeard]; exact place) _, fun orphan => ?_⟩
  simpa using (List.mem_filter.1 orphan).2

/-! ## A released cause (R110, R169) -/

theorem causes_clearAnnounced (i : Nat) (s : State) : (clearAnnounced i s).alarms.causes = s.alarms.causes := by
  have queued (u : State) : (queueClear i u).alarms.causes = u.alarms.causes := by
    rw [queueClear_eq]
    split <;> rfl
  unfold clearAnnounced
  split
  · simp only [updateRecord_alarms]
    split
    · exact queued _
    · rfl
  · rfl

theorem causes_returnQuiet (i : Nat) (s : State) : (returnQuiet i s).alarms.causes = s.alarms.causes := by
  obtain ⟨alarms, _⟩ := recondition_parts (clearAnnounced i (s.quieted i))
  obtain ⟨_, _, _, quieted⟩ := quieted_parts i s
  rw [returnQuiet_quieted, alarms, causes_clearAnnounced, quieted]

theorem causes_releaseRecord (i : Nat) (s : State) : (releaseRecord i s).alarms.causes = s.alarms.causes := by
  unfold releaseRecord
  split
  · split
    · rfl
    · exact causes_returnQuiet i s
  · exact causes_returnQuiet i s
  all_goals rfl

theorem releaseHeld_released {i : Nat} (hi : 16 ≤ i) (s : State) : ((releaseHeld i s).cause i).raised = false := by
  cases raised : (s.cause i).raised with
  | false => rw [releaseHeld_none raised, raised]
  | true =>
    have lowered : (releaseHeld i s).cause i = (updateCause i (fun c => { c with raised := false }) s).cause i := by
      unfold releaseHeld
      rw [if_pos raised]
      unfold State.cause
      rw [causes_releaseRecord]
    rw [lowered, cause_updateCause i i _ s hi, if_pos ⟨rfl, cause_place hi raised⟩]

/-- The release of a condition that does not latch takes its alarm to QUIET. -/
theorem releaseHeld_quiet {i : Nat} {s : State} (raised : (s.cause i).raised = true) (latches : s.alarmLatches i = false)
    (stands : s.alarmState i = .active ∨ s.alarmState i = .activeAcked) : (releaseHeld i s).alarmState i = .quiet := by
  unfold releaseHeld
  rw [if_pos raised]
  have free : (updateCause i (fun c => { c with raised := false }) s).alarmLatches i = false := latches
  rcases stands with active | acked
  · exact (alarmState_release_active (s := updateCause i _ s) active).trans (by rw [free]; rfl)
  · exact alarmState_release_acked (s := updateCause i _ s) acked

/-- BUS_DELIVERY through the commit of an own frame. -/
theorem commitFrame_busDelivery (src : Nat) (s : State) :
    ((commitFrame true src s).cause 26).raised = false ∧
    ((s.cause 26).raised = true → s.alarmState 26 = .active ∨ s.alarmState 26 = .activeAcked →
      (commitFrame true src s).alarmState 26 = .quiet) ∧
    ((s.cause 26).raised = false → (commitFrame true src s).record 26 = s.record 26) := by
  have away : Leaves contactIndex s s.sentAway := .of_alarms rfl
  have contact := away.trans (leaves_restartContact true _)
  have other : ¬contactIndex 26 := by unfold contactIndex; omega
  have cause := contact.cause 26 (by omega) other
  have record := contact.record 26 other
  generalize hu : restartContact true s.sentAway = u at cause record
  have same : commitFrame true src s = if (u.cause 26).raised = true then settle (releaseHeld 26 u) else u := by
    rw [← hu]
    exact commitFrame_sentAway src s
  have settled := leaves_settle (releaseHeld 26 u)
  have state : u.alarmState 26 = s.alarmState 26 := congrArg AlarmRecord.state record
  rw [same, ← cause]
  cases raised : (u.cause 26).raised with
  | true =>
    rw [if_pos rfl, settled.cause 26 (by omega) other]
    refine ⟨releaseHeld_released (by omega) u, fun _ stands => ?_, nofun⟩
    rw [← state] at stands
    exact (congrArg AlarmRecord.state (settled.record 26 other)).trans (releaseHeld_quiet raised rfl stands)
  | false =>
    rw [if_neg Bool.false_ne_true]
    exact ⟨raised, nofun, fun _ => record⟩

/-! ## The end of an isolation (R171, R180) -/

/-- ISOLATED is released, and the station has its JOIN queued or owes it. -/
structure Rejoins (s : State) : Prop where
  released : (s.cause 27).raised = false
  join     : s.hasFrame (TxFrame.isKind 2) = true ∨ s.dir.joinOwed = true

theorem hasFrame_retained {k : Nat} {s t : State} (h : Retains s t) (other : k ≠ 11)
    (queued : s.hasFrame (TxFrame.isKind k) = true) : t.hasFrame (TxFrame.isKind k) = true := by
  obtain ⟨f, hf, kind⟩ := List.any_eq_true.1 queued
  have notAlarm : f.body.kind ≠ 11 := fun alarm => other ((beq_iff_eq.1 kind).symm.trans alarm)
  exact List.any_eq_true.2 ⟨f, h f hf notAlarm, kind⟩

/-- Frames that are no ALARM stay, the cause of ISOLATED is not touched and JOIN owed neither: the station still joins again. -/
theorem Rejoins.through {s t : State} (h : Rejoins s) (cause : t.cause 27 = s.cause 27) (frames : Retains s t)
    (owed : t.dir.joinOwed = s.dir.joinOwed) : Rejoins t :=
  ⟨by rw [cause]; exact h.released,
    h.join.imp (hasFrame_retained frames (by decide)) (fun k => owed.trans k)⟩

theorem rejoins_queueJoin {s : State} (released : (s.cause 27).raised = false) : Rejoins (queueJoin s) := by
  refine ⟨?_, ?_⟩
  · rw [(leaves_queueJoin (p := fun _ => False) s).cause 27 (by omega) id]
    exact released
  · rw [queueJoin_eq]
    split
    · exact .inl (List.any_eq_true.2 ⟨_, List.mem_append_right _ (List.mem_singleton.2 rfl), rfl⟩)
    · exact .inr rfl

theorem rejoins_leaveIsolation (s : State) : Rejoins (leaveIsolation s) := by
  have released := releaseHeld_released (i := 27) (by omega) s
  generalize hu : releaseHeld 27 s = u at released
  have joins : Rejoins (if u.hasFrame (TxFrame.isKind 2) then u else queueJoin u) := by
    split
    · rename_i queued
      exact ⟨released, .inl queued⟩
    · exact rejoins_queueJoin released
  have left : leaveIsolation s = settle (if u.hasFrame (TxFrame.isKind 2) then u else queueJoin u) := by
    rw [← hu]
    rfl
  rw [left]
  have spared := spares_settle (p := fun k => k = 16 ∨ k = 19) (.inl rfl) (.inr rfl)
    (if u.hasFrame (TxFrame.isKind 2) then u else queueJoin u)
  exact joins.through (spared.cause 27 (by omega) (by omega)) (retains_settle _) (congrArg Directory.joinOwed spared.dir)

/-- Where a restarted timer ends the isolation, the station joins again. -/
theorem rejoins_restartContact {own : Bool} {s : State} (before : s.isolated = true)
    (after : (restartContact own s).isolated = false) : Rejoins (restartContact own s) := by
  obtain ⟨joined, _⟩ := (isolated_iff s).1 before
  rw [restartContact_joined joined] at after ⊢
  split
  · exact rejoins_leaveIsolation _
  · rename_i rests
    rw [if_neg rests] at after
    exact absurd ⟨before, after⟩ rests

theorem rejoins_deliverOwn {s : State} (h : Rejoins s) : Rejoins (deliverOwn s) := by
  unfold deliverOwn
  split
  · have released := spares_releaseHeld (p := fun k => k = 16 ∨ k = 19 ∨ k = 26) (.inr (.inr rfl)) s
    have spared := released.trans (spares_settle (.inl rfl) (.inr (.inl rfl)) _)
    exact h.through (spared.cause 27 (by omega) (by omega)) ((retains_releaseHeld 26 s).trans (retains_settle _))
      (congrArg Directory.joinOwed spared.dir)
  · exact h

theorem rejoins_touch {s : State} (h : Rejoins s) (src : Nat) : Rejoins (touch src s) := by
  refine h.through ?_ (.of_queue (congrArg Bus.queue (bus_touch src s))) ?_
  · unfold State.cause
    rw [alarms_touch]
  · unfold touch
    split
    · split <;> rfl
    · rfl

/-- The commit that ends the isolation, own or heard, releases ISOLATED and has JOIN queued or owed. -/
theorem rejoins_commitFrame {own : Bool} {src : Nat} {s : State} (before : s.isolated = true)
    (after : (commitFrame own src s).isolated = false) : Rejoins (commitFrame own src s) := by
  cases own with
  | true =>
    have restarted : (restartContact true s.sentAway).isolated = false := (isolated_deliverOwn _).symm.trans after
    exact rejoins_deliverOwn (rejoins_restartContact before restarted)
  | false =>
    rw [commitFrame_touches] at after ⊢
    refine rejoins_touch ?_ src
    have contact : (s.contactHeard src).isolated = false :=
      (congrArg State.isolated (touch_parts src (s.contactHeard src))).symm.trans after
    unfold State.contactHeard at contact ⊢
    split at contact
    · exact absurd (before.symm.trans contact) (by decide)
    · rename_i restarts
      rw [if_neg restarts]
      exact rejoins_restartContact before contact

/-- Settles O42: the parts of the common part, then each step of it as the statement spells it. -/
theorem theCommonPartOfACommit : Obligations.TheCommonPartOfACommit := by
  refine ⟨fun own src s => ?_, fun src _ joined => commitFrame_ownContact joined src,
    fun _ _ joined other => commitFrame_peerContact joined other, fun _ _ _ => entry_commitFrame_known,
    fun src s learned new place => ?_, fun src s => ?_, fun own src s before after => ?_, learnsFrom_iff, isolated_iff,
    restartContact_cases, commitFrame_own_eq, commitFrame_heard_eq, dropReservation_eq, payload_bytes, ownsFrame_iff⟩
  · obtain ⟨wire, start, answer⟩ := commitFrame_ended own src s
    exact ⟨(still_dropReservation _).trans (still_commitFrame own src s), wire, start, rfl, answer, shares_commitFrame own src s⟩
  · rw [← freshEntry_eq]
    exact entry_commitFrame_new learned new place
  · obtain ⟨released, quiet, rests⟩ := commitFrame_busDelivery src s
    exact ⟨fun raised => ⟨released, quiet raised⟩, fun idle => ⟨released, rests idle⟩⟩
  · obtain ⟨released, join⟩ := rejoins_commitFrame before (after : (commitFrame own src s).isolated = false)
    exact ⟨released, join⟩

end Sys2Proof.Machine
end

section
/-! PROOFS. A change of neighbour and a peer that joins, as the groups, the directory and the rest of the state see them, and CLAIM of
another claimant (O52). -/

namespace Sys2Proof.Machine

open Sys2Proof

/-! ## The neighbour that the directory gives (R7) -/

/-- The tracker's neighbour is the one that the directory gives. -/
def State.NeighbourGiven (s : State) : Prop := s.tracker.neighbour = s.findNeighbour

theorem findNeighbour_congr {s t : State} (cfg : t.cfg = s.cfg) (entries : t.dir.entries = s.dir.entries) :
    t.findNeighbour = s.findNeighbour := by
  unfold State.findNeighbour State.candidate
  simp only [entry_of_entries entries, cfg]

theorem State.NeighbourGiven.congr {s t : State} (h : s.NeighbourGiven) (neighbour : t.tracker.neighbour = s.tracker.neighbour)
    (cfg : t.cfg = s.cfg) (entries : t.dir.entries = s.dir.entries) : t.NeighbourGiven :=
  neighbour.trans (h.trans (findNeighbour_congr cfg entries).symm)

theorem State.NeighbourGiven.moves {s t : State} (h : s.NeighbourGiven) (m : Moves s t) : t.NeighbourGiven :=
  h.congr (m.read (fun x => x.tracker.neighbour) (fun _ => rfl)) m.cfg (m.read (fun x => x.dir.entries) (fun _ => rfl))

theorem handoverCheck_parts (id : Nat) (s : State) : (handoverCheck id s).calm = s.calm ∧
    (handoverCheck id s).tracker.neighbour = s.tracker.neighbour := by
  unfold handoverCheck
  split
  · split
    · split <;> exact ⟨rfl, rfl⟩
    · exact ⟨rfl, rfl⟩
  · exact ⟨rfl, rfl⟩

theorem foldl_handoverCheck_parts (ids : List Nat) (s : State) : (ids.foldl (fun s id => handoverCheck id s) s).calm = s.calm ∧
    (ids.foldl (fun s id => handoverCheck id s) s).tracker.neighbour = s.tracker.neighbour := by
  induction ids generalizing s with
  | nil => exact ⟨rfl, rfl⟩
  | cons id ids ih =>
    obtain ⟨calm, neighbour⟩ := handoverCheck_parts id s
    obtain ⟨calms, neighbours⟩ := ih (handoverCheck id s)
    exact ⟨calms.trans calm, neighbours.trans neighbour⟩

/-- A change of neighbour reaches neither the alarms, the groups, the directory nor state control, and the neighbour is then the one
that the directory gives. -/
theorem updateNeighbour_parts (gone : List Nat) (s : State) : (updateNeighbour gone s).calm = s.calm ∧
    (updateNeighbour gone s).NeighbourGiven := by
  by_cases same : s.findNeighbour = s.tracker.neighbour
  · rw [updateNeighbour_same gone same]
    exact ⟨rfl, same.symm⟩
  · obtain ⟨absent, _, changed⟩ := updateNeighbour_changed gone same
    rw [changed]
    generalize hv : (if absent then markBoards (fun _ => true) 10 (withNeighbour s.findNeighbour s)
      else withNeighbour s.findNeighbour s) = v
    have marked : v.calm = s.calm ∧ v.tracker.neighbour = s.findNeighbour := by
      rw [← hv]
      split
      · exact ⟨calm_markBoards _ 10 _, (moves_markBoards _ 10 _).read (fun x => x.tracker.neighbour) (fun _ => rfl)⟩
      · exact ⟨rfl, rfl⟩
    obtain ⟨calm, neighbour⟩ := marked
    obtain ⟨calms, neighbours⟩ := foldl_handoverCheck_parts v.boardIds v
    have whole : (handoverAll v).calm = s.calm := calms.trans calm
    refine ⟨whole, (neighbours.trans neighbour).trans (findNeighbour_congr ?_ ?_).symm⟩
    · exact congrArg (fun x => x.1.config.getD .blank) whole
    · exact congrArg (fun x => x.2.2.1.entries) whole

theorem dir_updateNeighbour (gone : List Nat) (s : State) : (updateNeighbour gone s).dir = s.dir :=
  congrArg (fun x => x.2.2.1) (updateNeighbour_parts gone s).1

theorem control_updateNeighbour (gone : List Nat) (s : State) : (updateNeighbour gone s).control = s.control :=
  congrArg (fun x => x.2.1) (updateNeighbour_parts gone s).1

theorem groups_updateNeighbour (gone : List Nat) (s : State) : (updateNeighbour gone s).groups = s.groups :=
  congrArg (fun x => x.2.2.2.2.2) (updateNeighbour_parts gone s).1

theorem dir_settle (s : State) : (settle s).dir = s.dir := (spares_settle (p := fun _ => True) trivial trivial s).dir

/-! ## The indices that an alarm of the station itself may add (R132) -/

/-- What joins the activity sets is of the station's own number, and the ORPHAN flags and the directory stay. -/
structure OwnActivity (s t : State) : Prop where
  joins   : ∀ a ∈ t.groups.activity, a ∈ s.groups.activity ∨ a.raiser = s.dir.own
  orphans : t.groups.orphans = s.groups.orphans
  dir     : t.dir = s.dir

theorem OwnActivity.of_groups {s t : State} (groups : t.groups = s.groups) (dir : t.dir = s.dir) : OwnActivity s t :=
  ⟨fun _ ha => .inl (groups ▸ ha), by rw [groups], dir⟩

theorem OwnActivity.refl (s : State) : OwnActivity s s := .of_groups rfl rfl

theorem OwnActivity.of_calm {s t : State} (h : t.calm = s.calm) : OwnActivity s t :=
  .of_groups (congrArg (fun x => x.2.2.2.2.2) h) (congrArg (fun x => x.2.2.1) h)

theorem OwnActivity.trans {s t u : State} (h : OwnActivity s t) (k : OwnActivity t u) : OwnActivity s u :=
  ⟨fun a ha => (k.joins a ha).elim (h.joins a) (fun own => .inr (by rw [own, h.dir])), k.orphans.trans h.orphans, k.dir.trans h.dir⟩

theorem OwnActivity.ite {s t u : State} (c : Prop) [Decidable c] (h : OwnActivity s t) (k : OwnActivity s u) :
    OwnActivity s (if c then t else u) := by
  split
  · exact h
  · exact k

theorem groups_withActivity (l : List Activity) (s : State) : (withActivity l s).groups = { s.groups with activity := l } := by
  have marked := calm_foldl (f := fun s c => markBoards (fun _ => true) c s) (fun u c => calm_markBoards _ c u)
    ((({ s with groups := { s.groups with activity := l } } : State).markCodes.filter
      (fun c => !s.markCodes.contains c)).eraseDups) { s with groups := { s.groups with activity := l } }
  exact congrArg (fun x => x.2.2.2.2.2) marked

theorem ownActivity_addActivity (g i : Nat) (s : State) : OwnActivity s (addActivity ⟨g, s.dir.own, i⟩ s) := by
  have spared := spares_addActivity (p := fun _ => False) ⟨g, s.dir.own, i⟩ s
  refine ⟨fun a ha => ?_, spared.orphans, spared.dir⟩
  rw [addActivity_eq] at ha
  split at ha
  · exact .inl ha
  · rw [groups_withActivity] at ha
    exact (List.mem_append.1 ha).imp id (fun new => by rw [List.mem_singleton.1 new])

theorem ownActivity_updateRecord (i : Nat) (f : AlarmRecord → AlarmRecord) (s : State) : OwnActivity s (updateRecord i f s) :=
  .of_groups rfl rfl

theorem groups_announce (i : Nat) (s : State) : (announce i s).groups = s.groups := by
  unfold announce
  split
  · rfl
  · split <;> rfl

theorem ownActivity_announce (i : Nat) (s : State) : OwnActivity s (announce i s) :=
  .of_groups (groups_announce i s) (spares_announce (p := fun _ => True) trivial s).dir

theorem ownActivity_recondition (s : State) : OwnActivity s (recondition s) := by
  obtain ⟨_, groups⟩ := recondition_parts s
  exact .of_groups groups (spares_recondition (p := fun _ => False) s).dir

theorem ownActivity_enterActive (i : Nat) (v : Int) (s : State) : OwnActivity s (enterActive i v s) := by
  unfold enterActive
  refine .trans ?_ (ownActivity_recondition _)
  have h1 := ownActivity_updateRecord i (fun r => { r with state := .active, matchCount := 0, value := v }) s
  have first (u : State) : OwnActivity u (firstOutEntry i v u) := .ite _ (.of_groups rfl rfl) (.of_groups rfl rfl)
  have h2 := h1.trans (.ite (s.alarmAction i = .trip) (first _) (.refl _))
  have added := ownActivity_addActivity (s.alarmGroup i) i (if s.alarmAction i = .trip then
    firstOutEntry i v (updateRecord i (fun r => { r with state := .active, matchCount := 0, value := v }) s)
    else updateRecord i (fun r => { r with state := .active, matchCount := 0, value := v }) s)
  rw [h2.dir] at added
  have h3 := h2.trans (.ite (s.ownSetTakes i = true) added (.refl _))
  have h4 := h3.trans (.ite (s.needsAnnouncing i = true) (ownActivity_announce i _) (.refl _))
  exact h4.trans (.ite _ (.refl _) (.of_calm (calm_markBoards _ _ _)))

theorem ownActivity_returnQuiet (i : Nat) (s : State) : OwnActivity s (returnQuiet i s) := by
  obtain ⟨activity, _⟩ := returnQuiet_parts i s
  have spared := spares_returnQuiet (p := fun _ => True) (i := i) trivial s
  refine ⟨fun a ha => .inl ?_, spared.orphans, spared.dir⟩
  rw [activity] at ha
  exact (List.mem_filter.1 ha).1

theorem ownActivity_raiseHeld (i : Nat) (v : Int) (s : State) : OwnActivity s (raiseHeld i v s) :=
  OwnActivity.trans (t := updateCause i _ s) (.of_groups rfl rfl) (.ite _ (ownActivity_enterActive i _ _) (.refl _))

theorem ownActivity_releaseHeld (i : Nat) (s : State) : OwnActivity s (releaseHeld i s) := by
  refine .ite _ (OwnActivity.trans (t := updateCause i (fun c => { c with raised := false }) s) (.of_groups rfl rfl) ?_) (.refl s)
  unfold releaseRecord
  split
  · exact .ite _ (ownActivity_updateRecord i _ _) (ownActivity_returnQuiet i _)
  · exact ownActivity_returnQuiet i _
  all_goals exact .refl _

theorem ownActivity_sensePermit (s : State) : OwnActivity s (sensePermit s) := by
  unfold sensePermit
  refine .ite _ (.refl s) (.ite _ (.of_groups rfl rfl) ?_)
  refine OwnActivity.trans ?_ (ownActivity_releaseHeld 19 _)
  exact .of_groups rfl rfl

/-- HAND_LATE and CONVEYOR_STALL are the station's own alarms (R11, R18). -/
theorem ownActivity_settle (s : State) : OwnActivity s (settle s) :=
  ((((OwnActivity.ite _ (ownActivity_raiseHeld 16 _ s) (ownActivity_releaseHeld 16 s)).trans
    (.of_calm (calm_sprayUpdate _))).trans (.of_calm (calm_potUpdate _))).trans (ownActivity_sensePermit _)).trans
    (ownActivity_sensePermit _)

/-! ## A peer joins (R7, R81, R136, R137) -/

theorem reannounceAll_parts (p : Nat → Bool) (s : State) : (reannounceAll p s).groups = s.groups ∧
    (reannounceAll p s).dir = s.dir := by
  unfold reannounceAll
  generalize (List.range 29).filter (fun i => s.stands i && p i) = l
  induction l generalizing s with
  | nil => exact ⟨rfl, rfl⟩
  | cons i l ih =>
    obtain ⟨groups, dir⟩ := ih (reannounce i s)
    have one : (reannounce i s).groups = s.groups ∧ (reannounce i s).dir = s.dir := by
      unfold reannounce
      split
      · exact ⟨rfl, rfl⟩
      · exact ⟨groups_announce i s, (spares_announce (p := fun _ => True) trivial s).dir⟩
    exact ⟨groups.trans one.1, dir.trans one.2⟩

/-- A change of the held shares reaches the heater unit alone of the other blocks. -/
theorem setHeld_heater (h : Nat) (s : State) : ∃ x, setHeld h s = { s with shares := { s.shares with held := h }, heater := x } := by
  unfold setHeld
  split
  · exact ⟨_, rfl⟩
  · exact ⟨_, rfl⟩

/-- The share unit without the loans of a peer (R81). -/
def State.sharesWithout (k : Nat) (s : State) : Shares :=
  if s.shares.state = .unseated then s.shares
  else { s.shares with
    held := s.shares.held + loanOf k s.shares.lent - loanOf k s.shares.borrowed
    lent := dropLoan k s.shares.lent, borrowed := dropLoan k s.shares.borrowed }

/-- The loans of a peer go: H and the two lists alone, and what the heater unit makes of H. -/
theorem dropLoansOf_heater (k : Nat) (s : State) :
    ∃ x, dropLoansOf k s = { s with shares := s.sharesWithout k, heater := x } := by
  unfold dropLoansOf State.sharesWithout
  split
  · exact ⟨s.heater, rfl⟩
  · obtain ⟨x, reclaimed⟩ := setHeld_heater (s.shares.held + loanOf k s.shares.lent) (s.withLent (dropLoan k s.shares.lent))
    obtain ⟨lost, _⟩ := reclaim_eq k s
    rw [lost, reclaimed]
    exact setHeld_heater _ _

/-- A peer's loans, sets and ORPHAN flag have gone, and the condition has followed; no alarm is announced yet. -/
def State.peerCleared (k : Nat) (s : State) : State :=
  recondition (clearOrphan k (removeActivity (fun a => a.raiser == k) (dropLoansOf k s)))

theorem peerJoined_announces (k : Nat) (s : State) : peerJoined k s =
    reannounceAll (fun i => ((s.peerCleared k).alarmScope i).getLsbD k) (s.peerCleared k) := rfl

theorem peerCleared_parts (k : Nat) (s : State) : (s.peerCleared k).groups =
      ⟨s.groups.activity.filter (fun a => !(a.raiser == k)), s.groups.orphans.filter (· != k)⟩ ∧
    (s.peerCleared k).dir = s.dir := by
  obtain ⟨x, dropped⟩ := dropLoansOf_heater k s
  unfold State.peerCleared
  rw [dropped, removeActivity_sets]
  obtain ⟨_, groups⟩ := recondition_parts (clearOrphan k { s with
    shares := s.sharesWithout k, heater := x
    groups := { s.groups with activity := s.groups.activity.filter (fun a => !(a.raiser == k)) } })
  exact ⟨groups, (spares_recondition (p := fun _ => False) _).dir⟩

theorem peerJoined_parts (k : Nat) (s : State) : (peerJoined k s).groups =
      ⟨s.groups.activity.filter (fun a => !(a.raiser == k)), s.groups.orphans.filter (· != k)⟩ ∧
    (peerJoined k s).dir = s.dir := by
  obtain ⟨cleared, stays⟩ := peerCleared_parts k s
  rw [peerJoined_announces]
  obtain ⟨groups, dir⟩ := reannounceAll_parts (fun i => ((s.peerCleared k).alarmScope i).getLsbD k) (s.peerCleared k)
  exact ⟨groups.trans cleared, dir.trans stays⟩

/-- The peer's sets and its ORPHAN flag are gone, the directory stays, and the neighbour is the one it gives. -/
theorem welcome_parts {k : Nat} {s : State} (other : k ≠ s.dir.own) :
    (∀ a ∈ (welcome k s).groups.activity, a.raiser ≠ k) ∧ k ∉ (welcome k s).groups.orphans ∧
    (welcome k s).dir = s.dir ∧ (welcome k s).NeighbourGiven := by
  obtain ⟨groups, dir⟩ := peerJoined_parts k s
  obtain ⟨_, given⟩ := updateNeighbour_parts [] (peerJoined k s)
  obtain ⟨joins, orphans, stays⟩ := ownActivity_settle (updateNeighbour [] (peerJoined k s))
  rw [groups_updateNeighbour, groups] at orphans
  rw [groups_updateNeighbour, groups, dir_updateNeighbour, dir] at joins
  rw [dir_updateNeighbour, dir] at stays
  unfold welcome
  refine ⟨fun a ha raiser => ?_, fun orphan => ?_, stays, given.moves (follows_settle _).toMoves⟩
  · rcases joins a ha with before | own
    · simpa [raiser] using (List.mem_filter.1 before).2
    · exact other (raiser.symm.trans own)
  · rw [orphans] at orphan
    simpa using (List.mem_filter.1 orphan).2

/-! ## Standing alarms announced again (R136) -/

/-- A peer's join as the statements spell it, with the member mask of the group that an alarm names. -/
theorem peerJoined_eq {k : Nat} {s u : State} (hu : u = recondition (clearOrphan k (removeActivity (fun a => a.raiser == k)
      (if s.shares.state = .unseated then s else surrender k (reclaim k s))))) :
    peerJoined k s = ((List.range 29).filter (fun i => u.stands i && (u.alarmGroup i != 0 &&
      (u.group (u.alarmGroup i)).members.getLsbD k))).foldl (fun x i => reannounce i x) u := by
  have scope (i : Nat) : (u.alarmScope i).getLsbD k = (u.alarmGroup i != 0 && (u.group (u.alarmGroup i)).members.getLsbD k) := by
    unfold State.alarmScope
    by_cases none : u.alarmGroup i = 0
    · rw [if_pos none, none]
      exact BitVec.getLsbD_zero
    · rw [if_neg none, bne_iff_ne.2 none, Bool.true_and]
  have all : peerJoined k s = reannounceAll (fun i => (u.alarmScope i).getLsbD k) u := by
    rw [hu]
    rfl
  rw [all]
  unfold reannounceAll
  simp only [scope]

theorem reannounce_cases {i cls : Nat} {s : State} (hc : cls = (if s.alarmAction i = .trip then 3 else 2)) :
    (s.hasWaiting (TxFrame.isAlarmOf i) = true → reannounce i s = s) ∧
    (s.hasWaiting (TxFrame.isAlarmOf i) = false → reannounce i s =
      if s.admits cls = true then
        updateRecord i (fun x => { x with announced := true, sentClass := cls, sentGroup := s.alarmGroup i })
          (s.withTx (s.bus.queue ++ [newFrame cls 0 (.alarm i (actionCode (s.alarmAction i)) (s.alarmGroup i)
            (if s.alarmGroup i = 0 then 0 else (s.group (s.alarmGroup i)).members) (s.record i).value (s.alarmMark i))]))
      else updateRecord i (fun x => { x with announceOwed := true }) s) := by
  have class_eq : s.alarmClass i = cls := hc.symm
  refine ⟨reannounce_waiting, fun none => ?_⟩
  cases room : s.admits cls with
  | true =>
    rw [if_pos rfl, reannounce_queued none (by rw [class_eq]; exact room), class_eq]
    unfold State.push State.alarmFrame
    rw [class_eq]
    rfl
  | false => rw [if_neg Bool.false_ne_true, reannounce_owed none (by rw [class_eq]; exact room)]

/-- A CLAIM or JOIN of the own number that the station has not sent: every standing alarm that needs it is announced again. -/
theorem ownNumberHeard_joined {s : State} (joined : s.joined = true) : ownNumberHeard s = settle
    (((List.range 29).filter (fun i => s.stands i && s.needsAnnouncing i)).foldl (fun x i => reannounce i x) s) :=
  if_pos joined

/-! ## CLAIM (R177..R179) -/

theorem learns_commitFrame (own : Bool) (src : Nat) (s : State) : (commitFrame own src s).learns = s.learns :=
  commitFrame_read own src s State.learns (fun _ => rfl)

theorem execClaim_heard {f : ClaimFields} {s : State} {start : BitVec 32} (h : s.Hears start) :
    exec (.claim f) s = .next (dropReservation (othersClaim f (commitFrame false 0 s))) := by
  show execClaim f s = _
  unfold execClaim
  rw [committed_heard h]
  rfl

/-- The commit of a frame with source 0 leaves the directory's entries. -/
theorem entries_commitFrame_zero (s : State) : (commitFrame false 0 s).dir.entries = s.dir.entries := by
  rw [commitFrame_touches, touch_unlearned (by simp [State.learnsFrom])]
  exact entries_contactHeard 0 s

theorem othersClaim_unlearned {f : ClaimFields} {s : State}
    (h : f.number.toNat < 1 ∨ 29 < f.number.toNat ∨ s.learns = false) : othersClaim f s = s :=
  if_pos (by rcases h with h | h | h <;> simp [h])

theorem othersClaim_ownNumber {f : ClaimFields} {s : State} (learns : s.learns = true) (low : 1 ≤ f.number.toNat)
    (high : f.number.toNat ≤ 29) (own : f.number.toNat = s.dir.own) : othersClaim f s = ownNumberHeard s := by
  unfold othersClaim
  dsimp only
  rw [if_neg (by simp [learns, low, high]), if_pos own]

theorem othersClaim_peer {f : ClaimFields} {s : State} (learns : s.learns = true) (low : 1 ≤ f.number.toNat)
    (high : f.number.toNat ≤ 29) (other : f.number.toNat ≠ s.dir.own) (joined : s.joined = true) :
    othersClaim f s = welcome f.number.toNat (writeClaim f.number.toNat f s) := by
  unfold othersClaim
  dsimp only
  rw [if_neg (by simp [learns, low, high]), if_neg other, if_pos joined]

/-- The entry of number `k` as a CLAIM writes it. -/
theorem entry_writeClaim {k : Nat} {s : State} (place : k < s.dir.entries.length) (f : ClaimFields) :
    ∃ e, (writeClaim k f s).entry k = some e ∧ e.uid = some f.uid ∧ e.roles = f.roles ∧
      e.window = some (f.winStart.toNat, f.winEnd.toNat) ∧ e.incarnation = some 0 ∧ e.quiet = false ∧ e.touched = true :=
  ⟨_, entry_setEntry place _, rfl, rfl, rfl, rfl, rfl, rfl⟩

theorem joined_learns {s : State} (h : s.joined = true) : s.learns = true :=
  (learns_iff s).2 (.inr (.inr (beq_iff_eq.1 h)))

theorem othersClaim_claimant {f : ClaimFields} {s u : State} (learns : s.learns = true) (low : 1 ≤ f.number.toNat)
    (high : f.number.toNat ≤ 29) (other : f.number.toNat ≠ s.dir.own) (joined : s.joined = false)
    (hu : u = updateNeighbour [] (writeClaim f.number.toNat f s)) : othersClaim f s =
      if u.control.station = .claiming ∧ f.number.toNat = u.cfg.preferred ∧ f.uid ≠ u.uid then failClaim u else u := by
  unfold othersClaim
  dsimp only
  rw [if_neg (by simp [learns, low, high]), if_neg other, if_neg (by rw [joined]; exact Bool.false_ne_true), ← hu]

theorem failClaim_parts (s : State) : (failClaim s).dir.entries = s.dir.entries ∧ (failClaim s).tracker = s.tracker ∧
    (failClaim s).loader = s.loader := by
  unfold failClaim
  split <;> exact ⟨rfl, rfl, rfl⟩

/-- However a learned CLAIM ends, its entry stands as written and the neighbour is the one the directory gives. -/
theorem othersClaim_learned {f : ClaimFields} {s : State} (learns : s.learns = true) (low : 1 ≤ f.number.toNat)
    (high : f.number.toNat ≤ 29) (other : f.number.toNat ≠ s.dir.own) :
    (othersClaim f s).dir.entries = (writeClaim f.number.toNat f s).dir.entries ∧ (othersClaim f s).NeighbourGiven := by
  cases joined : s.joined with
  | true =>
    obtain ⟨_, _, dir, given⟩ := welcome_parts (s := writeClaim f.number.toNat f s) other
    rw [othersClaim_peer learns low high other joined]
    exact ⟨congrArg Directory.entries dir, given⟩
  | false =>
    rw [othersClaim_claimant learns low high other joined rfl]
    obtain ⟨_, given⟩ := updateNeighbour_parts [] (writeClaim f.number.toNat f s)
    have dir := dir_updateNeighbour [] (writeClaim f.number.toNat f s)
    generalize updateNeighbour [] (writeClaim f.number.toNat f s) = u at given dir ⊢
    split
    · obtain ⟨entries, tracker, loader⟩ := failClaim_parts u
      exact ⟨entries.trans (congrArg Directory.entries dir), given.congr (congrArg Tracker.neighbour tracker)
        (congrArg (fun x => x.config.getD .blank) loader) entries⟩
    · exact ⟨congrArg Directory.entries dir, given⟩

/-- A claimant of the number with another uid gives up (R177). -/
theorem othersClaim_fails {f : ClaimFields} {s : State} (claiming : s.control.station = .claiming) (low : 1 ≤ f.number.toNat)
    (high : f.number.toNat ≤ 29) (other : f.number.toNat ≠ s.dir.own) (mine : f.number.toNat = s.cfg.preferred)
    (uid : f.uid ≠ s.uid) : (othersClaim f s).control.station = .claimFail ∧ (othersClaim f s).bus.queue = [] := by
  have learns : s.learns = true := (learns_iff s).2 (.inl claiming)
  have joined : s.joined = false := by
    unfold State.joined
    rw [claiming]
    rfl
  rw [othersClaim_claimant learns low high other joined rfl]
  have kept := keeps_updateNeighbour [] (writeClaim f.number.toNat f s)
  have control := control_updateNeighbour [] (writeClaim f.number.toNat f s)
  have cfg := kept.cfg
  have same : (updateNeighbour [] (writeClaim f.number.toNat f s)).uid = s.uid := congrArg (fun x => x.1) kept.fixed
  generalize updateNeighbour [] (writeClaim f.number.toNat f s) = u at control cfg same ⊢
  have station : u.control.station = .claiming := (congrArg Control.station control).trans claiming
  rw [if_pos ⟨station, mine.trans (congrArg StationConfig.preferred cfg).symm, by rw [same]; exact uid⟩]
  unfold failClaim
  rw [if_pos station]
  exact ⟨rfl, rfl⟩

/-- A CLAIM heard leaves the loader and the encoder count. -/
theorem othersClaim_rest (f : ClaimFields) (s : State) : (othersClaim f (commitFrame false 0 s)).loader = s.loader ∧
    (othersClaim f (commitFrame false 0 s)).tracker.count = s.tracker.count := by
  have kept := (keeps_commitFrame false 0 s).trans (keeps_othersClaim f _)
  exact ⟨kept.loader, kept.count⟩

/-- Settles O52: the entry and what follows from it, then each other case of a CLAIM and the operations that the cases name. -/
theorem anothersClaimIsLearned : Obligations.AnothersClaimIsLearned := by
  refine ⟨fun f s start h learns low high other place => ?_, fun _ _ _ => peerJoined_eq, fun _ _ _ => reannounce_cases,
    fun f s start h none => ?_, fun f s u start h joined low high own hu => ?_, reclaim_eq, clearOrphan_eq, writeClaim_eq,
    execClaim_unjoined, learns_iff⟩
  · have other' : f.number.toNat ≠ (commitFrame false 0 s).dir.own := by
      rw [commitFrame_own]
      exact other
    have learns' := (learns_commitFrame false 0 s).trans learns
    obtain ⟨e, entry, uid, roles, window, incarnation, quiet, touched⟩ :=
      entry_writeClaim (k := f.number.toNat) (s := commitFrame false 0 s) (by rw [entries_commitFrame_zero]; exact place) f
    obtain ⟨entries, given⟩ := othersClaim_learned learns' low high other'
    obtain ⟨loader, count⟩ := othersClaim_rest f s
    refine ⟨_, e, execClaim_heard h, (entry_of_entries entries _).trans entry, uid, roles, window, incarnation, quiet, touched,
      loader, count, given, fun claiming mine uid => ?_, fun joined => ?_⟩
    · have station : (commitFrame false 0 s).control.station = .claiming :=
        (commitFrame_read false 0 s (fun x => x.control.station) (fun _ => rfl)).trans claiming
      have number : f.number.toNat = (commitFrame false 0 s).cfg.preferred := by
        rw [cfg_commitFrame]
        exact mine
      have foreign : f.uid ≠ (commitFrame false 0 s).uid := by
        rw [commitFrame_read false 0 s (fun x => x.uid) (fun _ => rfl)]
        exact uid
      obtain ⟨failed, queue⟩ := othersClaim_fails station low high other' number foreign
      exact ⟨failed, queue, Bool.or_eq_true_iff.2 (.inr (beq_iff_eq.2 failed))⟩
    · obtain ⟨activity, orphans, _, _⟩ := welcome_parts (s := writeClaim f.number.toNat f (commitFrame false 0 s)) other'
      rw [othersClaim_peer learns' low high other' ((commitFrame_joined false 0 s).trans joined)]
      rw [dropReservation_groups]
      exact ⟨activity, orphans, rfl⟩
  · rw [execClaim_heard h, othersClaim_unlearned (none.imp_right (Or.imp_right fun k => (learns_commitFrame false 0 s).trans k))]
    rfl
  · subst hu
    have joined' := (commitFrame_joined false 0 s).trans joined
    rw [execClaim_heard h, othersClaim_ownNumber (joined_learns joined') low high (by rw [commitFrame_own]; exact own),
      ownNumberHeard_joined joined']

end Sys2Proof.Machine
end

section
/-! PROOFS. JOIN and STATUS at their sender and at the stations that hear them (O53). -/

namespace Sys2Proof.Machine

open Sys2Proof

/-! ## The share unit and the heater unit changed, and what follows (R67, R69, R81) -/

/-- What follows a change of the share unit and the heater unit leaves the still part but for the two. -/
theorem still_followed {s t u : State} (same : t.still = u.still)
    (changed : u.still = { s with shares := u.shares, heater := u.heater }.still) :
    t.still = { s with shares := t.shares, heater := t.heater }.still := by
  have replaced := congrArg (fun y : State => { y with shares := t.shares, heater := t.still.heater }) (same.trans changed)
  exact replaced

/-- The far part the same way. -/
theorem far_followed {s t u : State} (same : t.far = u.far)
    (changed : u.far = { s with shares := u.shares, heater := u.heater }.far) :
    t.far = { s with shares := t.shares, heater := t.heater }.far := by
  have replaced := congrArg (fun y : State => { y with shares := t.shares, heater := t.far.heater }) (same.trans changed)
  exact replaced

theorem far_withUnits {s u : State} (h : u.far = s.far) (x : Shares) (y : Heater) :
    { u with shares := x, heater := y }.far = { s with shares := x, heater := y }.far :=
  congrArg (fun z : State => { z with shares := x, heater := { y with
    channels := y.channels.map channelKeep, cost := 0, shortfall := 0 } }) h

theorem still_withUnits {s u : State} (h : u.still = s.still) (x : Shares) (y : Heater) :
    { u with shares := x, heater := y }.still = { s with shares := x, heater := y }.still :=
  congrArg (fun z : State => { z with shares := x, heater := { y with
    channels := y.channels.map channelKeep, cost := 0, shortfall := 0 } }) h

theorem shares_of_far {s t : State} (h : t.far = s.far) : t.shares = s.shares := by
  have shares : t.far.shares = s.far.shares := by rw [h]
  exact shares

/-! ## The own JOIN (R69, R136) -/

/-- The share unit SEATED with no loan and no need, its held shares the base. -/
def State.seatedShares (s : State) : Shares :=
  { s.shares with
    state := .seated, held := s.cfg.base, lent := [], borrowed := [], needAmount := 0, needTimer := .stopped }

theorem seat_heater (s : State) : ∃ x, seat s = { s with shares := s.seatedShares, heater := x } := setHeld_heater _ _

/-- The unit is seated, the standing alarms are announced again, and nothing outside the share unit and the heater unit but what may
follow an alarm has changed. -/
theorem ownJoin_parts (s : State) : (settle (ownJoin s)).shares = s.seatedShares ∧
    (settle (ownJoin s)).still = { s with
      shares := (settle (ownJoin s)).shares, heater := (settle (ownJoin s)).heater }.still := by
  have follows : Moves (seat s) (settle (ownJoin s)) :=
    ((follows_reannounceAll (seat s).needsAnnouncing (seat s)).trans (follows_settle _)).toMoves
  obtain ⟨x, seated⟩ := seat_heater s
  refine ⟨follows.shares.trans (by rw [seated]), still_followed follows.still ?_⟩
  rw [seated]

theorem execJoin_sent {src : Station} {f : JoinFields} {s : State} (h : s.Sends 2 src.toNat 0 (joinBytes f)) :
    exec (.join src f) s = .next (dropReservation (settle (ownJoin (commitFrame true src.toNat s)))) := by
  show execJoin src f s = _
  obtain ⟨start, e⟩ := committed_sent h
  unfold execJoin
  rw [e]
  exact congrArg (fun u => Host.Outcome.next (dropReservation u)) (if_pos rfl)

theorem seatedShares_commitFrame (own : Bool) (src : Nat) (s : State) :
    (commitFrame own src s).seatedShares = s.seatedShares := by
  unfold State.seatedShares
  rw [shares_commitFrame, cfg_commitFrame]

/-! ## The source's entry (R174, R180, R181) -/

/-- The entry of a learned source after the common part of its commit: the one it had, or a new one, touched. -/
theorem entry_commitFrame_learned {s : State} {src : Nat} (learned : s.learnsFrom src = true)
    (place : src < s.dir.entries.length) : ∃ x, (commitFrame false src s).entry src = some x ∧ x.touched = true ∧
      (src = 30 ∨ src = 31 → x.roles = match s.entry src with
        | some y => y.roles
        | none => 16) := by
  cases known : s.entry src with
  | some y => exact ⟨_, entry_commitFrame_known learned known, rfl, fun _ => rfl⟩
  | none =>
    obtain ⟨entry, _⟩ := entry_commitFrame_new learned known place
    refine ⟨_, entry, rfl, fun panel => ?_⟩
    rw [freshEntry_eq]
    exact if_pos panel

/-- The entry that a JOIN of another leaves. -/
structure JoinEntry (src : Nat) (f : JoinFields) (old : Option DirEntry) (e : DirEntry) : Prop where
  uid         : e.uid = some f.uid
  announced   : src ≠ 30 ∧ src ≠ 31 → e.roles = f.roles
  panel       : src = 30 ∨ src = 31 → e.roles = match old with
    | some x => x.roles
    | none => 16
  incarnation : e.incarnation = some f.incarnation.toNat
  touched     : e.touched = true
  window      : e.window = some (f.winStart.toNat, f.winEnd.toNat)

theorem entry_writeJoin {s : State} {src : Nat} (learned : s.learnsFrom src = true) (place : src < s.dir.entries.length)
    (f : JoinFields) : ∃ e, (writeJoin src f (commitFrame false src s)).entry src = some e ∧ JoinEntry src f (s.entry src) e := by
  obtain ⟨x, entry, touched, panel⟩ := entry_commitFrame_learned learned place
  rw [writeJoin_eq src f _ x entry]
  refine ⟨_, entry_setEntry (entry_place entry) _, rfl, fun station => ?_, fun isPanel => ?_, rfl, touched, rfl⟩
  · exact if_neg (by omega)
  · exact (if_pos isPanel).trans (panel isPanel)

theorem far_writeJoin (src : Nat) (f : JoinFields) (s : State) : (writeJoin src f s).far = s.far := by
  unfold writeJoin
  split <;> rfl

theorem own_writeJoin (src : Nat) (f : JoinFields) (s : State) : (writeJoin src f s).dir.own = s.dir.own := by
  unfold writeJoin
  split <;> rfl

/-! ## JOIN of another (R7, R81, R136, R181) -/

theorem far_peerJoined (k : Nat) (s : State) : (peerJoined k s).far = (dropLoansOf k s).far := by
  have cleared : (s.peerCleared k).far = (dropLoansOf k s).far :=
    (follows_recondition _).far.trans (moves_removeActivity (fun a => a.raiser == k) (dropLoansOf k s)).far
  rw [peerJoined_announces]
  exact (follows_reannounceAll _ _).far.trans cleared

/-- A peer's join takes its loans from the share unit; of the far part the heater unit alone may follow. -/
theorem welcome_units (k : Nat) (s : State) : (welcome k s).shares = s.sharesWithout k ∧
    (welcome k s).far = { s with shares := (welcome k s).shares, heater := (welcome k s).heater }.far := by
  have far : (welcome k s).far = (dropLoansOf k s).far :=
    (far_settle _).trans ((far_updateNeighbour [] (peerJoined k s)).trans (far_peerJoined k s))
  obtain ⟨x, dropped⟩ := dropLoansOf_heater k s
  rw [dropped] at far
  exact ⟨shares_of_far far, far_followed far rfl⟩

theorem execJoin_heard {src : Station} {f : JoinFields} {s : State} {start : BitVec 32} (h : s.Hears start) :
    exec (.join src f) s = .next (dropReservation (
      if src ≠ 0 ∧ src.toNat = (commitFrame false src.toNat s).dir.own then ownNumberHeard (commitFrame false src.toNat s)
      else if !(commitFrame false src.toNat s).learnsFrom src.toNat then commitFrame false src.toNat s
      else if (commitFrame false src.toNat s).joined then
        welcome src.toNat (writeJoin src.toNat f (commitFrame false src.toNat s))
      else updateNeighbour [] (writeJoin src.toNat f (commitFrame false src.toNat s)))) := by
  show execJoin src f s = _
  unfold execJoin
  rw [committed_heard h]
  rfl

/-- A JOIN of the own number that the station has not sent. -/
theorem execJoin_ownNumber {src : Station} {f : JoinFields} {s u : State} {start : BitVec 32} (h : s.Hears start)
    (joined : s.joined = true) (source : src ≠ 0) (own : src.toNat = s.dir.own) (hu : u = commitFrame false src.toNat s) :
    exec (.join src f) s = .next (dropReservation (settle
      (((List.range 29).filter (fun i => u.stands i && u.needsAnnouncing i)).foldl (fun x i => reannounce i x) u))) := by
  subst hu
  rw [execJoin_heard h, if_pos ⟨source, own.trans (commitFrame_own false src.toNat s).symm⟩,
    ownNumberHeard_joined ((commitFrame_joined false src.toNat s).trans joined)]

/-- The JOIN of a peer at a JOINED station. -/
theorem execJoin_peer {src : Station} {f : JoinFields} {s : State} {start : BitVec 32} (h : s.Hears start)
    (learned : s.learnsFrom src.toNat = true) (joined : s.joined = true) : exec (.join src f) s = .next (dropReservation
      (welcome src.toNat (writeJoin src.toNat f (commitFrame false src.toNat s)))) := by
  obtain ⟨_, _, _, other⟩ := (learnsFrom_iff src.toNat s).1 learned
  rw [execJoin_heard h, if_neg (by rw [commitFrame_own]; exact fun own => other own.2),
    if_neg (by rw [commitFrame_learnsFrom, learned]; decide), if_pos ((commitFrame_joined false src.toNat s).trans joined)]

/-- What a learned JOIN leaves but for the reservation: the written entries, the neighbour, the loans and the rest. -/
structure JoinLeaves (src : Nat) (f : JoinFields) (s t : State) : Prop where
  entries   : t.dir.entries = (writeJoin src f (commitFrame false src s)).dir.entries
  shares    : t.shares = if s.joined = true then s.sharesWithout src else s.shares
  peer      : s.joined = true → (∀ a ∈ t.groups.activity, a.raiser ≠ src) ∧ src ∉ t.groups.orphans ∧
    t = welcome src (writeJoin src f (commitFrame false src s))
  far       : t.far = { s with shares := t.shares, heater := t.heater }.far
  neighbour : t.NeighbourGiven

theorem join_peer {src : Nat} {s : State} (learned : s.learnsFrom src = true) (joined : s.joined = true) (f : JoinFields) :
    JoinLeaves src f s (welcome src (writeJoin src f (commitFrame false src s))) := by
  obtain ⟨_, _, _, other⟩ := (learnsFrom_iff src s).1 learned
  have written := (far_writeJoin src f (commitFrame false src s)).trans (far_commitFrame false src s)
  have own := (own_writeJoin src f (commitFrame false src s)).trans (commitFrame_own false src s)
  obtain ⟨activity, orphans, dir, given⟩ :=
    welcome_parts (k := src) (s := writeJoin src f (commitFrame false src s)) (by rw [own]; exact other)
  obtain ⟨loans, far⟩ := welcome_units src (writeJoin src f (commitFrame false src s))
  have without : (writeJoin src f (commitFrame false src s)).sharesWithout src = s.sharesWithout src := by
    unfold State.sharesWithout
    rw [shares_of_far written]
  exact
    { entries := by rw [dir]
      shares := by rw [if_pos joined, loans, without]
      peer := fun _ => ⟨activity, orphans, rfl⟩
      far := far.trans (far_withUnits written _ _)
      neighbour := given }

theorem join_unjoined {src : Nat} {s : State} (joined : s.joined = false) (f : JoinFields) :
    JoinLeaves src f s (updateNeighbour [] (writeJoin src f (commitFrame false src s))) := by
  have far := (far_updateNeighbour [] (writeJoin src f (commitFrame false src s))).trans
    ((far_writeJoin src f _).trans (far_commitFrame false src s))
  obtain ⟨_, given⟩ := updateNeighbour_parts [] (writeJoin src f (commitFrame false src s))
  exact
    { entries := by rw [dir_updateNeighbour]
      shares := by rw [if_neg (by rw [joined]; exact Bool.false_ne_true), shares_of_far far]
      peer := fun h => by rw [joined] at h; cases h
      far := far_followed far rfl
      neighbour := given }

/-- The answer to a learned JOIN, whichever state the station is in. -/
theorem execJoin_learned {src : Station} {s : State} {start : BitVec 32} (h : s.Hears start)
    (learned : s.learnsFrom src.toNat = true) (f : JoinFields) :
    ∃ t, exec (.join src f) s = .next (dropReservation t) ∧ JoinLeaves src.toNat f s t := by
  cases joined : s.joined with
  | true => exact ⟨_, execJoin_peer h learned joined, join_peer learned joined f⟩
  | false => exact ⟨_, execJoin_unjoined src f s start h learned joined, join_unjoined joined f⟩

/-- The loans of a peer go at a JOINED station whose share unit is not UNSEATED. -/
theorem sharesWithout_if (k : Nat) (s : State) : (if s.joined = true then s.sharesWithout k else s.shares) =
    if s.joined = true ∧ s.shares.state ≠ .unseated then { s.shares with
      held := s.shares.held + loanOf k s.shares.lent - loanOf k s.shares.borrowed
      lent := dropLoan k s.shares.lent, borrowed := dropLoan k s.shares.borrowed }
    else s.shares := by
  unfold State.sharesWithout
  by_cases unseated : s.shares.state = .unseated
  · rw [if_pos unseated, ite_self, if_neg (fun h => h.2 unseated)]
  · rw [if_neg unseated]
    simp only [unseated, ne_eq, not_false_eq_true, and_true]

/-! ## STATUS (R174, R182) -/

theorem execStatus_sent {src : Station} {f : StatusFields} {s : State} (h : s.Sends 3 src.toNat 0 (statusBytes f)) :
    exec (.status src f) s = .next (s.afterCommit true src.toNat) := by
  show execStatus src f s = _
  obtain ⟨start, e⟩ := committed_sent h
  unfold execStatus
  rw [e]
  exact congrArg (fun u => Host.Outcome.next (dropReservation u)) (if_pos rfl)

/-- The entry with the fields of a STATUS; a panel entry keeps its roles. -/
def statusEntry (src : Nat) (f : StatusFields) (x : DirEntry) : DirEntry :=
  { x with
    roles := if src = 30 ∨ src = 31 then x.roles else f.roles
    window := some (f.winStart.toNat, f.winEnd.toNat), incarnation := some f.incarnation.toNat
    summary := some ⟨f.mode.toNat, f.condition.toNat, f.level.toNat, f.held.toNat, f.base.toNat, f.boards.toNat⟩ }

/-- The fields that a STATUS writes, and what follows: the neighbour and nothing in the far part. -/
theorem writeStatus_parts {s : State} {src : Nat} (learned : s.learnsFrom src = true) (place : src < s.dir.entries.length)
    (f : StatusFields) :
    ∃ e, (settle (writeStatus src f (commitFrame false src s))).entry src = some e ∧
      (src ≠ 30 ∧ src ≠ 31 → e.roles = f.roles) ∧
      (src = 30 ∨ src = 31 → e.roles = match s.entry src with
        | some x => x.roles
        | none => 16) ∧
      e.incarnation = some f.incarnation.toNat ∧ e.touched = true ∧ e.window = some (f.winStart.toNat, f.winEnd.toNat) ∧
      e.summary = some ⟨f.mode.toNat, f.condition.toNat, f.level.toNat, f.held.toNat, f.base.toNat, f.boards.toNat⟩ ∧
      (settle (writeStatus src f (commitFrame false src s))).far = s.far ∧
      (settle (writeStatus src f (commitFrame false src s))).NeighbourGiven := by
  obtain ⟨x, entry, touched, panel⟩ := entry_commitFrame_learned learned place
  have common := far_commitFrame false src s
  have learned' := (commitFrame_learnsFrom false src src s).trans learned
  generalize commitFrame false src s = u at entry common learned'
  have write : writeStatus src f u = updateNeighbour [] (setEntry src (some (statusEntry src f x)) u) :=
    writeStatus_eq src f u x entry learned'
  have written : (setEntry src (some (statusEntry src f x)) u).entry src = some (statusEntry src f x) :=
    entry_setEntry (entry_place entry) _
  have rest : (setEntry src (some (statusEntry src f x)) u).far = u.far := rfl
  rw [write]
  generalize setEntry src (some (statusEntry src f x)) u = v at written rest
  obtain ⟨_, given⟩ := updateNeighbour_parts [] v
  have dir : (settle (updateNeighbour [] v)).dir = v.dir := (dir_settle _).trans (dir_updateNeighbour [] v)
  have far : (settle (updateNeighbour [] v)).far = s.far :=
    (far_settle _).trans ((far_updateNeighbour [] v).trans (rest.trans common))
  refine ⟨statusEntry src f x, (entry_of_entries (congrArg Directory.entries dir) src).trans written, fun station => ?_,
    fun isPanel => ?_, rfl, touched, rfl, rfl, far, given.moves (follows_settle _).toMoves⟩
  · exact if_neg (by omega)
  · exact (if_pos isPanel).trans (panel isPanel)

/-- Settles O53: JOIN at its sender, at a station that learns from it and with the own number, then STATUS, then the entries that
both write and the cases with the common part alone. -/
theorem joinAndStatusCommit : Obligations.JoinAndStatusCommit := by
  refine ⟨fun src f s h => ?_, fun src f s start h learned place => ?_,
    fun _ _ _ _ _ h joined source own hu => execJoin_ownNumber h joined source own hu,
    fun src f s start h learned place => ?_, fun _ _ _ => execStatus_sent, fun _ _ => ownJoin_eq, writeJoin_eq, writeStatus_eq,
    execJoin_unjoined, execJoin_unlearned, execStatus_heard⟩
  · have answer := execJoin_sent h
    obtain ⟨shares, still⟩ := ownJoin_parts (commitFrame true src.toNat s)
    rw [seatedShares_commitFrame] at shares
    have rest := still.trans (still_withUnits (still_commitFrame true src.toNat s) _ _)
    generalize settle (ownJoin (commitFrame true src.toNat s)) = t at answer shares rest ⊢
    exact ⟨dropReservation t, answer, shares, rfl, rest⟩
  · obtain ⟨t, answer, leaves⟩ := execJoin_learned h learned f
    obtain ⟨e, entry, written⟩ := entry_writeJoin learned place f
    refine ⟨dropReservation t, e, answer, (entry_of_entries leaves.entries src.toNat).trans entry, written.uid, written.announced,
      written.panel, written.incarnation, written.touched, written.window, leaves.shares.trans (sharesWithout_if _ s),
      fun joined => ?_, leaves.far, leaves.neighbour⟩
    obtain ⟨activity, orphans, whole⟩ := leaves.peer joined
    exact ⟨activity, orphans, congrArg dropReservation whole⟩
  · obtain ⟨_, heard⟩ := execStatus_heard src f s start h
    have answer := heard learned
    obtain ⟨e, entry, announced, panel, incarnation, touched, window, summary, far, given⟩ := writeStatus_parts learned place f
    generalize settle (writeStatus src.toNat f (commitFrame false src.toNat s)) = t at answer entry far given
    exact ⟨dropReservation t, e, answer, entry, announced, panel, incarnation, touched, window, summary, far, given⟩

end Sys2Proof.Machine
end

section
/-! PROOFS. Two of the invariants that every step keeps: the derived condition (O55), and the rest of a station that is not JOINED
(O57). The answer to a RESTART (O39). QUERY and the contents of the REPORTs (O50). -/

namespace Sys2Proof.Machine

open Sys2Proof

/-! ## Invariants (R141, R144, R145) -/

/-- Settles O55: what every step keeps, read for the condition; the rest of the command queue is not among what derives it. -/
theorem theConditionStaysDerived : Obligations.TheConditionStaysDerived := by
  intro s t derived h
  obtain ⟨_, k⟩ := lasts_step h
  exact k.derived derived

/-- Settles O57: what every step keeps, read for a station that is not JOINED. -/
theorem aStationThatIsNotJoinedStaysAtRest : Obligations.AStationThatIsNotJoinedStaysAtRest := by
  intro s t off h
  obtain ⟨_, k⟩ := lasts_step h
  exact k.off off off

/-! ## The answer to a RESTART (R151) -/

theorem answer_restart {f : RawFrame} {s : State} (h : s.Asked f 25) :
    ((answerTo f s).1.ack = true ↔ s.joined = true ∧ (f.src = 30 ∨ f.src = 31) ∧ f.payload = [] ∧ s.control.mode = .idle ∧
      s.tracker.queue = [] ∧ s.control.condition ≠ .tripped) ∧
    (answerTo f s).1.busy = false ∧ (answerTo f s).1.veto = false ∧ (answerTo f s).2 = none := by
  have e : answerTo f s = restartAnswer f.src.toNat f.payload s := answerTo_asked h
  rw [e]
  unfold restartAnswer ackAnswer
  simp only [Bool.and_eq_true, beq_iff_eq, and_assoc, isPanel_iff, List.isEmpty_iff, restartable_iff, and_self]

/-- No RESTART is answered BUSY: not at its sender, nor faulty, nor broadcast, nor directed elsewhere or here. -/
theorem answerTo_restart_busy {f : RawFrame} (s : State) (kind : f.kind = 25) : (answerTo f s).1.busy = false := by
  cases wire : s.bus.onWire with
  | some w => rw [answerTo_own wire]
  | none =>
    cases faulty : faultyFrame f with
    | true => rw [answerTo_faulty wire faulty]
    | false =>
      by_cases broadcast : f.dst = 0
      · rw [answer_otherBroadcast wire faulty broadcast (by rw [kind]; decide) (by rw [kind]; decide)]
      · by_cases own : f.dst.toNat = s.dir.own
        · obtain ⟨_, busy, _⟩ := answer_restart ⟨wire, faulty, broadcast, own, kind⟩
          exact busy
        · rw [answerTo_elsewhere wire faulty broadcast own]

/-- Settles O39. -/
theorem theAnswerToRestart : Obligations.TheAnswerToRestart := by
  refine ⟨fun f s started wire sound kind empty directed own => ⟨_, execAckSlot_inFrame started, ?_⟩,
    fun _ s kind => answerTo_restart_busy s kind, fun _ s directed => unanswered_declined directed s⟩
  have answer := answer_restart ⟨wire, sound, directed, own, kind⟩
  simpa only [empty, true_and, State.joined, beq_iff_eq] using answer

/-! ## QUERY (R153, R154) -/

/-- An acknowledged QUERY with its place reserved queues the REPORT there, at the end of the transmit queue. -/
theorem answerQuery_reported {src dst : Station} {s : State} {start : BitVec 32} (h : s.Hears start) (a : s.Accepts dst)
    (r : s.bus.reservation = some .txPlace) (code : Nat) (item : Byte) :
    answerQuery code src dst item s = .next (dropReservation
      ((commitFrame false src.toNat s).push (newFrame 1 src.toNat (.report code item.toNat)))) := by
  unfold answerQuery
  rw [committed_heard h, r]
  exact congrArg (fun u => Host.Outcome.next (dropReservation u)) (if_pos (forMe_of_accepts a))

theorem answerQuery_notTaken {src dst : Station} {s : State} {start : BitVec 32} (h : s.Hears start)
    (n : s.bus.answer.ack = false ∨ dst.toNat ≠ s.dir.own) (code : Nat) (item : Byte) :
    answerQuery code src dst item s = .next (s.afterCommit false src.toNat) := by
  unfold answerQuery
  rw [committed_heard h]
  exact dropped_if_not (queueReport code item.toNat src.toNat _) s src.toNat (not_forMe n)

/-- The ten QUERY commands with their codes (R153). -/
def queryCodes (src dst : Station) (item : Byte) : List (Instr × Nat) :=
  [(.queryStation src dst item, 1), (.queryDirectory src dst item, 2), (.queryBoards src dst item, 3),
    (.queryBoard src dst item, 4), (.queryRecipe src dst item, 5), (.queryWatch src dst item, 6),
    (.queryAlarms src dst item, 7), (.queryFirstout src dst item, 8), (.queryLoans src dst item, 9),
    (.queryGroup src dst item, 10)]

/-- Each of them runs as the QUERY of its code. -/
theorem exec_queryCode {src dst : Station} {item : Byte} {p : Instr × Nat} (h : p ∈ queryCodes src dst item) (s : State) :
    exec p.1 s = answerQuery p.2 src dst item s := by
  simp only [queryCodes, List.mem_cons, List.not_mem_nil, or_false] at h
  rcases h with rfl | rfl | rfl | rfl | rfl | rfl | rfl | rfl | rfl | rfl <;> rfl

/-- Settles O50: the QUERY commands with and without effect, the ten contents with their parts, then the bytes and the codes. -/
theorem queriesQueueReports : Obligations.QueriesQueueReports := by
  refine ⟨fun src dst item s start h a r p hp => ?_, fun src dst item s start h n c hc => ?_, reportContent_station,
    fun _ _ => ⟨reportContent_directory_own, reportContent_directory_none, fun _ => reportContent_directory⟩,
    fun _ _ _ _ => entryReport_eq, reportContent_boards,
    fun _ _ => ⟨reportContent_board_none, fun _ => reportContent_board⟩, lineBytes_eq, fun _ _ _ => reportContent_recipe,
    fun _ _ => ⟨reportContent_watch_empty, fun _ => reportContent_watch_fixed, fun _ => reportContent_watch_panel⟩,
    watchBytes_eq, reportContent_alarms, fun _ _ _ _ => reportContent_firstout, reportContent_loans, reportContent_group,
    fun _ => rfl, fun _ => rfl, fun _ => rfl, fun n => ?_, fun _ => rfl, fun _ => ⟨rfl, rfl⟩, ?_⟩
  · refine ⟨_, (exec_queryCode hp s).trans (answerQuery_reported h a r p.2 item), ?_, rfl, rfl⟩
    exact still_commitFrame false src.toNat s
  · have coded : c ∈ (queryCodes src dst item).map Prod.fst := hc
    obtain ⟨p, hp, rfl⟩ := List.mem_map.1 coded
    exact (exec_queryCode hp s).trans (answerQuery_notTaken h n p.2 item)
  · exact ⟨rfl, rfl, rfl, rfl, rfl⟩
  · decide

end Sys2Proof.Machine
end

section
/-! PROOFS. PERMIT_LINE_CHANGE and TRIP_LINE_CHANGE: the sensed lines and what follows them (O15). -/

namespace Sys2Proof.Machine

open Sys2Proof

/-! ## What a released condition leaves of the sensed permit (R146) -/

/-- Deriving the condition again senses the trip line, not the permit line. -/
theorem permitSensed_recondition (s : State) : (recondition s).control.permitSensed = s.control.permitSensed := by
  have trip : (senseTrip s).control.permitSensed = s.control.permitSensed := by
    unfold senseTrip
    split
    · rfl
    · dsimp only
      split
      · obtain ⟨_, _, _, _, _, _, _, permit⟩ := lineSensed_keeps s.tripLevel { s.control with tripSensed := s.tripLevel }
        exact permit
      · rfl
  refine Eq.trans ?_ trip
  unfold recondition
  dsimp only
  split
  · exact congrArg (fun x => x.2.1.permitSensed) ((calm_potUpdate _).trans (calm_sprayUpdate (senseTrip s)))
  · exact congrArg (fun x => x.2.1.permitSensed) (calm_setCondition (senseTrip s).derivedCondition (senseTrip s))

theorem control_withActivity (l : List Activity) (s : State) : (withActivity l s).control = s.control :=
  congrArg (fun x => x.2.1) (calm_foldl (fun s c => calm_markBoards _ c s) _ { s with groups := { s.groups with activity := l } })

/-- A return to QUIET reaches, before the condition follows, the frames and the records alone. -/
theorem clearAnnounced_rest (i : Nat) (s : State) :
    (clearAnnounced i s).control = s.control ∧ (clearAnnounced i s).heater = s.heater := by
  have queued (u : State) : (queueClear i u).control = u.control ∧ (queueClear i u).heater = u.heater := by
    unfold queueClear
    split <;> exact ⟨rfl, rfl⟩
  unfold clearAnnounced
  split
  · simp only [updateRecord_control, updateRecord_heater]
    split
    · exact queued _
    · exact ⟨rfl, rfl⟩
  · exact ⟨rfl, rfl⟩

theorem permitSensed_returnQuiet (i : Nat) (s : State) : (returnQuiet i s).control.permitSensed = s.control.permitSensed := by
  unfold returnQuiet removeActivity
  rw [permitSensed_recondition, (clearAnnounced_rest i _).1, control_withActivity, updateRecord_control]

theorem permitSensed_releaseRecord (i : Nat) (s : State) :
    (releaseRecord i s).control.permitSensed = s.control.permitSensed := by
  unfold releaseRecord
  split
  · split
    · rfl
    · exact permitSensed_returnQuiet i s
  · exact permitSensed_returnQuiet i s
  all_goals rfl

theorem permitSensed_releaseHeld (i : Nat) (s : State) : (releaseHeld i s).control.permitSensed = s.control.permitSensed := by
  unfold releaseHeld
  split
  · exact permitSensed_releaseRecord i _
  · rfl

/-! ## The permit line is sensed as it stands (R18, R146) -/

/-- The sensed permit is the level of the permit line. -/
def State.PermitFollows (s : State) : Prop := s.control.permitSensed = s.permitLevel

theorem sensePermit_follows {s : State} (h : s.PermitFollows) : sensePermit s = s := sensePermit_same h.symm

/-- From a line sensed inactive one sensing is enough: it releases nothing. -/
theorem permitFollows_sensePermit {s : State} (inactive : s.control.permitSensed = false) : (sensePermit s).PermitFollows := by
  cases level : s.permitLevel with
  | true =>
    rw [sensePermit_active level inactive]
    exact level.symm
  | false =>
    have follows : s.PermitFollows := inactive.trans level.symm
    rw [sensePermit_follows follows]
    exact follows

/-- Where the first sensing releases CONVEYOR_STALL, and the condition with it, the line may become active again; the second sensing
starts from a line sensed inactive. -/
theorem permitFollows_sensePermit_twice (s : State) : (sensePermit (sensePermit s)).PermitFollows := by
  cases sensed : s.control.permitSensed with
  | false =>
    have first := permitFollows_sensePermit sensed
    rw [sensePermit_follows first]
    exact first
  | true =>
    cases level : s.permitLevel with
    | true =>
      have follows : s.PermitFollows := sensed.trans level.symm
      rw [sensePermit_follows follows, sensePermit_follows follows]
      exact follows
    | false =>
      refine permitFollows_sensePermit ?_
      rw [sensePermit_inactive level sensed, permitSensed_releaseHeld]

theorem permitFollows_settle (s : State) : (settle s).PermitFollows := permitFollows_sensePermit_twice _

/-! ## The rows of R144 -/

theorem anyStands_false {s : State} {a : Action} (h : ∀ i, i < 29 → s.stands i = true → s.alarmAction i ≠ a) :
    s.anyStands a = false :=
  eq_false_of_ne_true fun k => by
    obtain ⟨i, place, stands, action⟩ := (anyStands_iff s a).1 k
    exact h i place stands action

theorem derivedCondition_offline {s : State} (h : s.joined = false) : s.derivedCondition = .normal := by
  unfold State.derivedCondition
  rw [h]
  rfl

theorem derivedCondition_hold {s : State} (j : s.joined = true) (h : s.anyStands .trip = false)
    (l : s.control.tripSensed = false) (k : s.anyStands .hold = true ∨ s.holdConveyor = true) : s.derivedCondition = .hold := by
  rw [derivedCondition_sensedInactive j h l, if_pos (Bool.or_eq_true_iff.2 k)]

theorem derivedCondition_normal {s : State} (j : s.joined = true) (h : s.anyStands .trip = false)
    (l : s.control.tripSensed = false) (k : s.anyStands .hold = false) (c : s.holdConveyor = false) :
    s.derivedCondition = .normal := by
  rw [derivedCondition_sensedInactive j h l, k, c]
  rfl

/-- The table that derives the condition. -/
theorem derivedCondition_rows (s : State) :
    (s.joined = false → s.derivedCondition = .normal) ∧
    (s.joined = true → (∃ i, i < 29 ∧ s.stands i = true ∧ s.alarmAction i = .trip) → s.derivedCondition = .tripped) ∧
    (s.joined = true → (∀ i, i < 29 → s.stands i = true → s.alarmAction i ≠ .trip) →
      (s.control.tripSensed = true → s.derivedCondition = .lineStop) ∧
      (s.control.tripSensed = false →
        ((∃ i, i < 29 ∧ s.stands i = true ∧ s.alarmAction i = .hold) ∨ s.holdConveyor = true → s.derivedCondition = .hold) ∧
        ((∀ i, i < 29 → s.stands i = true → s.alarmAction i ≠ .hold) → s.holdConveyor = false →
          s.derivedCondition = .normal))) := by
  refine ⟨derivedCondition_offline, fun j trip => derivedCondition_tripped j ((anyStands_iff s .trip).2 trip),
    fun j noTrip => ⟨derivedCondition_lineStop j (anyStands_false noTrip), fun inactive => ⟨fun hold => ?_, fun noHold => ?_⟩⟩⟩
  · exact derivedCondition_hold j (anyStands_false noTrip) inactive (hold.imp_left (anyStands_iff s .hold).2)
  · exact derivedCondition_normal j (anyStands_false noTrip) inactive (anyStands_false noHold)

/-! ## The two commands -/

/-- Settles O15: the two commands, the table of the condition with its words, then each operation that follows the lines. -/
theorem theLineWiresAreSensed : Obligations.TheLineWiresAreSensed :=
  ⟨fun _ _ => ⟨_, rfl, permitFollows_settle _, rfl, (follows_settle _).steady⟩,
    fun _ _ => ⟨_, rfl, (follows_settle _).derived (derived_recondition _), rfl,
      (follows_settle _).steady.trans (follows_recondition _).steady⟩,
    derivedCondition_rows, holdConveyor_iff, fun s _ => inForce_iff s, fun _ => ⟨rfl, rfl, rfl⟩, settle_eq,
    fun _ _ _ => handLate_held, fun _ => handLate_released, permitLevel_iff,
    fun _ => ⟨sensePermit_same, sensePermit_active, sensePermit_inactive⟩,
    fun _ _ sensed => ⟨recondition_same sensed, recondition_changed sensed⟩, queueStatus_eq, tripLevel_iff,
    fun _ => ⟨senseTrip_same, senseTrip_offline, senseTrip_active, senseTrip_inactive⟩,
    fun s => ⟨rfl, conditionMarks_stop (.inl rfl) s, conditionMarks_stop (.inr rfl) s, fun _ => conditionMarks_hold⟩,
    spans_iff, fun _ _ _ => rfl⟩

end Sys2Proof.Machine
end

section
/-! PROOFS. RESTART: what it keeps and what it clears (O49). -/

namespace Sys2Proof.Machine

open Sys2Proof

/-! ## What a RESTART reads of the state after the common part of its commit (R163) -/

theorem incarnation_touch (src : Nat) (s : State) : (touch src s).dir.incarnation = s.dir.incarnation := by
  unfold touch
  split
  · split <;> rfl
  · rfl

theorem incarnation_commitFrame_heard (src : Nat) (s : State) :
    (commitFrame false src s).dir.incarnation = s.dir.incarnation := by
  rw [commitFrame_touches, incarnation_touch]
  exact common_read (common_contactHeard src s) (fun x => x.dir.incarnation) (fun _ => rfl)

theorem busCounts_commitFrame_heard (src : Nat) (s : State) : (commitFrame false src s).bus.failed = s.bus.failed ∧
    (commitFrame false src s).bus.stuckCount = s.bus.stuckCount := by
  rw [bus_commitFrame_heard]
  exact ⟨common_read (common_contactHeard src s) (fun x => x.bus.failed) (fun _ => rfl),
    common_read (common_contactHeard src s) (fun x => x.bus.stuckCount) (fun _ => rfl)⟩

/-! ## The first-out records through the commit (R121, R148, R171) -/

section
variable {f : Option FirstOut} {l : LineState × Option (Nat × Nat)} {s : State}

theorem Untripped.queueJoin (h : Untripped f l s) : Untripped f l (queueJoin s) := .ite _ (h.of_eq rfl rfl rfl) (h.of_eq rfl rfl rfl)

/-- ISOLATED is no TRIP alarm. -/
theorem Untripped.leaveIsolation (h : Untripped f l s) : Untripped f l (leaveIsolation s) := by
  have released : Untripped f l (Machine.releaseHeld 27 s) := h.releaseHeld (.inl (fun trip => by cases trip))
  exact Untripped.settle (.ite _ released released.queueJoin)

theorem Untripped.restartContact (h : Untripped f l s) (own : Bool) : Untripped f l (restartContact own s) := by
  cases joined : s.joined with
  | false => rwa [restartContact_offline joined]
  | true =>
    have started : Untripped f l (s.startContact own) := by
      unfold State.startContact
      exact .ite _ (h.of_eq rfl rfl rfl) (h.of_eq rfl rfl rfl)
    rw [restartContact_joined joined]
    exact .ite _ started.leaveIsolation started

theorem Untripped.commitFrame_heard (h : Untripped f l s) (src : Nat) : Untripped f l (commitFrame false src s) := by
  have away : Untripped f l s.heardAway := h.of_eq rfl rfl rfl
  have contact : Untripped f l (s.contactHeard src) := .ite _ away (away.restartContact false)
  rw [commitFrame_touches, touch_parts]
  exact contact.of_eq rfl rfl rfl

end

theorem alarmAction_commitFrame (own : Bool) (src : Nat) (s : State) (i : Nat) :
    (commitFrame own src s).alarmAction i = s.alarmAction i := by
  unfold State.alarmAction State.watch
  rw [entries_commitFrame, cfg_commitFrame]

/-- None of the records that a restarted contact timer reaches is one of a TRIP alarm. -/
theorem contactIndex_notTrip {s : State} {i : Nat} (h : contactIndex i) : s.alarmAction i ≠ .trip := by
  intro trip
  rcases h with rfl | rfl | rfl <;> cases trip

/-- A TRIP alarm stands after another's commit where it stood before. -/
theorem stands_commitFrame_heard {s : State} {i : Nat} (trip : s.alarmAction i = .trip) (src : Nat) :
    (commitFrame false src s).stands i = s.stands i :=
  congrArg (fun r => r.state.stands)
    ((leaves_commitFrame_heard src s).record i (fun reached => contactIndex_notTrip reached trip))

/-- Where the commit leaves a JOINED station that is not TRIPPED, no TRIP alarm stood before it. -/
theorem untripped_of_commit {s : State} {src : Nat} (joined : s.joined = true) (derived : s.Derived)
    (condition : (commitFrame false src s).control.condition ≠ .tripped) :
    Untripped s.alarms.firstOut (s.control.lineState, s.control.lineValue) s := by
  have none : s.anyStands .trip = false := anyStands_false fun i place stands trip => by
    obtain ⟨_, after⟩ := (keeps_commitFrame false src s).derived derived
    have standing : (commitFrame false src s).anyStands .trip = true :=
      (anyStands_iff _ _).2 ⟨i, place, (stands_commitFrame_heard trip src).trans stands, (alarmAction_commitFrame ..).trans trip⟩
    exact condition (after.trans (derivedCondition_tripped ((commitFrame_joined ..).trans joined) standing))
  refine ⟨fun i place trip => eq_false_of_ne_true fun stands => ?_, ?_, rfl, rfl⟩
  · exact Bool.false_ne_true (none.symm.trans ((anyStands_iff s .trip).2 ⟨i, place, stands, trip⟩))
  · obtain ⟨sensed, _⟩ := derived
    rw [sensed]
    unfold State.tripLevel State.tripPull
    rw [none, Bool.and_false, Bool.false_or]

/-- The commit of another's frame keeps both first-out records where the station is not TRIPPED, and the trip line is then sensed as
the others leave it. -/
theorem firstOut_commitFrame_heard {s : State} {src : Nat} (derived : s.Derived)
    (condition : (commitFrame false src s).control.condition ≠ .tripped) :
    (commitFrame false src s).control.tripSensed = (commitFrame false src s).control.tripOthers ∧
    (commitFrame false src s).alarms.firstOut = s.alarms.firstOut ∧
    ((commitFrame false src s).control.lineState, (commitFrame false src s).control.lineValue) =
      (s.control.lineState, s.control.lineValue) := by
  cases joined : s.joined with
  | true =>
    obtain ⟨_, sensed, firstOut, line⟩ := (untripped_of_commit joined derived condition).commitFrame_heard src
    exact ⟨sensed, firstOut, line⟩
  | false =>
    have away : s.contactHeard src = s.heardAway := by
      unfold State.contactHeard
      rw [restartContact_offline (s := s.heardAway) joined, ite_self]
    obtain ⟨sensed, _⟩ := (derived_offline joined).1 derived
    rw [commitFrame_touches, touch_parts, away]
    exact ⟨sensed, rfl, rfl⟩

/-! ## The heater unit after its new period start (R52, R85) -/

section
variable {n own : Nat} {s : State}

theorem heater_queueStatus (s : State) : (queueStatus s).heater = s.heater := by
  rw [queueStatus_eq]
  split <;> rfl

theorem heater_senseTrip (s : State) : (senseTrip s).heater = s.heater := by
  unfold senseTrip
  split <;> rfl

theorem Cleared.tripSensed (h : Cleared n own s) : Cleared n own (senseTrip s) := by
  unfold senseTrip
  refine .ite _ h (h.control ?_)
  split
  · obtain ⟨_, mode, _⟩ := lineSensed_keeps s.tripLevel { s.control with tripSensed := s.tripLevel }
    exact mode
  · rfl

theorem heater_withActivity (h : s.tracker.queue = []) (l : List Activity) : (withActivity l s).heater = s.heater := by
  unfold withActivity
  dsimp only
  rw [marks_nil (s := { s with groups := { s.groups with activity := l } }) h]

/-- No nozzle, no pump, no forced demand and no mark follows the condition: only STATUS. -/
theorem heater_recondition (h : Cleared n own s) : (recondition s).heater = s.heater := by
  have sensed := h.tripSensed
  refine Eq.trans ?_ (heater_senseTrip s)
  unfold recondition
  dsimp only
  split
  · rw [sensed.sprayUpdate, sensed.potUpdate]
  · have changed := sensed.control (c := { (senseTrip s).control with condition := (senseTrip s).derivedCondition }) rfl
    unfold setCondition
    rw [changed.sprayUpdate, changed.forcedFalls, changed.potUpdate, changed.conditionMarks, heater_queueStatus]

theorem heater_returnQuiet (h : Cleared n own s) {i : Nat} (hi : 16 ≤ i) : (returnQuiet i s).heater = s.heater := by
  have quiet := h.updateRecord hi (fun r => { r with state := .quiet, matchCount := 0 })
  have inactive := quiet.withActivity (l := s.groups.activity.filter (fun a => !(a.raiser == s.dir.own && a.index == i)))
    (fun a ha => h.activity a (List.mem_filter.1 ha).1)
  exact (heater_recondition (inactive.clearAnnounced hi)).trans ((clearAnnounced_rest i _).2.trans
    (heater_withActivity quiet.boards _))

theorem heater_releaseRecord (h : Cleared n own s) {i : Nat} (hi : 16 ≤ i) : (releaseRecord i s).heater = s.heater := by
  unfold releaseRecord
  split
  · split
    · rfl
    · exact heater_returnQuiet h hi
  · exact heater_returnQuiet h hi
  all_goals rfl

theorem heater_releaseHeld (h : Cleared n own s) {i : Nat} (hi : 16 ≤ i) : (releaseHeld i s).heater = s.heater := by
  unfold releaseHeld
  split
  · exact heater_releaseRecord (h.updateCause i _) hi
  · rfl

theorem heater_sensePermit (h : Cleared n own s) : (sensePermit s).heater = s.heater := by
  have sensed := h.control (c := { s.control with permitSensed := s.permitLevel }) rfl
  unfold sensePermit
  dsimp only
  split
  · rfl
  · split
    · rfl
    · exact heater_releaseHeld (sensed.withStall _) (by decide)

/-- With no record held nothing is late, and no block follows. -/
theorem heater_settle (h : Cleared n own s) : (settle s).heater = s.heater := by
  have handed : handLate s = releaseHeld 16 s := handLate_released fun b hb => by rw [h.boards] at hb; cases hb
  have released : Cleared n own (releaseHeld 16 s) := h.releaseHeld (by decide)
  unfold settle
  rw [handed, released.sprayUpdate, released.potUpdate, heater_sensePermit released.sensePermit, heater_sensePermit released,
    heater_releaseHeld h (by decide)]

/-- A request that does not stand may be set, which no duct follows yet. -/
theorem heater_testRequest (h : s.extraction.request = false) : (testRequest s).heater = s.heater := by
  unfold testRequest
  rw [h]
  split <;> rfl

/-- Of an UNSEATED share unit only the count of shortfall periods is worked out: it begins anew (R84, R85, log entry 39). -/
theorem shareHandOver_unseated (h : Cleared n own s) (reset : s.shares = .reset) :
    (shareHandOver s).heater = s.heater ∧ (shareHandOver s).extraction = s.extraction ∧
    (shareHandOver s).shares = { Shares.reset with shortPeriods := if s.heater.shortfall = 0 then 0 else 1 } := by
  have unseated : s.seated = false := by
    unfold State.seated
    rw [reset]
    rfl
  have need : queueNeed s = s := by
    unfold queueNeed
    simp [unseated]
  unfold shareHandOver
  rw [need, queueReturn_none (by rw [reset]; rfl)]
  by_cases met : s.heater.shortfall = 0
  · rw [budgetShort_met met, if_pos met]
    have released := (follows_releaseHeld 28 { s with shares := { s.shares with shortPeriods := 0 } }).toMoves
    refine ⟨heater_releaseHeld (h.shares _) (by decide), released.read (fun x => x.extraction) (fun _ => rfl), ?_⟩
    rw [released.shares, reset]
  · rw [budgetShort_short rfl (Nat.pos_of_ne_zero met), if_neg met, reset]
    exact ⟨rfl, rfl, rfl⟩

/-- The first period start of a RESTART: the heater unit's work stands, and a shortfall of that period counts as the first (log entry
39). -/
theorem newPeriod_unseated (h : Cleared n own s) (shares : s.shares = .reset) (extraction : s.extraction = .reset) :
    s.newPeriod.heater = (heaterPeriod s).heater ∧
    s.newPeriod.shares = { Shares.reset with shortPeriods := if (heaterPeriod s).heater.shortfall = 0 then 0 else 1 } := by
  have worked : Cleared n own (periodWork s) := h.periodWork (by rw [shares]; rfl)
  obtain ⟨heater, monitor, counted⟩ := shareHandOver_unseated h.heaterPeriod shares
  have off : (shareHandOver (heaterPeriod s)).extraction.request = false := by
    rw [monitor]
    exact congrArg Extraction.request extraction
  constructor
  · exact (heater_settle worked).trans ((heater_testRequest off).trans heater)
  · refine Eq.trans ?_ counted
    exact (follows_settle _).toMoves.shares.trans (congrArg (fun x => x.shares) (testRequest_steady _))

end

/-! ## The whole of a RESTART (R25, R27, R50, R66, R85, R101, R123, R130, R140, R152, R155, R172, R183) -/

/-- The state of a RESTART before its new period start: the reset values, the own JOIN, the neighbour, the causes still raised and
the condition. -/
def State.restarted (s : State) : State :=
  recondition (takeCauses (updateNeighbour [] (queueJoin (restartBlocks s))))

theorem restartStation_newPeriod (s : State) : restartStation s = s.restarted.newPeriod := rfl

theorem cleared_restarted (s : State) :
    Cleared ((s.dir.incarnation.map (fun n => (n + 1) % 256)).getD 0) s.dir.own s.restarted :=
  (cleared_restartBlocks s).updateNeighbour.takeCauses.recondition

/-- The steady part without the neighbour and the three units of a period start. -/
def State.besidePeriod (s : State) : State :=
  { s.steady with
    tracker := { s.steady.tracker with neighbour := none }
    heater := .reset, shares := .reset, extraction := .reset }

/-- What that part shows is the same after. -/
theorem besidePeriod_read {s t : State} (h : t.besidePeriod = s.besidePeriod) {α : Type} (g : State → α)
    (hg : ∀ x : State, g x.besidePeriod = g x) : g t = g s := by
  rw [← hg t, h, hg s]

theorem Moves.besidePeriod {s t : State} (h : Moves s t) : t.besidePeriod = s.besidePeriod := by
  unfold State.besidePeriod
  rw [h.steady]

/-- With no record held, a change of the neighbour withdraws the waiting HANDs and brings no mark and no handover. -/
theorem besidePeriod_updateNeighbour {s : State} (h : s.tracker.queue = []) (gone : List Nat) :
    (updateNeighbour gone s).besidePeriod = s.besidePeriod := by
  by_cases same : s.findNeighbour = s.tracker.neighbour
  · rw [updateNeighbour_same gone same]
  · obtain ⟨absent, _, changed⟩ := updateNeighbour_changed gone same
    have taken : withNeighbour s.findNeighbour s = withdrawFrames (TxFrame.isKind 8) { s with tracker := { s.tracker with
        neighbour := s.findNeighbour } } := by
      unfold withNeighbour
      simp only [h, List.map_nil]
    have empty : (withNeighbour s.findNeighbour s).tracker.queue = [] := by rw [taken]; exact h
    have unhanded : handoverAll (withNeighbour s.findNeighbour s) = withNeighbour s.findNeighbour s := by
      unfold handoverAll State.boardIds
      rw [empty]
      rfl
    rw [changed, markBoards_nil empty, ite_self, unhanded, taken]
    rfl

theorem moves_restarted (s : State) : Moves (updateNeighbour [] (queueJoin (restartBlocks s))) s.restarted :=
  (follows_takeCauses _).toMoves.trans (moves_recondition _)

theorem besidePeriod_restarted (s : State) : s.restarted.besidePeriod = (restartBlocks s).besidePeriod := by
  rw [(moves_restarted s).besidePeriod, besidePeriod_updateNeighbour (cleared_restartBlocks s).boards]
  unfold State.besidePeriod
  rw [steady_queueJoin]

theorem besidePeriod_newPeriod (s : State) : s.newPeriod.besidePeriod = s.besidePeriod := by
  obtain ⟨_, _, _, _, _, _, _, rest⟩ := newPeriod_parts s
  generalize s.newPeriod = t at rest
  exact congrArg (fun x : State => { x with
    tracker := { x.tracker with neighbour := none }, heater := .reset, shares := .reset, extraction := .reset }) rest

/-- What a period start and a change of the neighbour do not reach is as the reset values leave it. -/
theorem besidePeriod_restartStation (s : State) : (restartStation s).besidePeriod = (restartBlocks s).besidePeriod :=
  (besidePeriod_newPeriod s.restarted).trans (besidePeriod_restarted s)

theorem extraction_restarted (s : State) : s.restarted.extraction = .reset := by
  have after := (moves_restarted s).read (fun x => x.extraction) (fun _ => rfl)
  have neighbour := congrArg State.extraction (far_updateNeighbour [] (queueJoin (restartBlocks s)))
  exact after.trans neighbour

/-- The heater unit and the share unit after the new period start: an UNSEATED unit without shares, loans or a need, whose count of
shortfall periods begins with that period (log entry 39). -/
theorem restartStation_period (s : State) :
    (restartStation s).heater.slot = 0 ∧ (restartStation s).heater.periodTimer = .running (s.cfg.heaterPeriod * 100) ∧
    (restartStation s).shares = { Shares.reset with shortPeriods := if (restartStation s).heater.shortfall = 0 then 0 else 1 } := by
  obtain ⟨slot, timer, _⟩ := newPeriod_parts s.restarted
  obtain ⟨heater, shares⟩ := newPeriod_unseated (cleared_restarted s) (shares_restart s) (extraction_restarted s)
  have cfg : s.restarted.cfg = s.cfg := besidePeriod_read (besidePeriod_restarted s) State.cfg (fun _ => rfl)
  rw [cfg] at timer
  rw [← heater] at shares
  rw [restartStation_newPeriod]
  exact ⟨slot, timer, shares⟩

/-- A RESTART that follows another's commit keeps the first-out records where no TRIP alarm enters (R123, R148). -/
theorem firstOut_restart {src : Nat} {s : State} (derived : s.Derived) (level : (s.cause 23).raised = false)
    (condition : (commitFrame false src s).control.condition ≠ .tripped) :
    (restartStation (commitFrame false src s)).alarms.firstOut = s.alarms.firstOut ∧
    (restartStation (commitFrame false src s)).control.lineState = s.control.lineState ∧
    (restartStation (commitFrame false src s)).control.lineValue = s.control.lineValue := by
  obtain ⟨sensed, firstOut, line⟩ := firstOut_commitFrame_heard derived condition
  have lowered : ((commitFrame false src s).cause 23).raised = false := by
    rw [(leaves_commitFrame_heard src s).cause 23 (by decide) (by unfold contactIndex; omega)]
    exact level
  obtain ⟨_, _, firstOutAfter, lineAfter⟩ := untripped_restartStation sensed lowered
  obtain ⟨lineState, lineValue⟩ := Prod.mk.inj (lineAfter.trans line)
  exact ⟨firstOutAfter.trans firstOut, lineState, lineValue⟩

/-- What neither the commit of another's frame nor a RESTART touches: the configuration, the station state, the counters of the board
tracker and the flow meter, and the measurement table (log entry 40). -/
def State.kept (s : State) : Loader × StationState × BitVec 32 × Nat × Nat × Half × List Quantity :=
  (s.loader, s.control.station, s.tracker.count, s.tracker.nextId, s.tracker.unreported, s.spray.flowCount, s.alarms.table)

theorem kept_restartBlocks (s : State) : (restartBlocks s).kept = s.kept := rfl

theorem kept_restart (src : Nat) (s : State) : (restartStation (commitFrame false src s)).kept = s.kept := by
  rw [besidePeriod_read (besidePeriod_restartStation _) State.kept (fun _ => rfl), kept_restartBlocks]
  exact commitFrame_read false src s State.kept (fun _ => rfl)

/-- The directory with the raised incarnation, the fixed watch entries and the counters of the bus. -/
theorem restart_directory (src : Nat) {s t : State} (e : t = restartStation (commitFrame false src s)) :
    t.dir.own = s.dir.own ∧ t.dir.incarnation = s.dir.incarnation.map (fun n => (n + 1) % 256) ∧
    t.dir.entries = (commitFrame false src s).dir.entries ∧ t.alarms.entries = s.alarms.entries.map keepFixed ∧
    t.bus.failed = s.bus.failed ∧ t.bus.stuckCount = s.bus.stuckCount := by
  have blocks : t.besidePeriod = (restartBlocks (commitFrame false src s)).besidePeriod :=
    e ▸ besidePeriod_restartStation (commitFrame false src s)
  obtain ⟨failed, stuck⟩ := busCounts_commitFrame_heard src s
  rw [← commitFrame_own false src s, ← incarnation_commitFrame_heard src s, ← entries_commitFrame false src s, ← failed, ← stuck]
  exact ⟨besidePeriod_read blocks (fun x => x.dir.own) (fun _ => rfl),
    besidePeriod_read blocks (fun x => x.dir.incarnation) (fun _ => rfl),
    besidePeriod_read blocks (fun x => x.dir.entries) (fun _ => rfl),
    besidePeriod_read blocks (fun x => x.alarms.entries) (fun _ => rfl),
    besidePeriod_read blocks (fun x => x.bus.failed) (fun _ => rfl),
    besidePeriod_read blocks (fun x => x.bus.stuckCount) (fun _ => rfl)⟩

/-- What a RESTART clears outside the units of a period start, and no alarm, frame or nozzle reaches afterwards. -/
theorem restartStation_clears (s : State) :
    (restartStation s).control.service = 0 ∧ (restartStation s).tracker.admissions = [] ∧
    (restartStation s).tracker.underEye = none ∧ (restartStation s).recipes = .reset ∧
    (restartStation s).pot.established = false ∧ (restartStation s).groups.orphans = [] ∧
    (restartStation s).bus.onWire = none := by
  have blocks := besidePeriod_restartStation s
  generalize restartStation s = t at blocks ⊢
  exact ⟨besidePeriod_read blocks (fun x => x.control.service) (fun _ => rfl),
    besidePeriod_read blocks (fun x => x.tracker.admissions) (fun _ => rfl),
    besidePeriod_read blocks (fun x => x.tracker.underEye) (fun _ => rfl),
    besidePeriod_read blocks (fun x => x.recipes) (fun _ => rfl),
    besidePeriod_read blocks (fun x => x.pot.established) (fun _ => rfl),
    besidePeriod_read blocks (fun x => x.groups.orphans) (fun _ => rfl),
    besidePeriod_read blocks (fun x => x.bus.onWire) (fun _ => rfl)⟩

theorem execRestart_notTaken {src dst : Station} {s : State} {start : BitVec 32} (h : s.Hears start)
    (n : s.bus.answer.ack = false ∨ dst.toNat ≠ s.dir.own ∨ (s.afterCommit false src.toNat).restartable = false) :
    exec (.restart src dst) s = .next (s.afterCommit false src.toNat) := by
  show execRestart src dst s = _
  unfold execRestart panelFrame
  rw [committed_heard h]
  refine dropped_if_not restartStation s src.toNat ?_
  rw [Bool.and_eq_false_iff]
  rcases n with silent | elsewhere | prevented
  · exact .inl (not_forMe (.inl silent))
  · exact .inl (not_forMe (.inr elsewhere))
  · exact .inr prevented

/-- Settles O49: the RESTART taken with what it keeps and clears, not taken, and the whole state after with its words. -/
theorem restartIsTaken : Obligations.RestartIsTaken := by
  refine ⟨fun src dst s start h a possible => ⟨_, execRestart_taken h a possible, rfl, ?_⟩,
    fun _ _ _ _ h n => execRestart_notTaken h n, fun _ _ => restartStation_eq, queueJoin_eq, takeCause_eq, keepFixed_eq,
    restartable_iff⟩
  have kept := kept_restart src.toNat s
  simp only [State.kept, Prod.mk.injEq] at kept
  obtain ⟨loader, station, count, nextId, unreported, flowCount, table⟩ := kept
  obtain ⟨own, incarnation, entries, watches, failed, stuck⟩ := restart_directory src.toNat (s := s) rfl
  obtain ⟨service, admissions, underEye, recipes, established, orphans, wire⟩ :=
    restartStation_clears (commitFrame false src.toNat s)
  obtain ⟨slot, timer, shares⟩ := restartStation_period (commitFrame false src.toNat s)
  obtain ⟨boards, frames, _, owed, mode, shots, counting, main, chip, feeder, quiet, activity⟩ :=
    cleared_restartStation (commitFrame false src.toNat s)
  have firstOut (derived : s.Derived) (level : (s.cause 23).raised = false) :=
    firstOut_restart (src := src.toNat) derived level ((restartable_iff _).1 possible).2
  rw [cfg_commitFrame] at timer
  rw [incarnation_commitFrame_heard, ← incarnation] at frames
  rw [commitFrame_own] at activity
  generalize restartStation (commitFrame false src.toNat s) = t at *
  have short : t.shares.shortPeriods = if t.heater.shortfall = 0 then 0 else 1 := congrArg (fun x => x.shortPeriods) shares
  exact ⟨loader, station, mode, service, own, incarnation, entries, boards, admissions, underEye, count, nextId, unreported,
    recipes, flowCount, congrArg Shares.state shares, congrArg Shares.held shares, congrArg Shares.lent shares,
    congrArg Shares.borrowed shares, established, table, watches, orphans, failed, stuck, frames, wire, rfl, owed, shots,
    counting, main, chip, feeder, congrArg Shares.needAmount shares, congrArg Shares.needTimer shares, short, slot, timer,
    quiet, activity, firstOut⟩

end Sys2Proof.Machine
end

section
/-! PROOFS. The line bus below the commits: the transmit queue's bound that every step keeps (O54), commits of frames not seen from
their start (O5), BUS_IDLE, FRAME_START and LOST_ARBITRATION (O36), and CONTACT_TIMER_EXPIRY (O33). -/

namespace Sys2Proof.Machine

open Sys2Proof

/-! ## The transmit queue's places (R164, R165) -/

/-- Settles O54: what every step keeps, read for the places of the transmit queue; the rest of the command queue takes none. -/
theorem theTransmitQueueNeverOverflows : Obligations.TheTransmitQueueNeverOverflows := by
  intro s t fits h
  obtain ⟨_, k⟩ := lasts_step h
  exact k.places fits

/-! ## Commits of a frame not seen from its start (R158, R163) -/

theorem committed_unseen {s : State} (unseen : s.bus.frameStart = none) {kind src dst : Nat} {payload : List Byte}
    {effect : Commit → State → State} : committed kind src dst payload effect s = .next s := by
  unfold committed
  rw [unseen]

theorem panelFrame_unseen {s : State} (unseen : s.bus.frameStart = none) {kind dst : Nat} {src : Station}
    {effect : Commit → State → State} : panelFrame kind src dst effect s = .next s :=
  committed_unseen unseen

theorem answerQuery_unseen {s : State} (unseen : s.bus.frameStart = none) {code : Nat} {src dst : Station} {item : Byte} :
    answerQuery code src dst item s = .next s :=
  committed_unseen unseen

theorem noteDelivered_unseen {s : State} (unseen : s.bus.frameStart = none) (src : Nat) (f : AlarmFields) :
    noteDelivered src f s = s := by
  unfold noteDelivered
  rw [unseen]
  rfl

theorem execAlarm_unseen {s : State} (unseen : s.bus.frameStart = none) (src : Station) (f : AlarmFields) :
    exec (.alarm src f) s = .next s := by
  show execAlarm src f s = _
  unfold execAlarm
  rw [noteDelivered_unseen unseen, committed_unseen unseen]

/-- Settles O5: every commit but ALARM's is one `committed`; ALARM's notes the delivery before it, of a frame that was seen alone. -/
theorem framesNotSeenFromTheirStartDoNothing : Obligations.FramesNotSeenFromTheirStartDoNothing := by
  intro c s commit unseen
  cases c with
  | alarm src fields => exact execAlarm_unseen unseen src fields
  | hand | amendMark | amendLength | amendPosition | need | lend | returnShares | recallShares | clear | claim | join | status
  | done | report | noKindFrame =>
    unfold exec
    exact committed_unseen unseen
  | recipe | drop | admitBoards | acknowledge | watchInstall | watchEmpty | release | mode | signalWrite | signalSet | signalClear
  | signalInvert | restart =>
    unfold exec
    exact panelFrame_unseen unseen
  | queryStation | queryDirectory | queryBoards | queryBoard | queryRecipe | queryWatch | queryAlarms | queryFirstout
  | queryLoans | queryGroup =>
    unfold exec
    exact answerQuery_unseen unseen
  | _ => cases commit

/-! ## BUS_IDLE, FRAME_START, LOST_ARBITRATION (R158, R160, R170) -/

theorem execBusIdle_eq (s : State) : exec .busIdle s =
    .next (if s.receives then { s with bus := { s.bus with stuck := false, footing := true } } else s) := by
  show execBusIdle s = _
  unfold execBusIdle
  split <;> rfl

theorem execFrameStart_taken {s : State} (receives : s.receives = true) (footing : s.bus.footing = true)
    (free : s.bus.onWire = none) : exec .frameStart s = .next { s with bus := { s.bus with
      frameStart := some s.tracker.count, answer := ⟨false, false, false⟩, reservation := none } } :=
  if_pos (by rw [receives, footing, free]; rfl)

theorem execFrameStart_none {s : State}
    (h : s.receives = false ∨ s.bus.footing = false ∨ s.bus.onWire.isSome = true) : exec .frameStart s = .next s := by
  refine if_neg fun taken => ?_
  simp only [Bool.and_eq_true, Option.isNone_iff_eq_none] at taken
  obtain ⟨⟨receives, footing⟩, free⟩ := taken
  rw [receives, footing, free] at h
  simp at h

theorem execLostArbitration_own {s : State} (h : s.bus.onWire.isSome = true) : exec .lostArbitration s = .next { s with bus :=
    { s.bus with
      onWire := none
      queue := s.bus.queue.map (fun f => if f.phase = .onBus then { f with phase := .waiting } else f) } } :=
  if_pos h

theorem execLostArbitration_none {s : State} (h : s.bus.onWire = none) : exec .lostArbitration s = .next s :=
  if_neg (by rw [h]; exact Bool.false_ne_true)

/-- Settles O36: each command as an event and as none, then when a station receives. -/
theorem busIdleFrameStartAndLostArbitration : Obligations.BusIdleFrameStartAndLostArbitration :=
  ⟨execBusIdle_eq, fun _ => execFrameStart_taken, fun _ => execFrameStart_none, fun _ => execLostArbitration_own,
    fun _ => execLostArbitration_none, receives_iff⟩

/-! ## CONTACT_TIMER_EXPIRY (R70, R83, R171) -/

/-- The share unit after the entry to isolation (R83, R70). -/
def State.detachedShares (s : State) : Shares :=
  if s.shares.state = .seated then { s.shares with
    state := .detached, borrowed := [], held := s.shares.held - loanSum s.shares.borrowed
    needAmount := 0, needTimer := .stopped }
  else if s.shares.state = .detached then { s.shares with needAmount := 0, needTimer := .stopped }
  else s.shares

/-- The entry to isolation changes the share unit, the heater unit that follows its H, and which frames wait. -/
theorem detach_eq (s : State) :
    ∃ x q, detach s = { s with shares := s.detachedShares, heater := x, bus := { s.bus with queue := q } } := by
  unfold State.detachedShares
  cases h : s.shares.state with
  | seated =>
    obtain ⟨x, e⟩ := setHeld_heater (s.shares.held - loanSum s.shares.borrowed) { s with shares := { s.shares with
      state := .detached, borrowed := [], needAmount := 0, needTimer := .stopped } }
    rw [detach_seated h rfl, e]
    exact ⟨x, _, rfl⟩
  | detached =>
    have e : detach s = endNeed s := by unfold detach; rw [h]
    rw [e]
    exact ⟨s.heater, s.bus.queue, by simp [endNeed]⟩
  | unseated =>
    have e : detach s = s := by unfold detach; rw [h]
    rw [e]
    exact ⟨s.heater, s.bus.queue, rfl⟩

theorem expireContact_contact (c : ContactId) (s : State) : (expireContact c s).contact c = .expired := by
  cases c <;> rfl

theorem isolated_of_expired {s : State} {c : ContactId} (joined : s.joined = true) (expired : s.contact c = .expired) :
    s.isolated = true := by
  refine (isolated_iff s).2 ⟨joined, ?_⟩
  cases c with
  | own => exact .inl expired
  | peer => exact .inr expired

/-- Nothing outside the bus changes when a contact timer runs out. -/
theorem expireContact_rest (c : ContactId) (s : State) : (expireContact c s).joined = s.joined ∧
    (expireContact c s).detachedShares = s.detachedShares ∧
    ∀ x y, { expireContact c s with shares := x, heater := y }.still = { s with shares := x, heater := y }.still := by
  cases c <;> exact ⟨rfl, rfl, fun _ _ => rfl⟩

theorem execContactTimerExpiry_running {c : ContactId} {s : State} (joined : s.joined = true)
    (running : (s.contact c).isRunning = true) : exec (.contactTimerExpiry c) s =
      if s.isolated then .next (expireContact c s) else .next (settle (raiseHeld 27 0 (detach (expireContact c s)))) :=
  if_pos (by rw [joined, running]; rfl)

theorem execContactTimerExpiry_none {c : ContactId} {s : State} (h : s.joined = false ∨ (s.contact c).isRunning = false) :
    exec (.contactTimerExpiry c) s = .next s :=
  if_neg (by rcases h with h | h <;> simp [h])

/-- The entry to isolation and what may follow an alarm: the timer stays expired, and the share unit, with the heater unit after it,
is all that changes besides. -/
theorem isolation_parts {c : ContactId} {s t : State} (joined : s.joined = true)
    (follows : Moves (detach (expireContact c s)) t) : t.contact c = .expired ∧ t.isolated = true ∧
      t.shares = s.detachedShares ∧ t.still = { s with shares := t.shares, heater := t.heater }.still := by
  obtain ⟨x, q, detached⟩ := detach_eq (expireContact c s)
  obtain ⟨stays, shares, still⟩ := expireContact_rest c s
  rw [detached] at follows
  have expired : t.contact c = .expired := by
    rw [follows.read (fun x => x.contact c) (fun _ => by cases c <;> rfl), ← expireContact_contact c s]
    cases c <;> rfl
  have joinedAfter : t.joined = true := follows.joined.trans (stays.trans joined)
  exact ⟨expired, isolated_of_expired joinedAfter expired, follows.shares.trans shares,
    still_followed follows.still (still _ _)⟩

/-- Settles O33: in isolation the timer alone, else the entry to isolation, then the expiry that is no event, and the words. -/
theorem contactTimerExpiryIsolates : Obligations.ContactTimerExpiryIsolates := by
  refine ⟨fun c s joined running isolated => ?_, fun c s joined running free => ⟨_, ?_, rfl, ?_⟩,
    fun c s => execContactTimerExpiry_none, fun s u seated => detach_seated seated, expireContact_eq⟩
  · rw [execContactTimerExpiry_running joined running, if_pos isolated]
  · rw [execContactTimerExpiry_running joined running, if_neg (by rw [free]; exact Bool.false_ne_true)]
  · exact isolation_parts joined ((follows_raiseHeld 27 0 _).trans (follows_settle _)).toMoves

end Sys2Proof.Machine
end

section
/-! PROOFS. START_OF_TRANSMISSION: which frame is the first eligible one, what each kind builds, and the search (O37). -/

namespace Sys2Proof.Machine

open Sys2Proof

/-! ## The first eligible frame (R156, R166) -/

theorem mayTransmit_iff (s : State) (f : TxFrame) :
    s.mayTransmit f = true ↔ s.joined = true ∨ (s.control.station = .claiming ∧ f.body.kind = 1) := by
  unfold State.mayTransmit TxFrame.isKind
  simp only [Bool.or_eq_true, Bool.and_eq_true, beq_iff_eq]

/-- The frame waits, out of backoff, and the station may transmit it. -/
def State.eligible (s : State) (f : TxFrame) : Prop := f.phase = .waiting ∧ s.mayTransmit f = true

/-- The place of the first eligible frame of one class, in the order of admission. -/
def State.eligibleOf (s : State) (cls : Nat) : Option Nat :=
  s.bus.queue.findIdx? (fun f => f.cls == cls && f.phase == .waiting && s.mayTransmit f)

theorem firstEligible_classes (s : State) : s.firstEligible = [3, 2, 1, 0].findSome? s.eligibleOf := rfl

theorem eligibleTest_iff (s : State) (cls : Nat) (f : TxFrame) :
    (f.cls == cls && f.phase == .waiting && s.mayTransmit f) = true ↔ f.cls = cls ∧ s.eligible f := by
  unfold State.eligible
  simp only [Bool.and_eq_true, beq_iff_eq, and_assoc]

theorem eligibleOf_none (s : State) (cls : Nat) :
    s.eligibleOf cls = none ↔ ∀ g ∈ s.bus.queue, ¬(g.cls = cls ∧ s.eligible g) := by
  unfold State.eligibleOf
  simp only [List.findIdx?_eq_none_iff, Bool.eq_false_iff, ne_eq, eligibleTest_iff]

theorem eligibleOf_some {s : State} {cls i : Nat} (h : s.eligibleOf cls = some i) :
    (∃ f, s.bus.queue[i]? = some f ∧ f.cls = cls ∧ s.eligible f) ∧
    ∀ (j : Nat) (g : TxFrame), s.bus.queue[j]? = some g → g.cls = cls → s.eligible g → i ≤ j := by
  obtain ⟨inside, here, before⟩ := List.findIdx?_eq_some_iff_getElem.1 h
  refine ⟨⟨_, List.getElem?_eq_getElem inside, (eligibleTest_iff s cls _).1 here⟩, fun j g at_j same eligible => ?_⟩
  refine Nat.le_of_not_lt fun earlier => ?_
  obtain ⟨_, rfl⟩ := List.getElem?_eq_some_iff.1 at_j
  exact before j earlier ((eligibleTest_iff s cls _).2 ⟨same, eligible⟩)

theorem mem_classes {cls : Nat} : cls ∈ [3, 2, 1, 0] ↔ cls ≤ 3 := by
  simp only [List.mem_cons, List.not_mem_nil, or_false]
  omega

theorem firstEligible_none (s : State) :
    s.firstEligible = none ↔ ∀ g ∈ s.bus.queue, ¬(g.cls ≤ 3 ∧ s.eligible g) := by
  simp only [firstEligible_classes, List.findSome?_eq_none_iff, mem_classes, eligibleOf_none]
  constructor
  · rintro h g queued ⟨cls, eligible⟩
    exact h g.cls cls g queued ⟨rfl, eligible⟩
  · rintro h _ cls g queued ⟨rfl, eligible⟩
    exact h g queued ⟨cls, eligible⟩

/-- R166: of the eligible frames the one of the highest class, and of that class the first admitted. -/
theorem firstEligible_some {s : State} {i : Nat} (h : s.firstEligible = some i) :
    ∃ f, s.bus.queue[i]? = some f ∧ f.cls ≤ 3 ∧ s.eligible f ∧
      ∀ (j : Nat) (g : TxFrame), s.bus.queue[j]? = some g → g.cls ≤ 3 → s.eligible g →
        g.cls < f.cls ∨ (g.cls = f.cls ∧ i ≤ j) := by
  obtain ⟨higher, cls, lower, classes, found, noHigher⟩ := List.findSome?_eq_some_iff.1 h
  obtain ⟨⟨f, at_i, rfl, eligible⟩, first⟩ := eligibleOf_some found
  refine ⟨f, at_i, mem_classes.1 (by rw [classes]; simp), eligible, fun j g at_j le_three eligible' => ?_⟩
  have descending : (higher ++ f.cls :: lower).Pairwise (fun a b => b < a) := classes ▸ by decide
  have place : g.cls ∈ higher ++ f.cls :: lower := classes ▸ mem_classes.2 le_three
  rcases List.mem_append.1 place with above | rest
  · exact absurd ⟨rfl, eligible'⟩ ((eligibleOf_none s g.cls).1 (noHigher _ above) g (List.mem_of_getElem? at_j))
  · rcases List.mem_cons.1 rest with same | below
    · exact .inr ⟨same, first j g at_j same eligible'⟩
    · exact .inl ((List.pairwise_cons.1 (List.pairwise_append.1 descending).2.1).1 _ below)

/-! ## What each kind builds (R167) -/

theorem payload_status {s : State} {f : TxFrame} (h : f.body = .status) : s.payload f = some
    (byte1 (rolesByte s.cfg.roles) ++ byte1 s.control.mode.code ++ byte1 s.control.condition.code ++ byte1 s.alarmLevel
      ++ byte3 s.cfg.winStart ++ byte3 s.cfg.winEnd ++ byte2 s.shares.held ++ byte2 s.cfg.base
      ++ byte1 s.tracker.queue.length ++ byte1 (s.dir.incarnation.getD 0)) := by
  unfold State.payload State.statusPayload windowBytes
  simp only [h, List.append_assoc]

theorem payload_need {s : State} {f : TxFrame} {v : Int}
    (hv : v = min (min (s.heater.shortfall : Int) 255) ((s.cfg.cap : Int) - s.shares.held)) (h : f.body = .need) :
    s.payload f = if s.shares.state = .seated ∧ s.shares.needTimer.isRunning = false ∧ 1 ≤ v then some (byte2 v.toNat)
      else none := by
  subst hv
  unfold State.payload amountBytes State.seated State.needOutstanding State.needAmount
  simp only [h, nested_if, Bool.and_eq_true, Bool.not_eq_true', beq_iff_eq, and_assoc]

theorem payload_lend {s : State} {f : TxFrame} {requested : Nat} {v : Int} (h : f.body = .lend requested)
    (hv : v = min ((s.shares.held : Int) - s.heater.cost - s.cfg.lendMargin) ((s.cfg.base : Int) - loanSum s.shares.lent)) :
    s.payload f = if s.shares.state = .seated ∧ s.shares.needTimer.isRunning = false ∧ (s.entry f.dst).isSome = true ∧
        (hasLoan f.dst s.shares.lent = true ∨ s.shares.lent.length < 8) ∧ 1 ≤ v ∧ 1 ≤ requested then
      some (byte2 (min v requested).toNat) else none := by
  have lendable : s.lendable = v := hv.symm
  unfold State.payload amountBytes
  simp only [h, nested_if, lendsTo_iff, lendable, ← hv, and_assoc]
  have both : 1 ≤ v ∧ 1 ≤ min v requested ↔ 1 ≤ v ∧ 1 ≤ requested := by omega
  simp only [both]

theorem payload_return {s : State} {f : TxFrame} {v : Int} (h : f.body = .returnShares)
    (hv : v = min ((s.shares.held : Int) - s.heater.cost - s.cfg.lendMargin) (loanOf f.dst s.shares.borrowed)) :
    s.payload f = if s.shares.state = .seated ∧ hasLoan f.dst s.shares.borrowed = true ∧ 1 ≤ v then some (byte2 v.toNat)
      else none := by
  subst hv
  unfold State.payload amountBytes State.seated State.excess
  simp only [h, nested_if, Bool.and_eq_true, beq_iff_eq, and_assoc]

/-- A RECALL asks for a natural number of shares, where the other amounts may come to less than 0. -/
theorem payload_recall {s : State} {f : TxFrame} (h : f.body = .recallShares) : s.payload f =
    if s.shares.state = .seated ∧ hasLoan f.dst s.shares.lent = true ∧
        1 ≤ min s.heater.shortfall (loanOf f.dst s.shares.lent) then
      some (byte2 (min s.heater.shortfall (loanOf f.dst s.shares.lent))) else none := by
  have natural : min (s.heater.shortfall : Int) (loanOf f.dst s.shares.lent) =
      (min s.heater.shortfall (loanOf f.dst s.shares.lent) : Nat) := by omega
  have positive : (1 : Int) ≤ (min s.heater.shortfall (loanOf f.dst s.shares.lent) : Nat) ↔
      1 ≤ min s.heater.shortfall (loanOf f.dst s.shares.lent) := by omega
  unfold State.payload amountBytes State.seated
  simp only [h, natural, positive, nested_if, Bool.and_eq_true, beq_iff_eq, and_assoc, Int.toNat_natCast]

theorem payload_hand {s : State} {f : TxFrame} {board : Nat} (h : f.body = .hand board) :
    s.payload f = (s.board board).map (fun b => lineBytes b.line (s.pos b)) := by
  unfold State.payload
  rw [h]

theorem payload_amendPosition {s : State} {f : TxFrame} {board : Nat} (h : f.body = .amendPosition board) :
    s.payload f = (s.board board).map (fun b => byte2 board ++ [3] ++ byte3 (s.pos b)) := by
  unfold State.payload
  rw [h]
  rfl

/-- The kinds that no state withdraws: their payload is built from the operands they were queued with and the station's own data. -/
theorem payload_fixed (s : State) (f : TxFrame) :
    (f.body = .claim → s.payload f = some (byte6 s.uid.toNat ++ byte1 s.cfg.preferred ++
      (byte1 (rolesByte s.cfg.roles) ++ (byte3 s.cfg.winStart ++ byte3 s.cfg.winEnd)))) ∧
    (∀ incarnation, f.body = .join incarnation → s.payload f = some (byte6 s.uid.toNat ++ byte1 incarnation ++
      (byte1 (rolesByte s.cfg.roles) ++ (byte3 s.cfg.winStart ++ byte3 s.cfg.winEnd)))) ∧
    (∀ board station code, f.body = .amendMark board station code →
      s.payload f = some (byte2 board ++ [1] ++ byte1 station ++ byte1 code)) ∧
    (∀ board length, f.body = .amendLength board length → s.payload f = some (byte2 board ++ [2] ++ byte2 length)) ∧
    (∀ index action group scope value mark, f.body = .alarm index action group scope value mark →
      s.payload f = some (byte1 index ++ byte1 action ++ byte1 group ++ byte4 scope.toNat ++ byteS value ++ byte1 mark)) ∧
    (∀ index group, f.body = .clear index group → s.payload f = some (byte1 index ++ byte1 group)) ∧
    (∀ line pos count, f.body = .done line pos count →
      s.payload f = some (lineBytes line (leadingEdge s.cfg.countsPerMetre pos s.tracker.count count))) ∧
    (∀ code item, f.body = .report code item →
      s.payload f = some (byte1 code ++ byte1 item ++ reportContent code item s)) := by
  unfold State.payload
  refine ⟨fun h => ?_, fun _ h => ?_, fun _ _ _ h => ?_, fun _ _ h => ?_, fun _ _ _ _ _ _ h => ?_, fun _ _ h => ?_,
    fun _ _ _ h => ?_, fun _ _ h => ?_⟩ <;> rw [h] <;> rfl

/-! ## The command (R158, R166, R167) -/

theorem execStartOfTransmission_search {s : State} (footing : s.bus.footing = true) (free : s.bus.frameStart = none) :
    exec .startOfTransmission s = .next (startFrame 16 s) :=
  if_pos (by rw [footing, free]; rfl)

theorem execStartOfTransmission_none {s : State}
    (h : s.bus.footing = false ∨ s.bus.frameStart.isSome = true ∨ s.firstEligible = none) :
    exec .startOfTransmission s = .next s := by
  show execStartOfTransmission s = _
  unfold execStartOfTransmission
  split
  case isFalse => rfl
  case isTrue search =>
    rcases h with lost | busy | nothing
    · rw [lost] at search
      cases search
    · rw [Option.isNone_iff_eq_none.1 (Bool.and_eq_true_iff.1 search).2] at busy
      cases busy
    · rw [startFrame_none 16 nothing]

/-- Settles O37: the frame that starts, the frame that is withdrawn, the command without effect, the choice, the payloads, the search
and the admission. -/
theorem startOfTransmissionBuildsTheFirstEligibleFrame : Obligations.StartOfTransmissionBuildsTheFirstEligibleFrame := by
  refine ⟨fun s i f p footing free first at_i built => ?_, fun s i f footing free first at_i failed => ?_,
    fun s => execStartOfTransmission_none, mayTransmit_iff, fun s i first => ?_, firstEligible_none, fun s f => ?_,
    fun s => ⟨rfl, fun n => ⟨startFrame_none _, fun i f => startFrame_withdrawn n, fun i f p => startFrame_started n⟩⟩, admits_iff⟩
  · rw [execStartOfTransmission_search footing free, startFrame_started 15 first at_i built]
  · rw [execStartOfTransmission_search footing free, startFrame_withdrawn 15 first at_i failed]
  · obtain ⟨f, at_i, cls, ⟨waiting, may⟩, best⟩ := firstEligible_some first
    exact ⟨f, at_i, cls, waiting, may, fun j g at_j cls' waiting' may' => best j g at_j cls' ⟨waiting', may'⟩⟩
  · obtain ⟨claim, join, amendMark, amendLength, alarm, clear, done, report⟩ := payload_fixed s f
    exact ⟨payload_status, fun v hv => payload_need hv, fun requested v => payload_lend, fun v => payload_return, payload_recall,
      fun board => payload_hand, fun board => payload_amendPosition, claim, join, amendMark, amendLength, alarm, clear, done,
      report⟩

end Sys2Proof.Machine
end

section
/-! PROOFS. The handover checks of a list of ids: what they leave, and that each due record is offered or held back (R9). The
presence event (O34). -/

namespace Sys2Proof.Machine

open Sys2Proof

/-! ## Records held back, HANDs queued (R9) -/

/-- The record, held back where its id is one of `held`. -/
def holdBackIf (held : Nat → Bool) (b : Board) : Board := { b with heldBack := b.heldBack || held b.line.id }

/-- The records of `held` are held back, and the HANDs `hands` are in the queue behind the other frames; nothing else changes. -/
def State.offered (held : Nat → Bool) (hands : List TxFrame) (s : State) : State :=
  { s with
    tracker := { s.tracker with queue := s.tracker.queue.map (holdBackIf held) }
    bus := { s.bus with queue := s.bus.queue ++ hands } }

theorem holdBackIf_none : holdBackIf (fun _ => false) = id := funext fun b => by
  unfold holdBackIf
  rw [Bool.or_false]
  rfl

theorem offered_hands (hands : List TxFrame) (s : State) :
    s.offered (fun _ => false) hands = s.withTx (s.bus.queue ++ hands) := by
  unfold State.offered
  rw [holdBackIf_none, List.map_id]
  rfl

theorem offered_none (s : State) : s.offered (fun _ => false) [] = s := by
  rw [offered_hands, List.append_nil]
  rfl

theorem offered_held (id : Nat) (s : State) :
    s.offered (· == id) [] = updateBoard id (fun b => { b with heldBack := true }) s := by
  have one : holdBackIf (· == id) = fun b => if b.line.id == id then { b with heldBack := true } else b := funext fun b => by
    show ({ b with heldBack := b.heldBack || (b.line.id == id) } : Board) = _
    cases b.line.id == id
    · rw [Bool.or_false]
      rfl
    · rw [Bool.or_true]
      rfl
  unfold State.offered
  rw [one, List.append_nil]
  rfl

theorem offered_offered (held later : Nat → Bool) (hands more : List TxFrame) (s : State) :
    (s.offered held hands).offered later more = s.offered (fun id => held id || later id) (hands ++ more) := by
  have twice : holdBackIf later ∘ holdBackIf held = holdBackIf (fun id => held id || later id) := funext fun b => by
    simp only [Function.comp, holdBackIf, Bool.or_assoc]
  unfold State.offered
  simp only [List.map_map, twice, List.append_assoc]

theorem boardIds_offered (held : Nat → Bool) (hands : List TxFrame) (s : State) : (s.offered held hands).boardIds = s.boardIds := by
  show (s.tracker.queue.map (holdBackIf held)).map _ = _
  rw [List.map_map]
  rfl

theorem board_offered (held : Nat → Bool) (hands : List TxFrame) (s : State) (id : Nat) :
    (s.offered held hands).board id = (s.board id).map (holdBackIf held) := List.find?_map ..

/-- A class refused stays refused while frames only join the queue (R165). -/
theorem not_admits_of_longer {s t : State} {c : Nat} (longer : s.bus.queue.length ≤ t.bus.queue.length)
    (reservation : t.bus.reservation = s.bus.reservation) (full : s.admits c = false) : t.admits c = false := by
  unfold State.admits State.txFree at full ⊢
  rw [decide_eq_false_iff_not] at full ⊢
  rw [reservation]
  omega

theorem not_admits_offered {s : State} {c : Nat} (held : Nat → Bool) (hands : List TxFrame) (full : s.admits c = false) :
    (s.offered held hands).admits c = false :=
  not_admits_of_longer (s := s) (List.prefix_append s.bus.queue hands).length_le rfl full

/-! ## What handover checks leave (R9) -/

/-- Each frame of the list is the HAND of a held record of `ids`, to the neighbour. -/
def State.HandsOf (ids : List Nat) (s : State) (hands : List TxFrame) : Prop :=
  ∀ f ∈ hands, ∃ dest, ∃ id ∈ ids, s.tracker.neighbour = some dest ∧ id ∈ s.boardIds ∧ f = newFrame 1 dest (.hand id)

/-- `t` is `s` after handover checks of records of `ids`: their HANDs have joined the queue, or they are held back while class 1 is
refused. -/
def HandsOver (ids : List Nat) (s t : State) : Prop :=
  ∃ held hands, t = s.offered held hands ∧ s.HandsOf ids hands ∧ ∀ id, held id = true → id ∈ ids ∧ t.admits 1 = false

theorem HandsOver.refl (ids : List Nat) (s : State) : HandsOver ids s s :=
  ⟨fun _ => false, [], (offered_none s).symm, fun _ h => absurd h List.not_mem_nil, fun _ h => Bool.noConfusion h⟩

theorem HandsOver.trans {ids : List Nat} {s t u : State} (h : HandsOver ids s t) (k : HandsOver ids t u) : HandsOver ids s u := by
  obtain ⟨held, hands, rfl, own, full⟩ := h
  obtain ⟨later, more, rfl, ownLater, fullLater⟩ := k
  refine ⟨_, _, offered_offered held later hands more s, fun f hf => ?_, fun id hid => ?_⟩
  · rcases List.mem_append.1 hf with hf | hf
    · exact own f hf
    · obtain ⟨dest, id, listed, neighbour, known, e⟩ := ownLater f hf
      exact ⟨dest, id, listed, neighbour, boardIds_offered held hands s ▸ known, e⟩
  · rcases (Bool.or_eq_true ..).mp hid with before | after
    · obtain ⟨listed, refused⟩ := full id before
      exact ⟨listed, not_admits_offered later more refused⟩
    · exact fullLater id after

/-- One check: nothing, the HAND of the record, or the record held back. -/
theorem handsOver_handoverCheck {ids : List Nat} {id : Nat} (listed : id ∈ ids) (s : State) :
    HandsOver ids s (handoverCheck id s) := by
  unfold handoverCheck
  split
  · next b dest board neighbour =>
    have known : id ∈ s.boardIds := (board_isSome_iff s id).1 (by rw [board]; rfl)
    split
    · split
      · exact ⟨_, _, (offered_hands [newFrame 1 dest (.hand id)] s).symm,
          fun f hf => ⟨dest, id, listed, neighbour, known, List.mem_singleton.1 hf⟩, fun _ h => Bool.noConfusion h⟩
      · next refused =>
        exact ⟨_, [], (offered_held id s).symm, fun _ h => absurd h List.not_mem_nil,
          fun n hn => ⟨beq_iff_eq.1 hn ▸ listed, Bool.eq_false_iff.2 refused⟩⟩
    · exact .refl ids s
  · exact .refl ids s

theorem handsOver_foldl {ids l : List Nat} (listed : ∀ id ∈ l, id ∈ ids) (s : State) :
    HandsOver ids s (l.foldl (fun s id => handoverCheck id s) s) := by
  induction l generalizing s with
  | nil => exact .refl ids s
  | cons id l ih =>
    exact (handsOver_handoverCheck (listed id List.mem_cons_self) s).trans
      (ih (fun n hn => listed n (List.mem_cons_of_mem _ hn)) _)

/-! ## A due record is offered or held back (R9) -/

/-- The HAND of the id is in the queue, or its record is held back. -/
def State.Offers (s : State) (id : Nat) : Prop :=
  s.hasFrame (TxFrame.isHandOf id) = true ∨ s.someBoard id (fun x => x.heldBack = true)

/-- The record of the id is due for handover, and not handed (R9). -/
def State.Due (s : State) (id : Nat) : Prop :=
  ∃ b start, s.board id = some b ∧ b.handed = none ∧ s.neighbourStart = some start ∧ start - s.cfg.handoverLead ≤ s.pos b

theorem offers_handsOver {ids : List Nat} {s t : State} (h : HandsOver ids s t) {id : Nat} (k : s.Offers id) : t.Offers id := by
  obtain ⟨held, hands, rfl, _⟩ := h
  rcases k with queued | ⟨b, mem, same, back⟩
  · refine .inl ?_
    show (s.bus.queue ++ hands).any _ = true
    rw [List.any_append, Bool.or_eq_true]
    exact .inl queued
  · refine .inr ⟨holdBackIf held b, List.mem_map_of_mem mem, same, ?_⟩
    show (b.heldBack || _) = true
    rw [back, Bool.true_or]

theorem due_handsOver {ids : List Nat} {s t : State} (h : HandsOver ids s t) {id : Nat} (k : s.Due id) : t.Due id := by
  obtain ⟨held, hands, rfl, _⟩ := h
  obtain ⟨b, start, board, unhanded, neighbour, reached⟩ := k
  exact ⟨holdBackIf held b, start, by rw [board_offered, board]; rfl, unhanded, neighbour, reached⟩

theorem handoverCheck_offers {s : State} {id : Nat} (due : s.Due id) : (handoverCheck id s).Offers id := by
  obtain ⟨b, start, board, unhanded, reach, reached⟩ := due
  obtain ⟨dest, _, _, neighbour, _⟩ := (neighbourStart_some_iff s start).1 reach
  rw [handoverCheck_eq board neighbour reach]
  split
  · split
    · refine .inl ?_
      show (s.bus.queue ++ [newFrame 1 dest (.hand id)]).any _ = true
      rw [List.any_append, Bool.or_eq_true]
      exact .inr (List.any_eq_true.2 ⟨_, List.mem_singleton.2 rfl, beq_self_eq_true _⟩)
    · have back := board_updateBoard_same (f := fun b => { b with heldBack := true }) (fun _ => rfl) board
      exact .inr ⟨_, board_mem back, board_id back, rfl⟩
  · next waits =>
    by_cases queued : s.hasFrame (TxFrame.isHandOf id) = true
    · exact .inl queued
    · refine .inr ⟨b, board_mem board, board_id board, eq_true_of_ne_false fun free => waits ?_⟩
      exact ⟨unhanded, reached, free, Bool.eq_false_iff.2 queued⟩

theorem foldl_handoverCheck_offers {l : List Nat} {s : State} {id : Nat} (listed : id ∈ l) (due : s.Due id) :
    (l.foldl (fun s id => handoverCheck id s) s).Offers id := by
  induction l generalizing s with
  | nil => cases listed
  | cons n l ih =>
    rcases List.mem_cons.1 listed with rfl | later
    · exact offers_handsOver (handsOver_foldl (l := l) (fun _ h => h) _) (handoverCheck_offers due)
    · exact ih later (due_handsOver (handsOver_handoverCheck (List.mem_singleton.2 rfl) s) due)

/-! ## The presence event (R9, R180, R182) -/

/-- The frames `l` have joined the queue behind the others. -/
def State.joinedBy (l : List TxFrame) (s : State) : State := s.withTx (s.bus.queue ++ l)

theorem joinedBy_nil (s : State) : s.joinedBy [] = s := by
  unfold State.joinedBy
  rw [List.append_nil]
  rfl

theorem queueStatus_joins {s : State} (joined : s.joined = true) : ∃ l, queueStatus s = s.joinedBy l ∧
    (∀ f ∈ l, f = newFrame 0 0 .status) ∧
    (s.hasFrame (TxFrame.isKind 3) = true ∨ s.admits 0 = true → ∃ f ∈ s.bus.queue ++ l, f.isKind 3 = true) := by
  rw [queueStatus_eq]
  split
  · exact ⟨[newFrame 0 0 .status], rfl, fun _ hf => List.mem_singleton.1 hf,
      fun _ => ⟨_, List.mem_append_right _ (List.mem_singleton.2 rfl), rfl⟩⟩
  · next stays =>
    refine ⟨[], (joinedBy_nil s).symm, fun _ hf => absurd hf List.not_mem_nil, fun any => ?_⟩
    have queued : s.hasFrame (TxFrame.isKind 3) = true :=
      any.elim id (fun admitted => eq_true_of_ne_false fun no => stays ⟨joined, no, admitted⟩)
    rw [List.append_nil]
    exact List.any_eq_true.1 queued

/-- JOIN as the station queues it (R180). -/
def State.joinFrame (s : State) : TxFrame := newFrame 3 0 (.join (s.dir.incarnation.getD 0))

/-- An owed JOIN is queued where class 3 is admitted, and stays owed where it is not. -/
theorem retryJoin_eq (s : State) : retryJoin s = if s.dir.joinOwed = true ∧ s.admits 3 = true then
    { s.joinedBy [s.joinFrame] with dir := { s.dir with joinOwed := false } } else s := by
  unfold retryJoin
  by_cases owing : s.dir.joinOwed = true
  · have still : { s.dir with joinOwed := true } = s.dir := by rw [← owing]
    rw [if_pos owing, queueJoin_eq]
    refine ite_congr (propext (and_iff_right owing)).symm (fun _ => rfl) (fun _ => ?_)
    exact congrArg (fun x => { s with dir := x }) still
  · rw [if_neg owing, if_neg (fun h => owing h.1)]

theorem retryJoin_joins (s : State) : ∃ l owed,
    retryJoin s = { s.joinedBy l with dir := { s.dir with joinOwed := owed } } ∧ (∀ f ∈ l, f = s.joinFrame) ∧
    (s.dir.joinOwed = false → owed = false) ∧
    (s.dir.joinOwed = true → (owed = false ∧ s.joinFrame ∈ l) ∨ (owed = true ∧ l = [] ∧ s.admits 3 = false)) := by
  rw [retryJoin_eq]
  split
  · exact ⟨[s.joinFrame], false, rfl, fun _ hf => List.mem_singleton.1 hf, fun _ => rfl,
      fun _ => .inl ⟨rfl, List.mem_singleton.2 rfl⟩⟩
  · next stays =>
    refine ⟨[], s.dir.joinOwed, (joinedBy_nil s).symm, fun _ hf => absurd hf List.not_mem_nil, id, fun owing => ?_⟩
    exact .inr ⟨owing, rfl, Bool.eq_false_iff.2 fun admitted => stays ⟨owing, admitted⟩⟩

/-- Every hold-back has ended. -/
def State.unheld (s : State) : State := s.withQueue (s.tracker.queue.map (fun b => { b with heldBack := false }))

/-- The ids of the records that are held back. -/
def State.heldIds (s : State) : List Nat := (s.tracker.queue.filter (·.heldBack)).map (fun b => b.line.id)

theorem mem_heldIds {s : State} {id : Nat} : id ∈ s.heldIds ↔ s.someBoard id (fun x => x.heldBack = true) := by
  unfold State.heldIds State.someBoard
  simp only [List.mem_map, List.mem_filter]
  exact ⟨fun ⟨b, ⟨mem, back⟩, same⟩ => ⟨b, mem, same, back⟩, fun ⟨b, mem, same, back⟩ => ⟨b, ⟨mem, back⟩, same⟩⟩

theorem handsOver_endHoldBacks (s : State) : HandsOver s.heldIds s.unheld (endHoldBacks s) :=
  handsOver_foldl (l := s.heldIds) (fun _ h => h) s.unheld

theorem board_unheld (s : State) (id : Nat) : s.unheld.board id = (s.board id).map (fun b => { b with heldBack := false }) :=
  List.find?_map ..

theorem endHoldBacks_offers {s : State} {id : Nat} (held : id ∈ s.heldIds) (due : s.Due id) : (endHoldBacks s).Offers id := by
  obtain ⟨b, start, board, unhanded, reach, reached⟩ := due
  refine foldl_handoverCheck_offers (l := s.heldIds) (s := s.unheld) held
    ⟨{ b with heldBack := false }, start, ?_, unhanded, reach, reached⟩
  rw [board_unheld, board]
  rfl

/-- The presence timer has started again. -/
def State.presenceBegun (s : State) : State := { s with dir := { s.dir with presence := .running s.cfg.presencePeriod } }

/-- The presence timer started again, STATUS in the queue, the hold-backs ended, and the records that were held back checked again. -/
def State.rechecked (status : List TxFrame) (held : Nat → Bool) (hands : List TxFrame) (s : State) : State :=
  (s.presenceBegun.joinedBy status).unheld.offered held hands

/-- What a presence event queues and holds back: STATUS, the HANDs of the records that were held back, and an owed JOIN. -/
structure PresenceLeaves (s t : State) (status : List TxFrame) (held : Nat → Bool) (hands joins : List TxFrame) (owed : Bool) :
    Prop where
  whole     : t = { (s.rechecked status held hands).joinedBy joins with
    dir := { s.presenceBegun.dir with joinOwed := owed } }
  isStatus  : ∀ f ∈ status, f = newFrame 0 0 .status
  there     : s.hasFrame (TxFrame.isKind 3) = true ∨ s.admits 0 = true → ∃ f ∈ s.bus.queue ++ status, f.isKind 3 = true
  isHand    : ∀ f ∈ hands, ∃ dest, ∃ id ∈ s.heldIds, s.tracker.neighbour = some dest ∧ f = newFrame 1 dest (.hand id)
  refused   : ∀ id, held id = true → id ∈ s.heldIds ∧ (s.rechecked status held hands).admits 1 = false
  offers    : ∀ id ∈ s.heldIds, s.Due id → (s.rechecked status held hands).Offers id
  isJoin    : ∀ f ∈ joins, f = s.joinFrame
  notOwed   : s.dir.joinOwed = false → owed = false
  stillOwed : s.dir.joinOwed = true → (owed = false ∧ s.joinFrame ∈ joins) ∨ (owed = true ∧ t.admits 3 = false)

theorem execPresenceEvent_leaves {s : State} (joined : s.joined = true) (running : s.dir.presence.isRunning = true) :
    ∃ t status held hands joins owed, exec .presenceEvent s = .next t ∧ PresenceLeaves s t status held hands joins owed := by
  obtain ⟨status, queued, isStatus, there⟩ := queueStatus_joins (s := s.presenceBegun) joined
  obtain ⟨held, hands, checked, own, refused⟩ := handsOver_endHoldBacks (s.presenceBegun.joinedBy status)
  have offers {id : Nat} := endHoldBacks_offers (s := s.presenceBegun.joinedBy status) (id := id)
  rw [checked] at refused offers
  obtain ⟨joins, owed, retried, isJoin, notOwed, stillOwed⟩ := retryJoin_joins (s.rechecked status held hands)
  have answer : exec .presenceEvent s = .next (retryJoin (endHoldBacks (queueStatus s.presenceBegun))) :=
    if_pos (by rw [joined, running]; rfl)
  rw [queued, checked] at answer
  refine ⟨_, status, held, hands, joins, owed, answer.trans (congrArg _ retried), rfl, isStatus, there, fun f hf => ?_, refused,
    fun _ => offers, isJoin, notOwed, fun owing => (stillOwed owing).imp id fun ⟨stays, unqueued, full⟩ => ⟨stays, ?_⟩⟩
  · obtain ⟨dest, id, listed, neighbour, _, e⟩ := own f hf
    exact ⟨dest, id, listed, neighbour, e⟩
  · rw [unqueued, joinedBy_nil]
    exact full

section
variable {s t : State} {status hands joins : List TxFrame} {held : Nat → Bool} {owed : Bool}

theorem PresenceLeaves.frames (h : PresenceLeaves s t status held hands joins owed) :
    t.bus.queue = s.bus.queue ++ status ++ hands ++ joins := by
  rw [h.whole]
  rfl

theorem PresenceLeaves.boards (h : PresenceLeaves s t status held hands joins owed) :
    t.tracker.queue = s.tracker.queue.map (fun b => { b with heldBack := held b.line.id }) := by
  rw [h.whole]
  exact List.map_map

theorem PresenceLeaves.owes (h : PresenceLeaves s t status held hands joins owed) : t.dir.joinOwed = owed := by rw [h.whole]

/-- A frame of the queue after the event, by where it comes from. -/
theorem PresenceLeaves.mem_iff (h : PresenceLeaves s t status held hands joins owed) (f : TxFrame) :
    f ∈ t.bus.queue ↔ ((f ∈ s.bus.queue ∨ f ∈ status) ∨ f ∈ hands) ∨ f ∈ joins := by
  rw [h.frames]
  simp only [List.mem_append]

/-- A record is held back only where it was, and only while class 1 is refused. -/
theorem PresenceLeaves.heldBack (h : PresenceLeaves s t status held hands joins owed) {b : Board} (mem : b ∈ t.tracker.queue)
    (back : b.heldBack = true) : t.admits 1 = false ∧ s.someBoard b.line.id (fun x => x.heldBack = true) := by
  rw [h.boards] at mem
  obtain ⟨x, _, rfl⟩ := List.mem_map.1 mem
  obtain ⟨listed, full⟩ := h.refused _ back
  have longer : (s.rechecked status held hands).bus.queue.length ≤ t.bus.queue.length := by
    rw [h.frames]
    exact (List.prefix_append _ joins).length_le
  exact ⟨not_admits_of_longer longer (by rw [h.whole]; rfl) full, mem_heldIds.1 listed⟩

/-- A HAND that was not in the queue before is one of those that the event has queued, to the neighbour. -/
theorem PresenceLeaves.newHand (h : PresenceLeaves s t status held hands joins owed) {f : TxFrame} {id dest : Nat}
    (neighbour : s.tracker.neighbour = some dest) (mem : (f ∈ s.bus.queue ∨ f ∈ status) ∨ f ∈ hands) (hand : f.isHandOf id = true)
    (fresh : s.hasFrame (TxFrame.isHandOf id) = false) : newFrame 1 dest (.hand id) ∈ hands := by
  have body : f.body = .hand id := beq_iff_eq.1 hand
  rcases mem with (old | new) | offered
  · exact absurd (List.any_eq_true.2 ⟨f, old, hand⟩) (Bool.eq_false_iff.1 fresh)
  · rw [h.isStatus f new] at body
    cases body
  · obtain ⟨_, n, _, there, rfl⟩ := h.isHand f offered
    cases body
    cases neighbour.symm.trans there
    exact offered

theorem PresenceLeaves.offered (h : PresenceLeaves s t status held hands joins owed) {id dest : Nat} (listed : id ∈ s.heldIds)
    (due : s.Due id) (neighbour : s.tracker.neighbour = some dest) (fresh : s.hasFrame (TxFrame.isHandOf id) = false) :
    newFrame 1 dest (.hand id) ∈ t.bus.queue ∨ t.someBoard id (fun x => x.heldBack = true) := by
  rcases h.offers id listed due with queued | ⟨b, mem, same, back⟩
  · obtain ⟨f, mem, hand⟩ := List.any_eq_true.1 queued
    have mem : f ∈ s.bus.queue ++ status ++ hands := mem
    simp only [List.mem_append] at mem
    exact .inl ((h.mem_iff _).2 (.inl (.inr (h.newHand neighbour mem hand fresh))))
  · refine .inr ⟨b, ?_, same, back⟩
    rw [h.whole]
    exact mem

end

theorem execPresenceEvent_idle {s : State} (idle : s.joined = false ∨ s.dir.presence.isRunning = false) :
    exec .presenceEvent s = .next s := by
  refine if_neg fun both => ?_
  obtain ⟨joined, running⟩ := (Bool.and_eq_true ..).mp both
  rcases idle with unjoined | stopped
  · exact Bool.noConfusion (joined.symm.trans unjoined)
  · exact Bool.noConfusion (running.symm.trans stopped)

/-- Settles O34: STATUS, the hold-backs with the HANDs, and the JOIN owed, read off the whole state after; a presence timer that does
not run has no event. -/
theorem presenceEventQueuesStatus : Obligations.PresenceEventQueuesStatus := by
  refine ⟨fun s joined running => ?_, fun s idle => execPresenceEvent_idle idle⟩
  obtain ⟨t, status, held, hands, joins, owed, answer, h⟩ := execPresenceEvent_leaves joined running
  refine ⟨t, answer, by rw [h.whole]; rfl, by rw [h.whole]; rfl, fun any => ?_, ?_, by rw [h.whole]; rfl, fun b => h.heldBack,
    fun id dest start b board back unhanded neighbour reach reached fresh =>
      h.offered (mem_heldIds.2 ⟨b, board_mem board, board_id board, back⟩) ⟨b, start, board, unhanded, reach, reached⟩ neighbour
        fresh,
    fun f hf => (h.mem_iff f).2 (.inl (.inl (.inl hf))), fun f hf => ?_, fun unowed => h.owes.trans (h.notOwed unowed),
    fun owes => ?_⟩
  · obtain ⟨f, hf, kind⟩ := h.there any
    exact List.any_eq_true.2 ⟨f, (h.mem_iff f).2 (.inl (.inl (List.mem_append.1 hf))), kind⟩
  · unfold State.boardIds
    rw [h.boards, List.map_map]
    rfl
  · rcases (h.mem_iff f).1 hf with ((old | new) | hand) | join
    · exact .inl old
    · exact .inr (.inl (h.isStatus f new))
    · obtain ⟨dest, id, listed, neighbour, rfl⟩ := h.isHand f hand
      obtain ⟨b, mem, rfl, back⟩ := mem_heldIds.1 listed
      exact .inr (.inr (.inr ⟨b, mem, back, neighbour, rfl⟩))
    · exact .inr (.inr (.inl (h.isJoin f join)))
  · rw [h.owes]
    exact (h.stillOwed owes).imp (fun ⟨ended, queued⟩ => ⟨ended, (h.mem_iff _).2 (.inr queued)⟩) id

end Sys2Proof.Machine
end

section
/-! PROOFS. A change of the downstream neighbour, record by record and frame by frame, and the aging sweep (O35). -/

namespace Sys2Proof.Machine

open Sys2Proof

/-! ## Marks on every record (R19) -/

theorem Bears.inWindow {s t : State} (h : Bears s t) {b x : Board} (g : b.Grows x) : t.inWindow x = s.inWindow b := by
  obtain ⟨_, _, _, length, _⟩ := g.fields
  unfold State.inWindow
  rw [h.sheds.pos g, h.cfg, length]

/-- With no id held twice, each record is the one of its id (R3). -/
theorem board_of_mem {s : State} (single : s.boardIds.Nodup) {b : Board} (mem : b ∈ s.tracker.queue) :
    s.board b.line.id = some b := by
  unfold State.boardIds at single
  unfold State.board
  generalize s.tracker.queue = queue at single mem
  induction queue with
  | nil => cases mem
  | cons x l ih =>
    obtain ⟨apart, single⟩ := List.nodup_cons.1 single
    rcases List.mem_cons.1 mem with rfl | mem
    · exact List.find?_cons_of_pos (beq_self_eq_true _)
    · refine (List.find?_cons_of_neg fun same => apart ?_).trans (ih single mem)
      exact List.mem_map.2 ⟨b, mem, (beq_iff_eq.1 same).symm⟩

/-- The add-mark operation marks the record of its id in the window, unless it overflows (R19). -/
theorem addMark_has {s : State} (single : s.boardIds.Nodup) {b x : Board} (mem : b ∈ s.tracker.queue) (inside : s.inWindow b = true)
    (code : Nat) (later : x ∈ (addMark b.line.id code s).tracker.queue) (same : x.line.id = b.line.id) :
    (⟨s.dir.own, code⟩ : Mark) ∈ x.line.marks ∨ x.line.markOverflow = true := by
  have board := board_of_mem single mem
  rw [addMark_eq code board] at later
  split at later
  · rw [queueOrDrop_tracker] at later
    obtain ⟨y, _, rfl⟩ := List.mem_map.1 later
    by_cases target : (y.line.id == b.line.id) = true
    · rw [if_pos target]
      exact addPair_has _ _
    · rw [if_neg target] at same
      exact absurd (beq_iff_eq.2 same) target
  · next marked =>
    have held : s.board x.line.id = some x := board_of_mem single later
    rw [same, board] at held
    cases held
    exact .inl (Classical.byContradiction fun fresh => marked ⟨inside, fresh⟩)

theorem foldl_addMark_has {ids : List Nat} {s : State} (single : s.boardIds.Nodup) {code : Nat} {b x : Board}
    (mem : b ∈ s.tracker.queue) (listed : b.line.id ∈ ids) (inside : s.inWindow b = true)
    (later : x ∈ (ids.foldl (fun s id => addMark id code s) s).tracker.queue) (same : x.line.id = b.line.id) :
    (⟨s.dir.own, code⟩ : Mark) ∈ x.line.marks ∨ x.line.markOverflow = true := by
  induction ids generalizing s b with
  | nil => cases listed
  | cons id ids ih =>
    have first := bears_addMark id code s
    rcases List.mem_cons.1 listed with rfl | listed
    · obtain ⟨y, hy, grows⟩ := (Bears.foldl (f := fun s id => addMark id code s) (fun s id => bears_addMark id code s) ids
        (addMark b.line.id code s)).boards.mem_right later
      exact grows.has (addMark_has single mem inside code hy (grows.id_eq.symm.trans same))
    · obtain ⟨y, hy, grows⟩ := first.boards.mem_left mem
      have own : (addMark id code s).dir.own = s.dir.own := (moves_addMark id code s).read (fun x => x.dir.own) (fun _ => rfl)
      rw [← own]
      exact ih (first.boardIds ▸ single) hy (grows.id_eq ▸ listed) ((first.inWindow grows).trans inside) later
        (same.trans grows.id_eq.symm)

/-- The add-mark operation for every record marks each one in the window, unless it overflows. -/
theorem markBoards_has {s : State} (single : s.boardIds.Nodup) {code : Nat} {b x : Board} (mem : b ∈ s.tracker.queue)
    (inside : s.inWindow b = true) (later : x ∈ (markBoards (fun _ => true) code s).tracker.queue) (same : x.line.id = b.line.id) :
    (⟨s.dir.own, code⟩ : Mark) ∈ x.line.marks ∨ x.line.markOverflow = true :=
  foldl_addMark_has single mem (List.mem_map.2 ⟨b, List.mem_filter.2 ⟨mem, rfl⟩, rfl⟩) inside later same

theorem addMark_frames (id code : Nat) (s : State) :
    ∃ l, (addMark id code s).bus.queue = s.bus.queue ++ l ∧ ∀ f ∈ l, f.body.kind = 9 := by
  have none : ∃ l, s.bus.queue = s.bus.queue ++ l ∧ ∀ f ∈ l, f.body.kind = 9 :=
    ⟨[], (List.append_nil _).symm, fun _ hf => absurd hf List.not_mem_nil⟩
  unfold addMark
  split
  · exact none
  · split
    · exact none
    · rw [queueOrDrop_eq]
      split
      · exact ⟨_, rfl, fun f hf => by rw [List.mem_singleton.1 hf]; rfl⟩
      · exact none

/-- Marks on the records queue nothing but AMENDs. -/
theorem markBoards_frames (p : Board → Bool) (code : Nat) (s : State) :
    ∃ l, (markBoards p code s).bus.queue = s.bus.queue ++ l ∧ ∀ f ∈ l, f.body.kind = 9 := by
  unfold markBoards
  generalize (s.tracker.queue.filter p).map (fun b => b.line.id) = ids
  induction ids generalizing s with
  | nil => exact ⟨[], (List.append_nil _).symm, fun _ hf => absurd hf List.not_mem_nil⟩
  | cons id ids ih =>
    obtain ⟨first, queued, amend⟩ := addMark_frames id code s
    obtain ⟨rest, queuedLater, amendLater⟩ := ih (addMark id code s)
    refine ⟨first ++ rest, ?_, fun f hf => (List.mem_append.1 hf).elim (amend f) (amendLater f)⟩
    rw [← List.append_assoc, ← queued]
    exact queuedLater

/-! ## A change of neighbour (R7, R8) -/

/-- What a change of neighbour leaves of the records, before they are checked again: HANDED and the hold-backs end, and the mark
STATION_ABSENT may join. -/
structure NeighbourChanged (absent : Bool) (s v : State) : Prop where
  bears  : Bears (withNeighbour s.findNeighbour s) v
  plain  : absent = false → v.tracker.queue = (withNeighbour s.findNeighbour s).tracker.queue
  marks  : absent = true → s.boardIds.Nodup → ∀ x ∈ s.tracker.queue, s.inWindow x = true → ∀ y ∈ v.tracker.queue,
    y.line.id = x.line.id → (⟨s.dir.own, 10⟩ : Mark) ∈ y.line.marks ∨ y.line.markOverflow = true
  frames : ∃ l, v.bus.queue = (withNeighbour s.findNeighbour s).bus.queue ++ l ∧ ∀ f ∈ l, f.body.kind = 9

theorem boardIds_withNeighbour (new : Option Nat) (s : State) : (withNeighbour new s).boardIds = s.boardIds := List.map_map

theorem neighbourChanged (absent : Bool) (s : State) : NeighbourChanged absent s
    (if absent then markBoards (fun _ => true) 10 (withNeighbour s.findNeighbour s) else withNeighbour s.findNeighbour s) := by
  cases absent with
  | false =>
    exact ⟨.refl _, fun _ => rfl, fun h => Bool.noConfusion h, [], (List.append_nil _).symm,
      fun _ hf => absurd hf List.not_mem_nil⟩
  | true =>
    refine ⟨bears_markBoards _ 10 _, fun h => Bool.noConfusion h, fun _ single x mem inside y hy same => ?_,
      markBoards_frames _ 10 _⟩
    exact markBoards_has (s := withNeighbour s.findNeighbour s) (b := { x with handed := none, heldBack := false })
      (boardIds_withNeighbour _ s ▸ single) (List.mem_map.2 ⟨x, mem, rfl⟩) inside hy same

theorem Grown.find {l m : List Board} (h : Grown l m) {id : Nat} {b : Board} (k : l.find? (fun x => x.line.id == id) = some b) :
    ∃ x, m.find? (fun x => x.line.id == id) = some x ∧ b.Grows x := by
  induction h with
  | nil => cases k
  | @cons y x _ _ grows _ ih =>
    by_cases found : (y.line.id == id) = true
    · rw [List.find?_cons_of_pos (p := fun x : Board => x.line.id == id) found] at k
      cases k
      exact ⟨x, List.find?_cons_of_pos (by rw [grows.id_eq]; exact found), grows⟩
    · rw [List.find?_cons_of_neg (p := fun x : Board => x.line.id == id) found] at k
      obtain ⟨z, board, later⟩ := ih k
      exact ⟨z, (List.find?_cons_of_neg (by rw [grows.id_eq]; exact found)).trans board, later⟩

/-- A change of neighbour: what is ended and marked first, then the checks of every record. -/
theorem updateNeighbour_steps {s : State} (gone : List Nat) (changed : s.findNeighbour ≠ s.tracker.neighbour) :
    ∃ absent v, (absent = true ↔ (∃ n, s.tracker.neighbour = some n ∧ n ∈ gone) ∧ s.findNeighbour.isSome = true) ∧
      NeighbourChanged absent s v ∧ HandsOver v.boardIds v (updateNeighbour gone s) ∧
      ∀ id, v.Due id → (updateNeighbour gone s).Offers id := by
  obtain ⟨absent, isAbsent, whole⟩ := updateNeighbour_changed gone changed
  rw [whole]
  refine ⟨absent, _, isAbsent, neighbourChanged absent s, handsOver_foldl (fun _ h => h) _, fun id due => ?_⟩
  refine foldl_handoverCheck_offers ?_ due
  obtain ⟨b, _, board, _⟩ := due
  exact (board_isSome_iff _ id).1 (by rw [board]; rfl)

section
variable {s v t : State} {absent : Bool}

theorem NeighbourChanged.neighbour (h : NeighbourChanged absent s v) : v.tracker.neighbour = s.findNeighbour :=
  congrArg (fun x => x.neighbour) h.bears.shelf

theorem NeighbourChanged.boardIds (h : NeighbourChanged absent s v) : v.boardIds = s.boardIds :=
  h.bears.boardIds.trans (boardIds_withNeighbour _ s)

/-- Each record after is one of before, with HANDED and its hold-back ended, and later in the same event; its line record is the same
where no neighbour has gone. -/
theorem NeighbourChanged.source (h : NeighbourChanged absent s v) {y : Board} (mem : y ∈ v.tracker.queue) :
    ∃ x ∈ s.tracker.queue, Board.Grows { x with handed := none, heldBack := false } y ∧ (absent = false → y.line = x.line) := by
  cases absent with
  | false =>
    rw [h.plain rfl] at mem
    obtain ⟨x, hx, rfl⟩ := List.mem_map.1 mem
    exact ⟨x, hx, .refl _, fun _ => rfl⟩
  | true =>
    obtain ⟨z, hz, grows⟩ := h.bears.boards.mem_right mem
    obtain ⟨x, hx, rfl⟩ := List.mem_map.1 hz
    exact ⟨x, hx, grows, fun h => Bool.noConfusion h⟩

theorem NeighbourChanged.kept (h : NeighbourChanged absent s v) {f : TxFrame} (mem : f ∈ s.bus.queue)
    (stays : f.body.kind ≠ 8 ∨ f.phase = .onBus) : f ∈ v.bus.queue := by
  obtain ⟨l, frames, _⟩ := h.frames
  rw [frames]
  refine List.mem_append_left _ (List.mem_filter.2 ⟨mem, ?_⟩)
  unfold TxFrame.isKind
  rcases stays with other | on
  · rw [beq_eq_false_iff_ne.2 other]
    exact Bool.or_true _
  · rw [on]
    rfl

/-- The only HANDs left are on the bus (R8, R168). -/
theorem NeighbourChanged.hand (h : NeighbourChanged absent s v) {f : TxFrame} (mem : f ∈ v.bus.queue) (kind : f.body.kind = 8) :
    f ∈ s.bus.queue ∧ f.phase = .onBus := by
  obtain ⟨l, frames, amend⟩ := h.frames
  rw [frames] at mem
  rcases List.mem_append.1 mem with old | new
  · obtain ⟨mem, stays⟩ := List.mem_filter.1 old
    refine ⟨mem, ?_⟩
    unfold TxFrame.isKind at stays
    rw [kind] at stays
    exact beq_iff_eq.1 ((Bool.or_false _).symm.trans stays)
  · rw [amend f new] at kind
    cases kind

/-- A record that has come to the new neighbour's window start, less the handover lead, is due (R9). -/
theorem NeighbourChanged.due (h : NeighbourChanged absent s v) {id start : Nat} {b : Board} (board : s.board id = some b)
    (reach : v.neighbourStart = some start) (reached : start - s.cfg.handoverLead ≤ s.pos b) : v.Due id := by
  have before : (withNeighbour s.findNeighbour s).board id = some { b with handed := none, heldBack := false } :=
    (List.find?_map ..).trans (congrArg (Option.map fun x : Board => { x with handed := none, heldBack := false }) board)
  obtain ⟨x, after, grows⟩ := h.bears.boards.find before
  obtain ⟨_, _, _, _, _, _, _, _, handed, _⟩ := grows.fields
  refine ⟨x, start, after, handed, reach, ?_⟩
  rw [h.bears.cfg, h.bears.sheds.pos grows]
  exact reached

end

/-- A record after a change of neighbour was held before: STATION_ABSENT marks it in the window where the old neighbour went GONE and
a new one is there, and nothing else of its line record changes (R8). -/
theorem updateNeighbour_record {gone : List Nat} {s : State} (changed : s.findNeighbour ≠ s.tracker.neighbour)
    (single : s.boardIds.Nodup) {b : Board} (mem : b ∈ (updateNeighbour gone s).tracker.queue) :
    s.someBoard b.line.id (fun x =>
      ((∃ n, s.tracker.neighbour = some n ∧ n ∈ gone) → s.findNeighbour.isSome = true → s.inWindow x = true →
        (⟨s.dir.own, 10⟩ : Mark) ∈ b.line.marks ∨ b.line.markOverflow = true) ∧
      ((∀ n ∈ gone, s.tracker.neighbour ≠ some n) ∨ s.findNeighbour = none → b.line = x.line)) := by
  obtain ⟨absent, v, isAbsent, h, ⟨held, hands, whole, _⟩, _⟩ := updateNeighbour_steps gone changed
  rw [whole] at mem
  obtain ⟨y, hy, rfl⟩ := List.mem_map.1 mem
  obtain ⟨x, hx, grows, unmarked⟩ := h.source hy
  refine ⟨x, hx, grows.id_eq.symm, fun went there inside => ?_, fun kept => unmarked (Bool.eq_false_iff.2 fun marked => ?_)⟩
  · exact h.marks (isAbsent.2 ⟨went, there⟩) single x hx inside y hy grows.id_eq
  · obtain ⟨⟨n, old, went⟩, there⟩ := isAbsent.1 marked
    rcases kept with stays | lost
    · exact stays n went old
    · rw [lost] at there
      cases there

/-- The records and frames after a change of neighbour, by what R7 and R8 say of them. -/
theorem updateNeighbour_change {gone : List Nat} {s : State} (changed : s.findNeighbour ≠ s.tracker.neighbour) :
    (updateNeighbour gone s).tracker.neighbour = s.findNeighbour ∧ (updateNeighbour gone s).boardIds = s.boardIds ∧
    (∀ b ∈ (updateNeighbour gone s).tracker.queue, b.handed = none) ∧
    (∀ f ∈ s.bus.queue, f.body.kind ≠ 8 ∨ f.phase = .onBus → f ∈ (updateNeighbour gone s).bus.queue) ∧
    (∀ f ∈ (updateNeighbour gone s).bus.queue, f.body.kind = 8 → (f ∈ s.bus.queue ∧ f.phase = .onBus) ∨
      ∃ dest, ∃ b ∈ s.tracker.queue, s.findNeighbour = some dest ∧ f = newFrame 1 dest (.hand b.line.id)) ∧
    (∀ (id start : Nat) (b : Board), s.board id = some b → (updateNeighbour gone s).neighbourStart = some start →
      start - s.cfg.handoverLead ≤ s.pos b → (updateNeighbour gone s).Offers id) := by
  obtain ⟨_, v, _, h, ⟨held, hands, whole, own, _⟩, offers⟩ := updateNeighbour_steps gone changed
  generalize updateNeighbour gone s = t at whole offers ⊢
  subst whole
  refine ⟨h.neighbour, (boardIds_offered held hands v).trans h.boardIds, fun b mem => ?_,
    fun f mem stays => List.mem_append_left _ (h.kept mem stays), fun f mem kind => ?_,
    fun id start b board reach reached => offers id (h.due board reach reached)⟩
  · obtain ⟨y, hy, rfl⟩ := List.mem_map.1 mem
    obtain ⟨_, _, grows, _⟩ := h.source hy
    obtain ⟨_, _, _, _, _, _, _, _, handed, _⟩ := grows.fields
    exact handed
  · rcases List.mem_append.1 mem with old | new
    · exact .inl (h.hand old kind)
    · obtain ⟨dest, id, _, neighbour, known, rfl⟩ := own f new
      rw [h.boardIds] at known
      obtain ⟨b, hb, rfl⟩ := List.mem_map.1 known
      exact .inr ⟨dest, b, hb, h.neighbour.symm.trans neighbour, rfl⟩

/-! ## What is GONE is handed over (R82, R137) -/

/-- The share unit that has taken back what it lent the numbers of `gone`, if it is SEATED (R82). -/
def Shares.takenBack (gone : List Nat) (x : Shares) : Shares :=
  if x.state = .seated then { x with
    held := x.held + (gone.map (fun n => loanOf n x.lent)).sum
    lent := x.lent.filter (fun r => !gone.contains r.peer) }
  else x

theorem filter_notContains_nil (l : List Loan) : l.filter (fun r => !([] : List Nat).contains r.peer) = l :=
  List.filter_eq_self.2 fun _ _ => rfl

theorem takenBack_nil (x : Shares) : x.takenBack [] = x := by
  unfold Shares.takenBack
  rw [filter_notContains_nil]
  exact ite_self x

theorem loanOf_dropLoan {k n : Nat} (other : k ≠ n) (l : List Loan) : loanOf k (dropLoan n l) = loanOf k l := by
  induction l with
  | nil => rfl
  | cons r l ih =>
    rw [loanOf_cons, ← ih]
    unfold dropLoan
    by_cases dropped : r.peer = n
    · rw [List.filter_cons_of_neg (by simp [dropped]), if_neg (fun same => other (same.symm.trans dropped))]
    · rw [List.filter_cons_of_pos (by simp [dropped]), loanOf_cons]

/-- The records of one number dropped, and then those of others. -/
theorem filter_dropLoan (n : Nat) (gone : List Nat) (l : List Loan) :
    (dropLoan n l).filter (fun r => !gone.contains r.peer) = l.filter (fun r => !(n :: gone).contains r.peer) := by
  unfold dropLoan
  rw [List.filter_filter]
  refine congrArg (fun p => l.filter p) (funext fun r => ?_)
  rw [List.contains_cons, Bool.not_or, Bool.and_comm]
  rfl

theorem takenBack_one {x : Shares} (seated : x.state = .seated) (n : Nat) :
    x.takenBack [n] = { x with held := x.held + loanOf n x.lent, lent := dropLoan n x.lent } := by
  unfold Shares.takenBack
  rw [if_pos seated, ← filter_dropLoan, filter_notContains_nil]
  rfl

theorem takenBack_cons {n : Nat} {gone : List Nat} (fresh : n ∉ gone) (x : Shares) :
    (x.takenBack [n]).takenBack gone = x.takenBack (n :: gone) := by
  by_cases seated : x.state = .seated
  · have loans : gone.map (fun k => loanOf k (dropLoan n x.lent)) = gone.map (fun k => loanOf k x.lent) :=
      List.map_congr_left fun k mem => loanOf_dropLoan (ne_of_mem_of_not_mem mem fresh) x.lent
    rw [takenBack_one seated]
    unfold Shares.takenBack
    rw [if_pos seated, if_pos seated, loans, filter_dropLoan, List.map_cons, List.sum_cons, Nat.add_assoc]
  · have stays (l : List Nat) : x.takenBack l = x := if_neg seated
    rw [stays, stays, stays]

theorem loanGone_takenBack (n : Nat) (s : State) :
    ∃ x, loanGone n s = { s with shares := s.shares.takenBack [n], heater := x } := by
  rw [loanGone_eq]
  split
  · next seated =>
    obtain ⟨x, held⟩ := setHeld_heater (s.shares.held + loanOf n s.shares.lent) (s.withLent (dropLoan n s.shares.lent))
    rw [held, takenBack_one seated]
    exact ⟨x, rfl⟩
  · next unseated =>
    have stays : s.shares.takenBack [n] = s.shares := if_neg unseated
    rw [stays]
    exact ⟨s.heater, rfl⟩

/-- A number with activity is an ORPHAN once (R137). -/
theorem orphanGone_orphans (n : Nat) (s : State) :
    ∃ l, orphanGone n s = { s with groups := { s.groups with orphans := l } } ∧
      ∀ r, r ∈ l ↔ r ∈ s.groups.orphans ∨ (r = n ∧ ∃ a ∈ s.groups.activity, a.raiser = r) := by
  rw [orphanGone_eq]
  split
  · next flagged =>
    refine ⟨_, rfl, fun r => ?_⟩
    rw [List.mem_append, List.mem_singleton]
    exact or_congr_right ⟨fun same => ⟨same, same ▸ flagged.1⟩, And.left⟩
  · next unflagged =>
    refine ⟨s.groups.orphans, rfl, fun r => ⟨.inl, fun either => either.elim id fun ⟨same, active⟩ => ?_⟩⟩
    subst same
    exact Classical.byContradiction fun fresh => unflagged ⟨active, fresh⟩

/-- The numbers that have gone GONE, handed over one after the other: of the rest of the state the heater unit alone follows. -/
theorem foldl_gone {gone : List Nat} (single : gone.Nodup) (s : State) : ∃ x l,
    gone.foldl (fun x n => orphanGone n (loanGone n x)) s =
      { s with shares := s.shares.takenBack gone, heater := x, groups := { s.groups with orphans := l } } ∧
    ∀ r, r ∈ l ↔ r ∈ s.groups.orphans ∨ (r ∈ gone ∧ ∃ a ∈ s.groups.activity, a.raiser = r) := by
  induction gone generalizing s with
  | nil =>
    rw [takenBack_nil]
    exact ⟨s.heater, s.groups.orphans, rfl, fun r => ⟨.inl, fun either => either.elim id fun h => absurd h.1 List.not_mem_nil⟩⟩
  | cons n gone ih =>
    obtain ⟨fresh, single⟩ := List.nodup_cons.1 single
    obtain ⟨heater, back⟩ := loanGone_takenBack n s
    obtain ⟨flags, flagged, first⟩ := orphanGone_orphans n (loanGone n s)
    obtain ⟨x, l, rest, later⟩ := ih single (orphanGone n (loanGone n s))
    rw [back] at first
    rw [flagged, back] at rest later
    refine ⟨x, l, ?_, fun r => ?_⟩
    · rw [List.foldl_cons, flagged, back, rest, takenBack_cons fresh]
    · rw [later r, first r, List.mem_cons, or_and_right, or_assoc]

/-! ## The sweep (R175) -/

theorem sweepEntry_isNone (e : DirEntry) : (sweepEntry e).isNone = (!e.touched && e.quiet) := by
  unfold sweepEntry
  cases e.touched
  · cases e.quiet <;> rfl
  · rfl

theorem goneNumbers_nodup (s : State) : s.goneNumbers.Nodup := List.nodup_range.filter _

/-- Every entry aged, and the timer started again; what is GONE is not handed over yet (log entry 14). -/
def State.aged (s : State) : State :=
  { s with dir := { s.dir with
    aging := .running s.cfg.agingInterval
    entries := s.dir.entries.map (fun e => e.bind sweepEntry) } }

/-- The state that AGING_SWEEP leaves while the aging timer runs. -/
def State.sweptOver (s : State) : State :=
  settle (updateNeighbour s.goneNumbers (s.goneNumbers.foldl (fun x n => orphanGone n (loanGone n x)) s.aged))

theorem execAgingSweep_runs {s : State} (running : s.dir.aging.isRunning = true) : exec .agingSweep s = .next s.sweptOver :=
  if_pos running

theorem execAgingSweep_stopped {s : State} (stopped : s.dir.aging.isRunning = false) : exec .agingSweep s = .next s :=
  if_neg (Bool.eq_false_iff.1 stopped)

/-- What a sweep leaves: the aged entries, the neighbour they give, the loans and the ORPHAN flags of what is GONE, and the rest. -/
structure SweepLeaves (s t : State) : Prop where
  dir       : t.dir = s.aged.dir
  far       : t.far = { s with shares := t.shares, heater := t.heater }.far
  shares    : t.shares = s.shares.takenBack s.goneNumbers
  orphans   : ∀ r, r ∈ t.groups.orphans ↔
    r ∈ s.groups.orphans ∨ (r ∈ s.goneNumbers ∧ ∃ a ∈ s.groups.activity, a.raiser = r)
  neighbour : t.NeighbourGiven

theorem sweptOver_leaves (s : State) : SweepLeaves s s.sweptOver := by
  obtain ⟨x, l, handed, orphans⟩ := foldl_gone (goneNumbers_nodup s) s.aged
  unfold State.sweptOver
  rw [handed]
  generalize hv : ({ s.aged with
    shares := s.aged.shares.takenBack s.goneNumbers, heater := x, groups := { s.aged.groups with orphans := l } } : State) = v
  have far : (settle (updateNeighbour s.goneNumbers v)).far = v.far := (far_settle _).trans (far_updateNeighbour _ v)
  have groups : (settle (updateNeighbour s.goneNumbers v)).groups.orphans = l :=
    (ownActivity_settle _).orphans.trans ((congrArg Groups.orphans (groups_updateNeighbour _ v)).trans (by rw [← hv]))
  obtain ⟨_, given⟩ := updateNeighbour_parts s.goneNumbers v
  exact
    { dir := (dir_settle _).trans ((dir_updateNeighbour _ v).trans (by rw [← hv]))
      far := far_followed far (by rw [← hv]; rfl)
      shares := (shares_of_far far).trans (by rw [← hv]; rfl)
      orphans := fun r => by rw [groups]; exact orphans r
      neighbour := given.moves (follows_settle _).toMoves }

/-- Settles O35: the sweep with what is handed over, then a change of neighbour, then the words R7 and R137 name. -/
theorem agingSweepAgesEveryEntry : Obligations.AgingSweepAgesEveryEntry := by
  refine ⟨fun s running => ?_, fun _ => execAgingSweep_stopped, fun gone _ => updateNeighbour_same gone,
    fun gone s t changed ht => ?_, loanGone_eq, findNeighbour_some_iff, findNeighbour_none_iff, neighbourStart_some_iff,
    orphanGone_eq⟩
  · have leaves := sweptOver_leaves s
    refine ⟨s.sweptOver, execAgingSweep_runs running, congrArg Directory.aging leaves.dir, congrArg Directory.entries leaves.dir,
      leaves.far, fun gone hg => ?_, leaves.neighbour⟩
    have same : gone = s.goneNumbers := by
      rw [hg]
      refine congrArg (fun p => (List.range 32).filter p) (funext fun n => ?_)
      cases s.entry n with
      | none => rfl
      | some e => exact (sweepEntry_isNone e).symm
    rw [same]
    exact ⟨leaves.shares, leaves.orphans, by rw [leaves.dir]; rfl⟩
  · subst ht
    obtain ⟨neighbour, ids, unhanded, kept, hands, offers⟩ := updateNeighbour_change (gone := gone) changed
    exact ⟨neighbour, ids, unhanded, kept, hands, offers, fun single _ => updateNeighbour_record changed single⟩

end Sys2Proof.Machine
end

section
/-! PROOFS. The commit of the own CLAIM: the station is JOINED and seated, and its first heater period begins (O51). -/

namespace Sys2Proof.Machine

open Sys2Proof

/-! ## What the start of the units leaves (R142, R171, R173, R182) -/

/-- The part of a state that no start of a unit reaches: without the units of a period start, and of the board tracker the count
alone. -/
def State.besideJoin (s : State) : State :=
  { s.besidePeriod with tracker := { Tracker.reset with count := s.tracker.count } }

/-- What that part shows is the same after. -/
theorem besideJoin_read {s t : State} (h : t.besideJoin = s.besideJoin) {α : Type} (g : State → α)
    (hg : ∀ x : State, g x.besideJoin = g x) : g t = g s := by
  rw [← hg t, h, hg s]

theorem besideJoin_of_besidePeriod {s t : State} (h : t.besidePeriod = s.besidePeriod) : t.besideJoin = s.besideJoin := by
  have count : t.tracker.count = s.tracker.count := besidePeriod_read h (fun x => x.tracker.count) (fun _ => rfl)
  unfold State.besideJoin
  rw [h, count]

theorem Moves.besideJoin {s t : State} (h : Moves s t) : t.besideJoin = s.besideJoin :=
  besideJoin_of_besidePeriod h.besidePeriod

theorem besideJoin_handoverAll (s : State) : (handoverAll s).besideJoin = s.besideJoin := by
  obtain ⟨held, hands, checked, _⟩ := handsOver_foldl (l := s.boardIds) (fun _ h => h) s
  unfold handoverAll
  rw [checked]
  rfl

/-- A change of neighbour reaches the board tracker and the transmit queue alone (R7, R8). -/
theorem besideJoin_updateNeighbour (gone : List Nat) (s : State) : (updateNeighbour gone s).besideJoin = s.besideJoin := by
  by_cases same : s.findNeighbour = s.tracker.neighbour
  · rw [updateNeighbour_same gone same]
  · obtain ⟨absent, _, changed⟩ := updateNeighbour_changed gone same
    have taken : (withNeighbour s.findNeighbour s).besideJoin = s.besideJoin := rfl
    rw [changed, besideJoin_handoverAll]
    split
    · exact (moves_markBoards _ 10 _).besideJoin.trans taken
    · exact taken

/-! ## The station before its first period (R69, R148, R176) -/

theorem moves_openLineRecord (s : State) : Moves s (openLineRecord s) := by
  unfold openLineRecord lineSensed
  split
  · split
    · split
      · exact ⟨rfl, id, id, fun _ rest => rest⟩
      · exact .refl s
    · exact ⟨rfl, id, id, fun _ rest => rest⟩
  · exact .refl s

/-- The station JOINED and seated, with its neighbour, the line first-out record, the causes, the condition and the alarms that it
announces, before its first period start. -/
def State.seatedJoin (n : Nat) (s : State) : State :=
  let u := recondition (takeCauses (openLineRecord (updateNeighbour [] (seat (enterJoined n s)))))
  reannounceAll u.needsAnnouncing u

theorem becomeJoined_newPeriod (n : Nat) (s : State) : becomeJoined n s = (s.seatedJoin n).newPeriod := rfl

theorem moves_seatedJoin (n : Nat) (s : State) : Moves (updateNeighbour [] (seat (enterJoined n s))) (s.seatedJoin n) :=
  (((moves_openLineRecord _).trans (follows_takeCauses _).toMoves).trans (moves_recondition _)).trans
    (follows_reannounceAll _ _).toMoves

theorem shares_seatedJoin (n : Nat) (s : State) : (s.seatedJoin n).shares = s.seatedShares := by
  obtain ⟨x, seated⟩ := seat_heater (enterJoined n s)
  rw [(moves_seatedJoin n s).shares, shares_of_far (far_updateNeighbour [] _), seated]
  rfl

theorem besideJoin_seatedJoin (n : Nat) (s : State) : (s.seatedJoin n).besideJoin = (enterJoined n s).besideJoin := by
  obtain ⟨x, seated⟩ := seat_heater (enterJoined n s)
  rw [(moves_seatedJoin n s).besideJoin, besideJoin_updateNeighbour, seated]
  rfl

/-! ## The station after it -/

theorem besideJoin_becomeJoined (n : Nat) (s : State) : (becomeJoined n s).besideJoin = (enterJoined n s).besideJoin := by
  rw [becomeJoined_newPeriod, besideJoin_of_besidePeriod (besidePeriod_newPeriod _), besideJoin_seatedJoin]

theorem shares_newPeriod (s : State) : ∃ k, s.newPeriod.shares = { s.shares with shortPeriods := k } := by
  obtain ⟨k, steady⟩ := newPeriod_steady s
  generalize s.newPeriod = t at steady ⊢
  exact ⟨k, congrArg (fun x => x.shares) steady⟩

/-- The units of the first period: the share unit seated, and the period begun (R52, R69). -/
theorem becomeJoined_units (n : Nat) (s : State) :
    (∃ k, (becomeJoined n s).shares = { s.seatedShares with shortPeriods := k }) ∧
    (becomeJoined n s).heater.slot = 0 ∧ (becomeJoined n s).heater.periodTimer = .running (s.cfg.heaterPeriod * 100) := by
  obtain ⟨k, shares⟩ := shares_newPeriod (s.seatedJoin n)
  obtain ⟨slot, timer, _⟩ := newPeriod_parts (s.seatedJoin n)
  have cfg : (s.seatedJoin n).cfg = s.cfg := besideJoin_read (besideJoin_seatedJoin n s) State.cfg (fun _ => rfl)
  rw [shares_seatedJoin] at shares
  rw [cfg] at timer
  rw [becomeJoined_newPeriod]
  exact ⟨⟨k, shares⟩, slot, timer⟩

theorem entry_set_none (l : List (Option DirEntry)) (k : Nat) : (l.set k none).getD k none = none := by
  rw [List.getD_eq_getElem?_getD, List.getElem?_set_self']
  cases l[k]? <;> rfl

/-- What no unit's start reaches is as the station entered JOINED with it. -/
theorem becomeJoined_entered (n : Nat) (s : State) :
    (becomeJoined n s).control.station = .joined ∧ (becomeJoined n s).control.mode = .idle ∧
    (becomeJoined n s).dir.own = (if 1 ≤ n ∧ n ≤ 29 then n else 0) ∧ (becomeJoined n s).dir.incarnation = some 0 ∧
    (becomeJoined n s).dir.presence = .running s.cfg.presencePeriod ∧ (becomeJoined n s).dir.claimListen = .stopped ∧
    (becomeJoined n s).entry (becomeJoined n s).dir.own = none ∧
    (becomeJoined n s).bus.ownContact = .running (3 * s.cfg.presencePeriod) ∧
    (becomeJoined n s).bus.peerContact = .running (3 * s.cfg.presencePeriod) ∧
    (becomeJoined n s).loader = s.loader ∧ (becomeJoined n s).tracker.count = s.tracker.count := by
  have entered := besideJoin_becomeJoined n s
  generalize becomeJoined n s = t at entered ⊢
  have place : t.entry t.dir.own = (enterJoined n s).entry (enterJoined n s).dir.own :=
    besideJoin_read entered (fun x => x.entry x.dir.own) (fun _ => rfl)
  exact ⟨besideJoin_read entered (fun x => x.control.station) (fun _ => rfl),
    besideJoin_read entered (fun x => x.control.mode) (fun _ => rfl),
    besideJoin_read entered (fun x => x.dir.own) (fun _ => rfl),
    besideJoin_read entered (fun x => x.dir.incarnation) (fun _ => rfl),
    besideJoin_read entered (fun x => x.dir.presence) (fun _ => rfl),
    besideJoin_read entered (fun x => x.dir.claimListen) (fun _ => rfl),
    place.trans (entry_set_none s.dir.entries (claimedNumber n)),
    besideJoin_read entered (fun x => x.bus.ownContact) (fun _ => rfl),
    besideJoin_read entered (fun x => x.bus.peerContact) (fun _ => rfl),
    besideJoin_read entered (fun x => x.loader) (fun _ => rfl),
    besideJoin_read entered (fun x => x.tracker.count) (fun _ => rfl)⟩

/-- Settles O51: what the entry into JOINED sets no unit's start changes, and the units are those of the first period; then the whole
state step by step. -/
theorem theOwnClaimJoins : Obligations.TheOwnClaimJoins := by
  refine ⟨fun f s h => ⟨_, execClaim_own h, rfl, ?_⟩, fun _ _ _ _ _ hu hv hw => becomeJoined_eq hu hv hw, takeCause_eq,
    needsAnnouncing_iff⟩
  have loader : (commitFrame true 0 s).loader = s.loader := commitFrame_read true 0 s (fun x => x.loader) (fun _ => rfl)
  have count : (commitFrame true 0 s).tracker.count = s.tracker.count :=
    commitFrame_read true 0 s (fun x => x.tracker.count) (fun _ => rfl)
  obtain ⟨station, mode, own, incarnation, presence, listen, entry, ownContact, peerContact, loader', count'⟩ :=
    becomeJoined_entered f.number.toNat (commitFrame true 0 s)
  obtain ⟨⟨k, shares⟩, slot, timer⟩ := becomeJoined_units f.number.toNat (commitFrame true 0 s)
  rw [cfg_commitFrame] at presence ownContact peerContact timer
  rw [seatedShares_commitFrame] at shares
  generalize becomeJoined f.number.toNat (commitFrame true 0 s) = t at *
  exact ⟨station, mode, own, incarnation, presence, listen, entry, ownContact, peerContact, congrArg Shares.state shares,
    congrArg Shares.held shares, congrArg Shares.lent shares, congrArg Shares.borrowed shares, slot, timer, loader'.trans loader,
    count'.trans count⟩

end Sys2Proof.Machine
end

section
/-! PROOFS. The step and the queue of commands (O1, O3), START_RESET and the state that it leaves (O6, O7, O60), and the
configuration: what may change it (O4) and the image that gives it (O8). -/

namespace Sys2Proof.Machine

open Sys2Proof

/-! ## The step -/

/-- A queue that was put in place of the waiting commands is replaced by them again. -/
theorem withPending_back (l : List Instr) (s : State) : (s.withPending l).withPending s.pending = s := rfl

/-- With a command at the front of the queue, a step is that command on the queue's rest. -/
theorem step_cons {c : Instr} {rest : List Instr} {s : State} (front : s.pending = c :: rest) :
    step s = exec c (s.withPending rest) := by
  unfold step
  rw [front]

/-- Settles O1. -/
theorem stepRunsTheFrontCommand : Obligations.StepRunsTheFrontCommand := by
  intro c s
  calc step (s.withPending (c :: s.pending))
      = exec c ((s.withPending (c :: s.pending)).withPending s.pending) := step_cons rfl
    _ = exec c s := by rw [withPending_back]

/-- Settles O3: what every command keeps, read for the uid and the queue of commands. -/
theorem everyCommandAnswersANextState : Obligations.EveryCommandAnswersANextState := by
  intro c s
  obtain ⟨t, answered, kept⟩ := lasts_exec c s
  exact ⟨t, answered, kept.uid, kept.pending⟩

/-- Settles O4: the count event by its own lemma, every other command by what it keeps. -/
theorem onlyTheStartChangesTheConfiguration : Obligations.OnlyTheStartChangesTheConfiguration := by
  intro c s t noStart h
  by_cases counts : ∃ forward, c = .countEvent forward
  · obtain ⟨forward, rfl⟩ := counts
    obtain ⟨u, answered, _, loader, _⟩ := lasts_countEvent forward s
    cases answered.symm.trans h
    exact loader
  · obtain ⟨u, answered, kept⟩ := sound_exec s noStart (not_exists.1 counts)
    cases answered.symm.trans h
    exact kept.loader

/-! ## Outputs of a station at rest (R39, R60) -/

/-- What holds of every element of a list and of the default holds of each place. -/
theorem getD_of_forall_mem {α : Type} {p : α → Prop} {l : List α} {d : α} (members : ∀ a ∈ l, p a) (beyond : p d)
    (n : Nat) : p (l.getD n d) := by
  rw [List.getD_eq_getElem?_getD]
  cases found : l[n]? with
  | none => exact beyond
  | some a => exact members a (List.mem_of_getElem? found)

theorem nozzleValve_of_rest {s : State} (rest : s.AtRest) (n : Nat) : s.nozzleValve n = false := by
  obtain ⟨_, _, _, _, closed, _⟩ := rest
  have shut : s.oneShot n = none := getD_of_forall_mem closed rfl n
  unfold State.nozzleValve
  rw [shut]
  rfl

/-- A channel at rest has no pulse, and none of the period before that a phase offset below a whole period could carry on. -/
theorem heaterOutput_of_rest {s : State} {n : Nat} (rest : s.AtRest) (phase : (s.channelConfig n).phase ≤ 256) :
    s.heaterOutput n = false := by
  obtain ⟨_, _, _, _, _, channels, _⟩ := rest
  obtain ⟨_, _, _, pulse, runOn⟩ := getD_of_forall_mem channels (d := Channel.blank) ⟨rfl, rfl, rfl, rfl, rfl⟩ n
  rw [← Bool.not_eq_true, heaterOutput_iff rfl rfl]
  change (s.channel n).pulse = 0 at pulse
  change (s.channel n).runOn = 0 at runOn
  omega

/-! ## START_RESET and RESET_PIN_RELEASE (R184, R185) -/

/-- The state that START_RESET leaves: the reset values, with the uid, what the others pull, and the model's own fields kept. -/
def State.afterReset (pinHeld : Bool) (s : State) : State :=
  { State.reset with
    uid := s.uid, loader := ⟨if pinHeld then .pinHeld else .reading, [], none, false⟩
    control := ⟨.loading, .idle, .normal, 0, .armed, none, s.control.tripOthers, s.control.permitOthers,
      s.control.tripOthers, false⟩
    free := s.free, pending := s.pending }

theorem exec_startReset (pinHeld : Bool) (s : State) : exec (.startReset pinHeld) s = .next (s.afterReset pinHeld) := rfl

/-- The reset state is its own start reset, with the pin released. -/
theorem afterReset_reset : State.reset.afterReset false = State.reset := rfl

@[simp] theorem afterReset_joined (pinHeld : Bool) (s : State) : (s.afterReset pinHeld).joined = false := rfl

theorem atRest_afterReset (pinHeld : Bool) (s : State) : (s.afterReset pinHeld).AtRest :=
  atRest_reset pinHeld _ _ _ _ rfl rfl rfl

theorem exec_resetPinRelease (s : State) : exec .resetPinRelease s = .next (if s.loader.phase = .pinHeld then
    { s with loader := { s.loader with phase := .reading, buffer := [] } } else s) :=
  (apply_ite Host.Outcome.next _ _ _).symm

/-- Settles O7. -/
theorem startResetAndPinRelease : Obligations.StartResetAndPinRelease :=
  ⟨exec_startReset,
    fun s pinHeld => by rw [exec_resetPinRelease, if_pos pinHeld],
    fun s released => by rw [exec_resetPinRelease, if_neg released]⟩

/-- Settles O6: the state after START_RESET is at rest, which turns the blocks' outputs off, and a station that is not JOINED pulls
neither wire. -/
theorem startResetTurnsEveryOutputOff : Obligations.StartResetTurnsEveryOutputOff := by
  intro pinHeld s
  have rest := atRest_afterReset pinHeld s
  have heaters : ∀ n, (s.afterReset pinHeld).heaterOutput n = false :=
    fun n => heaterOutput_of_rest rest (Nat.zero_le _)
  have valves : ∀ n, (s.afterReset pinHeld).nozzleValve n = false := nozzleValve_of_rest rest
  obtain ⟨_, _, _, _, _, _, _, _, main, chip, feeding, request, _⟩ := rest
  have permit : (s.afterReset pinHeld).permitAsserted = false := by simp [State.permitAsserted]
  have trip : (s.afterReset pinHeld).tripPull = false := by simp [State.tripPull]
  exact ⟨_, exec_startReset pinHeld s, rfl, heaters, valves, congrArg Pump.speed main,
    congrArg Pump.speed chip, feeding, request, rfl, permit, trip, rfl, rfl, rfl, rfl, rfl⟩

/-! ## The invariants after a reset (R3, R58, R64, R67, R141, R144, R165) -/

theorem txFits_afterReset (pinHeld : Bool) (s : State) : (s.afterReset pinHeld).TxFits := Nat.zero_le 16

theorem derived_afterReset (pinHeld : Bool) (s : State) : (s.afterReset pinHeld).Derived :=
  (derived_offline (afterReset_joined pinHeld s)).2 ⟨rfl, rfl⟩

theorem offLine_afterReset (pinHeld : Bool) (s : State) : (s.afterReset pinHeld).OffLine :=
  fun _ => ⟨atRest_afterReset pinHeld s, rfl, fun _ sent => nomatch sent⟩

/-- Settles O60: the reset state is what START_RESET leaves of it, and is not JOINED. -/
theorem resetHasEveryInvariant : Obligations.ResetHasEveryInvariant := by
  unfold Obligations.ResetHasEveryInvariant
  rw [← afterReset_reset]
  exact ⟨txFits_afterReset _ _, derived_afterReset _ _, grantsFit_offline (afterReset_joined _ _), offLine_afterReset _ _,
    boardsOrdered_nil rfl, lendCovered_none rfl, sharesBalance_unseated rfl⟩

/-! ## IMAGE_READ_END (R185..R188) -/

/-- In LOADING, with the read under way, the image is accepted or refused. -/
theorem exec_imageReadEnd {image : List Byte} {s : State} (loading : s.control.station = .loading)
    (reading : s.loader.phase = .reading) : exec (.imageReadEnd image) s =
      .next (if imageAccepted (imageBytes image) = true then acceptImage (imageBytes image) s
        else refuseImage (imageBytes image) s) :=
  if_pos ⟨loading, reading⟩

/-- In any other state the end of a read is no event (log entry 22). -/
theorem exec_imageReadEnd_excluded {image : List Byte} {s : State}
    (excluded : s.control.station ≠ .loading ∨ s.loader.phase ≠ .reading) : exec (.imageReadEnd image) s = .next s :=
  if_neg fun ⟨loading, reading⟩ => excluded.elim (· loading) (· reading)

/-- A refused image leaves the bit rate usable where all but its fields was good (R187). -/
theorem refuseImage_rateGiven (bytes : List Byte) (s : State) : (refuseImage bytes s).loader.rateGiven = true ↔
    imageSound bytes = true ∧ 1 ≤ byteAt bytes 28 ∧ byteAt bytes 28 ≤ 3 := by
  show (imageSound bytes && rateGood bytes) = true ↔ _
  unfold rateGood
  simp only [Bool.and_eq_true, decide_eq_true_eq]

/-- A refused image changes the loader and the station state alone (R187). -/
theorem refuseImage_frame (bytes : List Byte) (s : State) :
    { refuseImage bytes s with loader := s.loader, control := s.control } = s := rfl

/-- Settles O8: the command's cases, then the checks and the layout, each by its own lemma. -/
theorem theImageIsAcceptedOrRefused : Obligations.TheImageIsAcceptedOrRefused := by
  refine ⟨fun image s loading reading => ⟨fun accepted => ?_, fun refused => ?_⟩,
    fun _ _ excluded => exec_imageReadEnd_excluded excluded, imageBytes_eq,
    fun l i => ⟨byteAt_eq l i, numbersAt_eq l i⟩, bitOf_eq, signed16_eq, crcBytes_eq, crcBits_eq, imageAccepted_iff,
    imageSound_iff, stationRanges_iff, processRanges_iff, alarmRanges_iff, rolesGood_iff, watchAt_isSome_iff,
    fun _ _ _ h => watchAt_fields h, parseImage_eq, zoneOf_eq, loadedEntries_eq⟩
  · rw [exec_imageReadEnd loading reading, if_pos accepted]
    rfl
  · rw [exec_imageReadEnd loading reading, if_neg (by rw [refused]; exact Bool.false_ne_true)]
    exact ⟨_, rfl, rfl, rfl, rfl, rfl, rfl, refuseImage_rateGiven _ s, refuseImage_frame _ s⟩

end Sys2Proof.Machine
end
